-- ==== Sys2Proof/Word.lean ====
section
/-! DEFINITION. The widths the manual's fields have. -/

namespace Sys2Proof

/-- One byte of the host port, of the line and of the image. -/
abbrev Byte := BitVec 8

/-- A 16-bit field: a tag number, a generation, a bid, a notice's subject or detail. -/
abbrev Word := BitVec 16

/-- A value of the station clock, 32 bits that wrap (R137). -/
abbrev Clock := BitVec 32

end Sys2Proof
end

