-- ==== Sys2Proof/Syntax.lean ====
section
/-! DEFINITION. The commands of the block, one constructor for each row of spec/opcode_table.json, and the
frames of the line (R6). -/

namespace Sys2Proof

/-- The five kinds of frame with their payload fields, the epoch first (R6, R8, R10 to R13). -/
inductive Frame where
  /-- VALUE: tag, generation, producer group number, member count and data (R8). -/
  | value (epoch : Byte) (tag gen : Word) (group count : Byte) (data : List Byte)
  /-- CLAIM: the listed tags (R10). -/
  | claim (epoch : Byte) (tags : List Word)
  /-- DEFEND: the listed tags (R11). -/
  | defend (epoch : Byte) (tags : List Word)
  /-- PRESENCE: the condition and the number of publication entries (R12). -/
  | presence (epoch condition count : Byte)
  /-- RESEND: the tag asked for (R13). -/
  | resend (epoch : Byte) (tag : Word)
deriving DecidableEq, Repr

/-- What a station has read at the end of a round's 16th bid bit: whether the start bit was dominant, and the bid (R76,
R77). -/
structure RoundRead where
  startDominant : Bool
  bid : Word
deriving DecidableEq, Repr

/-- The commands the block takes. A host command carries its operands and the CRC-8 byte as it was received
(R157, R172). A frame command carries the bid as read and the frame's fields (R6 to R13). -/
inductive Instr where
  /-- STATUS READ (R147). -/
  | statusRead (crc : Byte)
  /-- IMAGE WRITE of `data` at `offset` (R149). The count operand is the number of bytes of `data`. -/
  | imageWrite (offset : Word) (data : List Byte) (crc : Byte)
  /-- SEAL with an epoch (R152). -/
  | seal (epoch : Byte) (crc : Byte)
  /-- START (R140). -/
  | start (crc : Byte)
  /-- STOP (R143). -/
  | stop (crc : Byte)
  /-- RESET (R138). -/
  | reset (crc : Byte)
  /-- DRAFT WRITE of `data` into the draft of `tag` at `offset` (R21). -/
  | draftWrite (tag : Word) (offset : Byte) (data : List Byte) (crc : Byte)
  /-- COMMIT of one tag (R22, R23). -/
  | commit (tag : Word) (crc : Byte)
  /-- GROUP COMMIT of a producer group number (R26, R27). -/
  | groupCommit (number : Byte) (crc : Byte)
  /-- VALUE READ of one tag (R31, R102). -/
  | valueRead (tag : Word) (crc : Byte)
  /-- TAG STATUS READ of one tag (R32, R103). -/
  | tagStatusRead (tag : Word) (crc : Byte)
  /-- GROUP HOLD of a consumer group index (R120). -/
  | groupHold (index : Byte) (crc : Byte)
  /-- GROUP RELEASE of a consumer group index (R121). -/
  | groupRelease (index : Byte) (crc : Byte)
  /-- GROUP STATUS READ of a consumer group index (R124). -/
  | groupStatusRead (index : Byte) (crc : Byte)
  /-- ROSTER READ of a station number (R134). -/
  | rosterRead (number : Byte) (crc : Byte)
  /-- SEND QUEUE READ of a position (R70). -/
  | sendQueueRead (position : Byte) (crc : Byte)
  /-- NOTICE READ of up to `n` notices (R167). -/
  | noticeRead (n : Byte) (crc : Byte)
  /-- COUNTERS READ with a clear option (R169). -/
  | countersRead (clear : Byte) (crc : Byte)
  /-- A code that names no command, with its second byte (R157, R160). -/
  | unknownCommandCode (code : Byte) (crc : Byte)
  /-- The rise of chip select (R159). -/
  | chipSelectRise
  /-- The reset pin becomes active (R138). -/
  | resetPinAsserted
  /-- The reset pin is released (R138). -/
  | resetPinReleased
  /-- Power-up, to its completion (R138). -/
  | powerUp
  /-- The validation ends and passes (R155). -/
  | validationPassed
  /-- The validation ends and fails (R156). -/
  | validationFailed
  /-- One millisecond of the station clock (R137). -/
  | stationClockTick
  /-- The listen timer runs out (R141). -/
  | listenTimerExpiry
  /-- The claim window of the first attempt runs out (R41). -/
  | firstClaimWindowExpiry
  /-- The claim window of the second attempt runs out (R42). -/
  | secondClaimWindowExpiry
  /-- The period timer of the publication entry of `tag` runs out (R29). -/
  | periodTimerExpiry (tag : Word)
  /-- The presence timer runs out (R133). -/
  | presenceTimerExpiry
  /-- The freshness timer of the subscription entry of `tag` runs out (R99). -/
  | freshnessTimerExpiry (tag : Word)
  /-- The assembly timer of the consumer group of that index runs out (R118). -/
  | assemblyTimerExpiry (index : Nat)
  /-- The silence timer of the record of that station number runs out (R132). -/
  | silenceTimerExpiry (number : Nat)
  /-- The gap count first reaches 15 after a passing seal (R74). -/
  | synchronised
  /-- The busy count passes 1000 bit times (R87). -/
  | lineFaultDeclared
  /-- The gap count reaches 15 in FAULT (R88). -/
  | lineFaultCleared
  /-- A start bit, after `idleBits` recessive bit times since the last command about the line (R75). -/
  | roundOpen (idleBits : Nat)
  /-- A dominant bit of the start bit or the bid read back recessive, taken at the end run of its round
  (R77): the 16 bid bits as read, and the line levels between them and the end run (dominant is true). -/
  | bidReadbackMismatch (bid : Word) (levels : List Bool)
  /-- The end of the 16th bid bit: the start bit and the winning bid as read (R76, R77). -/
  | roundDecided (read : RoundRead)
  /-- The end bit of the station's own frame has been read back (R79, R80). -/
  | goodSendEnd
  /-- The bit of that index of the station's own body and end bit, stuff bits counted, reads back as the
  opposite of what was driven (R79, R80). -/
  | badSendEnd (bit : Nat)
  /-- The end run of a frame that fails a check of R83: the bid as read and the line levels after it
  (dominant is true), the end bit the last dominant one. -/
  | badFrameReceived (bid : Word) (levels : List Bool)
  /-- The end run of a whole frame whose CRC is good and whose form is not: its bid, kind byte and payload
  (R84). -/
  | malformedFrameReceived (bid : Word) (kind : Byte) (payload : List Byte)
  /-- A VALUE frame from another station (R8, R85). -/
  | valueFrameReceived (bid : Word) (epoch : Byte) (tag gen : Word) (group count : Byte) (data : List Byte)
  /-- A CLAIM frame from another station (R10, R46). -/
  | claimFrameReceived (bid : Word) (epoch : Byte) (tags : List Word)
  /-- A DEFEND frame from another station (R11, R46). -/
  | defendFrameReceived (bid : Word) (epoch : Byte) (tags : List Word)
  /-- A PRESENCE frame from another station (R12, R131). -/
  | presenceFrameReceived (bid : Word) (epoch condition count : Byte)
  /-- A RESEND frame from another station (R13, R30). -/
  | resendFrameReceived (bid : Word) (epoch : Byte) (tag : Word)
  /-- The fall of chip select (R157). -/
  | chipSelectFall
deriving DecidableEq, Repr

end Sys2Proof
end

