-- ==== Sys2Proof/Config.lean ====
section
/-! DEFINITION. The limits the manual fixes for every ADZ-2416, and the values left free. -/

namespace Sys2Proof.Config

/-- The notice queue holds at most 32 notices (R163). -/
def noticeRoom : Nat := 32

/-- At most eight RESEND entries wait at one time (R59). -/
def resendRoom : Nat := 8

/-- The largest age of a send queue entry (R56). -/
def maxAge : Nat := 63

/-- The transmit error count at which the station becomes MUTE (R81). -/
def readbackLimit : Nat := 8

/-- The largest value of a 16-bit count that stops (R33, R104, R125, R127, R163). -/
def count16 : Nat := 65535

/-- The largest value of a 32-bit count that stops (R33, R89). -/
def count32 : Nat := 4294967295

/-- The bytes of the image buffer, at offsets 0..1023 (R148). -/
def imageBytes : Nat := 1024

/-- The gap count stops at 15 (R72), where the line is synchronised or a fault clears (R74, R88). -/
def gapTop : Nat := 15

/-- The idle gap is complete from 10 recessive bit times on (R72). -/
def gapComplete : Nat := 10

/-- Five consecutive recessive bit times end a frame (R73) and return the busy count to 0 (R87). -/
def endRun : Nat := 5

/-- A line fault is declared when the busy count passes this many bit times (R87). -/
def busyLimit : Nat := 1000

/-- Station numbers run 1..62 (R1). -/
def lastStation : Nat := 62

/-- Free value: what data out shows at byte `i` of a transaction that is ignored to its end (R157 states no byte for it;
log 21). -/
opaque ignoredByte (i : Nat) : BitVec 8

/-- Free value: how many recessive bit times, 0..4 once taken modulo 5, end the line when a line fault is declared at a
clock value. The command carries no levels, and five would have returned the busy count to 0 (R87; log 22). -/
opaque faultGap (clock : BitVec 32) : Nat

end Sys2Proof.Config
end

