-- ==== Sys2Proof/Machine/Bits.lean ====
section
/-! DEFINITION. Bytes and their order (R170 to R173: most significant first), the three CRCs, and the bit
stuffing of the line (R73). -/

namespace Sys2Proof.Machine

/-- The bits of a bit vector, most significant first. -/
def msbBits {w : Nat} (x : BitVec w) : List Bool :=
  (List.range w).map x.getMsbD

/-- The high byte of a 16-bit field. -/
def hiByte (w : Word) : Byte := (w >>> 8).setWidth 8

/-- The low byte of a 16-bit field. -/
def loByte (w : Word) : Byte := w.setWidth 8

/-- A 16-bit field from its two bytes, most significant first. -/
def wordOfBytes (h l : Byte) : Word := h ++ l

/-- The two bytes of a 16-bit field, most significant first. -/
def wordBytes (w : Word) : List Byte := [hiByte w, loByte w]

/-- The four bytes of a 32-bit field, most significant first. -/
def longBytes (c : BitVec 32) : List Byte :=
  [(c >>> 24).setWidth 8, (c >>> 16).setWidth 8, (c >>> 8).setWidth 8, c.setWidth 8]

/-- The bits of a run of bytes, each byte most significant bit first. -/
def bitsOfBytes (bs : List Byte) : List Bool :=
  bs.flatMap msbBits

/-- A byte from eight bits, most significant first. -/
def byteOfBits (bits : List Bool) : Byte :=
  bits.foldl (fun acc b => (acc <<< 1) ||| (if b then 1 else 0)) 0

/-- The bytes of a run of bits; none when they are not a whole number of bytes (R83). -/
def bytesOfBits : List Bool → Option (List Byte)
  | [] => some []
  | b7 :: b6 :: b5 :: b4 :: b3 :: b2 :: b1 :: b0 :: rest =>
    (bytesOfBits rest).map (byteOfBits [b7, b6, b5, b4, b3, b2, b1, b0] :: ·)
  | _ => none

/-- The bytes the host port receives: one for every eight clocked bits, most significant bit first (R157); a byte of
which fewer than eight bits were clocked is dropped (R159). -/
def wholeBytes : List Bool → List Byte
  | b7 :: b6 :: b5 :: b4 :: b3 :: b2 :: b1 :: b0 :: rest =>
    byteOfBits [b7, b6, b5, b4, b3, b2, b1, b0] :: wholeBytes rest
  | _ => []

/-- One bit into a CRC register of the given polynomial, most significant end first. -/
def crcBit {w : Nat} (poly reg : BitVec w) (bit : Bool) : BitVec w :=
  if reg.msb == bit then reg <<< 1 else (reg <<< 1) ^^^ poly

/-- A run of bits into a CRC register. -/
def crcBits {w : Nat} (poly init : BitVec w) (bits : List Bool) : BitVec w :=
  bits.foldl (crcBit poly) init

/-- The CRC-8 of host transactions: polynomial 0x07, initial value 0 (R172). -/
def crc8 (bs : List Byte) : Byte :=
  crcBits 0x07#8 0#8 (bitsOfBytes bs)

/-- The CRC-16 of frames: polynomial 0x1021, initial value 0xFFFF (R170). -/
def crc16 (bs : List Byte) : Word :=
  crcBits 0x1021#16 0xFFFF#16 (bitsOfBytes bs)

/-- The CRC-32 of the image: polynomial 0x04C11DB7, initial value 0xFFFFFFFF, each byte least significant
bit first, the result reflected and complemented (R171). -/
def crc32 (bs : List Byte) : BitVec 32 :=
  ~~~ (crcBits 0x04C11DB7#32 0xFFFFFFFF#32 (bs.flatMap (fun b => (msbBits b).reverse))).reverse

/-- Body bits as the sender drives them: after every four consecutive recessive bits one dominant stuff
bit; `n` counts the recessive bits so far (R73). Dominant is true. -/
def stuff : Nat → List Bool → List Bool
  | _, [] => []
  | n, b :: bs =>
    if b then true :: stuff 0 bs
    else if n = 3 then false :: true :: stuff 0 bs
    else false :: stuff (n + 1) bs

/-- Body bits as the receiver takes them: the bit after four consecutive recessive bits is dropped
(R73). -/
def unstuff : Nat → List Bool → List Bool
  | _, [] => []
  | n, b :: bs =>
    if n = 4 then unstuff 0 bs
    else b :: unstuff (if b then 0 else n + 1) bs

/-- The body bits of the line levels between the bid and the end run: the last dominant level is the end
bit, the bits before it with the stuff bits dropped are the body (R73). -/
def bodyOfLevels (levels : List Bool) : List Bool :=
  unstuff 0 ((levels.reverse.dropWhile (fun b => !b)).tail.reverse)

/-- A count that stops at its largest value (R33, R89, R104, R125). -/
def satInc (top n : Nat) : Nat :=
  if n < top then n + 1 else n

/-- The outcome of comparing two generations (R5). -/
inductive GenOrder where
  | equal
  | newer
  | late
deriving DecidableEq, Repr

/-- A generation `g` against a reference `h`, by the distance modulo 65536 alone (R5). -/
def compareGen (g h : Word) : GenOrder :=
  let d := (g - h).toNat
  if d = 0 then .equal else if d ≤ 32768 then .newer else .late

/-- The generation a commit gives: one step on from the committed one, 0 from an absent one (R19). -/
def nextGen : Option Word → Word
  | none => 0
  | some g => g + 1

end Sys2Proof.Machine
end

