-- ==== Sys2Proof/Machine/Frames.lean ====
section
/-! DEFINITION. Bids (R7), the byte layout of frames (R170), the checks of a received frame (R83) and the
form check (R14). -/

namespace Sys2Proof.Machine

/-- The class part of a bid (R7). -/
def bidClass (bid : Word) : Nat := bid.toNat / 4096

/-- The age part of a bid (R7). -/
def bidAge (bid : Word) : Nat := bid.toNat / 64 % 64

/-- The source station of a bid (R7). -/
def bidSource (bid : Word) : Nat := bid.toNat % 64

/-- The bid of a class, an age and a station number (R7). -/
def makeBid (cls age station : Nat) : Word :=
  BitVec.ofNat 16 (cls * 4096 + age * 64 + station)

/-- The epoch a frame carries, the first field of every payload (R3). -/
def frameEpoch : Frame → Byte
  | .value e _ _ _ _ _ => e
  | .claim e _ => e
  | .defend e _ => e
  | .presence e _ _ => e
  | .resend e _ => e

/-- The kind byte (R170). -/
def frameKind : Frame → Byte
  | .value .. => 1
  | .claim .. => 2
  | .defend .. => 3
  | .presence .. => 4
  | .resend .. => 5

/-- The payload bytes, the epoch first (R170). -/
def framePayload : Frame → List Byte
  | .value e t g n c data => e :: wordBytes t ++ wordBytes g ++ [n, c] ++ data
  | .claim e tags => e :: BitVec.ofNat 8 tags.length :: tags.flatMap wordBytes
  | .defend e tags => e :: BitVec.ofNat 8 tags.length :: tags.flatMap wordBytes
  | .presence e c n => [e, c, n]
  | .resend e t => e :: wordBytes t

/-- The bytes the CRC-16 of a frame covers: bid, kind, payload length, payload (R170). -/
def crcInput (bid : Word) (kind : Byte) (payload : List Byte) : List Byte :=
  wordBytes bid ++ kind :: BitVec.ofNat 8 payload.length :: payload

/-- The body of a kind byte and a payload, its CRC-16 last (R170). -/
def bodyBytes (bid : Word) (kind : Byte) (payload : List Byte) : List Byte :=
  kind :: BitVec.ofNat 8 payload.length :: payload ++ wordBytes (crc16 (crcInput bid kind payload))

/-- The line levels of a whole frame after its bid: the stuffed body bits and the end bit (R73). -/
def payloadLevels (bid : Word) (kind : Byte) (payload : List Byte) : List Bool :=
  stuff 0 (bitsOfBytes (bodyBytes bid kind payload)) ++ [true]

/-- The line levels of a frame after its bid (R73). -/
def frameLevels (bid : Word) (f : Frame) : List Bool :=
  payloadLevels bid (frameKind f) (framePayload f)

/-- Tags from pairs of bytes; none when a byte is left over. -/
def tagsOfBytes : List Byte → Option (List Word)
  | [] => some []
  | h :: l :: rest => (tagsOfBytes rest).map (wordOfBytes h l :: ·)
  | [_] => none

/-- A counted tag list: the count must agree with the bytes that follow (R14, condition 3). -/
def countedTags (count : Byte) (rest : List Byte) : Option (List Word) :=
  match tagsOfBytes rest with
  | some tags => if tags.length = count.toNat then some tags else none
  | none => none

/-- The frame a kind byte and a payload spell; none when the kind is no kind or the length does not fit it
(R14, conditions 1 and 3; R170). -/
def parsePayload (kind : Byte) (payload : List Byte) : Option Frame :=
  match kind.toNat, payload with
  | 1, e :: t1 :: t0 :: g1 :: g0 :: n :: c :: data =>
    some (.value e (wordOfBytes t1 t0) (wordOfBytes g1 g0) n c data)
  | 2, e :: c :: rest => (countedTags c rest).map (.claim e)
  | 3, e :: c :: rest => (countedTags c rest).map (.defend e)
  | 4, [e, c, n] => some (.presence e c n)
  | 5, [e, t1, t0] => some (.resend e (wordOfBytes t1 t0))
  | _, _ => none

/-- The numbers 0 and 65535 are not tags (R2). -/
def validTag (t : Word) : Bool := t != 0 && t != 0xFFFF

/-- The group fields a receiver accepts together (R9). -/
def groupPair (number count : Byte) : Bool :=
  (number == 0 && count == 0) ||
    (1 ≤ number.toNat && number.toNat ≤ 8 && 2 ≤ count.toNat && count.toNat ≤ 8)

/-- Strictly ascending tags (R10). -/
def ascending : List Word → Bool
  | [] => true
  | [_] => true
  | a :: b :: rest => a.toNat < b.toNat && ascending (b :: rest)

/-- The form of a tag list: 1..32 valid tags, strictly ascending (R14, conditions 3 and 5). -/
def tagList (tags : List Word) : Bool :=
  1 ≤ tags.length && tags.length ≤ 32 && tags.all validTag && ascending tags

/-- The conditions of R14 on the fields of one kind: bid class, length, tags, group pair, presence. -/
def kindFits (bid : Word) : Frame → Bool
  | .value _ t _ n c data =>
    1 ≤ bidClass bid && bidClass bid ≤ 11 && 1 ≤ data.length && data.length ≤ 32 && validTag t &&
      groupPair n c
  | .claim _ tags => bidClass bid == 14 && tagList tags
  | .defend _ tags => bidClass bid == 15 && tagList tags
  | .presence _ c n =>
    1 ≤ bidClass bid && bidClass bid ≤ 15 && 1 ≤ c.toNat && c.toNat ≤ 3 && n.toNat ≤ 32
  | .resend _ t => bidClass bid == 13 && validTag t

/-- A frame with a good CRC is well formed (R14). -/
def wellFormed (bid : Word) (f : Frame) : Bool :=
  kindFits bid f && frameEpoch f != 0 && (1 ≤ bidSource bid && bidSource bid ≤ Config.lastStation)

/-- What the checks of R83 leave of a body. -/
inductive BodyCheck where
  /-- One of the checks of R83 fails. -/
  | bad
  /-- The body is whole and its CRC good: kind byte and payload. -/
  | whole (kind : Byte) (payload : List Byte)
deriving DecidableEq, Repr

/-- The checks of R83 on a body's bytes under the bid as read: at least four bytes, a payload length that
equals the bytes less four, a good CRC-16. -/
def checkBytes (bid : Word) : List Byte → BodyCheck
  | kind :: len :: rest =>
    let n := rest.length - 2
    let payload := rest.take n
    if rest.length < 2 then .bad
    else if len.toNat ≠ n then .bad
    else if wordBytes (crc16 (crcInput bid kind payload)) ≠ rest.drop n then .bad
    else .whole kind payload
  | _ => .bad

/-- The checks of R83 on a body's bits, in their order: not empty, whole bytes, then the bytes' checks. -/
def checkBody (bid : Word) (bits : List Bool) : BodyCheck :=
  match bits with
  | [] => .bad
  | b :: bs =>
    match bytesOfBits (b :: bs) with
    | none => .bad
    | some bytes => checkBytes bid bytes

end Sys2Proof.Machine
end

