-- ==== Sys2Proof/Machine/State.lean ====
section
/-! DEFINITION. The state of the station, block by block (00_scope, "Blocks and how they work together"), as
plain data, and the state after reset. -/

namespace Sys2Proof.Machine

/-- The image buffer's contents: (offset, byte) pairs, offsets strictly rising, no byte 0 listed. An
unlisted offset reads as 0, the value of every byte after a reset (R148). -/
abbrev Memory := List Host.Cell

/-- The eight station states (R137 to R145). -/
inductive StationState where
  | unconfigured
  | validating
  | halted
  | listen
  | announce
  | active
  | leaving
  | mute
deriving DecidableEq, Repr

/-- The claim states of a publication entry (R37). -/
inductive ClaimState where
  | unclaimed
  | claiming
  | owned
  | yielded
deriving DecidableEq, Repr

/-- The states of a subscription entry (R91). -/
inductive SubState where
  | unheard
  | fresh
  | stale
deriving DecidableEq, Repr

/-- The states of a roster record (R127). -/
inductive PeerState where
  | absent
  | present
  | silent
  | self
deriving DecidableEq, Repr

/-- The condition a PRESENCE states (R12). -/
inductive Condition where
  | announcing
  | active
  | leaving
deriving DecidableEq, Repr

/-- The claim phases (R38). -/
inductive ClaimPhase where
  | none
  | send1
  | window1
  | send2
  | window2
deriving DecidableEq, Repr

/-- The line states (R72). -/
inductive LineState where
  | idle
  | round
  | sending
  | receiving
  | fault
deriving DecidableEq, Repr

/-- The twenty kinds of notice (R164). -/
inductive NoticeKind where
  | tagUpdated
  | tagStale
  | tagFresh
  | producerChanged
  | valueRejected
  | groupUpdated
  | groupTorn
  | groupMismatch
  | claimWon
  | claimLost
  | ownershipLost
  | peerJoined
  | peerSilent
  | peerRestarted
  | peerLeft
  | periodMissed
  | stationState
  | lineState
  | noticesLost
  | sealResult
deriving DecidableEq, Repr

/-- The status codes of a response (R161). -/
inductive Status where
  | ok
  | busy
  | state
  | unknown
  | range
  | grouped
  | notOwned
  | flipPending
  | held
  | notHeld
  | check
  | command
deriving DecidableEq, Repr

/-- What stands for a transaction in progress (R157 to R159): chip select is high in `idle` alone. -/
inductive PortPhase where
  /-- No transaction: chip select is high. -/
  | idle
  /-- Bytes are read as a command. -/
  | receiving
  /-- The command was taken: every further byte is ignored. -/
  | answered
  /-- Chip select was low when the station left reset: ignored to its end (R157). -/
  | ignored
deriving DecidableEq, Repr

/-- SC, Station Control. -/
structure StationControl where
  state : StationState
  resetPin : Bool
  image : Memory
  pendingEpoch : Option Byte
  epoch : Option Byte
  ownNumber : Option Nat
  clock : Clock
  listenTimer : Option Nat
  presenceTimer : Option Nat
  presenceInterval : Nat
  silenceLimit : Nat
deriving DecidableEq, Repr

/-- One buffer of a publication entry: its data and its generation (R18). -/
structure Buffer where
  data : List Byte
  gen : Option Word
deriving DecidableEq, Repr

/-- The two buffers of a publication entry (R18). -/
inductive Side where
  | a
  | b
deriving DecidableEq, Repr

/-- A publication entry (R17) with its claim state (R37). -/
structure PubEntry where
  tag : Word
  cls : Nat
  len : Nat
  period : Nat
  group : Option Nat
  bufA : Buffer
  bufB : Buffer
  live : Side
  committed : Option Word
  flipPending : Bool
  periodTimer : Option Nat
  sent : Nat
  missed : Nat
  resendServed : Nat
  claim : ClaimState
deriving DecidableEq, Repr

/-- CU, the Claim Unit (R38). -/
structure ClaimUnit where
  phase : ClaimPhase
  claimSet : List Word
  claimFlight : List Word
  defendSet : List Word
  defendFlight : List Word
  windowTimer : Option Nat
  window : Nat
deriving DecidableEq, Repr

/-- What a send queue entry is about: its kind and its subject (R56, R58). -/
inductive Subject where
  | value (tag : Word)
  | claim
  | defend
  | presence
  | resend (tag : Word)
deriving DecidableEq, Repr

/-- A send queue entry (R56). -/
structure QueueEntry where
  subject : Subject
  cls : Nat
  age : Nat
  join : Nat
  inFlight : Bool
  renew : Bool
deriving DecidableEq, Repr

/-- SQ, the Send Queue: its entries in queue order (R60), and the next join position. -/
structure SendQueue where
  entries : List QueueEntry
  nextJoin : Nat
deriving DecidableEq, Repr

/-- A round the station contends in: the candidate and the noted set, by join position, and the bid
(R61). -/
structure Round where
  candidate : Nat
  noted : List Nat
  bid : Word
deriving DecidableEq, Repr

/-- The frame the station sends: its entry, or none for a filler PRESENCE; the bid on the line; the content
fixed at send start (R78). -/
structure Sending where
  entry : Option Subject
  bid : Word
  frame : Frame
deriving DecidableEq, Repr

/-- The seven line counters (R89). -/
structure LineCounters where
  receivedGood : Nat
  receivedBad : Nat
  malformed : Nat
  roundsEntered : Nat
  roundsWon : Nat
  readbackErrors : Nat
  resendDropped : Nat
deriving DecidableEq, Repr

/-- LA, Line Access (R72). -/
structure LineAccess where
  watching : Bool
  rate : Nat
  lineState : LineState
  gap : Nat
  busy : Nat
  synced : Bool
  round : Option Round
  heardBid : Option Word
  sending : Option Sending
  ownBroken : Bool
  bidMismatch : Bool
  txErrors : Nat
  counters : LineCounters
deriving DecidableEq, Repr

/-- A subscription entry (R90). The three buffers are named by the roles they hold (R108). -/
structure SubEntry where
  tag : Word
  len : Nat
  freshLimit : Nat
  group : Option Nat
  resendOnStale : Bool
  state : SubState
  producer : Option Nat
  filter : Option Word
  shownGen : Option Word
  shown : List Byte
  ready : List Byte
  landing : List Byte
  freshTimer : Option Nat
  lastAccepted : Option Clock
  late : Nat
  reject : Nat
deriving DecidableEq, Repr

/-- An assembly in progress (R106). `arrived` holds one flag for each member, in position order. -/
structure Assembly where
  gen : Word
  producer : Nat
  epoch : Byte
  arrived : List Bool
  resendDone : Bool
  timer : Nat
deriving DecidableEq, Repr

/-- A consumer group record (R106). -/
structure GroupRecord where
  index : Nat
  expected : Nat
  limit : Nat
  resendOnTimeout : Bool
  assembly : Option Assembly
  completed : Option Word
  shownGen : Option Word
  held : Bool
  ready : Option Word
  skipped : Nat
  torn : Nat
deriving DecidableEq, Repr

/-- A roster record (R127). -/
structure Peer where
  number : Nat
  state : PeerState
  epoch : Option Byte
  condition : Option Condition
  publications : Option Nat
  lastHeard : Option Clock
  framesHeard : Nat
  silenceTimer : Option Nat
deriving DecidableEq, Repr

/-- A notice (R163). -/
structure Notice where
  kind : NoticeKind
  subject : Word
  detail : Word
  time : Clock
deriving DecidableEq, Repr

/-- NQ, the Notice Queue (R163). -/
structure NoticeQueue where
  notices : List Notice
  lost : Nat
  mask : Word
deriving DecidableEq, Repr

/-- HP, the Host Port (R157, R158). -/
structure HostPort where
  phase : PortPhase
  received : List Byte
  crc : Byte
  response : List Byte
  resetPending : Bool
deriving DecidableEq, Repr

/-- The station, and the commands that wait. -/
structure State where
  sc : StationControl
  pt : List PubEntry
  cu : ClaimUnit
  sq : SendQueue
  la : LineAccess
  st : List SubEntry
  ga : List GroupRecord
  ro : List Peer
  nq : NoticeQueue
  hp : HostPort
  pending : List Instr
deriving DecidableEq, Repr

/-- No command of this block faults: the manual gives every command its effect or a status, so there is no
reason to list. -/
inductive Fault where
deriving DecidableEq, Repr

/-- Why a command has no meaning. -/
inductive Refusal where
  /-- Raised by `exec` alone, for a command whose meaning is not written. Safe: the run stops. No arm of this
  model raises it. -/
  | notModelled (mnemonic : String)
deriving DecidableEq, Repr

/-- The outcome of a command. -/
abbrev Out := Host.Outcome State Fault Refusal

/-- A roster record after reset (R127). -/
def resetPeer (n : Nat) : Peer :=
  { number := n, state := .absent, epoch := none, condition := none, publications := none
    lastHeard := none, framesHeard := 0, silenceTimer := none }

/-- The line counters after reset (R89). -/
def resetCounters : LineCounters :=
  { receivedGood := 0, receivedBad := 0, malformed := 0, roundsEntered := 0, roundsWon := 0
    readbackErrors := 0, resendDropped := 0 }

/-- The station right after a reset (R138): UNCONFIGURED, clock 0, every block at the values its chapter
gives. The settings before the first seal are 0 (DESIGN CHOICE, log 2), the pins at rest (DESIGN CHOICE,
log 3). -/
def State.reset : State :=
  { sc :=
      { state := .unconfigured, resetPin := false, image := [], pendingEpoch := none, epoch := none
        ownNumber := none, clock := 0, listenTimer := none, presenceTimer := none
        presenceInterval := 0, silenceLimit := 0 }
    pt := []
    cu :=
      { phase := .none, claimSet := [], claimFlight := [], defendSet := [], defendFlight := []
        windowTimer := none, window := 0 }
    sq := { entries := [], nextJoin := 0 }
    la :=
      { watching := false, rate := 0, lineState := .idle, gap := 0, busy := 0, synced := false
        round := none, heardBid := none, sending := none, ownBroken := false, bidMismatch := false
        txErrors := 0, counters := resetCounters }
    st := []
    ga := []
    ro := (List.range Config.lastStation).map (fun i => resetPeer (i + 1))
    nq := { notices := [], lost := 0, mask := 0 }
    hp := { phase := .idle, received := [], crc := 0, response := [], resetPending := false }
    pending := [] }

end Sys2Proof.Machine
end

