-- ==== Sys2Proof/Machine/Ops.lean ====
section
/-! DEFINITION. The operations the blocks share: keyed tables, the image memory, timers, and the lookups by
tag, group index and station number. -/

namespace Sys2Proof.Machine

/-- The record of a table with a given key. -/
def lookupKey {α κ : Type} [DecidableEq κ] (key : α → κ) (k : κ) (l : List α) : Option α :=
  l.find? (fun a => decide (key a = k))

/-- A table with the record of a given key changed. -/
def updateKey {α κ : Type} [DecidableEq κ] (key : α → κ) (k : κ) (f : α → α) (l : List α) : List α :=
  l.map (fun a => if key a = k then f a else a)

/-! The image memory (R148, R149). -/

/-- The offsets of a memory, strictly rising from `from_` on, with no byte 0 listed. -/
def memSorted : Nat → Memory → Bool
  | _, [] => true
  | low, (a, b) :: rest => low ≤ a && b != 0 && memSorted (a + 1) rest

/-- The canonical form of the image memory: offsets strictly rising and inside the buffer, no byte 0
listed (R148: 1024 bytes, every one 0 after a reset). -/
def Memory.wf (m : Memory) : Bool :=
  memSorted 0 m && m.all (fun c => c.1 < Config.imageBytes)

/-- The byte at an offset; an unlisted one is 0 (R148). -/
def memRead (m : Memory) (a : Nat) : Byte :=
  match m.find? (fun c => c.1 = a) with
  | some c => c.2
  | none => 0

/-- A byte written at an offset, in the canonical form: a byte 0 is not listed. -/
def memWrite : Memory → Nat → Byte → Memory
  | [], a, b => if b = 0 then [] else [(a, b)]
  | (x, y) :: rest, a, b =>
    if a < x then (if b = 0 then (x, y) :: rest else (a, b) :: (x, y) :: rest)
    else if a = x then (if b = 0 then rest else (x, b) :: rest)
    else (x, y) :: memWrite rest a b

/-- A run of bytes written from an offset on (R149). -/
def memWriteRun : Memory → Nat → List Byte → Memory
  | m, _, [] => m
  | m, a, b :: bs => memWriteRun (memWrite m a b) (a + 1) bs

/-! Timers (R137): stopped, or running with the milliseconds left. -/

/-- One millisecond less; a timer with none left waits for its expiry (DESIGN CHOICE, log 7). -/
def tickTimer (t : Option Nat) : Option Nat :=
  t.map (fun n => n - 1)

/-- A running timer has run out. -/
def timerDue (t : Option Nat) : Bool :=
  t == some 0

/-- A timer started at a length, or no timer for a length of 0 (R28, R98). -/
def startTimer (length : Nat) : Option Nat :=
  if length = 0 then none else some length

/-! Lookups and updates by key. -/

/-- The publication entry of a tag. -/
def State.pub (s : State) (t : Word) : Option PubEntry :=
  lookupKey PubEntry.tag t s.pt

/-- The publication entry of a tag, changed. -/
def State.setPub (s : State) (t : Word) (f : PubEntry → PubEntry) : State :=
  { s with pt := updateKey PubEntry.tag t f s.pt }

/-- The subscription entry of a tag. -/
def State.sub (s : State) (t : Word) : Option SubEntry :=
  lookupKey SubEntry.tag t s.st

/-- The subscription entry of a tag, changed. -/
def State.setSub (s : State) (t : Word) (f : SubEntry → SubEntry) : State :=
  { s with st := updateKey SubEntry.tag t f s.st }

/-- The consumer group record of an index. -/
def State.grp (s : State) (k : Nat) : Option GroupRecord :=
  lookupKey GroupRecord.index k s.ga

/-- The consumer group record of an index, changed. -/
def State.setGrp (s : State) (k : Nat) (f : GroupRecord → GroupRecord) : State :=
  { s with ga := updateKey GroupRecord.index k f s.ga }

/-- The roster record of a station number. -/
def State.peer (s : State) (n : Nat) : Option Peer :=
  lookupKey Peer.number n s.ro

/-- The roster record of a station number, changed. -/
def State.setPeer (s : State) (n : Nat) (f : Peer → Peer) : State :=
  { s with ro := updateKey Peer.number n f s.ro }

/-- The subscription entries of a consumer group, in configuration order (R107). -/
def State.members (s : State) (k : Nat) : List SubEntry :=
  s.st.filter (fun e => e.group = some k)

/-- Every member of a consumer group changed (R108). -/
def State.setMembers (s : State) (k : Nat) (f : SubEntry → SubEntry) : State :=
  { s with st := s.st.map (fun e => if e.group = some k then f e else e) }

/-- The publication entries of a producer group, in table order. -/
def State.producerMembers (s : State) (n : Nat) : List PubEntry :=
  s.pt.filter (fun e => e.group = some n)

/-- The own epoch in the frames the station sends (R3); 0 stands in while it is absent, where no frame is
sent (R1). -/
def State.ownEpoch (s : State) : Byte := s.sc.epoch.getD 0

/-- The own number in the bids the station sends (R7); 0 stands in while it is absent, where no frame is
sent (R1). -/
def State.own (s : State) : Nat := s.sc.ownNumber.getD 0

/-- A line counter changed (R89). -/
def State.count (s : State) (f : LineCounters → LineCounters) : State :=
  { s with la := { s.la with counters := f s.la.counters } }

end Sys2Proof.Machine
end

