-- ==== Sys2Proof/Machine/Operands.lean ====
section
/-! DEFINITION. The codes of host commands (R172) and of everything a response or a notice names (R161, R164,
R173), and the forms of result fields (R173). -/

namespace Sys2Proof.Machine

/-- The eighteen host commands (R172). -/
inductive Command where
  | statusRead
  | imageWrite
  | seal
  | start
  | stop
  | reset
  | draftWrite
  | commit
  | groupCommit
  | valueRead
  | tagStatusRead
  | groupHold
  | groupRelease
  | groupStatusRead
  | rosterRead
  | sendQueueRead
  | noticeRead
  | countersRead
deriving DecidableEq, Repr

/-- The code byte of a command (R172). -/
def commandCode : Command → Byte
  | .statusRead => 0x01
  | .imageWrite => 0x02
  | .seal => 0x03
  | .start => 0x04
  | .stop => 0x05
  | .reset => 0x06
  | .draftWrite => 0x10
  | .commit => 0x11
  | .groupCommit => 0x12
  | .valueRead => 0x18
  | .tagStatusRead => 0x19
  | .groupHold => 0x20
  | .groupRelease => 0x21
  | .groupStatusRead => 0x22
  | .rosterRead => 0x28
  | .sendQueueRead => 0x29
  | .noticeRead => 0x30
  | .countersRead => 0x31

/-- Every command, in the order of R172. -/
def allCommands : List Command :=
  [.statusRead, .imageWrite, .seal, .start, .stop, .reset, .draftWrite, .commit, .groupCommit, .valueRead,
    .tagStatusRead, .groupHold, .groupRelease, .groupStatusRead, .rosterRead, .sendQueueRead, .noticeRead,
    .countersRead]

/-- Whether a code byte names a command (R172). -/
def namesCommand (code : Byte) : Bool :=
  allCommands.any (fun c => commandCode c == code)

/-- The command a code byte names (R172). -/
def commandNamed (code : Byte) : Option Command :=
  allCommands.find? (fun c => commandCode c == code)

/-- The data bytes of a counted command and the CRC-8 byte after them; none while they are incomplete (R157). -/
def countedData (count : Byte) (rest : List Byte) : Option (List Byte × Byte) :=
  match rest.drop count.toNat with
  | crc :: _ => some (rest.take count.toNat, crc)
  | [] => none

/-- The command that a code and the bytes after it spell, its operands in the order of R172 and its CRC-8 byte after
them; none while it is incomplete. Bytes after the CRC-8 are not read (R157). -/
def spelled (c : Command) (bytes : List Byte) : Option Instr :=
  match c, bytes with
  | .statusRead, crc :: _ => some (.statusRead crc)
  | .imageWrite, h :: l :: n :: rest =>
    (countedData n rest).map (fun d => .imageWrite (wordOfBytes h l) d.1 d.2)
  | .seal, epoch :: crc :: _ => some (.seal epoch crc)
  | .start, crc :: _ => some (.start crc)
  | .stop, crc :: _ => some (.stop crc)
  | .reset, crc :: _ => some (.reset crc)
  | .draftWrite, h :: l :: o :: n :: rest =>
    (countedData n rest).map (fun d => .draftWrite (wordOfBytes h l) o d.1 d.2)
  | .commit, h :: l :: crc :: _ => some (.commit (wordOfBytes h l) crc)
  | .groupCommit, n :: crc :: _ => some (.groupCommit n crc)
  | .valueRead, h :: l :: crc :: _ => some (.valueRead (wordOfBytes h l) crc)
  | .tagStatusRead, h :: l :: crc :: _ => some (.tagStatusRead (wordOfBytes h l) crc)
  | .groupHold, k :: crc :: _ => some (.groupHold k crc)
  | .groupRelease, k :: crc :: _ => some (.groupRelease k crc)
  | .groupStatusRead, k :: crc :: _ => some (.groupStatusRead k crc)
  | .rosterRead, n :: crc :: _ => some (.rosterRead n crc)
  | .sendQueueRead, p :: crc :: _ => some (.sendQueueRead p crc)
  | .noticeRead, n :: crc :: _ => some (.noticeRead n crc)
  | .countersRead, o :: crc :: _ => some (.countersRead o crc)
  | _, _ => none

/-- The command that the bytes of a transaction spell: the code byte picks it, and a code that names none is complete
at its second byte (R157, R172). None while no command is complete: nothing is taken (R159). -/
def commandOf : List Byte → Option Instr
  | code :: rest =>
    match commandNamed code with
    | some c => spelled c rest
    | none => rest.head?.map (.unknownCommandCode code)
  | [] => none

/-- The commands of one transaction of the host from the bits clocked on data in: chip select falls, the whole bytes
among them spell at most one command, chip select rises (R157). An incomplete CRC-8 byte leaves no command (R159). -/
def transaction (bits : List Bool) : List Instr :=
  .chipSelectFall :: (commandOf (wholeBytes bits)).toList ++ [.chipSelectRise]

/-- The gating of a command by the station state: the status of its refusal, or none where it is taken
(R162). -/
def gate (c : Command) (st : StationState) : Option Status :=
  match c, st with
  | .statusRead, _ => none
  | .reset, _ => none
  | _, .validating => some .busy
  | .imageWrite, .unconfigured => none
  | .imageWrite, _ => some .state
  | .seal, .unconfigured => none
  | .seal, _ => some .state
  | .start, .halted => none
  | .start, _ => some .state
  | .stop, .listen => none
  | .stop, .announce => none
  | .stop, .active => none
  | .stop, _ => some .state
  | .noticeRead, _ => none
  | _, .unconfigured => some .state
  | _, _ => none

/-- The status byte (R161). -/
def statusCode : Status → Byte
  | .ok => 0
  | .busy => 1
  | .state => 2
  | .unknown => 3
  | .range => 4
  | .grouped => 5
  | .notOwned => 6
  | .flipPending => 7
  | .held => 8
  | .notHeld => 9
  | .check => 10
  | .command => 11

/-- The code of a station state (09, first table). -/
def stationCode : StationState → Nat
  | .unconfigured => 0
  | .validating => 1
  | .halted => 2
  | .listen => 3
  | .announce => 4
  | .active => 5
  | .leaving => 6
  | .mute => 7

/-- The code of a claim state (R173). -/
def claimCode : ClaimState → Nat
  | .unclaimed => 0
  | .claiming => 1
  | .owned => 2
  | .yielded => 3

/-- The code of a subscription state (R173). -/
def subCode : SubState → Nat
  | .unheard => 0
  | .fresh => 1
  | .stale => 2

/-- The code of a roster state (R173). -/
def peerCode : PeerState → Nat
  | .absent => 0
  | .present => 1
  | .silent => 2
  | .self => 3

/-- The code of a condition (R12). -/
def conditionCode : Condition → Nat
  | .announcing => 1
  | .active => 2
  | .leaving => 3

/-- The condition a code names (R12). -/
def conditionOf (c : Byte) : Option Condition :=
  match c.toNat with
  | 1 => some .announcing
  | 2 => some .active
  | 3 => some .leaving
  | _ => none

/-- The code of a notice kind (R164). -/
def noticeCode : NoticeKind → Nat
  | .tagUpdated => 1
  | .tagStale => 2
  | .tagFresh => 3
  | .producerChanged => 4
  | .valueRejected => 5
  | .groupUpdated => 6
  | .groupTorn => 7
  | .groupMismatch => 8
  | .claimWon => 9
  | .claimLost => 10
  | .ownershipLost => 11
  | .peerJoined => 12
  | .peerSilent => 13
  | .peerRestarted => 14
  | .peerLeft => 15
  | .periodMissed => 16
  | .stationState => 17
  | .lineState => 18
  | .noticesLost => 19
  | .sealResult => 20

/-- The kind code of a queue entry (R173: frame kinds as in frames). -/
def subjectCode : Subject → Nat
  | .value _ => 1
  | .claim => 2
  | .defend => 3
  | .presence => 4
  | .resend _ => 5

/-- A one-byte result field. -/
def field1 (n : Nat) : List Byte := [BitVec.ofNat 8 n]

/-- A two-byte result field. -/
def field2 (n : Nat) : List Byte := wordBytes (BitVec.ofNat 16 n)

/-- A four-byte result field. -/
def field4 (n : Nat) : List Byte := longBytes (BitVec.ofNat 32 n)

/-- A mark or flag: 0 clear, 1 set. -/
def flagByte (b : Bool) : List Byte := [if b then 1 else 0]

/-- A one-byte field that may be absent: presence byte, then the field, 0 when absent (R173). -/
def opt1 : Option Nat → List Byte
  | none => 0 :: field1 0
  | some n => 1 :: field1 n

/-- A two-byte field that may be absent (R173). -/
def opt2 : Option Nat → List Byte
  | none => 0 :: field2 0
  | some n => 1 :: field2 n

/-- A four-byte field that may be absent (R173). -/
def opt4 : Option Nat → List Byte
  | none => 0 :: field4 0
  | some n => 1 :: field4 n

/-- A generation that may be absent (R173). -/
def optGen (g : Option Word) : List Byte := opt2 (g.map BitVec.toNat)

/-- A notice record of nine bytes (R173). -/
def noticeRecord (n : Notice) : List Byte :=
  field1 (noticeCode n.kind) ++ wordBytes n.subject ++ wordBytes n.detail ++ longBytes n.time

/-- A response: the status byte, the results and a CRC-8 over both (R158). -/
def responseBytes (st : Status) (results : List Byte) : List Byte :=
  statusCode st :: results ++ [crc8 (statusCode st :: results)]

end Sys2Proof.Machine
end

