-- ==== Sys2Proof/Machine/Flags.lean ====
section
/-! DEFINITION. The flags and host-side output pins that follow from the state (R87, R147, R157, R158, R165, R168,
R173), and the gap and busy counts over line levels (R74, R87). The line-side pins are in Machine/Pins.lean. -/

namespace Sys2Proof.Machine

/-- The attention output is asserted, low, while the notice queue holds a notice (R168). -/
def State.attention (s : State) : Bool := !s.nq.notices.isEmpty

/-- The line fault flag is set while LA is in FAULT (R147). -/
def State.lineFault (s : State) : Bool := s.la.lineState = .fault

/-- The flags byte of STATUS READ: bit 0 line fault, bit 1 attention (R173). Bits 2..7 are 0 (DESIGN CHOICE, log 24: the
spec gives the two bits alone). -/
def State.statusFlags (s : State) : Nat :=
  (if s.lineFault then 1 else 0) + (if s.attention then 2 else 0)

/-- SDO is high impedance while chip select is high and while the reset pin is active (pin table). -/
def State.sdoReleased (s : State) : Bool := s.hp.phase = .idle || s.sc.resetPin

/-- The byte data out shows while byte `i` of a transaction is clocked, from 0; none while SDO is released. 0 while a
command is received, in the gap byte and after the response (R157, R158); a free value in an ignored transaction
(log 21). -/
def State.dataOut (i : Nat) (s : State) : Option Byte :=
  if s.sdoReleased then none
  else
    match s.hp.phase with
    | .ignored => some (Config.ignoredByte i)
    | .answered => some (if i ≤ s.hp.received.length then 0 else s.hp.response.getD (i - s.hp.received.length - 1) 0)
    | _ => some 0

/-- The level of data out at one clock of a transaction, from 0: the bits of its bytes, most significant first (R157,
spec/12_formats_and_pins.md); none while SDO is released. -/
def State.dataOutBit (clock : Nat) (s : State) : Option Bool :=
  (s.dataOut (clock / 8)).map (fun b => b.getMsbD (clock % 8))

/-- The admit flag of a notice kind in the mask; the kinds 17..20 have none and are always admitted
(R165, R171). -/
def admits (mask : Word) (k : NoticeKind) : Bool :=
  16 < noticeCode k || mask.getLsbD (noticeCode k - 1)

/-- The gap count and the busy count after one more bit time; dominant is true (R74, R87). -/
def hearBit (counts : Nat × Nat) (dominant : Bool) : Nat × Nat :=
  if dominant then (0, counts.2 + 1)
  else
    let g := min Config.gapTop (counts.1 + 1)
    (g, if Config.endRun ≤ g then 0 else counts.2 + 1)

/-- The busy count stays within its limit over a run of line levels (R87). -/
def withinBusy : Nat × Nat → List Bool → Bool
  | c, [] => c.2 ≤ Config.busyLimit
  | c, b :: bs => c.2 ≤ Config.busyLimit && withinBusy (hearBit c b) bs

/-- The gap and busy counts at the end of a bid whose start bit ended an idle line (R74, R87). -/
def bidCounts (bid : Word) : Nat × Nat := (true :: msbBits bid).foldl hearBit (0, 0)

/-- The gap and busy counts at the end of a bid whose own start bit was read back recessive: the complete gap has gone
on through it, and the busy count has stood at 0 (R75, R77). No start of a frame leaves lower counts. -/
def missedCounts (bid : Word) : Nat × Nat := (false :: msbBits bid).foldl hearBit (Config.gapComplete, 0)

/-- A frame ends before a line fault is declared: from the counts at the end of its bid, its line levels and the end run
after them stay within the limit of the busy count, which the last bit of the end run returns to 0 (R73, R87). -/
def endsInTime (counts : Nat × Nat) (levels : List Bool) : Bool :=
  withinBusy counts (levels ++ List.replicate Config.endRun false)

/-- LA after it has read a run of line levels: its gap and busy counts. -/
def hearLine (levels : List Bool) (la : LineAccess) : LineAccess :=
  let c := levels.foldl hearBit (la.gap, la.busy)
  { la with gap := c.1, busy := c.2 }

/-- The state in which SQ takes requests (R57). -/
def State.takesRequests (s : State) : Bool :=
  s.sc.state = .announce || s.sc.state = .active

/-- The station states in which the station contends (R75). -/
def State.mayContend (s : State) : Bool :=
  s.sc.state = .announce || s.sc.state = .active || s.sc.state = .leaving

end Sys2Proof.Machine
end

