-- ==== Sys2Proof/Machine/Notices.lean ====
section
/-! DEFINITION. The Notice Queue: creating notices (R165, R166) and draining them (R167). -/

namespace Sys2Proof.Machine

/-- The two coalescing kinds (R166). -/
def coalesces : NoticeKind → Bool
  | .tagUpdated => true
  | .groupUpdated => true
  | _ => false

/-- An admitted notice reaches the queue: it coalesces, is appended, or is dropped and counted (R166). -/
def postNotice (clock : Clock) (k : NoticeKind) (subject detail : Word) (q : NoticeQueue) : NoticeQueue :=
  if coalesces k && q.notices.any (fun n => n.kind = k && n.subject = subject) then
    { q with
      notices :=
        q.notices.map (fun n => if n.kind = k ∧ n.subject = subject then { n with detail := detail } else n) }
  else if q.notices.length < Config.noticeRoom then
    { q with notices := q.notices ++ [{ kind := k, subject := subject, detail := detail, time := clock }] }
  else { q with lost := satInc Config.count16 q.lost }

/-- A block emits a notice: it is created when the mask admits its kind (R165). -/
def State.emit (k : NoticeKind) (subject detail : Word) (s : State) : State :=
  if admits s.nq.mask k then { s with nq := postNotice s.sc.clock k subject detail s.nq } else s

/-- STATION_STATE for a new station state, with the code of its cause (R146). -/
def State.emitStation (cause : Nat) (s : State) : State :=
  s.emit .stationState (BitVec.ofNat 16 (stationCode s.sc.state)) (BitVec.ofNat 16 cause)

/-- The queue after a read of up to `n` notices: they leave the head, and NOTICES_LOST is appended when a
place was freed and notices were lost (R167). -/
def drainNotices (clock : Clock) (n : Nat) (q : NoticeQueue) : NoticeQueue :=
  let rest := q.notices.drop n
  if 0 < min n q.notices.length ∧ q.lost ≠ 0 then
    { q with
      notices :=
        rest ++ [{ kind := .noticesLost, subject := 0, detail := BitVec.ofNat 16 q.lost, time := clock }]
      lost := 0 }
  else { q with notices := rest }

end Sys2Proof.Machine
end

