-- ==== Sys2Proof/Machine/Queue.lean ====
section
/-! DEFINITION. The Send Queue: order (R60), requests (R57 to R59), aging (R62) and removal (R66 to R69). -/

namespace Sys2Proof.Machine

/-- The local bid, the ordering key of an entry (R60). -/
def localBid (e : QueueEntry) : Nat := e.cls * 64 + e.age

/-- An entry goes ahead of another: a higher local bid, or an equal one and an earlier join (R60). -/
def goesBefore (a b : QueueEntry) : Bool :=
  localBid b < localBid a || (localBid a = localBid b && a.join < b.join)

/-- An entry takes its place in an ordered queue (R60). -/
def insertEntry (e : QueueEntry) : List QueueEntry → List QueueEntry
  | [] => [e]
  | x :: xs => if goesBefore e x then e :: x :: xs else x :: insertEntry e xs

/-- Entries in the order of R60. -/
def sortEntries : List QueueEntry → List QueueEntry
  | [] => []
  | x :: xs => insertEntry x (sortEntries xs)

/-- The subject has an entry, waiting or in flight (R58). -/
def hasEntry (q : SendQueue) (subj : Subject) : Bool :=
  q.entries.any (fun e => e.subject = subj)

/-- The entry of a subject is in flight. -/
def inFlight (q : SendQueue) (subj : Subject) : Bool :=
  q.entries.any (fun e => e.subject = subj && e.inFlight)

/-- Whether an entry is a RESEND entry (R59). -/
def isResend : Subject → Bool
  | .resend _ => true
  | _ => false

/-- The number of RESEND entries (R59). -/
def resendEntries (q : SendQueue) : Nat :=
  (q.entries.filter (fun e => isResend e.subject)).length

/-- An entry joins at age 0 with its marks clear and the next join position (R56). -/
def joinQueue (subj : Subject) (cls : Nat) (q : SendQueue) : SendQueue :=
  { entries :=
      insertEntry
        { subject := subj, cls := cls, age := 0, join := q.nextJoin, inFlight := false, renew := false }
        q.entries
    nextJoin := q.nextJoin + 1 }

/-- The entry of a subject, changed in its marks. -/
def markEntry (subj : Subject) (f : QueueEntry → QueueEntry) (q : SendQueue) : SendQueue :=
  { q with entries := updateKey QueueEntry.subject subj f q.entries }

/-- The entry of a subject leaves (R66, R67). -/
def removeEntry (subj : Subject) (q : SendQueue) : SendQueue :=
  { q with entries := q.entries.filter (fun e => e.subject ≠ subj) }

/-- The entry of a subject leaves if it is waiting (R48, R68). -/
def removeWaiting (subj : Subject) (q : SendQueue) : SendQueue :=
  { q with entries := q.entries.filter (fun e => !(e.subject = subj && !e.inFlight)) }

/-- An entry noted at round open gains 1 age in a lost round, up to 63 (R62). -/
def ageEntry (noted : List Nat) (e : QueueEntry) : QueueEntry :=
  if e.join ∈ noted then { e with age := satInc Config.maxAge e.age } else e

/-- The queue after a lost round: the noted entries still present age, and the order is formed again
(R62). -/
def ageQueue (noted : List Nat) (q : SendQueue) : SendQueue :=
  { q with entries := sortEntries (q.entries.map (ageEntry noted)) }

/-- The class of a new entry (R56): the tag's configured class for a VALUE, fixed for the other kinds. -/
def State.classOf (s : State) : Subject → Nat
  | .value t => ((s.pub t).map PubEntry.cls).getD 1
  | .claim => 14
  | .defend => 15
  | .presence => 12
  | .resend _ => 13

/-- A request: not taken outside ANNOUNCE and ACTIVE, absorbed by an entry of its subject, dropped and
counted for a ninth RESEND, else joined (R57, R58, R59). The leaving PRESENCE is `leaveQueue`'s. -/
def State.request (subj : Subject) (s : State) : State :=
  if !s.takesRequests then s
  else if hasEntry s.sq subj then s
  else if isResend subj && Config.resendRoom ≤ resendEntries s.sq then
    s.count (fun c => { c with resendDropped := satInc Config.count32 c.resendDropped })
  else { s with sq := joinQueue subj (s.classOf subj) s.sq }

/-- The queue at the entry into LEAVING: every entry not in flight leaves, and the leaving PRESENCE joins, or
renews the PRESENCE entry in flight (R69). -/
def leaveQueue (q : SendQueue) : SendQueue :=
  let kept : SendQueue := { q with entries := q.entries.filter QueueEntry.inFlight }
  if hasEntry kept .presence then markEntry .presence (fun e => { e with renew := true }) kept
  else joinQueue .presence 12 kept

/-- The queue emptied (R68: the entry into MUTE). -/
def emptyQueue (q : SendQueue) : SendQueue := { q with entries := [] }

end Sys2Proof.Machine
end

