-- ==== Sys2Proof/Machine/Port.lean ====
section
/-! DEFINITION. The Host Port: taking a command and answering it (R157, R158, R160). -/

namespace Sys2Proof.Machine

/-- The answer of a command's own checks and effect: a status that refuses it and changes nothing, or the
state it leaves and its results (R160). -/
abbrev Reply := Except Status (State × List Byte)

/-- HP answers a taken command: it has read the whole command and holds the response (R158). -/
def State.answer (s : State) (bytes : List Byte) (crc : Byte) (st : Status) (results : List Byte) : State :=
  { s with
    hp :=
      { s.hp with
        phase := .answered
        received := bytes ++ [crc]
        crc := crc8 bytes
        response := responseBytes st results } }

/-- The checks of R160 after the CRC-8 and the code: the gating, then the command's own checks and effect. -/
def gatedReply (c : Command) (act : State → Reply) (s : State) : Reply :=
  match gate c s.sc.state with
  | some st => .error st
  | none => act s

/-- A reply written to the host port. -/
def finish (bytes : List Byte) (crc : Byte) (s : State) : Reply → State
  | .error st => s.answer bytes crc st []
  | .ok (t, results) => t.answer bytes crc .ok results

/-- A command of a code byte and operand bytes is taken when its CRC-8 byte has arrived: the CRC-8, the
gating and its own checks in that order (R157, R160). Bytes that arrive while HP reads no command are ignored
(R157, R158). -/
def takeCommand (c : Command) (operands : List Byte) (crc : Byte) (act : State → Reply) (s : State) : State :=
  if s.hp.phase = .receiving then
    if crc8 (commandCode c :: operands) = crc then
      finish (commandCode c :: operands) crc s (gatedReply c act s)
    else s.answer (commandCode c :: operands) crc .check []
  else s

end Sys2Proof.Machine
end

