-- ==== Sys2Proof/Machine/Publishing.lean ====
section
/-! DEFINITION. The Publication Table: buffers and commits (R17 to R27), periodic publication (R28, R29),
answers to RESEND (R30), and the meanings of DRAFT WRITE, COMMIT, GROUP COMMIT and PERIOD_TIMER_EXPIRY. -/

namespace Sys2Proof.Machine

/-! Buffers (R18, R20). -/

/-- The live buffer (R18). -/
def liveBuffer (e : PubEntry) : Buffer :=
  match e.live with
  | .a => e.bufA
  | .b => e.bufB

/-- The draft buffer: the one that is not live (R18). -/
def draftBuffer (e : PubEntry) : Buffer :=
  match e.live with
  | .a => e.bufB
  | .b => e.bufA

/-- The draft buffer replaced. -/
def setDraft (d : Buffer) (e : PubEntry) : PubEntry :=
  match e.live with
  | .a => { e with bufB := d }
  | .b => { e with bufA := d }

/-- The other side. -/
def otherSide : Side → Side
  | .a => .b
  | .b => .a

/-- A flip: the draft becomes live, the new draft a copy of it, the flip-pending mark clears (R20). -/
def makeFlip (e : PubEntry) : PubEntry :=
  setDraft (draftBuffer e) { e with live := otherSide e.live, flipPending := false }

/-- Bytes written into a buffer from an offset on (R21). -/
def writeBytes (offset : Nat) (bytes data : List Byte) : List Byte :=
  data.take offset ++ bytes ++ data.drop (offset + bytes.length)

/-! DRAFT WRITE (R21). -/

/-- The effect of an accepted DRAFT WRITE on an entry. -/
def writeDraft (offset : Nat) (bytes : List Byte) (e : PubEntry) : PubEntry :=
  setDraft { draftBuffer e with data := writeBytes offset bytes (draftBuffer e).data } e

/-- DRAFT WRITE's checks in their order, and its effect (R21). -/
def draftWriteReply (t : Word) (offset : Byte) (bytes : List Byte) (s : State) : Reply :=
  match s.pub t with
  | none => .error .unknown
  | some e =>
    if bytes.length = 0 ∨ e.len < offset.toNat + bytes.length then .error .range
    else if e.flipPending then .error .flipPending
    else .ok (s.setPub t (writeDraft offset.toNat bytes), [])

/-- DRAFT WRITE (R21). -/
def execDraftWrite (t : Word) (offset : Byte) (bytes : List Byte) (crc : Byte) (s : State) : Out :=
  .next (takeCommand .draftWrite
    (wordBytes t ++ offset :: BitVec.ofNat 8 bytes.length :: bytes) crc (draftWriteReply t offset bytes) s)

/-! Commits (R22, R23, R26, R27). -/

/-- A commit of one entry under generation `g`: the draft is stamped, and goes live at once unless the
entry's frame is in flight, which sets the flip-pending mark instead (R23, R27). -/
def commitEntry (g : Word) (flying : Bool) (e : PubEntry) : PubEntry :=
  let stamped := setDraft { draftBuffer e with gen := some g } { e with committed := some g }
  if flying then { stamped with flipPending := true } else makeFlip stamped

/-- A VALUE entry is requested for an entry that is OWNED while the station is ACTIVE (R23, R25, R27). -/
def State.requestValue (t : Word) (s : State) : State :=
  match s.pub t with
  | some e => if e.claim = .owned ∧ s.sc.state = .active then s.request (.value t) else s
  | none => s

/-- COMMIT's checks in their order (R22), and its effect (R23). -/
def commitReply (t : Word) (s : State) : Reply :=
  match s.pub t with
  | none => .error .unknown
  | some e =>
    if e.group.isSome then .error .grouped
    else if e.claim = .yielded then .error .notOwned
    else if e.flipPending then .error .flipPending
    else
      .ok ((s.setPub t (commitEntry (nextGen e.committed) (inFlight s.sq (.value t)))).requestValue t, [])

/-- COMMIT (R22, R23). -/
def execCommit (t : Word) (crc : Byte) (s : State) : Out :=
  .next (takeCommand .commit (wordBytes t) crc (commitReply t) s)

/-- Every member of producer group `n` committed under one generation (R27, steps 1 and 2). -/
def commitGroup (n : Nat) (g : Word) (s : State) : State :=
  { s with
    pt :=
      s.pt.map (fun e => if e.group = some n then commitEntry g (inFlight s.sq (.value e.tag)) e else e) }

/-- VALUE entries requested for several entries, in the order of the list (R27, R30, R42). -/
def State.requestValues (tags : List Word) (s : State) : State :=
  tags.foldl (fun t tag => t.requestValue tag) s

/-- GROUP COMMIT's checks in their order (R26), and its effect (R27). -/
def groupCommitReply (number : Byte) (s : State) : Reply :=
  let n := number.toNat
  if n < 1 ∨ 8 < n then .error .range
  else
    match s.producerMembers n with
    | [] => .error .unknown
    | e :: es =>
      if (e :: es).any (fun m => m.claim = .yielded) then .error .notOwned
      else if (e :: es).any PubEntry.flipPending then .error .flipPending
      else
        .ok ((commitGroup n (nextGen e.committed) s).requestValues ((e :: es).map PubEntry.tag), [])

/-- GROUP COMMIT (R26, R27). -/
def execGroupCommit (number crc : Byte) (s : State) : Out :=
  .next (takeCommand .groupCommit [number] crc (groupCommitReply number) s)

/-! Send end (R25). -/

/-- The part of R25 on the entry: the sent count rises at a good send end, a pending flip is made at either. -/
def sendEndEntry (good : Bool) (e : PubEntry) : PubEntry :=
  let counted := if good then { e with sent := satInc Config.count32 e.sent } else e
  if e.flipPending then makeFlip counted else counted

/-- The committed generation is newer than the generation sent (R25, step 3). -/
def newerCommitted (sentGen : Word) (e : PubEntry) : Bool :=
  match e.committed with
  | some g => compareGen g sentGen = .newer
  | none => false

/-- PT at the send end of a VALUE frame; SQ has removed a sent entry before (R25). -/
def State.valueSendEnd (good : Bool) (t sentGen : Word) (s : State) : State :=
  let s1 := s.setPub t (sendEndEntry good)
  match s1.pub t with
  | some e => if good ∧ newerCommitted sentGen e then s1.requestValue t else s1
  | none => s1

/-! Periods (R28, R29). -/

/-- The effect of a period's expiry: a request, or a missed period, for a committed entry; the timer starts
again in any case (R28, R29). -/
def State.periodExpiry (t : Word) (e : PubEntry) (s : State) : State :=
  let s1 := s.setPub t (fun x => { x with periodTimer := startTimer x.period })
  if e.committed.isNone then s1
  else if hasEntry s.sq (.value t) then
    let m := satInc Config.count16 e.missed
    (s1.setPub t (fun x => { x with missed := m })).emit .periodMissed t (BitVec.ofNat 16 m)
  else s1.request (.value t)

/-- PERIOD_TIMER_EXPIRY: taken when the entry's period timer has run out (R28, R29). -/
def execPeriodTimerExpiry (t : Word) (s : State) : Out :=
  match s.pub t with
  | some e => .next (if timerDue e.periodTimer then s.periodExpiry t e else s)
  | none => .next s

/-! RESEND (R30). -/

/-- The tags whose VALUE entries an answered RESEND requests: the tag, or every OWNED member of its producer
group, in table order (R30). -/
def State.resendTags (s : State) (e : PubEntry) : List Word :=
  match e.group with
  | none => [e.tag]
  | some n => (s.producerMembers n).filterMap (fun m => if m.claim = .owned then some m.tag else none)

/-- PT's handling of a RESEND frame that names `t` (R30). -/
def State.answerResend (t : Word) (s : State) : State :=
  match s.pub t with
  | some e =>
    if e.claim = .owned ∧ e.committed.isSome ∧ s.sc.state = .active then
      (s.requestValues (s.resendTags e)).setPub t
        (fun x => { x with resendServed := satInc Config.count16 x.resendServed })
    else s
  | none => s

end Sys2Proof.Machine
end

