-- ==== Sys2Proof/Machine/Claims.lean ====
section
/-! DEFINITION. The Claim Unit: announcing (R39 to R44), evidence (R45 to R47), yields (R48 to R50), the DEFEND
set (R51, R52), the ends of a session (R53, R54), and the entry into ACTIVE (R42, R142). -/

namespace Sys2Proof.Machine

/-- Every claim state changed to UNCLAIMED and every period timer stopped, as at the entry into LEAVING and
MUTE (R35, R36, R53, R54). -/
def State.unclaimAll (s : State) : State :=
  { s with
    pt := s.pt.map (fun e => { e with claim := .unclaimed, periodTimer := none })
    cu :=
      { s.cu with
        phase := .none, claimSet := [], claimFlight := [], defendSet := [], defendFlight := []
        windowTimer := none } }

/-! The entry into ACTIVE (R42, R142). -/

/-- Step 1 of R42: every CLAIMING tag becomes OWNED, with CLAIM_WON, in table order. -/
def State.winClaims (s : State) : State :=
  let won := (s.pt.filter (fun e => e.claim = .claiming)).map PubEntry.tag
  let s1 :=
    { s with pt := s.pt.map (fun e => if e.claim = .claiming then { e with claim := .owned } else e) }
  won.foldl (fun t tag => t.emit .claimWon tag 0) s1

/-- The period timers of the OWNED entries start (R28, R42). -/
def State.startPeriods (s : State) : State :=
  { s with
    pt := s.pt.map (fun e => if e.claim = .owned then { e with periodTimer := startTimer e.period } else e) }

/-- The OWNED entries that have a committed generation, in table order (R42, step 4). -/
def State.publishable (s : State) : List Word :=
  (s.pt.filter (fun e => e.claim = .owned && e.committed.isSome)).map PubEntry.tag

/-- Steps 2 to 4 of R42: the phase ends, the station becomes ACTIVE with cause 4, the presence timer and the
period timers start, and VALUE entries are requested. -/
def State.becomeActive (s : State) : State :=
  let s1 :=
    { s with
      cu := { s.cu with phase := .none, windowTimer := none }
      sc := { s.sc with state := .active } }
  let s2 := s1.emitStation 4
  let s3 := { s2 with sc := { s2.sc with presenceTimer := startTimer s2.sc.presenceInterval } }
  let s4 := s3.startPeriods
  s4.requestValues s4.publishable

/-! The entry into ANNOUNCE (R39). -/

/-- CU at the entry into ANNOUNCE: every tag CLAIMING, the CLAIM set filled, SEND 1, and the CLAIM entry
requested; nothing but the claim states without publication entries (R39). -/
def State.startClaims (s : State) : State :=
  let s1 := { s with pt := s.pt.map (fun e => { e with claim := .claiming }) }
  if s1.pt.isEmpty then s1
  else
    let s2 := { s1 with cu := { s1.cu with claimSet := s1.pt.map PubEntry.tag, phase := .send1 } }
    s2.request .claim

/-! Claim windows (R41, R42). -/

/-- The tags still CLAIMING, in table order (R41). -/
def State.claimingTags (s : State) : List Word :=
  (s.pt.filter (fun e => e.claim = .claiming)).map PubEntry.tag

/-- The end of the first window (R41). -/
def State.endFirstWindow (s : State) : State :=
  if s.claimingTags.isEmpty then s.becomeActive
  else
    ({ s with
      cu := { s.cu with claimSet := s.claimingTags, phase := .send2, windowTimer := none } }).request .claim

/-- FIRST_CLAIM_WINDOW_EXPIRY: taken in WINDOW 1 when the claim window timer has run out (R41). -/
def execFirstClaimWindowExpiry (s : State) : Out :=
  .next
    (if s.sc.state = .announce ∧ s.cu.phase = .window1 ∧ timerDue s.cu.windowTimer then s.endFirstWindow
    else s)

/-- SECOND_CLAIM_WINDOW_EXPIRY: taken in WINDOW 2 when the claim window timer has run out (R42). -/
def execSecondClaimWindowExpiry (s : State) : Out :=
  .next
    (if s.sc.state = .announce ∧ s.cu.phase = .window2 ∧ timerDue s.cu.windowTimer then
      s.winClaims.becomeActive
    else s)

/-! Send start and send end (R40, R52). -/

/-- The tag list of a CLAIM or DEFEND, in ascending order (R10, R11). -/
def insertTag (t : Word) : List Word → List Word
  | [] => [t]
  | x :: xs => if t.toNat ≤ x.toNat then t :: x :: xs else x :: insertTag t xs

/-- Tags in ascending order (R10). -/
def sortTags : List Word → List Word
  | [] => []
  | x :: xs => insertTag x (sortTags xs)

/-- The tags of a set that are not in its in-flight subset. -/
def withoutTags (set gone : List Word) : List Word :=
  set.filter (fun t => t ∉ gone)

/-- The phase after a good send end of a CLAIM (R40). -/
def windowOf : ClaimPhase → ClaimPhase
  | .send1 => .window1
  | .send2 => .window2
  | p => p

/-- The phase is SEND 1 or SEND 2 (R43). -/
def sendPhase : ClaimPhase → Bool
  | .send1 => true
  | .send2 => true
  | _ => false

/-- The entry of a tag set after its send end: it leaves with an empty set, else stays with its mark clear
(R66, R67). -/
def settleSet (subj : Subject) (set : List Word) (s : State) : State :=
  if set.isEmpty then { s with sq := removeEntry subj s.sq }
  else { s with sq := markEntry subj (fun e => { e with inFlight := false }) s.sq }

/-- CU at a good send end of a CLAIM: the subset leaves the set, and the window of the attempt starts
(R40, R66). -/
def State.claimSentGood (s : State) : State :=
  let rest := withoutTags s.cu.claimSet s.cu.claimFlight
  let s1 := settleSet .claim rest { s with cu := { s.cu with claimSet := rest, claimFlight := [] } }
  if sendPhase s1.cu.phase then
    { s1 with cu := { s1.cu with phase := windowOf s1.cu.phase, windowTimer := startTimer s1.cu.window } }
  else s1

/-- CU at a bad send end of a CLAIM: the subset clears; with an emptied set the entry leaves and, in SEND 1 or
SEND 2, the station becomes ACTIVE (R40, R43, R67). In LEAVING the entry leaves in any case (R67). -/
def State.claimSentBad (s : State) : State :=
  let s1 := settleSet .claim s.cu.claimSet { s with cu := { s.cu with claimFlight := [] } }
  let s2 := if s1.sc.state = .leaving then { s1 with sq := removeEntry .claim s1.sq } else s1
  if s2.cu.claimSet.isEmpty ∧ sendPhase s2.cu.phase ∧ s2.sc.state = .announce then s2.becomeActive else s2

/-- CU at a good send end of a DEFEND: the subset leaves the set (R52, R66). -/
def State.defendSentGood (s : State) : State :=
  let rest := withoutTags s.cu.defendSet s.cu.defendFlight
  settleSet .defend rest { s with cu := { s.cu with defendSet := rest, defendFlight := [] } }

/-- CU at a bad send end of a DEFEND: the subset clears, and the entry leaves with an emptied set, or in
LEAVING (R52, R67). -/
def State.defendSentBad (s : State) : State :=
  let s1 := settleSet .defend s.cu.defendSet { s with cu := { s.cu with defendFlight := [] } }
  if s1.sc.state = .leaving then { s1 with sq := removeEntry .defend s1.sq } else s1

/-! Yields and defences (R48, R51). -/

/-- A tag leaves the CLAIM set; a waiting CLAIM entry of an emptied set is withdrawn (R48, step 4). -/
def State.leaveClaimSet (t : Word) (s : State) : State :=
  let rest := s.cu.claimSet.filter (· ≠ t)
  let s1 := { s with cu := { s.cu with claimSet := rest } }
  if rest.isEmpty then { s1 with sq := removeWaiting .claim s1.sq } else s1

/-- A tag leaves the DEFEND set; a waiting DEFEND entry of an emptied set is withdrawn (R48, step 4). -/
def State.leaveDefendSet (t : Word) (s : State) : State :=
  let rest := s.cu.defendSet.filter (· ≠ t)
  let s1 := { s with cu := { s.cu with defendSet := rest } }
  if rest.isEmpty then { s1 with sq := removeWaiting .defend s1.sq } else s1

/-- The CLAIM set was emptied in SEND 1 or SEND 2 while its entry waited: the station becomes ACTIVE at once
(R43). A CLAIM in flight goes on to its send end. -/
def State.afterEmptied (hadClaims : Bool) (s : State) : State :=
  if hadClaims ∧ s.cu.claimSet.isEmpty ∧ sendPhase s.cu.phase ∧ s.sc.state = .announce ∧
      !inFlight s.sq .claim then
    s.becomeActive
  else s

/-- A yield of a CLAIMING or OWNED tag on evidence from station `src` (R48). -/
def State.yieldTag (t : Word) (src : Nat) (kind : NoticeKind) (s : State) : State :=
  let had := s.cu.claimSet.contains t
  let s1 := s.setPub t (fun e => { e with claim := .yielded, periodTimer := none })
  let s2 := s1.emit kind t (BitVec.ofNat 16 src)
  let s3 := { s2 with sq := removeWaiting (.value t) s2.sq }
  ((s3.leaveClaimSet t).leaveDefendSet t).afterEmptied had

/-- A tag added to the DEFEND set, with the request of its entry (R51). -/
def State.addDefend (t : Word) (s : State) : State :=
  if s.cu.defendSet.contains t then s
  else ({ s with cu := { s.cu with defendSet := s.cu.defendSet ++ [t] } }).request .defend

/-- The three kinds of evidence (R45). -/
inductive Evidence where
  | claim
  | defend
  | value
deriving DecidableEq, Repr

/-- The evidence table (R46) for one tag, on evidence from station `src`. -/
def State.weigh (ev : Evidence) (src : Nat) (s : State) (t : Word) : State :=
  match s.pub t with
  | none => s
  | some e =>
    match e.claim, ev with
    | .claiming, .claim => if s.own < src then s.yieldTag t src .claimLost else s.addDefend t
    | .claiming, _ => s.yieldTag t src .claimLost
    | .owned, .claim => s.addDefend t
    | .owned, _ => if s.own < src then s.yieldTag t src .ownershipLost else s.addDefend t
    | .unclaimed, _ => s
    | .yielded, _ => s

/-- A frame's tags weighed one after another, in the order of the list (R47). -/
def State.weighAll (ev : Evidence) (src : Nat) (tags : List Word) (s : State) : State :=
  tags.foldl (State.weigh ev src) s

end Sys2Proof.Machine
end

