-- ==== Sys2Proof/Machine/Subscriptions.lean ====
section
/-! DEFINITION. The Subscription Table for ungrouped tags (R90 to R97), freshness (R98, R99), and producer
restarts (R101). -/

namespace Sys2Proof.Machine

/-- An entry takes a frame: it is FRESH, its freshness timer starts at the full limit, and the clock is its
last accepted time (R91, R96 to R98, R109). -/
def takeFrame (clock : Clock) (e : SubEntry) : SubEntry :=
  { e with state := .fresh, freshTimer := startTimer e.freshLimit, lastAccepted := some clock }

/-- TAG_FRESH for a STALE entry that takes a frame from station `src` (R96, R97, R109). -/
def State.emitFresh (before : SubState) (t : Word) (src : Nat) (s : State) : State :=
  if before = .stale then s.emit .tagFresh t (BitVec.ofNat 16 src) else s

/-- Old producer × 256 + new producer (R95). -/
def producerPair (old new : Nat) : Word := BitVec.ofNat 16 (old * 256 + new)

/-- The length check fails: VALUE_REJECTED, and the reject count (R94). -/
def State.rejectValue (t : Word) (length : Nat) (s : State) : State :=
  (s.setSub t (fun e => { e with reject := satInc Config.count16 e.reject })).emit .valueRejected t
    (BitVec.ofNat 16 length)

/-- The producer check of an ungrouped entry (R95). -/
def State.checkProducer (t : Word) (src : Nat) (e : SubEntry) (s : State) : State :=
  match e.producer with
  | none => s.setSub t (fun x => { x with producer := some src })
  | some p =>
    if p = src then s
    else
      (s.emit .producerChanged t (producerPair p src)).setSub t
        (fun x => { x with producer := some src, filter := none })

/-- A frame's generation against a reference that may be absent: absent accepts any (R4, R96, R112). -/
def againstRef (g : Word) : Option Word → GenOrder
  | none => .newer
  | some h => compareGen g h

/-- A newer frame of an ungrouped entry (R96). -/
def State.acceptNewer (t : Word) (src : Nat) (g : Word) (data : List Byte) (before : SubState) (s : State) :
    State :=
  let s1 :=
    s.setSub t
      (fun e => takeFrame s.sc.clock { e with shown := data, shownGen := some g, filter := some g })
  (s1.emit .tagUpdated t g).emitFresh before t src

/-- An equal frame of an ungrouped entry (R97). -/
def State.acceptEqual (t : Word) (src : Nat) (before : SubState) (s : State) : State :=
  (s.setSub t (takeFrame s.sc.clock)).emitFresh before t src

/-- A late frame (R97, R104). -/
def State.countLate (t : Word) (s : State) : State :=
  s.setSub t (fun e => { e with late := satInc Config.count16 e.late })

/-- A VALUE for an ungrouped entry that passed the length check (R95 to R97). -/
def State.ungroupedValue (t : Word) (src : Nat) (g : Word) (data : List Byte) (e : SubEntry) (s : State) :
    State :=
  let s1 := s.checkProducer t src e
  let ref := if e.producer = some src then e.filter else none
  match againstRef g ref with
  | .newer => s1.acceptNewer t src g data e.state
  | .equal => s1.acceptEqual t src e.state
  | .late => s1.countLate t

/-- The freshness timer of an entry runs out (R99, R100). -/
def State.goStale (t : Word) (e : SubEntry) (s : State) : State :=
  let s1 := s.setSub t (fun x => { x with state := .stale, freshTimer := none })
  let s2 := s1.emit .tagStale t (BitVec.ofNat 16 (e.producer.getD 0))
  if e.resendOnStale then s2.request (.resend t) else s2

/-- FRESHNESS_TIMER_EXPIRY: taken when the entry's freshness timer has run out (R99). -/
def execFreshnessTimerExpiry (t : Word) (s : State) : Out :=
  match s.sub t with
  | some e => .next (if timerDue e.freshTimer then s.goStale t e else s)
  | none => .next s

/-- The restart of station `r` clears the filter of every ungrouped entry it feeds (R101). -/
def State.clearFilters (r : Nat) (s : State) : State :=
  { s with
    st :=
      s.st.map (fun e => if e.group = none ∧ e.producer = some r then { e with filter := none } else e) }

end Sys2Proof.Machine
end

