-- ==== Sys2Proof/Machine/Groups.lean ====
section
/-! DEFINITION. Group Assembly: member frames (R109 to R115), tears (R116), the assembly timer (R117, R118),
producer restarts (R119), and the meanings of GROUP HOLD, GROUP RELEASE and GROUP STATUS READ (R120, R121,
R124). -/

namespace Sys2Proof.Machine

/-- The position of a member among its group, from 0 (R107 counts from 1). -/
def State.memberPosition (s : State) (k : Nat) (t : Word) : Nat :=
  (s.members k).findIdx (fun e => e.tag = t)

/-- How many members have arrived. -/
def arrivedCount (a : Assembly) : Nat := a.arrived.count true

/-- The tag of the first missing member (R107). -/
def State.firstMissing (s : State) (k : Nat) (a : Assembly) : Option Word :=
  ((s.members k)[a.arrived.findIdx (fun b => !b)]?).map SubEntry.tag

/-- The reasons of a tear (R116). -/
inductive TearReason where
  | overtaken
  | timeout
  | producerChanged
  | producerRestarted
deriving DecidableEq, Repr

/-- The code of a tear's reason (R116). -/
def tearCode : TearReason → Nat
  | .overtaken => 1
  | .timeout => 2
  | .producerChanged => 3
  | .producerRestarted => 4

/-- Whether a tear for that reason makes the completed generation absent (R116). -/
def tearClears : TearReason → Bool
  | .overtaken => false
  | .timeout => false
  | .producerChanged => true
  | .producerRestarted => true

/-- A tear of an assembly (R116). -/
def State.tear (k : Nat) (reason : TearReason) (a : Assembly) (s : State) : State :=
  (s.setGrp k (fun r =>
    { r with
      assembly := none
      torn := satInc Config.count16 r.torn
      completed := if tearClears reason then none else r.completed })).emit
    .groupTorn (BitVec.ofNat 16 k) (BitVec.ofNat 16 (tearCode reason * 256 + arrivedCount a))

/-- A member's frame is taken: R100 and R109. -/
def State.takeMember (t : Word) (src : Nat) (before : SubState) (s : State) : State :=
  (s.setSub t (takeFrame s.sc.clock)).emitFresh before t src

/-- The completion of an assembly of generation `g` (R108, R115). -/
def State.completeAssembly (k : Nat) (g : Word) (r : GroupRecord) (s : State) : State :=
  if r.held then
    (s.setMembers k (fun e => { e with ready := e.landing, landing := e.ready })).setGrp k (fun x =>
      { x with
        assembly := none
        skipped := if x.ready.isSome then satInc Config.count16 x.skipped else x.skipped
        ready := some g
        completed := some g })
  else
    ((s.setMembers k (fun e => { e with shown := e.landing, landing := e.shown })).setGrp k (fun x =>
      { x with assembly := none, shownGen := some g, completed := some g })).emit
      .groupUpdated (BitVec.ofNat 16 k) g

/-- A member's data lands in the assembly, its frame is taken, and a whole arrived set completes it (R113,
R115). -/
def State.land (k : Nat) (t : Word) (src : Nat) (data : List Byte) (before : SubState) (a : Assembly)
    (s : State) : State :=
  let arrived := a.arrived.set (s.memberPosition k t) true
  let s1 := s.setSub t (fun e => { e with landing := data })
  let s2 := s1.setGrp k (fun r => { r with assembly := some { a with arrived := arrived } })
  let s3 := s2.takeMember t src before
  if arrived.all id then
    match s3.grp k with
    | some r => s3.completeAssembly k a.gen r
    | none => s3
  else s3

/-- A fresh assembly for a generation, with no member arrived (R113). -/
def State.newAssembly (s : State) (k : Nat) (g : Word) (src : Nat) (epoch : Byte) (limit : Nat) : Assembly :=
  { gen := g, producer := src, epoch := epoch, arrived := List.replicate (s.members k).length false
    resendDone := false, timer := limit }

/-- The assembly step: start, continue, overtake or discard (R113, R114). -/
def State.assemble (k : Nat) (t : Word) (src : Nat) (epoch : Byte) (g : Word) (data : List Byte)
    (before : SubState) (r : GroupRecord) (s : State) : State :=
  match r.assembly with
  | none => s.land k t src data before (s.newAssembly k g src epoch r.limit)
  | some a =>
    match compareGen g a.gen with
    | .equal => s.land k t src data before a
    | .newer =>
      (s.tear k .overtaken a).land k t src data before (s.newAssembly k g src epoch r.limit)
    | .late => s.countLate t

/-- The member's producer check, step 1 of R111. -/
def State.checkMemberProducer (k : Nat) (t : Word) (src : Nat) (e : SubEntry) (s : State) : State :=
  match e.producer with
  | none => s.setSub t (fun x => { x with producer := some src })
  | some p =>
    if p = src then s
    else
      ((s.emit .producerChanged t (producerPair p src)).setSub t
        (fun x => { x with producer := some src })).setGrp k (fun r => { r with completed := none })

/-- The assembly's producer check, step 2 of R111. -/
def State.checkAssemblyProducer (k : Nat) (src : Nat) (s : State) : State :=
  match s.grp k with
  | some r =>
    match r.assembly with
    | some a => if a.producer = src then s else s.tear k .producerChanged a
    | none => s
  | none => s

/-- The completed check (R112), and the assembly step after it. -/
def State.completedCheck (k : Nat) (t : Word) (src : Nat) (epoch : Byte) (g : Word) (data : List Byte)
    (before : SubState) (s : State) : State :=
  match s.grp k with
  | some r =>
    match againstRef g r.completed with
    | .newer => s.assemble k t src epoch g data before r
    | .equal => s.takeMember t src before
    | .late => s.countLate t
  | none => s

/-- The group check (R110): the frame's producer group number and member count against the record's. -/
def State.groupMatches (s : State) (k : Nat) (r : GroupRecord) (number count : Byte) : Bool :=
  number.toNat = r.expected && count.toNat = (s.members k).length

/-- A member frame that passed the length check (R110 to R115). -/
def State.memberValue (k : Nat) (t : Word) (src : Nat) (epoch : Byte) (g : Word) (number count : Byte)
    (data : List Byte) (e : SubEntry) (s : State) : State :=
  match s.grp k with
  | none => s
  | some r =>
    if s.groupMatches k r number count then
      ((s.checkMemberProducer k t src e).checkAssemblyProducer k src).completedCheck k t src epoch g data
        e.state
    else s.emit .groupMismatch t (BitVec.ofNat 16 (number.toNat * 256 + count.toNat))

/-- A VALUE frame reaches the Subscription Table (R93): the length check, then the entry's own handling or
Group Assembly's. A tag without a subscription entry is not its concern. -/
def State.valueData (src : Nat) (epoch : Byte) (t g : Word) (number count : Byte) (data : List Byte)
    (s : State) : State :=
  match s.sub t with
  | none => s
  | some e =>
    if data.length ≠ e.len then s.rejectValue t data.length
    else
      match e.group with
      | none => s.ungroupedValue t src g data e
      | some k => s.memberValue k t src epoch g number count data e

/-! The assembly timer (R117, R118). -/

/-- An assembly timer runs out (R118). -/
def State.assemblyExpiry (k : Nat) (r : GroupRecord) (a : Assembly) (s : State) : State :=
  if r.resendOnTimeout ∧ !a.resendDone then
    let s1 :=
      s.setGrp k (fun x => { x with assembly := some { a with resendDone := true, timer := r.limit } })
    match s.firstMissing k a with
    | some t => s1.request (.resend t)
    | none => s1
  else s.tear k .timeout a

/-- ASSEMBLY_TIMER_EXPIRY: taken when the group's assembly timer has run out (R118). -/
def execAssemblyTimerExpiry (k : Nat) (s : State) : Out :=
  match s.grp k with
  | some r =>
    match r.assembly with
    | some a => .next (if a.timer = 0 then s.assemblyExpiry k r a else s)
    | none => .next s
  | none => .next s

/-! Producer restarts (R119). -/

/-- The restart of station `r` at one group: a tear of its assembly, or the completed generation made absent
when it feeds a member (R119). -/
def State.groupRestart (station : Nat) (s : State) (k : Nat) : State :=
  match s.grp k with
  | none => s
  | some r =>
    let feeds := (s.members k).any (fun e => e.producer = some station)
    let clear := if feeds then s.setGrp k (fun x => { x with completed := none }) else s
    match r.assembly with
    | some a => if a.producer = station then s.tear k .producerRestarted a else clear
    | none => clear

/-- The restart of a station at ST and GA, the groups in index order (R101, R119). -/
def State.producerRestarted (station : Nat) (s : State) : State :=
  let s1 := s.clearFilters station
  (s1.ga.map GroupRecord.index).foldl (State.groupRestart station) s1

/-! Holding and releasing (R120 to R122). -/

/-- The checks of a consumer group index: 1..16, then configured (R120). -/
def groupIndexReply (index : Byte) (s : State) (act : GroupRecord → Reply) : Reply :=
  if index.toNat < 1 ∨ 16 < index.toNat then .error .range
  else
    match s.grp index.toNat with
    | none => .error .unknown
    | some r => act r

/-- GROUP HOLD's last check and effect (R120). -/
def holdReply (index : Byte) (s : State) : Reply :=
  groupIndexReply index s (fun r =>
    if r.held then .error .held
    else .ok (s.setGrp index.toNat (fun x => { x with held := true }), []))

/-- GROUP HOLD (R120). -/
def execGroupHold (index crc : Byte) (s : State) : Out :=
  .next (takeCommand .groupHold [index] crc (holdReply index) s)

/-- The effect of an accepted GROUP RELEASE (R121, R108). -/
def State.releaseGroup (k : Nat) (r : GroupRecord) (s : State) : State :=
  match r.ready with
  | none => s.setGrp k (fun x => { x with held := false })
  | some g =>
    ((s.setMembers k (fun e => { e with shown := e.ready, ready := e.shown })).setGrp k (fun x =>
      { x with held := false, shownGen := some g, ready := none })).emit .groupUpdated (BitVec.ofNat 16 k) g

/-- GROUP RELEASE's last check and effect (R121). -/
def releaseReply (index : Byte) (s : State) : Reply :=
  groupIndexReply index s (fun r =>
    if r.held then .ok (s.releaseGroup index.toNat r, []) else .error .notHeld)

/-- GROUP RELEASE (R121). -/
def execGroupRelease (index crc : Byte) (s : State) : Out :=
  .next (takeCommand .groupRelease [index] crc (releaseReply index) s)

/-- The arrived set as a byte: bit p − 1 for position p (R173). -/
def arrivedMask : List Bool → Nat
  | [] => 0
  | b :: bs => (if b then 1 else 0) + 2 * arrivedMask bs

/-- The results of GROUP STATUS READ (R124, R173). -/
def groupStatusResults (s : State) (r : GroupRecord) : List Byte :=
  field1 r.expected ++ field1 (s.members r.index).length ++ field2 r.limit ++ flagByte r.resendOnTimeout ++
    flagByte r.assembly.isSome ++ optGen (r.assembly.map Assembly.gen) ++
    opt1 (r.assembly.map Assembly.producer) ++ opt1 (r.assembly.map (fun a => a.epoch.toNat)) ++
    field1 ((r.assembly.map (fun a => arrivedMask a.arrived)).getD 0) ++
    flagByte ((r.assembly.map Assembly.resendDone).getD false) ++ opt2 (r.assembly.map Assembly.timer) ++
    optGen r.completed ++ optGen r.shownGen ++ flagByte r.held ++ optGen r.ready ++ field2 r.skipped ++
    field2 r.torn

/-- GROUP STATUS READ's answer (R124). -/
def groupStatusReply (index : Byte) (s : State) : Reply :=
  groupIndexReply index s (fun r => .ok (s, groupStatusResults s r))

/-- GROUP STATUS READ (R124). -/
def execGroupStatusRead (index crc : Byte) (s : State) : Out :=
  .next (takeCommand .groupStatusRead [index] crc (groupStatusReply index) s)

end Sys2Proof.Machine
end

