-- ==== Sys2Proof/Machine/Station.lean ====
section
/-! DEFINITION. Station Control: the clock (R137), reset (R138), START, STOP and the states they lead to (R140 to
R144), MUTE (R145), and the presence timer (R133). -/

namespace Sys2Proof.Machine

/-! The clock (R137). -/

/-- A publication entry one millisecond later. -/
def tickPub (e : PubEntry) : PubEntry := { e with periodTimer := tickTimer e.periodTimer }

/-- A subscription entry one millisecond later. -/
def tickSub (e : SubEntry) : SubEntry := { e with freshTimer := tickTimer e.freshTimer }

/-- A consumer group record one millisecond later. -/
def tickGroup (r : GroupRecord) : GroupRecord :=
  { r with assembly := r.assembly.map (fun a => { a with timer := a.timer - 1 }) }

/-- A roster record one millisecond later. -/
def tickPeer (p : Peer) : Peer := { p with silenceTimer := tickTimer p.silenceTimer }

/-- One millisecond of the station clock, which every timer counts (R137). -/
def State.tick (s : State) : State :=
  { s with
    sc :=
      { s.sc with
        clock := s.sc.clock + 1
        listenTimer := tickTimer s.sc.listenTimer
        presenceTimer := tickTimer s.sc.presenceTimer }
    pt := s.pt.map tickPub
    cu := { s.cu with windowTimer := tickTimer s.cu.windowTimer }
    st := s.st.map tickSub
    ga := s.ga.map tickGroup
    ro := s.ro.map tickPeer }

/-- STATION_CLOCK_TICK: the clock counts in every station state; it stands at 0 while the station is held at
reset (R137, R138). -/
def execStationClockTick (s : State) : Out :=
  .next (if s.sc.resetPin then s else s.tick)

/-! Reset (R138). -/

/-- The station after a reset: every block at its values after reset. What is outside the station stays: the
level of the reset pin, the level of chip select (a transaction under way is ignored to its end, R157), and the
commands that wait. -/
def State.doReset (s : State) : State :=
  { State.reset with
    sc := { State.reset.sc with resetPin := s.sc.resetPin }
    hp := { State.reset.hp with phase := if s.hp.phase = .idle then .idle else .ignored }
    pending := s.pending }

/-- RESET_PIN_ASSERTED: every block is reset at once, and the station is held at reset (R138). -/
def execResetPinAsserted (s : State) : Out :=
  .next ({ s with sc := { s.sc with resetPin := true } }).doReset

/-- RESET_PIN_RELEASED: the station leaves reset in UNCONFIGURED with the clock at 0 (R138); a pin that is not
active is not released. -/
def execResetPinReleased (s : State) : Out :=
  .next (if s.sc.resetPin then ({ s with sc := { s.sc with resetPin := false } }).doReset else s)

/-- POWER_UP, to its completion: the station leaves reset in UNCONFIGURED, unless the reset pin holds it
(R138). -/
def execPowerUp (s : State) : Out :=
  .next s.doReset

/-- RESET's effect when it is taken: the reset waits for the rise of chip select (R138, R159). In VALIDATING it abandons
the validation at this moment (R139, R152; DESIGN CHOICE, log 20: `State.validationRuns`). -/
def resetReply (s : State) : Reply :=
  .ok ({ s with hp := { s.hp with resetPending := true } }, [])

/-- RESET (R138). -/
def execReset (crc : Byte) (s : State) : Out :=
  .next (takeCommand .reset [] crc resetReply s)

/-- CHIP_SELECT_RISE: the transaction ends, what HP holds of it is dropped, and a pending RESET is carried out
(R159, R138). -/
def execChipSelectRise (s : State) : Out :=
  .next
    (if s.hp.phase = .idle then s
    else
      let s1 := { s with hp := { State.reset.hp with phase := .idle } }
      if s.hp.resetPending then s1.doReset else s1)

/-- CHIP_SELECT_FALL: a transaction begins; while the station is held at reset it is ignored to its end
(R157). -/
def execChipSelectFall (s : State) : Out :=
  .next
    (if s.hp.phase = .idle then
      { s with
        hp := { State.reset.hp with phase := if s.sc.resetPin then .ignored else .receiving } }
    else s)

/-! START and the listen time (R140, R141). -/

/-- START's effect in HALTED: LISTEN, its notice, and the listen timer (R140, R141). -/
def startReply (s : State) : Reply :=
  let s1 := { s with sc := { s.sc with state := .listen } }
  let s2 := s1.emitStation 1
  .ok ({ s2 with sc := { s2.sc with listenTimer := startTimer s2.sc.silenceLimit } }, [])

/-- START (R140). -/
def execStart (crc : Byte) (s : State) : Out :=
  .next (takeCommand .start [] crc startReply s)

/-- The end of the listen time: ANNOUNCE, its notice, the claims, the PRESENCE entry, in that order (R141). -/
def State.announce (s : State) : State :=
  let s1 := { s with sc := { s.sc with state := .announce, listenTimer := none } }
  ((s1.emitStation 3).startClaims).request .presence

/-- LISTEN_TIMER_EXPIRY: taken in LISTEN when the listen timer has run out (R141). -/
def execListenTimerExpiry (s : State) : Out :=
  .next (if s.sc.state = .listen ∧ timerDue s.sc.listenTimer then s.announce else s)

/-- PRESENCE_TIMER_EXPIRY: taken in ACTIVE when the presence timer has run out; it starts again at the full
interval, whatever becomes of the request (R133). -/
def execPresenceTimerExpiry (s : State) : Out :=
  .next
    (if s.sc.state = .active ∧ timerDue s.sc.presenceTimer then
      ({ s with sc := { s.sc with presenceTimer := startTimer s.sc.presenceInterval } }).request .presence
    else s)

/-! STOP, LEAVING and MUTE (R143 to R145). -/

/-- The entry into LEAVING (R144, R69, R53, R35). -/
def State.enterLeaving (s : State) : State :=
  let s1 := ({ s with sc := { s.sc with state := .leaving } }).emitStation 1
  let s2 := ({ s1 with sq := leaveQueue s1.sq }).unclaimAll
  { s2 with sc := { s2.sc with presenceTimer := none } }

/-- STOP's effect where it is taken: LISTEN to HALTED, ANNOUNCE and ACTIVE to LEAVING (R143). -/
def stopReply (s : State) : Reply :=
  if s.sc.state = .listen then
    .ok ((({ s with sc := { s.sc with state := .halted, listenTimer := none } }).emitStation 1), [])
  else .ok (s.enterLeaving, [])

/-- STOP (R143). -/
def execStop (crc : Byte) (s : State) : Out :=
  .next (takeCommand .stop [] crc stopReply s)

/-- The entry into MUTE (R145, R54, R36, R68). -/
def State.enterMute (cause : Nat) (s : State) : State :=
  let s1 := ({ s with sc := { s.sc with state := .mute } }).emitStation cause
  let s2 := ({ s1 with sq := emptyQueue s1.sq }).unclaimAll
  { s2 with sc := { s2.sc with presenceTimer := none, listenTimer := none } }

/-- The station becomes HALTED at the good send end of the leaving PRESENCE (R144). -/
def State.leaveSent (s : State) : State :=
  ({ s with sc := { s.sc with state := .halted } }).emitStation 5

end Sys2Proof.Machine
end

