-- ==== Sys2Proof/Machine/Roster.lean ====
section
/-! DEFINITION. The Roster: entering a frame (R128 to R131), silence (R132), and ROSTER READ (R134). -/

namespace Sys2Proof.Machine

/-- The condition and count of a PRESENCE frame (R12, R131). -/
def presenceOf : Frame → Option (Condition × Nat)
  | .presence _ c n => (conditionOf c).map (fun x => (x, n.toNat))
  | _ => none

/-- Whether a frame is a PRESENCE with condition LEAVING (R131). -/
def isLeaving (f : Frame) : Bool :=
  match presenceOf f with
  | some (.leaving, _) => true
  | _ => false

/-- Old epoch × 256 + new epoch (R130). -/
def epochPair (old new : Byte) : Word := BitVec.ofNat 16 (old.toNat * 256 + new.toNat)

/-- The joining step (R129). -/
def State.joinPeer (src : Nat) (f : Frame) (p : Peer) (s : State) : State :=
  if (p.state = .absent ∨ p.state = .silent) ∧ !isLeaving f then
    (s.setPeer src (fun x => { x with state := .present })).emit .peerJoined (BitVec.ofNat 16 src)
      ((frameEpoch f).setWidth 16)
  else s

/-- The heard-data step (R129). -/
def State.hearPeer (src : Nat) (s : State) : State :=
  s.setPeer src (fun p =>
    { p with
      lastHeard := some s.sc.clock
      framesHeard := satInc Config.count16 p.framesHeard
      silenceTimer := if p.state = .present then startTimer s.sc.silenceLimit else p.silenceTimer })

/-- The epoch step (R130), on the epoch recorded before the frame. -/
def State.epochStep (src : Nat) (recorded : Option Byte) (e : Byte) (s : State) : State :=
  match recorded with
  | none => s.setPeer src (fun p => { p with epoch := some e })
  | some o =>
    if o = e then s
    else
      (s.emit .peerRestarted (BitVec.ofNat 16 src) (epochPair o e)).setPeer src
        (fun p => { p with epoch := some e })

/-- The presence step (R131), on the standing of the record before the frame. -/
def State.presenceStep (src : Nat) (standing : PeerState) (f : Frame) (s : State) : State :=
  match presenceOf f with
  | none => s
  | some (c, n) =>
    let s1 := s.setPeer src (fun p => { p with condition := some c, publications := some n })
    if c = .leaving then
      let s2 := s1.setPeer src (fun p => { p with state := .absent, silenceTimer := none })
      if standing = .present ∨ standing = .silent then
        s2.emit .peerLeft (BitVec.ofNat 16 src) ((frameEpoch f).setWidth 16)
      else s2
    else s1

/-- The steps of R128 after the duplicate check, then the restart reported to ST and GA (R85, R128). -/
def State.enterPeer (src : Nat) (f : Frame) (p : Peer) (s : State) : State :=
  let s1 := (s.joinPeer src f p).hearPeer src
  let s2 := (s1.epochStep src p.epoch (frameEpoch f)).presenceStep src p.state f
  if p.epoch.isSome ∧ p.epoch ≠ some (frameEpoch f) then s2.producerRestarted src else s2

/-- A frame that carries the own number: counted in the SELF record; the station becomes MUTE with cause 7
from every state but MUTE (R128, step 1; R145). -/
def State.duplicate (s : State) : State :=
  let s1 :=
    s.setPeer s.own (fun p =>
      { p with framesHeard := satInc Config.count16 p.framesHeard, lastHeard := some s.sc.clock })
  if s1.sc.state = .mute then s1 else s1.enterMute 7

/-- SILENCE_TIMER_EXPIRY: taken when the silence timer of a PRESENT record has run out (R132). -/
def execSilenceTimerExpiry (n : Nat) (s : State) : Out :=
  match s.peer n with
  | some p =>
    .next
      (if p.state = .present ∧ timerDue p.silenceTimer then
        (s.setPeer n (fun x => { x with state := .silent, silenceTimer := none })).emit .peerSilent
          (BitVec.ofNat 16 n) ((p.epoch.getD 0).setWidth 16)
      else s)
  | none => .next s

/-- The results of ROSTER READ (R134, R173): the epoch of the SELF record is the own epoch, its condition and
publications are absent. -/
def rosterResults (s : State) (p : Peer) : List Byte :=
  field1 (peerCode p.state) ++ opt1 (p.epoch.map BitVec.toNat) ++ opt1 (p.condition.map conditionCode) ++
    opt1 p.publications ++ opt4 (p.lastHeard.map (fun t => (s.sc.clock - t).toNat)) ++ field2 p.framesHeard

/-- ROSTER READ's check and answer (R134). -/
def rosterReply (number : Byte) (s : State) : Reply :=
  if number.toNat < 1 ∨ Config.lastStation < number.toNat then .error .range
  else
    match s.peer number.toNat with
    | none => .error .range
    | some p => .ok (s, rosterResults s p)

/-- ROSTER READ (R134). -/
def execRosterRead (number crc : Byte) (s : State) : Out :=
  .next (takeCommand .rosterRead [number] crc (rosterReply number) s)

end Sys2Proof.Machine
end

