-- ==== Sys2Proof/Machine/Image.lean ====
section
/-! DEFINITION. The configuration image: IMAGE WRITE (R149), SEAL (R152), its layout (R171), the nine checks
(R153, R154), and the two ends of validation (R155, R156). -/

namespace Sys2Proof.Machine

/-! Fields of the image (R171). -/

/-- The byte at an offset, as a number. -/
def imageByte (m : Memory) (o : Nat) : Nat := (memRead m o).toNat

/-- The 16-bit field at an offset, most significant byte first. -/
def imageWord (m : Memory) (o : Nat) : Word := wordOfBytes (memRead m o) (memRead m (o + 1))

/-- The number of publication entries, P. -/
def imageP (m : Memory) : Nat := imageByte m 10

/-- The number of subscription entries, S. -/
def imageS (m : Memory) : Nat := imageByte m 11

/-- The number of consumer group entries, G. -/
def imageG (m : Memory) : Nat := imageByte m 12

/-- The offset of publication entry `i`, from 0. -/
def pubOffset (i : Nat) : Nat := 13 + 7 * i

/-- The offset of subscription entry `i`, from 0. -/
def subOffset (m : Memory) (i : Nat) : Nat := 13 + 7 * imageP m + 7 * i

/-- The offset of consumer group entry `i`, from 0. -/
def groupOffset (m : Memory) (i : Nat) : Nat := 13 + 7 * imageP m + 7 * imageS m + 4 * i

/-- The offset of the CRC-32; the implied length is four more (R150). -/
def crcOffset (m : Memory) : Nat := 13 + 7 * imageP m + 7 * imageS m + 4 * imageG m

/-- A value of 0 that stands for absent (R151). -/
def zeroAbsent (n : Nat) : Option Nat := if n = 0 then none else some n

/-- A publication entry at its post-seal values (R34). -/
def loadPub (m : Memory) (i : Nat) : PubEntry :=
  let o := pubOffset i
  let len := imageByte m (o + 3)
  let blank : Buffer := { data := List.replicate len 0, gen := none }
  { tag := imageWord m o, cls := imageByte m (o + 2), len := len, period := (imageWord m (o + 4)).toNat
    group := zeroAbsent (imageByte m (o + 6)), bufA := blank, bufB := blank, live := .a, committed := none
    flipPending := false, periodTimer := none, sent := 0, missed := 0, resendServed := 0
    claim := .unclaimed }

/-- A subscription entry at its post-seal values (R105). -/
def loadSub (m : Memory) (i : Nat) : SubEntry :=
  let o := subOffset m i
  let len := imageByte m (o + 2)
  { tag := imageWord m o, len := len, freshLimit := (imageWord m (o + 3)).toNat
    group := zeroAbsent (imageByte m (o + 5)), resendOnStale := (memRead m (o + 6)).getLsbD 0
    state := .unheard, producer := none, filter := none, shownGen := none, shown := List.replicate len 0
    ready := List.replicate len 0, landing := List.replicate len 0, freshTimer := none, lastAccepted := none
    late := 0, reject := 0 }

/-- A consumer group record at its post-seal values (R106). -/
def loadGroup (m : Memory) (i : Nat) : GroupRecord :=
  let o := groupOffset m i
  { index := i + 1, expected := imageByte m o, limit := (imageWord m (o + 1)).toNat
    resendOnTimeout := (memRead m (o + 3)).getLsbD 0, assembly := none, completed := none, shownGen := none
    held := false, ready := none, skipped := 0, torn := 0 }

/-- The publication table of an image. -/
def loadPubs (m : Memory) : List PubEntry := (List.range (imageP m)).map (loadPub m)

/-- The subscription table of an image. -/
def loadSubs (m : Memory) : List SubEntry := (List.range (imageS m)).map (loadSub m)

/-- The consumer group records of an image. -/
def loadGroups (m : Memory) : List GroupRecord := (List.range (imageG m)).map (loadGroup m)

/-! The nine checks (R153), and the entry each names (R154). -/

/-- A number lies in a range, both ends included. -/
def inRange (low high n : Nat) : Bool := low ≤ n && n ≤ high

/-- The fields of a publication entry lie in their ranges (R151). -/
def pubInRange (e : PubEntry) : Bool :=
  validTag e.tag && inRange 1 11 e.cls && inRange 1 32 e.len && (e.period = 0 || inRange 5 60000 e.period) &&
    (match e.group with
    | none => true
    | some n => inRange 1 8 n)

/-- An options byte sets nothing but bit 0 (R151). -/
def optionsClear (b : Byte) : Bool := b.toNat ≤ 1

/-- The fields of subscription entry `i` lie in their ranges (R151). -/
def subInRange (m : Memory) (i : Nat) : Bool :=
  let e := loadSub m i
  validTag e.tag && inRange 1 32 e.len && (e.freshLimit = 0 || inRange 10 60000 e.freshLimit) &&
    (match e.group with
    | none => true
    | some k => inRange 1 (imageG m) k) && optionsClear (memRead m (subOffset m i + 6))

/-- The fields of consumer group entry `i` lie in their ranges (R151). -/
def groupInRange (m : Memory) (i : Nat) : Bool :=
  let r := loadGroup m i
  inRange 1 8 r.expected && inRange 5 5000 r.limit && optionsClear (memRead m (groupOffset m i + 3))

/-- The header fields lie in their ranges (R150). -/
def headerInRange (m : Memory) : Bool :=
  inRange 1 Config.lastStation (imageByte m 1) && imageByte m 2 ≤ 3 && inRange 2 8 (imageByte m 3) &&
    inRange 100 5000 (imageWord m 4).toNat && inRange 20 1000 (imageWord m 6).toNat

/-- The counts lie within their limits (R150). -/
def countsInRange (m : Memory) : Bool := imageP m ≤ 32 && imageS m ≤ 64 && imageG m ≤ 16

/-- The CRC-32 stands where the counts place it (R150, R171). -/
def imageCrcGood (m : Memory) : Bool :=
  let n := crcOffset m
  longBytes (crc32 ((List.range n).map (memRead m))) = (List.range 4).map (fun i => memRead m (n + i))

/-- The first number below `n` that fails a check. -/
def firstBad (n : Nat) (ok : Nat → Bool) : Option Nat := (List.range n).find? (fun i => !ok i)

/-- The tags of the image in image order, publications before subscriptions. -/
def imageTags (m : Memory) : List Word :=
  (loadPubs m).map PubEntry.tag ++ (loadSubs m).map SubEntry.tag

/-- The first entry whose tag equals the tag of an entry before it (R154). -/
def firstDuplicate (tags : List Word) : Option Nat :=
  firstBad tags.length (fun i => !(tags.take i).contains (tags.getD i 0))

/-- The number of publication entries in a producer group. -/
def producerCount (m : Memory) (n : Nat) : Nat := ((loadPubs m).filter (fun e => e.group = some n)).length

/-- The number of subscription entries that name a consumer group. -/
def consumerCount (m : Memory) (k : Nat) : Nat := ((loadSubs m).filter (fun e => e.group = some k)).length

/-- The first producer group number with 1 or more than 8 members (R153). -/
def badProducerGroup (m : Memory) : Option Nat :=
  firstBad 8 (fun i => producerCount m (i + 1) = 0 || inRange 2 8 (producerCount m (i + 1)))

/-- The first consumer group without 2..8 members (R153). -/
def badConsumerGroup (m : Memory) : Option Nat :=
  firstBad (imageG m) (fun i => inRange 2 8 (consumerCount m (i + 1)))

/-- The GROUP SIZE check: the entry index it names, producer groups first (R154). -/
def groupSizeFault (m : Memory) : Option Nat :=
  match badProducerGroup m with
  | some i => some ((loadPubs m).findIdx (fun e => e.group = some (i + 1)) + 1)
  | none => (badConsumerGroup m).map (fun i => imageP m + imageS m + i + 1)

/-- The result of a validation: its code and its detail (R153, R154). -/
def validate (m : Memory) : Nat × Nat :=
  if imageByte m 0 ≠ 0x41 then (1, 0)
  else if !countsInRange m then (2, 0)
  else if !imageCrcGood m then (3, 0)
  else if !headerInRange m then (4, 0)
  else
    match firstBad (imageP m) (fun i => pubInRange (loadPub m i)) with
    | some i => (5, i + 1)
    | none =>
      match firstBad (imageS m) (subInRange m) with
      | some i => (6, imageP m + i + 1)
      | none =>
        match firstBad (imageG m) (groupInRange m) with
        | some i => (7, imageP m + imageS m + i + 1)
        | none =>
          match firstDuplicate (imageTags m) with
          | some i => (8, i + 1)
          | none =>
            match groupSizeFault m with
            | some i => (9, i)
            | none => (0, 0)

/-! IMAGE WRITE and SEAL (R149, R152). -/

/-- IMAGE WRITE's check and effect (R149). -/
def imageWriteReply (offset : Word) (data : List Byte) (s : State) : Reply :=
  if data.length < 1 ∨ 64 < data.length ∨ Config.imageBytes < offset.toNat + data.length then .error .range
  else .ok ({ s with sc := { s.sc with image := memWriteRun s.sc.image offset.toNat data } }, [])

/-- IMAGE WRITE (R149). -/
def execImageWrite (offset : Word) (data : List Byte) (crc : Byte) (s : State) : Out :=
  .next (takeCommand .imageWrite (wordBytes offset ++ BitVec.ofNat 8 data.length :: data) crc
    (imageWriteReply offset data) s)

/-- SEAL's check and effect (R152, R3). -/
def sealReply (epoch : Byte) (s : State) : Reply :=
  if epoch = 0 then .error .range
  else .ok ({ s with sc := { s.sc with state := .validating, pendingEpoch := some epoch } }, [])

/-- SEAL (R152). -/
def execSeal (epoch crc : Byte) (s : State) : Out :=
  .next (takeCommand .seal [epoch] crc (sealReply epoch) s)

/-! The end of validation (R155, R156). -/

/-- Steps 1 to 5 of R155: number, epoch, settings, tables, SELF record, HALTED. The pending epoch, which has become the own
one, is absent from then on (DESIGN CHOICE, log 23: R155 does not say what it holds). -/
def State.loadImage (s : State) : State :=
  let m := s.sc.image
  let n := imageByte m 1
  let s1 :=
    { s with
      sc :=
        { s.sc with
          state := .halted
          ownNumber := some n
          epoch := s.sc.pendingEpoch
          pendingEpoch := none
          presenceInterval := (imageWord m 4).toNat
          silenceLimit := imageByte m 3 * (imageWord m 4).toNat }
      la :=
        { s.la with
          watching := true, rate := imageByte m 2, lineState := .idle, gap := 0, busy := 0, synced := false }
      cu := { s.cu with window := (imageWord m 6).toNat }
      nq := { s.nq with mask := imageWord m 8 }
      pt := loadPubs m
      st := loadSubs m
      ga := loadGroups m }
  s1.setPeer n (fun p => { p with state := .self, epoch := s.sc.pendingEpoch })

/-- A validation is under way: the station is VALIDATING, and no RESET has been taken, which abandons the validation at
that moment and leaves the station VALIDATING until the rise of chip select makes the reset (R139, R152, R138;
DESIGN CHOICE, log 20). -/
def State.validationRuns (s : State) : Bool :=
  s.sc.state = .validating && !s.hp.resetPending

/-- VALIDATION_PASSED: the validation of the image buffer ends with result 0 (R155). After a RESET no validation ends
(DESIGN CHOICE, log 20). -/
def execValidationPassed (s : State) : Out :=
  .next
    (if s.validationRuns ∧ (validate s.sc.image).1 = 0 then
      (s.loadImage.emit .sealResult 0 0).emitStation 2
    else s)

/-- VALIDATION_FAILED: the validation of the image buffer ends with a result 1..9 (R156). After a RESET no validation
ends (DESIGN CHOICE, log 20). -/
def execValidationFailed (s : State) : Out :=
  .next
    (if s.validationRuns ∧ (validate s.sc.image).1 ≠ 0 then
      ({ s with sc := { s.sc with state := .unconfigured, pendingEpoch := none } }).emit .sealResult
        (BitVec.ofNat 16 (validate s.sc.image).1) (BitVec.ofNat 16 (validate s.sc.image).2)
    else s)

end Sys2Proof.Machine
end

