-- ==== Sys2Proof/Machine/Line.lean ====
section
/-! DEFINITION. Line Access: synchronising and line faults (R74, R87, R88), rounds (R75 to R77), sending (R78 to
R81), and receiving (R83 to R86). -/

namespace Sys2Proof.Machine

/-- LA's own state changed. -/
def State.setLine (s : State) (f : LineAccess → LineAccess) : State := { s with la := f s.la }

/-! Synchronising and faults (R74, R87, R88). -/

/-- SYNCHRONISED: on a watched, idle line whose mark is clear, the gap count reaches 15 (R74). -/
def execSynchronised (s : State) : Out :=
  .next
    (if s.la.watching ∧ !s.la.synced ∧ s.la.lineState = .idle then
      s.setLine (fun l => { l with synced := true, gap := Config.gapTop, busy := 0 })
    else s)

/-- A line fault can be declared while LA watches and neither sends, nor decides a round, nor is in FAULT (R87: no send
of the station's own passes 1000 bit times, nor does a round's start bit and bid within four bit times of its end). -/
def faultPossible (l : LineAccess) : Bool :=
  l.watching && (l.lineState = .idle || l.lineState = .receiving)

/-- The declaration of a line fault: FAULT, LINE_STATE 1, and the frame being received abandoned as received
bad, unless it is the rest of the station's own broken frame (R87, R79; log 10). The gap count is that of the
recessive bit times the line then ends with, a free value of 0..4 (log 22). -/
def State.declareFault (s : State) : State :=
  let s1 :=
    if s.la.lineState = .receiving ∧ !s.la.ownBroken then
      s.count (fun c => { c with receivedBad := satInc Config.count32 c.receivedBad })
    else s
  (s1.setLine (fun l =>
    { l with
      lineState := .fault, gap := Config.faultGap s.sc.clock % Config.endRun, busy := Config.busyLimit + 1
      heardBid := none, ownBroken := false })).emit
    .lineState 1 0

/-- LINE_FAULT_DECLARED (R87). -/
def execLineFaultDeclared (s : State) : Out :=
  .next (if faultPossible s.la then s.declareFault else s)

/-- A bad send end without a send start: the counts of R77, and MUTE at the limit. No entry ages, no block is
told. -/
def State.bidBroken (s : State) : State :=
  let s1 :=
    (s.setLine (fun l =>
      { l with
        round := none, bidMismatch := false, txErrors := satInc Config.readbackLimit l.txErrors })).count
      (fun c => { c with readbackErrors := satInc Config.count32 c.readbackErrors })
  if s1.la.txErrors = Config.readbackLimit then s1.enterMute 6 else s1

/-- The end run takes a mismatch of the bid that waits for it, before the frame it closes (R77). -/
def State.takeMismatch (s : State) : State :=
  if s.la.bidMismatch then s.bidBroken else s

/-- LINE_FAULT_CLEARED: the gap count reaches 15 in FAULT; a mismatch that still waits for its end run is
taken first (R88, R77; log 9). -/
def execLineFaultCleared (s : State) : Out :=
  .next
    (if s.la.lineState = .fault then
      (s.takeMismatch.setLine (fun l =>
        { l with lineState := .idle, gap := Config.gapTop, busy := 0, synced := true })).emit .lineState 0 0
    else s)

/-! Rounds (R75, R76, R77). -/

/-- LA after the recessive bit times since the last command about the line. -/
def idleLine (n : Nat) (l : LineAccess) : LineAccess :=
  { l with
    gap := min Config.gapTop (l.gap + n)
    busy := if Config.endRun ≤ min Config.gapTop (l.gap + n) then 0 else l.busy + n }

/-- The station contends in a round that opens now: complete gap, a contending state, entries to send; LA is in no
fault where a round opens (R75). -/
def State.contends (s : State) : Bool :=
  Config.gapComplete ≤ s.la.gap && s.mayContend && !s.sq.entries.isEmpty

/-- The round the station contends in: its head is the candidate, every entry is noted (R61). -/
def State.openedRound (s : State) : Option Round :=
  match s.sq.entries with
  | [] => none
  | e :: es =>
    if s.contends then
      some
        { candidate := e.join, noted := (e :: es).map QueueEntry.join
          bid := makeBid e.cls e.age s.own }
    else none

/-- A round opens at a start bit (R75). -/
def State.openRound (s : State) : State :=
  let r := s.openedRound
  let s1 :=
    if r.isSome then s.count (fun c => { c with roundsEntered := satInc Config.count32 c.roundsEntered })
    else s
  s1.setLine (fun l => hearLine [true] { l with lineState := .round, round := r })

/-- ROUND_OPEN: a start bit on a synchronised, idle line, after the given recessive bit times (R74, R75). -/
def execRoundOpen (idleBits : Nat) (s : State) : Out :=
  .next
    (if s.la.synced ∧ s.la.lineState = .idle then (s.setLine (idleLine idleBits)).openRound else s)

/-- The condition a PRESENCE states at send start (R12). -/
def sendCondition : StationState → Byte
  | .announce => 1
  | .leaving => 3
  | _ => 2

/-- The PRESENCE frame the station builds (R12). -/
def State.presenceFrame (s : State) : Frame :=
  .presence s.ownEpoch (sendCondition s.sc.state) (BitVec.ofNat 8 s.pt.length)

/-- The producer group number and member count of an entry's frames (R9). -/
def State.groupFields (s : State) (e : PubEntry) : Byte × Byte :=
  match e.group with
  | none => (0, 0)
  | some n => (BitVec.ofNat 8 n, BitVec.ofNat 8 (s.producerMembers n).length)

/-- The VALUE frame of an entry, from its live buffer (R8, R24). -/
def State.valueFrame (s : State) (e : PubEntry) : Frame :=
  .value s.ownEpoch e.tag ((liveBuffer e).gen.getD 0) (s.groupFields e).1 (s.groupFields e).2
    (liveBuffer e).data

/-- The frame an entry sends, from its owner's state at send start (R78). A VALUE entry without a publication
entry does not occur. -/
def State.frameOf (s : State) : Subject → Frame
  | .value t =>
    match s.pub t with
    | some e => s.valueFrame e
    | none => s.presenceFrame
  | .claim => .claim s.ownEpoch (sortTags s.cu.claimSet)
  | .defend => .defend s.ownEpoch (sortTags s.cu.defendSet)
  | .presence => s.presenceFrame
  | .resend t => .resend s.ownEpoch t

/-- CU fixes the in-flight subset at send start (R40, R52). -/
def fixSubset (subj : Subject) (cu : ClaimUnit) : ClaimUnit :=
  match subj with
  | .claim => { cu with claimFlight := cu.claimSet }
  | .defend => { cu with defendFlight := cu.defendSet }
  | _ => cu

/-- The send of a queued entry starts (R63, R78). -/
def State.startEntry (bid : Word) (subj : Subject) (s : State) : State :=
  { s with
    la :=
      { s.la with
        lineState := .sending, sending := some { entry := some subj, bid := bid, frame := s.frameOf subj } }
    cu := fixSubset subj s.cu
    sq := markEntry subj (fun e => { e with inFlight := true }) s.sq }

/-- The send of a filler PRESENCE starts (R65). -/
def State.startFiller (bid : Word) (s : State) : State :=
  s.setLine (fun l =>
    { l with lineState := .sending, sending := some { entry := none, bid := bid, frame := s.presenceFrame } })

/-- Send start after a won round: the candidate, else the queued PRESENCE entry, else a filler (R65, R78). -/
def State.sendStart (r : Round) (s : State) : State :=
  match lookupKey QueueEntry.join r.candidate s.sq.entries with
  | some e => s.startEntry r.bid e.subject
  | none => if hasEntry s.sq .presence then s.startEntry r.bid .presence else s.startFiller r.bid

/-- The line after the sixteenth bid bit at a station that does not send (R76). -/
def State.receiveAfter (bid : Word) (mismatch : Bool) (s : State) : State :=
  s.setLine (fun l =>
    { l with lineState := .receiving, round := none, heardBid := some bid, bidMismatch := mismatch })

/-- The decision of a round the station contends in, its start bit read dominant (R76, R77). -/
def State.decideBid (bid : Word) (r : Round) (s : State) : State :=
  if bid = r.bid then (s.setLine (fun l => { l with round := none })).sendStart r
  else if r.bid.toNat < bid.toNat then { s.receiveAfter bid false with sq := ageQueue r.noted s.sq }
  else s.receiveAfter bid true

/-- LA after the bid bits of a round whose own start bit was read back recessive (R75, R77): the counts of
`missedCounts`. -/
def missedStart (bid : Word) (l : LineAccess) : LineAccess :=
  hearLine (false :: msbBits bid) { l with gap := Config.gapComplete, busy := 0 }

/-- The decision of a round over the start bit and the bid as read (R76): won when the bid is the own one, lost when it
is higher. A start bit read recessive, and a bid lower than the own one, show a dominant bit read back recessive: the
station goes on as one that does not contend, and the bad send end waits for the end run (R77; log 8). -/
def State.decideRound (read : RoundRead) (s : State) : State :=
  match s.la.round with
  | none => (s.setLine (hearLine (msbBits read.bid))).receiveAfter read.bid false
  | some r =>
    if read.startDominant then (s.setLine (hearLine (msbBits read.bid))).decideBid read.bid r
    else (s.setLine (missedStart read.bid)).receiveAfter read.bid true

/-- ROUND_DECIDED (R76, R77). A round the station does not contend in opened at a start bit it read dominant. -/
def execRoundDecided (read : RoundRead) (s : State) : Out :=
  .next (if s.la.lineState = .round then s.decideRound read else s)

/-- The gap count at the end run of a frame: five recessive bit times after the end bit, or, for an empty
body, five after the recessive bits that end the bid (R74, R83). -/
def gapAtEnd (bid : Word) (emptyBody : Bool) : Nat :=
  if emptyBody then
    min Config.gapTop ((bidCounts bid).1 + Config.endRun)
  else Config.endRun

/-- The gap and busy counts at the end of the bid of a frame of that bid: those LA holds for the frame on the line, with
whatever was counted before its start bit (R87). A round the station won itself opened with a complete gap (R75), and a
frame whose end run lies behind is taken at the lowest counts its bid can have left (log 8). -/
def frameCounts (bid : Word) (l : LineAccess) : Nat × Nat :=
  if l.lineState = .receiving ∧ l.heardBid = some bid ∧ !l.ownBroken then (l.gap, l.busy) else bidCounts bid

/-- The same for a frame whose round the station entered and met a mismatch in: before the decision of the round, the
lowest counts its bid can have left (R77; log 8). -/
def mismatchCounts (bid : Word) (l : LineAccess) : Nat × Nat :=
  if l.lineState = .round then missedCounts bid else frameCounts bid l

/-- LA at the end run of a frame: IDLE, with the recessive bit times of the end run counted (R74). -/
def State.closeFrame (bid : Word) (emptyBody : Bool) (s : State) : State :=
  s.setLine (fun l =>
    { l with
      lineState := .idle, gap := gapAtEnd bid emptyBody, busy := 0, round := none, heardBid := none
      ownBroken := false })

/-- A mismatch of the start bit or the bid can be taken at the end run of a frame of that bid: in a round the station
contends in, or one that waits for its end run (R77). -/
def mismatchPossible (bid : Word) (l : LineAccess) : Bool :=
  (l.lineState = .round && l.round.isSome) ||
    (l.bidMismatch && l.lineState = .receiving && l.heardBid = some bid)

/-- LA where the mismatch of a round has been taken at an end run that also closes the body of another station's
frame: the command of that frame, which follows, is handled at the same end run (R77). -/
def State.awaitBody (bid : Word) (s : State) : State :=
  s.setLine (fun l =>
    { l with lineState := .receiving, heardBid := some bid, gap := gapAtEnd bid false, busy := 0 })

/-- BID_READBACK_MISMATCH, taken at the end run that closes the round's frame. With an empty body the line is then idle
and no frame is counted (R77, R86). A body is empty when it has no bits before its end bit (R73), so an end bit alone is
an empty body too (DESIGN CHOICE, log 19). Levels that pass 1000 bit times end in a line fault (R87); a mismatch that
still waits in FAULT is taken at an end run there (DESIGN CHOICE, log 9). -/
def execBidReadbackMismatch (bid : Word) (levels : List Bool) (s : State) : Out :=
  .next
    (if s.la.lineState = .fault then s.takeMismatch
    else if mismatchPossible bid s.la ∧ endsInTime (mismatchCounts bid s.la) levels then
      if (bodyOfLevels levels).isEmpty then s.bidBroken.closeFrame bid (levels.all (fun b => !b))
      else s.bidBroken.awaitBody bid
    else s)

/-! Send end (R79, R80, R81). -/

/-- SQ and the owner at a good send end (R80 step 2, R66). -/
def State.sentGood (x : Sending) (s : State) : State :=
  match x.entry with
  | none => s
  | some (.value t) =>
    let gen :=
      match x.frame with
      | .value _ _ g _ _ _ => g
      | _ => 0
    ({ s with sq := removeEntry (.value t) s.sq }).valueSendEnd true t gen
  | some (.resend t) => { s with sq := removeEntry (.resend t) s.sq }
  | some .claim => s.claimSentGood
  | some .defend => s.defendSentGood
  | some .presence =>
    if s.sq.entries.any (fun e => e.subject = .presence && e.renew) then
      { s with sq := markEntry .presence (fun e => { e with inFlight := false, renew := false }) s.sq }
    else { s with sq := removeEntry .presence s.sq }

/-- Whether a good send end is that of the leaving PRESENCE: the PRESENCE entry with its renew mark clear, in
LEAVING (R67, R69). -/
def State.isLeavingSend (x : Sending) (s : State) : Bool :=
  x.entry = some .presence && s.sc.state = .leaving &&
    !s.sq.entries.any (fun e => e.subject = .presence && e.renew)

/-- Whether a good send end ends the announcement of a station with no publication entries (R44). -/
def State.isAnnouncedSend (x : Sending) (s : State) : Bool :=
  x.entry = some .presence && s.sc.state = .announce && s.pt.isEmpty

/-- A good send end at LA: its counts, the entry and its owner, the station state (R80). -/
def State.goodSend (x : Sending) (s : State) : State :=
  let s1 :=
    (s.setLine (fun l =>
      hearLine (frameLevels x.bid x.frame)
        { l with lineState := .idle, sending := none, txErrors := 0 })).count
      (fun c => { c with roundsWon := satInc Config.count32 c.roundsWon })
  let s2 := s1.sentGood x
  if s.isLeavingSend x then s2.leaveSent
  else if s.isAnnouncedSend x then s2.becomeActive
  else s2

/-- GOOD_SEND_END: the end bit of the frame being sent has been read back (R79, R80). -/
def execGoodSendEnd (s : State) : Out :=
  .next
    (match s.la.sending with
    | some x => if s.la.lineState = .sending then s.goodSend x else s
    | none => s)

/-- SQ and the owner at a bad send end (R80 step 2, R67). -/
def State.sentBad (x : Sending) (s : State) : State :=
  let clear (subj : Subject) (t : State) : State :=
    { t with sq := markEntry subj (fun e => { e with inFlight := false, renew := false }) t.sq }
  match x.entry with
  | none => s
  | some (.value t) =>
    let kept : Bool :=
      match s.pub t with
      | some e => e.claim = .owned && s.sc.state ≠ .leaving
      | none => false
    let s1 :=
      if !kept then { s with sq := removeEntry (.value t) s.sq }
      else clear (.value t) s
    s1.valueSendEnd false t 0
  | some (.resend t) =>
    if s.sc.state = .leaving then { s with sq := removeEntry (.resend t) s.sq } else clear (.resend t) s
  | some .claim => s.claimSentBad
  | some .defend => s.defendSentBad
  | some .presence => clear .presence s

/-- The line levels up to and with the bit that reads back wrong (R79). -/
def brokenLevels (levels : List Bool) (bit : Nat) : List Bool :=
  levels.take bit ++ [!levels.getD bit true]

/-- A bad send end at LA: its counts, the entry and its owner, MUTE at the limit (R79, R80, R81). -/
def State.badSend (bit : Nat) (x : Sending) (s : State) : State :=
  let s1 :=
    (s.setLine (fun l =>
      hearLine (brokenLevels (frameLevels x.bid x.frame) bit)
        { l with
          lineState := .receiving, sending := none, heardBid := some x.bid, ownBroken := true
          txErrors := satInc Config.readbackLimit l.txErrors })).count
      (fun c => { c with readbackErrors := satInc Config.count32 c.readbackErrors })
  let s2 := s1.sentBad x
  if s2.la.txErrors = Config.readbackLimit then s2.enterMute 6 else s2

/-- BAD_SEND_END: that bit of the body or the end bit reads back wrong (R79). -/
def execBadSendEnd (bit : Nat) (s : State) : Out :=
  .next
    (match s.la.sending with
    | some x =>
      if s.la.lineState = .sending ∧ bit < (frameLevels x.bid x.frame).length then s.badSend bit x else s
    | none => s)

/-! Receiving (R83 to R86). -/

/-- The frame on the line is the one of that bid: its end run closes it (R74, R76, R83). -/
def closesFrame (bid : Word) (l : LineAccess) : Bool :=
  l.synced && l.lineState = .receiving && l.heardBid = some bid

/-- A frame of that bid can be one whose end run lies behind: its receive event is taken now, after what the line has
done since (R157: either may be taken first; R49, R64; log 8). No such frame is left in FAULT (R87). One of the own
number is taken while the station neither contends nor sends nor receives (R68, R145). -/
def endedBefore (bid : Word) (own : Option Nat) (l : LineAccess) : Bool :=
  l.synced && l.lineState ≠ .fault && (l.lineState = .idle || own ≠ some (bidSource bid))

/-- A good, well-formed frame from another station is dispatched by its kind (R85 step 2). -/
def State.dispatch (src : Nat) (f : Frame) (s : State) : State :=
  match f with
  | .value e t g n c data => (s.weighAll .value src [t]).valueData src e t g n c data
  | .claim _ tags => s.weighAll .claim src tags
  | .defend _ tags => s.weighAll .defend src tags
  | .presence _ _ _ => s
  | .resend _ t => s.answerResend t

/-- The receive event of a good, well-formed frame: the roster, then the blocks of its kind (R85). -/
def State.receiveGood (src : Nat) (f : Frame) (s : State) : State :=
  if s.sc.ownNumber = some src then s.duplicate
  else
    match s.peer src with
    | some p => (s.enterPeer src f p).dispatch src f
    | none => s.dispatch src f

/-- A frame that passed R83 is judged for form (R84). The rest of the station's own broken frame is counted
only if it is good and well formed (R79). -/
def State.receiveFrame (bid : Word) (own : Bool) (f : Frame) (s : State) : State :=
  if wellFormed bid f then
    (s.count (fun c => { c with receivedGood := satInc Config.count32 c.receivedGood })).receiveGood
      (bidSource bid) f
  else if own then s
  else s.count (fun c => { c with malformed := satInc Config.count32 c.malformed })

/-- A frame of a kind byte and a payload that passed R83 (R84). -/
def State.receivePayload (bid : Word) (own : Bool) (kind : Byte) (payload : List Byte) (s : State) : State :=
  match parsePayload kind payload with
  | some f => s.receiveFrame bid own f
  | none => if own then s else s.count (fun c => { c with malformed := satInc Config.count32 c.malformed })

/-- The end of a frame whose body's bits are given (R83, R84). A frame with an empty body is not counted where a
mismatch of the bid was taken at the same end run (R77); an end bit alone is an empty body (DESIGN CHOICE, log 19). -/
def State.receiveBits (bid : Word) (own mismatch : Bool) (bits : List Bool) (s : State) : State :=
  match checkBody bid bits with
  | .bad =>
    if own ∨ (mismatch ∧ bits.isEmpty) then s
    else s.count (fun c => { c with receivedBad := satInc Config.count32 c.receivedBad })
  | .whole kind payload => s.receivePayload bid own kind payload

/-- The receive event of a frame. At the end run of the frame on the line LA first takes a mismatch of the bid that
waits for it (R77), is idle again (R74), and then handles the frame. A frame whose end run lies behind is handled
alone: what the line does now goes on (log 8). Levels that pass 1000 bit times end in a line fault, not in a frame (R87). -/
def State.endFrame (bid : Word) (levels : List Bool) (handle : Bool → Bool → State → State) (s : State) :
    State :=
  if !endsInTime (frameCounts bid s.la) levels then s
  else if closesFrame bid s.la then
    handle s.la.ownBroken s.la.bidMismatch (s.takeMismatch.closeFrame bid (levels.all (fun b => !b)))
  else if endedBefore bid s.sc.ownNumber s.la then handle false false s
  else s

/-- A frame from another station that is whole, with a good CRC (R84, R85). -/
def State.hearFrame (bid : Word) (f : Frame) (s : State) : State :=
  s.endFrame bid (frameLevels bid f) (fun own _ t => t.receiveFrame bid own f)

/-- BAD_FRAME_RECEIVED: the end run of a frame, judged by the checks of R83 on its line levels. -/
def execBadFrameReceived (bid : Word) (levels : List Bool) (s : State) : Out :=
  .next
    (s.endFrame bid levels
      (fun own mismatch t => t.receiveBits bid own mismatch (bodyOfLevels levels)))

/-- MALFORMED_FRAME_RECEIVED: the end run of a whole frame with a good CRC, judged for form (R84). -/
def execMalformedFrameReceived (bid : Word) (kind : Byte) (payload : List Byte) (s : State) : Out :=
  .next
    (s.endFrame bid (payloadLevels bid kind payload)
      (fun own _ t => t.receivePayload bid own kind payload))

/-- VALUE_FRAME_RECEIVED (R85). -/
def execValueFrameReceived (bid : Word) (epoch : Byte) (t g : Word) (number count : Byte) (data : List Byte)
    (s : State) : Out :=
  .next (s.hearFrame bid (.value epoch t g number count data))

/-- CLAIM_FRAME_RECEIVED (R46, R85). -/
def execClaimFrameReceived (bid : Word) (epoch : Byte) (tags : List Word) (s : State) : Out :=
  .next (s.hearFrame bid (.claim epoch tags))

/-- DEFEND_FRAME_RECEIVED (R46, R85). -/
def execDefendFrameReceived (bid : Word) (epoch : Byte) (tags : List Word) (s : State) : Out :=
  .next (s.hearFrame bid (.defend epoch tags))

/-- PRESENCE_FRAME_RECEIVED (R131, R85). -/
def execPresenceFrameReceived (bid : Word) (epoch condition count : Byte) (s : State) : Out :=
  .next (s.hearFrame bid (.presence epoch condition count))

/-- RESEND_FRAME_RECEIVED (R30, R85). -/
def execResendFrameReceived (bid : Word) (epoch : Byte) (t : Word) (s : State) : Out :=
  .next (s.hearFrame bid (.resend epoch t))

end Sys2Proof.Machine
end

