-- ==== Sys2Proof/Machine/Reads.lean ====
section
/-! DEFINITION. The remaining host commands: STATUS READ (R147), VALUE READ (R31, R102), TAG STATUS READ (R32,
R103), SEND QUEUE READ (R70), NOTICE READ (R167), COUNTERS READ (R169), and a code that names no command
(R160). -/

namespace Sys2Proof.Machine

/-- The results of STATUS READ (R147, R173). -/
def statusResults (s : State) : List Byte :=
  field1 (stationCode s.sc.state) ++ field1 s.statusFlags ++ field1 s.nq.notices.length ++
    field1 s.la.txErrors ++ longBytes s.sc.clock ++ opt1 (s.sc.epoch.map BitVec.toNat) ++ opt1 s.sc.ownNumber

/-- STATUS READ's answer (R147). -/
def statusReply (s : State) : Reply := .ok (s, statusResults s)

/-- STATUS READ (R147). -/
def execStatusRead (crc : Byte) (s : State) : Out :=
  .next (takeCommand .statusRead [] crc statusReply s)

/-- The results of VALUE READ for a published tag (R31, R173). -/
def pubValueResults (e : PubEntry) : List Byte :=
  field1 1 ++ field1 (claimCode e.claim) ++ optGen (liveBuffer e).gen ++ field1 (liveBuffer e).data.length ++
    (liveBuffer e).data

/-- The shown generation VALUE READ returns: the entry's own, or its group's (R102). -/
def State.shownGeneration (s : State) (e : SubEntry) : Option Word :=
  match e.group with
  | none => e.shownGen
  | some k => (s.grp k).bind GroupRecord.shownGen

/-- The results of VALUE READ for a subscribed tag (R102, R173). -/
def subValueResults (s : State) (e : SubEntry) : List Byte :=
  field1 2 ++ field1 (subCode e.state) ++ opt1 e.producer ++ optGen (s.shownGeneration e) ++
    field1 e.shown.length ++ e.shown

/-- VALUE READ's answer (R31, R102). -/
def valueReadReply (t : Word) (s : State) : Reply :=
  match s.pub t, s.sub t with
  | some e, _ => .ok (s, pubValueResults e)
  | none, some e => .ok (s, subValueResults s e)
  | none, none => .error .unknown

/-- VALUE READ (R31, R102). -/
def execValueRead (t : Word) (crc : Byte) (s : State) : Out :=
  .next (takeCommand .valueRead (wordBytes t) crc (valueReadReply t) s)

/-- The VALUE entry item: 0 none, 1 waiting, 2 in flight (R32, R173). -/
def valueEntryCode (q : SendQueue) (t : Word) : Nat :=
  if inFlight q (.value t) then 2 else if hasEntry q (.value t) then 1 else 0

/-- The results of TAG STATUS READ for a published tag (R32, R173). -/
def pubStatusResults (s : State) (e : PubEntry) : List Byte :=
  field1 1 ++ field1 (claimCode e.claim) ++ optGen (liveBuffer e).gen ++ optGen e.committed ++
    flagByte e.flipPending ++ field1 (valueEntryCode s.sq e.tag) ++ field4 e.sent ++ field2 e.missed ++
    field2 e.resendServed

/-- The results of TAG STATUS READ for a subscribed tag (R103, R173). -/
def subStatusResults (s : State) (e : SubEntry) : List Byte :=
  field1 2 ++ field1 (subCode e.state) ++ opt1 e.producer ++ optGen e.filter ++ opt1 e.group ++ field2 e.late ++
    field2 e.reject ++ opt4 (e.lastAccepted.map (fun t => (s.sc.clock - t).toNat))

/-- TAG STATUS READ's answer (R32, R103). -/
def tagStatusReply (t : Word) (s : State) : Reply :=
  match s.pub t, s.sub t with
  | some e, _ => .ok (s, pubStatusResults s e)
  | none, some e => .ok (s, subStatusResults s e)
  | none, none => .error .unknown

/-- TAG STATUS READ (R32, R103). -/
def execTagStatusRead (t : Word) (crc : Byte) (s : State) : Out :=
  .next (takeCommand .tagStatusRead (wordBytes t) crc (tagStatusReply t) s)

/-- The lowest tag of a set, 0 of an empty one (R38, R70). -/
def lowestTag (set : List Word) : Word := (sortTags set).headD 0

/-- The tag and set size SEND QUEUE READ shows for an entry (R70). -/
def State.entryTag (s : State) : Subject → Word × Nat
  | .value t => (t, 1)
  | .resend t => (t, 1)
  | .claim => (lowestTag s.cu.claimSet, s.cu.claimSet.length)
  | .defend => (lowestTag s.cu.defendSet, s.cu.defendSet.length)
  | .presence => (0, 0)

/-- The results of SEND QUEUE READ (R70, R173). -/
def queueResults (s : State) (e : QueueEntry) : List Byte :=
  field1 s.sq.entries.length ++ field1 (subjectCode e.subject) ++ wordBytes (s.entryTag e.subject).1 ++
    field1 (s.entryTag e.subject).2 ++ field1 e.cls ++ field1 e.age ++ flagByte e.inFlight

/-- SEND QUEUE READ's check and answer: position 1 is the head (R70). -/
def queueReply (position : Byte) (s : State) : Reply :=
  if position = 0 then .error .range
  else
    match s.sq.entries[position.toNat - 1]? with
    | none => .error .range
    | some e => .ok (s, queueResults s e)

/-- SEND QUEUE READ (R70). -/
def execSendQueueRead (position crc : Byte) (s : State) : Out :=
  .next (takeCommand .sendQueueRead [position] crc (queueReply position) s)

/-- The results of NOTICE READ: the number removed and the removed notices, oldest first (R167, R173). -/
def noticeResults (removed : List Notice) : List Byte :=
  field1 removed.length ++ removed.flatMap noticeRecord

/-- NOTICE READ's check and effect (R167). -/
def noticeReply (n : Byte) (s : State) : Reply :=
  if n.toNat < 1 ∨ 4 < n.toNat then .error .range
  else
    .ok ({ s with nq := drainNotices s.sc.clock n.toNat s.nq }, noticeResults (s.nq.notices.take n.toNat))

/-- NOTICE READ (R167). -/
def execNoticeRead (n crc : Byte) (s : State) : Out :=
  .next (takeCommand .noticeRead [n] crc (noticeReply n) s)

/-- The results of COUNTERS READ (R169, R173). -/
def counterResults (c : LineCounters) : List Byte :=
  field4 c.receivedGood ++ field4 c.receivedBad ++ field4 c.malformed ++ field4 c.roundsEntered ++
    field4 c.roundsWon ++ field4 c.readbackErrors ++ field4 c.resendDropped

/-- COUNTERS READ's check and effect (R169). -/
def countersReply (clear : Byte) (s : State) : Reply :=
  if clear = 0 then .ok (s, counterResults s.la.counters)
  else if clear = 1 then .ok (s.count (fun _ => resetCounters), counterResults s.la.counters)
  else .error .range

/-- COUNTERS READ (R169). -/
def execCountersRead (clear crc : Byte) (s : State) : Out :=
  .next (takeCommand .countersRead [clear] crc (countersReply clear) s)

/-- A code that names no command, complete at its second byte: CHECK when that byte is not the CRC-8 over the
code, else COMMAND, in every station state (R157, R160). A code that names a command is no such command. -/
def execUnknownCommandCode (code crc : Byte) (s : State) : Out :=
  .next
    (if s.hp.phase = .receiving ∧ !namesCommand code then
      s.answer [code] crc (if crc8 [code] = crc then .command else .check) []
    else s)

end Sys2Proof.Machine
end

