-- ==== Sys2Proof/Machine/Dispatch.lean ====
section
/-! DEFINITION. The meaning of every command, one arm for each row of spec/opcode_table.json. -/

namespace Sys2Proof.Machine

-- The effect of a command on everything but the queue of waiting commands.
def exec (i : Instr) (s : State) : Host.Outcome State Fault Refusal :=
  match i with
  | .statusRead crc => Sys2Proof.Machine.execStatusRead crc s
  | .imageWrite offset data crc => Sys2Proof.Machine.execImageWrite offset data crc s
  | .seal epoch crc => Sys2Proof.Machine.execSeal epoch crc s
  | .start crc => Sys2Proof.Machine.execStart crc s
  | .stop crc => Sys2Proof.Machine.execStop crc s
  | .reset crc => Sys2Proof.Machine.execReset crc s
  | .draftWrite tag offset data crc => Sys2Proof.Machine.execDraftWrite tag offset data crc s
  | .commit tag crc => Sys2Proof.Machine.execCommit tag crc s
  | .groupCommit number crc => Sys2Proof.Machine.execGroupCommit number crc s
  | .valueRead tag crc => Sys2Proof.Machine.execValueRead tag crc s
  | .tagStatusRead tag crc => Sys2Proof.Machine.execTagStatusRead tag crc s
  | .groupHold index crc => Sys2Proof.Machine.execGroupHold index crc s
  | .groupRelease index crc => Sys2Proof.Machine.execGroupRelease index crc s
  | .groupStatusRead index crc => Sys2Proof.Machine.execGroupStatusRead index crc s
  | .rosterRead number crc => Sys2Proof.Machine.execRosterRead number crc s
  | .sendQueueRead position crc => Sys2Proof.Machine.execSendQueueRead position crc s
  | .noticeRead n crc => Sys2Proof.Machine.execNoticeRead n crc s
  | .countersRead clear crc => Sys2Proof.Machine.execCountersRead clear crc s
  | .unknownCommandCode code crc => Sys2Proof.Machine.execUnknownCommandCode code crc s
  | .chipSelectRise => Sys2Proof.Machine.execChipSelectRise s
  | .resetPinAsserted => Sys2Proof.Machine.execResetPinAsserted s
  | .resetPinReleased => Sys2Proof.Machine.execResetPinReleased s
  | .powerUp => Sys2Proof.Machine.execPowerUp s
  | .validationPassed => Sys2Proof.Machine.execValidationPassed s
  | .validationFailed => Sys2Proof.Machine.execValidationFailed s
  | .stationClockTick => Sys2Proof.Machine.execStationClockTick s
  | .listenTimerExpiry => Sys2Proof.Machine.execListenTimerExpiry s
  | .firstClaimWindowExpiry => Sys2Proof.Machine.execFirstClaimWindowExpiry s
  | .secondClaimWindowExpiry => Sys2Proof.Machine.execSecondClaimWindowExpiry s
  | .periodTimerExpiry tag => Sys2Proof.Machine.execPeriodTimerExpiry tag s
  | .presenceTimerExpiry => Sys2Proof.Machine.execPresenceTimerExpiry s
  | .freshnessTimerExpiry tag => Sys2Proof.Machine.execFreshnessTimerExpiry tag s
  | .assemblyTimerExpiry index => Sys2Proof.Machine.execAssemblyTimerExpiry index s
  | .silenceTimerExpiry number => Sys2Proof.Machine.execSilenceTimerExpiry number s
  | .synchronised => Sys2Proof.Machine.execSynchronised s
  | .lineFaultDeclared => Sys2Proof.Machine.execLineFaultDeclared s
  | .lineFaultCleared => Sys2Proof.Machine.execLineFaultCleared s
  | .roundOpen idleBits => Sys2Proof.Machine.execRoundOpen idleBits s
  | .bidReadbackMismatch bid levels => Sys2Proof.Machine.execBidReadbackMismatch bid levels s
  | .roundDecided read => Sys2Proof.Machine.execRoundDecided read s
  | .goodSendEnd => Sys2Proof.Machine.execGoodSendEnd s
  | .badSendEnd bit => Sys2Proof.Machine.execBadSendEnd bit s
  | .badFrameReceived bid levels => Sys2Proof.Machine.execBadFrameReceived bid levels s
  | .malformedFrameReceived bid kind payload => Sys2Proof.Machine.execMalformedFrameReceived bid kind payload s
  | .valueFrameReceived bid epoch tag gen group count data => Sys2Proof.Machine.execValueFrameReceived bid epoch tag gen group count data s
  | .claimFrameReceived bid epoch tags => Sys2Proof.Machine.execClaimFrameReceived bid epoch tags s
  | .defendFrameReceived bid epoch tags => Sys2Proof.Machine.execDefendFrameReceived bid epoch tags s
  | .presenceFrameReceived bid epoch condition count => Sys2Proof.Machine.execPresenceFrameReceived bid epoch condition count s
  | .resendFrameReceived bid epoch tag => Sys2Proof.Machine.execResendFrameReceived bid epoch tag s
  | .chipSelectFall => Sys2Proof.Machine.execChipSelectFall s

end Sys2Proof.Machine
end

