-- ==== Sys2Proof/Machine/Pins.lean ====
section
/-! DEFINITION. The line-side pins: which bit times the station drives (R73, R75, R76, R77, R79) and the drive enable and
line transmit pins (pin table). Dominant is true. -/

namespace Sys2Proof.Machine

/-- A station that drives a run of levels drives the next bit dominant: every level read so far is the one it drove, and
the next one is dominant. After the first difference it drives nothing: it has lost (R76), or has a readback mismatch
(R77, R79). -/
def drivesNext (own heard : List Bool) : Bool :=
  own.take heard.length = heard && own.getD heard.length false

/-- The start bit and the bid bits a station puts onto the line, most significant first (R73). -/
def roundLevels (bid : Word) : List Bool := true :: msbBits bid

/-- After that many recessive bit times on an idle line the station opens a round itself: as soon as it contends
(R75). -/
def State.opensRound (idleBits : Nat) (s : State) : Bool :=
  s.la.synced && s.la.lineState = .idle && (s.setLine (idleLine idleBits)).contends

/-- Whether the station drives the bit time that follows the levels read since LA entered its line state: its start bit
and bid in a round it contends in, its body and end bit while it sends, and on an idle line the start bit of the round
it opens. -/
def State.drives (heard : List Bool) (s : State) : Bool :=
  match s.la.lineState with
  | .idle => heard.all (fun b => !b) && s.opensRound heard.length
  | .round =>
    match s.la.round with
    | some r => drivesNext (roundLevels r.bid) heard
    | none => false
  | .sending =>
    match s.la.sending with
    | some x => drivesNext (frameLevels x.bid x.frame) heard
    | none => false
  | .receiving => false
  | .fault => false

/-- The drive enable pin, high (true) to drive: asserted for a dominant bit, released for a recessive one (R73). -/
def State.driveEnable (heard : List Bool) (s : State) : Bool := s.drives heard

/-- The line transmit pin while the drive enable is asserted: low (false), its active and dominant level; while the line
is released its level drives nothing (R73, pin table). -/
def State.lineTransmit (heard : List Bool) (s : State) : Option Bool :=
  if s.driveEnable heard then some false else none

end Sys2Proof.Machine
end

