-- ==== Sys2Proof/WellFormed.lean ====
section
/-! DEFINITION. Which commands can be sent: operands the host port, the line and the timers can carry. -/

namespace Sys2Proof

open Sys2Proof.Machine

/-- No five consecutive recessive levels, `n` recessive ones having gone before (R73: such a run ends the
frame). -/
def noEndRun : Nat → List Bool → Bool
  | _, [] => true
  | n, b :: bs => if b then noEndRun 0 bs else n + 1 < Config.endRun && noEndRun (n + 1) bs

/-- The line levels of a body: none, or levels that end in the dominant end bit and hold no end run (R73). -/
def bodyLevels (levels : List Bool) : Bool :=
  noEndRun 0 levels && levels.getLast? != some false

/-- A command with operands that exist: a count operand is one byte (R157), frame commands carry well-formed
frames (R85), the other two frames that are not (R83, R84) and that end before a line fault from the
lowest counts a bid can leave (R87), and timer commands
name what has such a timer. -/
def Instr.wellFormed : Instr → Bool
  | .imageWrite _ data _ => data.length ≤ 255
  | .draftWrite _ _ data _ => data.length ≤ 255
  | .unknownCommandCode code _ => !namesCommand code
  | .periodTimerExpiry t => validTag t
  | .freshnessTimerExpiry t => validTag t
  | .assemblyTimerExpiry k => 1 ≤ k && k ≤ 16
  | .silenceTimerExpiry n => 1 ≤ n && n ≤ Config.lastStation
  | .badSendEnd bit => bit < 701
  | .bidReadbackMismatch bid levels => bodyLevels levels && endsInTime (missedCounts bid) levels
  | .badFrameReceived bid levels =>
    bodyLevels levels && endsInTime (missedCounts bid) levels && checkBody bid (bodyOfLevels levels) == .bad
  | .malformedFrameReceived bid kind payload =>
    payload.length ≤ 255 && endsInTime (missedCounts bid) (payloadLevels bid kind payload) &&
      (match parsePayload kind payload with
      | some f => !Machine.wellFormed bid f
      | none => true)
  | .valueFrameReceived bid e t g n c data => Machine.wellFormed bid (.value e t g n c data)
  | .claimFrameReceived bid e tags => Machine.wellFormed bid (.claim e tags)
  | .defendFrameReceived bid e tags => Machine.wellFormed bid (.defend e tags)
  | .presenceFrameReceived bid e c n => Machine.wellFormed bid (.presence e c n)
  | .resendFrameReceived bid e t => Machine.wellFormed bid (.resend e t)
  | .statusRead _ => true
  | .seal _ _ => true
  | .start _ => true
  | .stop _ => true
  | .reset _ => true
  | .commit _ _ => true
  | .groupCommit _ _ => true
  | .valueRead _ _ => true
  | .tagStatusRead _ _ => true
  | .groupHold _ _ => true
  | .groupRelease _ _ => true
  | .groupStatusRead _ _ => true
  | .rosterRead _ _ => true
  | .sendQueueRead _ _ => true
  | .noticeRead _ _ => true
  | .countersRead _ _ => true
  | .chipSelectRise => true
  | .resetPinAsserted => true
  | .resetPinReleased => true
  | .powerUp => true
  | .validationPassed => true
  | .validationFailed => true
  | .stationClockTick => true
  | .listenTimerExpiry => true
  | .firstClaimWindowExpiry => true
  | .secondClaimWindowExpiry => true
  | .presenceTimerExpiry => true
  | .synchronised => true
  | .lineFaultCleared => true
  | .roundOpen _ => true
  | .lineFaultDeclared => true
  | .roundDecided _ => true
  | .goodSendEnd => true
  | .chipSelectFall => true

end Sys2Proof
end

