-- ==== Sys2Proof/Safety.lean ====
section
/-! DEFINITION. The words the statements are written in: a command that has arrived, an answer given, and the
invariants of the station's blocks. -/

namespace Sys2Proof.Machine

/-! Host commands. -/

/-- The command, operand bytes and CRC-8 byte a host command puts on the port (R157, R172). -/
def hostWire : Instr → Option (Command × List Byte × Byte)
  | .statusRead crc => some (.statusRead, [], crc)
  | .imageWrite offset data crc =>
    some (.imageWrite, wordBytes offset ++ BitVec.ofNat 8 data.length :: data, crc)
  | .seal epoch crc => some (.seal, [epoch], crc)
  | .start crc => some (.start, [], crc)
  | .stop crc => some (.stop, [], crc)
  | .reset crc => some (.reset, [], crc)
  | .draftWrite tag offset data crc =>
    some (.draftWrite, wordBytes tag ++ offset :: BitVec.ofNat 8 data.length :: data, crc)
  | .commit tag crc => some (.commit, wordBytes tag, crc)
  | .groupCommit number crc => some (.groupCommit, [number], crc)
  | .valueRead tag crc => some (.valueRead, wordBytes tag, crc)
  | .tagStatusRead tag crc => some (.tagStatusRead, wordBytes tag, crc)
  | .groupHold index crc => some (.groupHold, [index], crc)
  | .groupRelease index crc => some (.groupRelease, [index], crc)
  | .groupStatusRead index crc => some (.groupStatusRead, [index], crc)
  | .rosterRead number crc => some (.rosterRead, [number], crc)
  | .sendQueueRead position crc => some (.sendQueueRead, [position], crc)
  | .noticeRead n crc => some (.noticeRead, [n], crc)
  | .countersRead clear crc => some (.countersRead, [clear], crc)
  | _ => none

/-- A command's CRC-8 byte arrives in an open transaction, and it is right (R157, R160). -/
def Arrived (c : Command) (operands : List Byte) (crc : Byte) (s : State) : Prop :=
  s.hp.phase = .receiving ∧ crc8 (commandCode c :: operands) = crc

/-- The host port once a command has been taken: the bytes it read, the CRC-8 over them, and the response of a
status and its results with its own CRC-8 (R157, R158). -/
def replied (c : Command) (operands : List Byte) (crc : Byte) (st : Status) (results : List Byte) (s : State) :
    HostPort :=
  { phase := .answered
    received := commandCode c :: operands ++ [crc]
    crc := crc8 (commandCode c :: operands)
    response := statusCode st :: results ++ [crc8 (statusCode st :: results)]
    resetPending := s.hp.resetPending }

/-- The rows of the gating table (R162): the refusal in UNCONFIGURED, VALIDATING, HALTED, LISTEN, ANNOUNCE, ACTIVE,
LEAVING and MUTE, in that order; none where the command is taken. -/
def gateRow : Command → List (Option Status)
  | .statusRead => [none, none, none, none, none, none, none, none]
  | .reset => [none, none, none, none, none, none, none, none]
  | .imageWrite => [none, some .busy, some .state, some .state, some .state, some .state, some .state, some .state]
  | .seal => [none, some .busy, some .state, some .state, some .state, some .state, some .state, some .state]
  | .start => [some .state, some .busy, none, some .state, some .state, some .state, some .state, some .state]
  | .stop => [some .state, some .busy, some .state, none, none, none, some .state, some .state]
  | .noticeRead => [none, some .busy, none, none, none, none, none, none]
  | .draftWrite => [some .state, some .busy, none, none, none, none, none, none]
  | .commit => [some .state, some .busy, none, none, none, none, none, none]
  | .groupCommit => [some .state, some .busy, none, none, none, none, none, none]
  | .valueRead => [some .state, some .busy, none, none, none, none, none, none]
  | .tagStatusRead => [some .state, some .busy, none, none, none, none, none, none]
  | .groupHold => [some .state, some .busy, none, none, none, none, none, none]
  | .groupRelease => [some .state, some .busy, none, none, none, none, none, none]
  | .groupStatusRead => [some .state, some .busy, none, none, none, none, none, none]
  | .rosterRead => [some .state, some .busy, none, none, none, none, none, none]
  | .sendQueueRead => [some .state, some .busy, none, none, none, none, none, none]
  | .countersRead => [some .state, some .busy, none, none, none, none, none, none]

/-- The six station states after a passing seal (R162). -/
def IsSealed (s : State) : Prop := s.sc.state ≠ .unconfigured ∧ s.sc.state ≠ .validating

/-- A count one more, stopping at its largest value (R33, R89, R104, R125, R127). -/
def bump (top n : Nat) : Nat := if n < top then n + 1 else n

/-! Notices and requests. -/

/-- The notice queue after the notices of one event, in order (R165, R166). -/
def posted (s : State) (notices : List (NoticeKind × Word × Word)) : NoticeQueue :=
  notices.foldl
    (fun q n => if admits q.mask n.1 then postNotice s.sc.clock n.1 n.2.1 n.2.2 q else q) s.nq

/-- The send queue after a request of a kind other than RESEND that SQ takes: absorbed, or joined with its class
(R56 to R58). -/
def joined (subj : Subject) (cls : Nat) (q : SendQueue) : SendQueue :=
  if q.entries.any (fun e => e.subject = subj) then q else joinQueue subj cls q

/-- The send queue after VALUE requests for several publication entries, in order (R57, R58). -/
def joinedValues (entries : List PubEntry) (q : SendQueue) : SendQueue :=
  entries.foldl (fun q e => joined (.value e.tag) e.cls q) q

/-- The number of RESEND entries in the queue (R59). -/
def resendCount (q : SendQueue) : Nat := (q.entries.filter (fun e => isResend e.subject)).length

/-- The send queue after a RESEND request in a station state: taken in ANNOUNCE and ACTIVE alone, absorbed by an
entry for the tag, dropped at eight RESEND entries, else joined (R57 to R59). -/
def resendJoined (tag : Word) (st : StationState) (q : SendQueue) : SendQueue :=
  if (st = .announce ∨ st = .active) ∧ ¬(q.entries.any (fun e => e.subject = .resend tag)) ∧ resendCount q < 8 then
    joinQueue (.resend tag) 13 q
  else q

/-- The line counters after the same request: resend dropped counts the request at the limit (R59, R89). -/
def resendCounted (tag : Word) (st : StationState) (q : SendQueue) (c : LineCounters) : LineCounters :=
  if (st = .announce ∨ st = .active) ∧ ¬(q.entries.any (fun e => e.subject = .resend tag)) ∧ 8 ≤ resendCount q then
    { c with resendDropped := bump 4294967295 c.resendDropped }
  else c

/-! MUTE and received frames. -/

/-- The station at the entry into MUTE with a cause, after the notices `before` of the same event (R145, R54, R36,
R68). -/
def muted (cause : Word) (s : State) : State :=
  { s with
    sc := { s.sc with state := .mute, presenceTimer := none, listenTimer := none }
    sq := { s.sq with entries := [] }
    pt := s.pt.map (fun e => { e with claim := .unclaimed, periodTimer := none })
    cu :=
      { s.cu with
        phase := .none, claimSet := [], claimFlight := [], defendSet := [], defendFlight := []
        windowTimer := none }
    nq := posted s [(.stationState, 7, cause)] }

/-- The station once a readback mismatch of the bid has been taken: both counts one more, and MUTE with cause 6 at the
eighth bad send end in a row (R77, R81). -/
def mismatchTaken (s : State) : State :=
  let counted : State :=
    { s with
      la :=
        { s.la with
          round := none, bidMismatch := false, txErrors := s.la.txErrors + 1
          counters := { s.la.counters with readbackErrors := bump 4294967295 s.la.counters.readbackErrors } } }
  if s.la.txErrors = 7 then muted 6 counted else counted

/-- LA can take a frame of that bid, with no mismatch of the bid waiting (R74, R77): at the end run of the frame on the
line, or as one whose end run lies behind (log 8), which for the own number is one taken in IDLE (R68, R145). -/
def Hears (bid : Word) (s : State) : Prop :=
  s.la.synced = true ∧ s.la.lineState ≠ .fault ∧ s.la.bidMismatch = false ∧
    (s.sc.ownNumber = some (bidSource bid) →
      s.la.lineState = .idle ∨ (s.la.lineState = .receiving ∧ s.la.heardBid = some bid))

/-- The frame on the line is the one of that bid (R76). -/
def Receiving (bid : Word) (l : LineAccess) : Prop :=
  l.synced = true ∧ l.lineState = .receiving ∧ l.heardBid = some bid

/-- LA after a frame of that bid with a body, with its new counters: idle at the end run of the frame on the line, five
recessive bit times heard (R74); otherwise as it was (log 8). -/
def lineAfter (bid : Word) (counters : LineCounters) (l : LineAccess) : LineAccess :=
  if l.lineState = .receiving ∧ l.heardBid = some bid then
    { l with
      lineState := .idle, gap := 5, busy := 0, round := none, heardBid := none, ownBroken := false
      counters := counters }
  else { l with counters := counters }

/-- LA after it has counted a well-formed frame of that bid (R84). -/
def lineAfterGood (bid : Word) (l : LineAccess) : LineAccess :=
  lineAfter bid { l.counters with receivedGood := bump 4294967295 l.counters.receivedGood } l

/-- A PRESENCE with condition LEAVING (R131). -/
def saysLeaving : Frame → Bool
  | .presence _ c _ => c.toNat = 3
  | _ => false

/-- The record of a frame's source after the frame (R129 to R131): joined unless it says LEAVING, which makes it ABSENT;
heard now; its silence timer started while it is PRESENT; its epoch recorded; and, for a PRESENCE, the condition and
the publications. -/
def peerAfter (f : Frame) (clock : Clock) (limit : Nat) (p : Peer) : Peer :=
  let joined : PeerState := if p.state = .absent ∨ p.state = .silent then .present else p.state
  { p with
    state := if saysLeaving f then .absent else joined
    epoch := some (frameEpoch f)
    condition :=
      match f with
      | .presence _ c _ => conditionOf c
      | _ => p.condition
    publications :=
      match f with
      | .presence _ _ n => some n.toNat
      | _ => p.publications
    lastHeard := some clock
    framesHeard := bump 65535 p.framesHeard
    silenceTimer :=
      if saysLeaving f then none
      else if joined = .present then (if limit = 0 then none else some limit)
      else p.silenceTimer }

/-- A frame's epoch differs from the one recorded: its source has restarted (R130). -/
def restarts (f : Frame) (p : Peer) : Bool := p.epoch.isSome && p.epoch != some (frameEpoch f)

/-- The notices of RO for a frame (R129 to R131). -/
def peerNotices (src : Nat) (f : Frame) (p : Peer) : List (NoticeKind × Word × Word) :=
  let subject : Word := BitVec.ofNat 16 src
  (if (p.state = .absent ∨ p.state = .silent) ∧ ¬saysLeaving f then
    [(.peerJoined, subject, (frameEpoch f).setWidth 16)]
  else []) ++
    (if restarts f p then
      [(.peerRestarted, subject, BitVec.ofNat 16 ((p.epoch.getD 0).toNat * 256 + (frameEpoch f).toNat))]
    else []) ++
    (if saysLeaving f ∧ (p.state = .present ∨ p.state = .silent) then
      [(.peerLeft, subject, (frameEpoch f).setWidth 16)]
    else [])

/-- A consumer group after the restart of a station: its assembly from that station torn, or its completed generation
absent where the station feeds a member (R119). -/
def groupAfterRestart (s : State) (src : Nat) (r : GroupRecord) : GroupRecord :=
  if r.assembly.any (fun a => a.producer = src) then
    { r with assembly := none, completed := none, torn := bump 65535 r.torn }
  else if (s.members r.index).any (fun e => e.producer = some src) then { r with completed := none }
  else r

/-- The notices of GA for the restart of a station, the groups in index order (R116, R119). -/
def tornNotices (s : State) (src : Nat) : List (NoticeKind × Word × Word) :=
  (s.ga.filter (fun r => r.assembly.any (fun a => a.producer = src))).map (fun r =>
    (.groupTorn, BitVec.ofNat 16 r.index,
      BitVec.ofNat 16 (4 * 256 + ((r.assembly.map (fun a => a.arrived.count true)).getD 0))))

/-- The state after LA has counted a well-formed frame of another station and RO has entered it, with what ST and GA
do on a restart (R84, R85 step 1, R101, R119, R128 to R131). -/
def entered (bid : Word) (f : Frame) (s : State) : State :=
  let src := bidSource bid
  let counted := { s with la := lineAfterGood bid s.la }
  match s.peer src with
  | none => counted
  | some p =>
    { counted with
      ro := s.ro.map (fun x => if x.number = src then peerAfter f s.sc.clock s.sc.silenceLimit x else x)
      st :=
        if restarts f p then
          s.st.map (fun e => if e.group = none ∧ e.producer = some src then { e with filter := none } else e)
        else s.st
      ga := if restarts f p then s.ga.map (groupAfterRestart s src) else s.ga
      nq := posted s (peerNotices src f p ++ (if restarts f p then tornNotices s src else [])) }

/-- Line levels end as a frame of that bid before the busy count passes 1000 bit times, counted on from what LA has
counted to the end of the bid (R87). -/
def InTime (bid : Word) (levels : List Bool) (s : State) : Prop := endsInTime (frameCounts bid s.la) levels = true

/-- A good, well-formed frame from another station (R84, R85), which no line fault cuts off (R87). -/
def HearsGood (bid : Word) (f : Frame) (s : State) : Prop :=
  Hears bid s ∧ Machine.wellFormed bid f = true ∧ s.sc.ownNumber ≠ some (bidSource bid) ∧
    InTime bid (frameLevels bid f) s

/-- The command of a received frame. -/
def frameCommand (bid : Word) : Frame → Instr
  | .value e t g n c data => .valueFrameReceived bid e t g n c data
  | .claim e tags => .claimFrameReceived bid e tags
  | .defend e tags => .defendFrameReceived bid e tags
  | .presence e c n => .presenceFrameReceived bid e c n
  | .resend e t => .resendFrameReceived bid e t

/-! Evidence (R45 to R52). -/

/-- What a piece of evidence does to a tag (R46). -/
inductive Verdict where
  | ignored
  | yields
  | defends
deriving DecidableEq, Repr

/-- The evidence table (R46): the claim state, the kind of evidence, and whether its source has the higher number. -/
def verdict (ev : Evidence) (higher : Bool) : ClaimState → Verdict
  | .unclaimed => .ignored
  | .yielded => .ignored
  | .claiming =>
    match ev with
    | .claim => if higher then .yields else .defends
    | .defend => .yields
    | .value => .yields
  | .owned =>
    match ev with
    | .claim => .defends
    | .defend => if higher then .yields else .defends
    | .value => if higher then .yields else .defends

/-- A yield of a tag with its claim state (R48): YIELDED with the notice of its loss, its period timer stopped, its
waiting VALUE entry removed, the tag out of both sets and the waiting entry of an emptied set withdrawn. A CLAIM set
that this empties in SEND 1 or SEND 2, its entry not in flight, makes the station ACTIVE at once (R43). -/
def yielded (tag : Word) (src : Nat) (claim : ClaimState) (s : State) : State :=
  let claims := s.cu.claimSet.filter (fun t => t ≠ tag)
  let defends := s.cu.defendSet.filter (fun t => t ≠ tag)
  let lost : NoticeKind × Word × Word :=
    (if claim = .claiming then .claimLost else .ownershipLost, tag, BitVec.ofNat 16 src)
  let gone (q : QueueEntry) : Bool :=
    q.inFlight = false &&
      (q.subject = .value tag || (q.subject = .claim && claims.isEmpty) || (q.subject = .defend && defends.isEmpty))
  let u : State :=
    { s with
      pt := s.pt.map (fun e => if e.tag = tag then { e with claim := .yielded, periodTimer := none } else e)
      cu := { s.cu with claimSet := claims, defendSet := defends }
      sq := { s.sq with entries := s.sq.entries.filter (fun q => !gone q) }
      nq := posted s [lost] }
  if tag ∈ s.cu.claimSet ∧ claims = [] ∧ (s.cu.phase = .send1 ∨ s.cu.phase = .send2) ∧ s.sc.state = .announce ∧
      (∀ q ∈ s.sq.entries, q.subject = .claim → q.inFlight = false) then
    { u with
      sc :=
        { s.sc with
          state := .active
          presenceTimer := if s.sc.presenceInterval = 0 then none else some s.sc.presenceInterval }
      cu := { u.cu with phase := .none, windowTimer := none }
      nq := posted s [lost, (.stationState, 5, 4)] }
  else u

/-- A tag defended (R51): in the DEFEND set, its entry requested in ANNOUNCE and ACTIVE and absorbed by one that waits
or is in flight; nothing for a tag already in the set. -/
def defended (tag : Word) (s : State) : State :=
  if tag ∈ s.cu.defendSet then s
  else
    { s with
      cu := { s.cu with defendSet := s.cu.defendSet ++ [tag] }
      sq := if s.sc.state = .announce ∨ s.sc.state = .active then joined .defend 15 s.sq else s.sq }

/-- One tag weighed on evidence from a station (R46). -/
def weighed (ev : Evidence) (src : Nat) (s : State) (tag : Word) : State :=
  match s.pub tag with
  | none => s
  | some e =>
    match verdict ev (s.sc.ownNumber.getD 0 < src) e.claim with
    | .ignored => s
    | .yields => yielded tag src e.claim s
    | .defends => defended tag s

/-! Invariants. -/

/-- One entry for a tag in both tables together, and one record for a consumer group index (R2, R106). -/
def KeysDistinct (s : State) : Prop :=
  (s.pt.map PubEntry.tag ++ s.st.map SubEntry.tag).Nodup ∧ (s.ga.map GroupRecord.index).Nodup

/-- The transmit error count lies in 0..8 and is 8 in MUTE alone (R81). -/
def TxErrorsSafe (s : State) : Prop :=
  s.la.txErrors ≤ 8 ∧ (s.la.txErrors = 8 → s.sc.state = .mute)

/-- At most 32 notices, at most one TAG_UPDATED and one GROUP_UPDATED for one subject (R163), and lost notices
only while the queue is full (R167). -/
def NoticesSafe (s : State) : Prop :=
  s.nq.notices.length ≤ 32 ∧
    s.nq.notices.Pairwise (fun a b =>
      ¬(a.kind = b.kind ∧ a.subject = b.subject ∧ (a.kind = .tagUpdated ∨ a.kind = .groupUpdated))) ∧
    s.nq.lost ≤ 65535 ∧ (s.nq.lost ≠ 0 → s.nq.notices.length = 32)

/-- The send queue is in the order of R60: higher local bids first, earlier joins first among equal ones; joins
are distinct and ages lie in 0..63 (R56, R61). -/
def QueueOrdered (s : State) : Prop :=
  s.sq.entries.Pairwise (fun a b =>
      b.cls * 64 + b.age < a.cls * 64 + a.age ∨
        (b.cls * 64 + b.age = a.cls * 64 + a.age ∧ a.join < b.join)) ∧
    (s.sq.entries.map QueueEntry.join).Nodup ∧
    ∀ e ∈ s.sq.entries, e.age ≤ 63 ∧ e.join < s.sq.nextJoin

/-- One entry for each subject, at most eight RESEND entries, VALUE entries for publication entries alone, at
most 32 of those, and no entry before a passing seal (R58, R59, R17, R71). -/
def QueueBounded (s : State) : Prop :=
  (s.sq.entries.map QueueEntry.subject).Nodup ∧
    (s.sq.entries.filter (fun e => isResend e.subject)).length ≤ 8 ∧
    (∀ e ∈ s.sq.entries, ∀ t, e.subject = .value t → ∃ p ∈ s.pt, p.tag = t) ∧
    s.pt.length ≤ 32 ∧
    (s.sc.state = .unconfigured ∨ s.sc.state = .validating → s.sq.entries = [])

/-- A tag is CLAIMING in ANNOUNCE alone, OWNED in ACTIVE alone, YIELDED in these two alone; in SEND 1 and SEND 2
the CLAIM set holds every CLAIMING tag (R37, R38). -/
def ClaimsSafe (s : State) : Prop :=
  (∀ e ∈ s.pt,
    (e.claim = .claiming → s.sc.state = .announce) ∧ (e.claim = .owned → s.sc.state = .active) ∧
      (e.claim = .yielded → s.sc.state = .announce ∨ s.sc.state = .active)) ∧
    (s.cu.phase = .send1 ∨ s.cu.phase = .send2 →
      ∀ e ∈ s.pt, e.claim = .claiming → e.tag ∈ s.cu.claimSet)

/-- While the flip-pending mark is clear the live generation is the committed one; while it is set the draft
holds it (R19, R23). -/
def BuffersAgree (s : State) : Prop :=
  ∀ e ∈ s.pt,
    if e.flipPending then (draftBuffer e).gen = e.committed else (liveBuffer e).gen = e.committed

/-- All members of one producer group have the same committed generation (R19). -/
def GroupsAgree (s : State) : Prop :=
  ∀ e ∈ s.pt, ∀ f ∈ s.pt, e.group.isSome → e.group = f.group → e.committed = f.committed

/-- The station drives the line in ANNOUNCE, ACTIVE and LEAVING alone, whatever it has read (R75). -/
def SilentUnlessContending (s : State) : Prop :=
  ∀ heard, s.drives heard = true → s.sc.state = .announce ∨ s.sc.state = .active ∨ s.sc.state = .leaving

/-- The roster has one record for each number 1..62, and the record of the own number is SELF (R127). -/
def RosterSafe (s : State) : Prop :=
  s.ro.map Peer.number = (List.range 62).map (· + 1) ∧
    ∀ n, s.sc.ownNumber = some n → (s.peer n).map Peer.state = some .self

/-- Every count that stops lies within its largest value (R33, R89, R104, R125, R127). -/
def CountsSafe (s : State) : Prop :=
  (∀ e ∈ s.pt, e.sent ≤ 4294967295 ∧ e.missed ≤ 65535 ∧ e.resendServed ≤ 65535) ∧
    (∀ e ∈ s.st, e.late ≤ 65535 ∧ e.reject ≤ 65535) ∧
    (∀ r ∈ s.ga, r.skipped ≤ 65535 ∧ r.torn ≤ 65535) ∧
    (∀ p ∈ s.ro, p.framesHeard ≤ 65535) ∧
    s.la.counters.receivedGood ≤ 4294967295 ∧ s.la.counters.receivedBad ≤ 4294967295 ∧
    s.la.counters.malformed ≤ 4294967295 ∧ s.la.counters.roundsEntered ≤ 4294967295 ∧
    s.la.counters.roundsWon ≤ 4294967295 ∧ s.la.counters.readbackErrors ≤ 4294967295 ∧
    s.la.counters.resendDropped ≤ 4294967295

end Sys2Proof.Machine
end

