-- ==== Sys2Proof/Certificates/Slice0/Obligations.lean ====
section
/-! DEFINITION. The statements for the provers. Each docstring names the rules of spec/ it formalises; where a
clause is the model's own choice it names the log entry. A statement about a command says the whole next state: what
it does not list is unchanged. -/

open Sys2Proof Sys2Proof.Machine

/-! Steps, resets and the host port. -/

/-- A step is the command at the front of the queue, carried out with the rest of the queue waiting. On an empty queue
the block idles (the model's choice, log 1). -/
def Obligations.StepTakesTheFrontCommand : Prop :=
  (∀ (c : Instr) (rest : List Instr) (s : State),
    s.pending = c :: rest → step s = exec c { s with pending := rest }) ∧
  ∀ s : State, s.pending = [] → step s = .next s

/-- Every command answers a next state in every state (the model's choice for events that cannot happen, log 6; no stop
elsewhere, log 12) and leaves the commands that wait alone. -/
def Obligations.EveryCommandCompletes : Prop :=
  ∀ (c : Instr) (s : State), ∃ t, exec c s = .next t ∧ t.pending = s.pending

/-- The values after a reset that the spec gives (R137, R138, R148, R3, R1, R17, R38, R71, R72, R89, R90, R106, R127,
R157, R163, R168). -/
def Obligations.ResetHoldsTheSpecsValues : Prop :=
  let s := State.reset
  s.sc.state = .unconfigured ∧ s.sc.clock = 0 ∧ (∀ a < 1024, memRead s.sc.image a = 0) ∧
    s.sc.pendingEpoch = none ∧ s.sc.epoch = none ∧ s.sc.ownNumber = none ∧
    s.sc.listenTimer = none ∧ s.sc.presenceTimer = none ∧
    s.pt = [] ∧ s.st = [] ∧ s.ga = [] ∧
    s.cu.phase = .none ∧ s.cu.claimSet = [] ∧ s.cu.defendSet = [] ∧ s.cu.claimFlight = [] ∧
    s.cu.defendFlight = [] ∧ s.cu.windowTimer = none ∧
    s.sq.entries = [] ∧ s.la.round = none ∧
    s.la.watching = false ∧ s.la.lineState = .idle ∧ s.la.gap = 0 ∧ s.la.busy = 0 ∧ s.la.synced = false ∧
    s.la.sending = none ∧ s.la.txErrors = 0 ∧ s.la.counters = ⟨0, 0, 0, 0, 0, 0, 0⟩ ∧
    (∀ heard, s.drives heard = false) ∧
    s.ro.map Peer.number = (List.range 62).map (· + 1) ∧
    (∀ p ∈ s.ro, p = ⟨p.number, .absent, none, none, none, none, 0, none⟩) ∧
    s.nq.notices = [] ∧ s.nq.lost = 0 ∧ s.nq.mask = 0 ∧ s.attention = false ∧
    s.hp.received = [] ∧ s.hp.response = []

/-- The reset pin and power-up make the reset of R138. What lies outside the station stays: the levels of the pin and of
chip select, which the spec leaves open after a reset (the model's choice, log 3), a transaction under way, ignored to
its end (R157), and the waiting commands. The settings without a reset value are 0 (the model's choice, log 2). The
release of a pin that is not active changes nothing (the model's choice, log 6). -/
def Obligations.ResetPinAndPowerUpReset : Prop :=
  ∀ s : State,
    let after (pin : Bool) : State :=
      { State.reset with
        sc := { State.reset.sc with resetPin := pin }
        hp := { State.reset.hp with phase := if s.hp.phase = .idle then .idle else .ignored }
        pending := s.pending }
    exec .resetPinAsserted s = .next (after true) ∧
    exec .powerUp s = .next (after s.sc.resetPin) ∧
    (s.sc.resetPin = true → exec .resetPinReleased s = .next (after false)) ∧
    (s.sc.resetPin = false → exec .resetPinReleased s = .next s)

/-- Chip select: a fall begins a transaction, ignored while the station is held at reset; a rise ends it, and makes
the reset of a RESET taken in it (R157, R159, R138). RESET itself is taken in every station state. That reset keeps the
level of the reset pin (the model's choice, log 3) and leaves the settings without a reset value at 0 (the model's
choice, log 2). An edge to the level chip select already has changes nothing (the model's choice, log 6). -/
def Obligations.ChipSelectAndReset : Prop :=
  ∀ s : State,
    (s.hp.phase = .idle →
      exec .chipSelectFall s =
        .next { s with hp := ⟨if s.sc.resetPin then .ignored else .receiving, [], 0, [], false⟩ }) ∧
    (s.hp.phase ≠ .idle → s.hp.resetPending = false →
      exec .chipSelectRise s = .next { s with hp := ⟨.idle, [], 0, [], false⟩ }) ∧
    (s.hp.phase ≠ .idle → s.hp.resetPending = true →
      exec .chipSelectRise s =
        .next
          { State.reset with
            sc := { State.reset.sc with resetPin := s.sc.resetPin }
            pending := s.pending }) ∧
    (∀ crc, Arrived .reset [] crc s →
      exec (.reset crc) s = .next { s with hp := { replied .reset [] crc .ok [] s with resetPending := true } }) ∧
    (s.hp.phase = .idle → exec .chipSelectRise s = .next s) ∧
    (s.hp.phase ≠ .idle → exec .chipSelectFall s = .next s)

/-- The bytes of a transaction spell its command, the code byte first (R157, R172), and none before its CRC-8 byte
(R159). Data in carries them most significant bit first, eight clocks a byte (R157); a byte of fewer than eight clocked
bits is dropped, and a transaction that ends in its CRC-8 byte or before holds no command (R159). The first two checks of R160: a command whose CRC-8 byte is wrong answers CHECK; a code that names no command
answers COMMAND, or CHECK, in every station state; neither changes anything but the port. Bytes outside a command being
read are ignored (R157, R158). Data out shows 0x00 while a command is received and in the gap byte, then the response,
then 0x00 (R157, R158), each byte most significant bit first, and is released while chip select is high or the reset pin active. -/
def Obligations.DamagedAndUnknownCommands : Prop :=
  ∀ s : State,
    (s.hp.phase = .receiving → ∀ i c ops crc, hostWire i = some (c, ops, crc) →
      crc8 (commandCode c :: ops) ≠ crc → exec i s = .next { s with hp := replied c ops crc .check [] s }) ∧
    (s.hp.phase = .receiving → ∀ code crc : Byte,
      code ∉
          ([0x01, 0x02, 0x03, 0x04, 0x05, 0x06, 0x10, 0x11, 0x12, 0x18, 0x19, 0x20, 0x21, 0x22, 0x28, 0x29, 0x30,
            0x31] : List Byte) →
      exec (.unknownCommandCode code crc) s =
        .next
          { s with
            hp :=
              if crc8 [code] = crc then
                ⟨.answered, [code, crc], crc8 [code], [11, crc8 [11]], s.hp.resetPending⟩
              else ⟨.answered, [code, crc], crc8 [code], [10, crc8 [10]], s.hp.resetPending⟩ }) ∧
    (s.hp.phase ≠ .receiving → ∀ i c ops crc, hostWire i = some (c, ops, crc) → exec i s = .next s) ∧
    (s.hp.phase ≠ .receiving → ∀ code crc, exec (.unknownCommandCode code crc) s = .next s) ∧
    (∀ i c ops crc rest, hostWire i = some (c, ops, crc) → i.wellFormed = true →
      commandOf (commandCode c :: ops ++ crc :: rest) = some i ∧
        ∀ n ≤ ops.length + 1, commandOf ((commandCode c :: ops).take n) = none) ∧
    (∀ (code crc : Byte) (rest : List Byte), (Instr.unknownCommandCode code crc).wellFormed = true →
      commandOf (code :: crc :: rest) = some (.unknownCommandCode code crc) ∧ commandOf [code] = none) ∧
    (∀ i c ops crc rest (part : List Bool), hostWire i = some (c, ops, crc) → i.wellFormed = true → part.length < 8 →
      transaction (bitsOfBytes (commandCode c :: ops ++ crc :: rest) ++ part) =
          [.chipSelectFall, i, .chipSelectRise] ∧
        ∀ n < 8 * (ops.length + 2),
          transaction ((bitsOfBytes (commandCode c :: ops ++ [crc])).take n) = [.chipSelectFall, .chipSelectRise]) ∧
    (∀ (code crc : Byte) (rest : List Byte) (part : List Bool),
      (Instr.unknownCommandCode code crc).wellFormed = true → part.length < 8 →
      transaction (bitsOfBytes (code :: crc :: rest) ++ part) =
          [.chipSelectFall, .unknownCommandCode code crc, .chipSelectRise] ∧
        ∀ n < 16, transaction ((bitsOfBytes [code, crc]).take n) = [.chipSelectFall, .chipSelectRise]) ∧
    ∀ i : Nat,
      (∀ k < 8, s.dataOutBit (8 * i + k) = (s.dataOut i).map (fun b => b.getLsbD (7 - k))) ∧
      (s.hp.phase = .idle ∨ s.sc.resetPin = true → s.dataOut i = none) ∧
      (s.sc.resetPin = false → s.hp.phase = .receiving → s.dataOut i = some 0) ∧
      (s.sc.resetPin = false → s.hp.phase = .answered →
        (i ≤ s.hp.received.length → s.dataOut i = some 0) ∧
          (∀ b, s.hp.response[i]? = some b → s.dataOut (s.hp.received.length + 1 + i) = some b) ∧
          (s.hp.response.length ≤ i → s.dataOut (s.hp.received.length + 1 + i) = some 0))

/-- The gating table of R162: a command is refused with the table's status and changes nothing but the port, or, where
the table has it taken, is not refused with BUSY or STATE. -/
def Obligations.GatingFollowsTheTable : Prop :=
  ∀ (s : State) (i : Instr) (c : Command) (ops : List Byte) (crc : Byte),
    hostWire i = some (c, ops, crc) → Arrived c ops crc s →
    (∀ r, (gateRow c)[stationCode s.sc.state]? = some (some r) →
      exec i s = .next { s with hp := replied c ops crc r [] s }) ∧
    ((gateRow c)[stationCode s.sc.state]? = some none →
      ∃ t, exec i s = .next t ∧ t.hp.phase = .answered ∧ t.hp.response.head? ≠ some 1 ∧ t.hp.response.head? ≠ some 2)

/-! Reads. -/

/-- STATUS READ answers in every station state and changes nothing (R147, R173). Bits 2..7 of its flags byte are 0 (the
model's choice, log 24). -/
def Obligations.StatusReadAnswers : Prop :=
  ∀ (crc : Byte) (s : State), Arrived .statusRead [] crc s →
    exec (.statusRead crc) s =
      .next
        { s with
          hp :=
            replied .statusRead [] crc .ok
              ([BitVec.ofNat 8 (stationCode s.sc.state),
                (if s.la.lineState = .fault then 1 else 0) + (if s.nq.notices = [] then 0 else 2),
                BitVec.ofNat 8 s.nq.notices.length, BitVec.ofNat 8 s.la.txErrors,
                (s.sc.clock >>> 24).setWidth 8, (s.sc.clock >>> 16).setWidth 8, (s.sc.clock >>> 8).setWidth 8,
                s.sc.clock.setWidth 8] ++
                (match s.sc.epoch with
                | none => [0, 0]
                | some e => [1, e]) ++
                (match s.sc.ownNumber with
                | none => [0, 0]
                | some n => [1, BitVec.ofNat 8 n])) s }

/-- VALUE READ and TAG STATUS READ of a published tag, of a subscribed tag, and of a tag in neither table, which is
refused with UNKNOWN; they change nothing (R31, R32, R102, R103, R173). -/
def Obligations.TagReadsAnswer : Prop :=
  ∀ (tag : Word) (crc : Byte) (s : State), IsSealed s →
    let value (st : Status) (results : List Byte) : State :=
      { s with hp := replied .valueRead [hiByte tag, loByte tag] crc st results s }
    let status (st : Status) (results : List Byte) : State :=
      { s with hp := replied .tagStatusRead [hiByte tag, loByte tag] crc st results s }
    (Arrived .valueRead [hiByte tag, loByte tag] crc s →
      (∀ e, s.pub tag = some e →
        exec (.valueRead tag crc) s =
          .next (value .ok
            ([1, BitVec.ofNat 8 (claimCode e.claim)] ++ optGen (liveBuffer e).gen ++
              [BitVec.ofNat 8 (liveBuffer e).data.length] ++ (liveBuffer e).data))) ∧
      (∀ e, s.pub tag = none → s.sub tag = some e →
        exec (.valueRead tag crc) s =
          .next (value .ok
            ([2, BitVec.ofNat 8 (subCode e.state)] ++ opt1 e.producer ++
              optGen
                (match e.group with
                | none => e.shownGen
                | some k => (s.grp k).bind GroupRecord.shownGen) ++
              [BitVec.ofNat 8 e.shown.length] ++ e.shown))) ∧
      (s.pub tag = none → s.sub tag = none → exec (.valueRead tag crc) s = .next (value .unknown []))) ∧
    (Arrived .tagStatusRead [hiByte tag, loByte tag] crc s →
      (∀ e, s.pub tag = some e →
        exec (.tagStatusRead tag crc) s =
          .next (status .ok
            ([1, BitVec.ofNat 8 (claimCode e.claim)] ++ optGen (liveBuffer e).gen ++ optGen e.committed ++
              [if e.flipPending then 1 else 0,
                if s.sq.entries.any (fun q => q.subject = .value tag && q.inFlight) then 2
                else if s.sq.entries.any (fun q => q.subject = .value tag) then 1 else 0] ++
              field4 e.sent ++ field2 e.missed ++ field2 e.resendServed))) ∧
      (∀ e, s.pub tag = none → s.sub tag = some e →
        exec (.tagStatusRead tag crc) s =
          .next (status .ok
            ([2, BitVec.ofNat 8 (subCode e.state)] ++ opt1 e.producer ++ optGen e.filter ++ opt1 e.group ++
              field2 e.late ++ field2 e.reject ++
              opt4 (e.lastAccepted.map (fun t => (s.sc.clock - t).toNat))))) ∧
      (s.pub tag = none → s.sub tag = none → exec (.tagStatusRead tag crc) s = .next (status .unknown [])))

/-- GROUP STATUS READ answers every item of the record, refuses an index outside 1..16 with RANGE and an index without
a record with UNKNOWN, and changes nothing (R124, R120, R173). -/
def Obligations.GroupStatusReadAnswers : Prop :=
  ∀ (index crc : Byte) (s : State), IsSealed s → Arrived .groupStatusRead [index] crc s →
    let after (st : Status) (results : List Byte) : State :=
      { s with hp := replied .groupStatusRead [index] crc st results s }
    (∀ r, 1 ≤ index.toNat → index.toNat ≤ 16 → s.grp index.toNat = some r →
      exec (.groupStatusRead index crc) s =
        .next (after .ok
          (field1 r.expected ++ field1 (s.members index.toNat).length ++ field2 r.limit ++
            [if r.resendOnTimeout then 1 else 0] ++
            (match r.assembly with
            | none => [0] ++ [0, 0, 0] ++ [0, 0] ++ [0, 0] ++ [0] ++ [0] ++ [0, 0, 0]
            | some a =>
              [1] ++ (1 :: [hiByte a.gen, loByte a.gen]) ++ [1, BitVec.ofNat 8 a.producer] ++ [1, a.epoch] ++
                [BitVec.ofNat 8 (arrivedMask a.arrived)] ++ [if a.resendDone then 1 else 0] ++ (1 :: field2 a.timer)) ++
            optGen r.completed ++ optGen r.shownGen ++ [if r.held then 1 else 0] ++ optGen r.ready ++
            field2 r.skipped ++ field2 r.torn))) ∧
    (index.toNat < 1 ∨ 16 < index.toNat → exec (.groupStatusRead index crc) s = .next (after .range [])) ∧
    (1 ≤ index.toNat → index.toNat ≤ 16 → s.grp index.toNat = none →
      exec (.groupStatusRead index crc) s = .next (after .unknown []))

/-- ROSTER READ and SEND QUEUE READ: the record of a number 1..62 and the entry at a position from the head, RANGE
outside them; they change nothing (R134, R70, R173). -/
def Obligations.RosterAndQueueReadsAnswer : Prop :=
  ∀ (n crc : Byte) (s : State), IsSealed s →
    (Arrived .rosterRead [n] crc s →
      (∀ p, 1 ≤ n.toNat → n.toNat ≤ 62 → s.peer n.toNat = some p →
        exec (.rosterRead n crc) s =
          .next
            { s with
              hp :=
                replied .rosterRead [n] crc .ok
                  ([BitVec.ofNat 8 (peerCode p.state)] ++ opt1 (p.epoch.map BitVec.toNat) ++
                    opt1 (p.condition.map conditionCode) ++ opt1 p.publications ++
                    opt4 (p.lastHeard.map (fun t => (s.sc.clock - t).toNat)) ++ field2 p.framesHeard) s }) ∧
      (n.toNat < 1 ∨ 62 < n.toNat →
        exec (.rosterRead n crc) s = .next { s with hp := replied .rosterRead [n] crc .range [] s })) ∧
    (Arrived .sendQueueRead [n] crc s →
      (∀ e, 1 ≤ n.toNat → s.sq.entries[n.toNat - 1]? = some e →
        exec (.sendQueueRead n crc) s =
          .next
            { s with
              hp :=
                replied .sendQueueRead [n] crc .ok
                  ([BitVec.ofNat 8 s.sq.entries.length] ++
                    (match e.subject with
                    | .value t => [1, hiByte t, loByte t, 1]
                    | .claim =>
                      [2, hiByte (lowestTag s.cu.claimSet), loByte (lowestTag s.cu.claimSet),
                        BitVec.ofNat 8 s.cu.claimSet.length]
                    | .defend =>
                      [3, hiByte (lowestTag s.cu.defendSet), loByte (lowestTag s.cu.defendSet),
                        BitVec.ofNat 8 s.cu.defendSet.length]
                    | .presence => [4, 0, 0, 0]
                    | .resend t => [5, hiByte t, loByte t, 1]) ++
                    [BitVec.ofNat 8 e.cls, BitVec.ofNat 8 e.age, if e.inFlight then 1 else 0]) s }) ∧
      (n.toNat = 0 ∨ s.sq.entries.length < n.toNat →
        exec (.sendQueueRead n crc) s = .next { s with hp := replied .sendQueueRead [n] crc .range [] s }))

/-- NOTICE READ removes and returns up to n notices from the head, and turns a lost count into NOTICES_LOST at the
tail when a place was freed (R167, R173); n outside 1..4 is RANGE. -/
def Obligations.NoticeReadDrainsTheQueue : Prop :=
  ∀ (n crc : Byte) (s : State), s.sc.state ≠ .validating → Arrived .noticeRead [n] crc s →
    let gone := s.nq.notices.take n.toNat
    (1 ≤ n.toNat → n.toNat ≤ 4 →
      exec (.noticeRead n crc) s =
        .next
          { s with
            nq :=
              if gone ≠ [] ∧ s.nq.lost ≠ 0 then
                { s.nq with
                  notices :=
                    s.nq.notices.drop n.toNat ++ [⟨.noticesLost, 0, BitVec.ofNat 16 s.nq.lost, s.sc.clock⟩]
                  lost := 0 }
              else { s.nq with notices := s.nq.notices.drop n.toNat }
            hp :=
              replied .noticeRead [n] crc .ok
                (BitVec.ofNat 8 gone.length ::
                  gone.flatMap (fun m =>
                    [BitVec.ofNat 8 (noticeCode m.kind), hiByte m.subject, loByte m.subject, hiByte m.detail,
                      loByte m.detail] ++ longBytes m.time)) s }) ∧
    (n.toNat < 1 ∨ 4 < n.toNat →
      exec (.noticeRead n crc) s = .next { s with hp := replied .noticeRead [n] crc .range [] s })

/-- COUNTERS READ (R169): the seven line counters, most significant byte first; the clear option 1 sets all seven to 0
in the same event and touches nothing else; any other option is RANGE. -/
def Obligations.CountersReadAndClear : Prop :=
  ∀ (option crc : Byte) (s : State), IsSealed s → Arrived .countersRead [option] crc s →
    let c := s.la.counters
    let port :=
      replied .countersRead [option] crc .ok
        (([c.receivedGood, c.receivedBad, c.malformed, c.roundsEntered, c.roundsWon, c.readbackErrors,
          c.resendDropped] : List Nat).flatMap (fun n => longBytes (BitVec.ofNat 32 n))) s
    (option = 0 → exec (.countersRead option crc) s = .next { s with hp := port }) ∧
    (option = 1 →
      exec (.countersRead option crc) s =
        .next { s with la := { s.la with counters := ⟨0, 0, 0, 0, 0, 0, 0⟩ }, hp := port }) ∧
    (option ≠ 0 → option ≠ 1 →
      exec (.countersRead option crc) s =
        .next { s with hp := replied .countersRead [option] crc .range [] s })

/-! The image and the station states. -/

/-- IMAGE WRITE (R149): the run of bytes is written, every other offset keeps its byte, and a run of no bytes, of more
than 64, or beyond offset 1023 is RANGE and changes nothing. -/
def Obligations.ImageWriteWritesTheRun : Prop :=
  ∀ (offset : Word) (data : List Byte) (crc : Byte) (s : State),
    Memory.wf s.sc.image = true → s.sc.state = .unconfigured →
    let ops := [hiByte offset, loByte offset, BitVec.ofNat 8 data.length] ++ data
    Arrived .imageWrite ops crc s →
    (1 ≤ data.length → data.length ≤ 64 → offset.toNat + data.length ≤ 1024 →
      ∃ image,
        exec (.imageWrite offset data crc) s =
          .next { s with sc := { s.sc with image := image }, hp := replied .imageWrite ops crc .ok [] s } ∧
        ∀ a, memRead image a =
          if h : offset.toNat ≤ a ∧ a < offset.toNat + data.length then
            data[a - offset.toNat]'(by omega)
          else memRead s.sc.image a) ∧
    (data.length < 1 ∨ 64 < data.length ∨ 1024 < offset.toNat + data.length →
      exec (.imageWrite offset data crc) s = .next { s with hp := replied .imageWrite ops crc .range [] s })

/-- SEAL starts a validation with a pending epoch of 1..255, and refuses 0 with RANGE (R152, R3); a validation that
fails returns the station to UNCONFIGURED with SEAL_RESULT, its tables and its image as they were (R156), unless a RESET
has been taken, which abandons it (R139, R152; its moment is the model's choice, log 20). The result is the code of the
first of the nine checks that fails, its detail the entry or the group at fault, and 0 when all pass (R153, R154). -/
def Obligations.SealAndFailedValidation : Prop :=
  (∀ (epoch crc : Byte) (s : State), s.sc.state = .unconfigured → Arrived .seal [epoch] crc s →
    (epoch ≠ 0 →
      exec (.seal epoch crc) s =
        .next
          { s with
            sc := { s.sc with state := .validating, pendingEpoch := some epoch }
            hp := replied .seal [epoch] crc .ok [] s }) ∧
    (epoch = 0 → exec (.seal epoch crc) s = .next { s with hp := replied .seal [epoch] crc .range [] s })) ∧
  (∀ s : State, s.sc.state = .validating → (validate s.sc.image).1 ≠ 0 →
    exec .validationFailed s =
      .next
        (if s.hp.resetPending then s
        else
          { s with
            sc := { s.sc with state := .unconfigured, pendingEpoch := none }
            nq :=
              posted s
                [(.sealResult, BitVec.ofNat 16 (validate s.sc.image).1,
                  BitVec.ofNat 16 (validate s.sc.image).2)] })) ∧
  ∀ m : Memory,
    let byte (o : Nat) : Nat := (memRead m o).toNat
    let word (o : Nat) : Nat := (memRead m o ++ memRead m (o + 1)).toNat
    let p := byte 10
    let n := byte 10 + byte 11
    let groups := 13 + 7 * n
    let crcAt := groups + 4 * byte 12
    let crcGood : Prop :=
      longBytes (crc32 ((List.range crcAt).map (memRead m))) = (List.range 4).map (fun i => memRead m (crcAt + i))
    let within (low high x : Nat) : Prop := low ≤ x ∧ x ≤ high
    let header : Prop :=
      within 1 62 (byte 1) ∧ byte 2 ≤ 3 ∧ within 2 8 (byte 3) ∧ within 100 5000 (word 4) ∧ within 20 1000 (word 6)
    let tag (i : Nat) : Nat := word (13 + 7 * i)
    let pub (i : Nat) : Prop :=
      let o := 13 + 7 * i
      within 1 65534 (tag i) ∧ within 1 11 (byte (o + 2)) ∧ within 1 32 (byte (o + 3)) ∧
        (word (o + 4) = 0 ∨ within 5 60000 (word (o + 4))) ∧ byte (o + 6) ≤ 8
    let sub (i : Nat) : Prop :=
      let o := 13 + 7 * (p + i)
      within 1 65534 (tag (p + i)) ∧ within 1 32 (byte (o + 2)) ∧
        (word (o + 3) = 0 ∨ within 10 60000 (word (o + 3))) ∧ byte (o + 5) ≤ byte 12 ∧ byte (o + 6) ≤ 1
    let group (i : Nat) : Prop :=
      let o := groups + 4 * i
      within 1 8 (byte o) ∧ within 5 5000 (word (o + 1)) ∧ byte (o + 3) ≤ 1
    let again (i : Nat) : Prop := ∃ j < i, tag j = tag i
    let produced (k : Nat) : Nat := (List.range p).countP (fun i => byte (13 + 7 * i + 6) = k)
    let consumed (k : Nat) : Nat := (List.range (byte 11)).countP (fun i => byte (13 + 7 * (p + i) + 5) = k)
    let sound (k : Nat) : Prop := produced k = 0 ∨ within 2 8 (produced k)
    let ranges : Prop := (∀ i < p, pub i) ∧ (∀ i < byte 11, sub i) ∧ ∀ i < byte 12, group i
    let result := validate m
    (byte 0 ≠ 0x41 → result = (1, 0)) ∧
    (byte 0 = 0x41 →
      (p > 32 ∨ byte 11 > 64 ∨ byte 12 > 16 → result = (2, 0)) ∧
      (p ≤ 32 → byte 11 ≤ 64 → byte 12 ≤ 16 →
        (¬crcGood → result = (3, 0)) ∧
        (crcGood →
          (¬header → result = (4, 0)) ∧
          (header →
            (∀ i < p, ¬pub i → (∀ j < i, pub j) → result = (5, i + 1)) ∧
            (∀ i < byte 11, (∀ j < p, pub j) → ¬sub i → (∀ j < i, sub j) → result = (6, p + i + 1)) ∧
            (∀ i < byte 12, (∀ j < p, pub j) → (∀ j < byte 11, sub j) → ¬group i → (∀ j < i, group j) →
              result = (7, n + i + 1)) ∧
            (ranges →
              (∀ i < n, again i → (∀ j < i, ¬again j) → result = (8, i + 1)) ∧
              ((∀ i < n, ¬again i) →
                (∀ k i, within 1 8 k → ¬sound k → (∀ l, 1 ≤ l → l < k → sound l) → i < p →
                  byte (13 + 7 * i + 6) = k → (∀ j < i, byte (13 + 7 * j + 6) ≠ k) → result = (9, i + 1)) ∧
                ((∀ k, within 1 8 k → sound k) →
                  (∀ k, within 1 (byte 12) k → ¬within 2 8 (consumed k) →
                    (∀ l, 1 ≤ l → l < k → within 2 8 (consumed l)) → result = (9, n + k)) ∧
                  ((∀ k, within 1 (byte 12) k → within 2 8 (consumed k)) → result = (0, 0)))))))))

/-- The end of a passing validation (R155): number, epoch, settings, the tables at their post-seal values (R34, R105,
R106), the SELF record (R127), HALTED, and the two notices under the new mask; the pending epoch is absent from
then on (the model's choice, log 23). A RESET taken before it abandons the validation (R139, R152; its moment is the
model's choice, log 20). -/
def Obligations.PassedValidationLoadsTheImage : Prop :=
  ∀ s : State, s.sc.state = .validating → (validate s.sc.image).1 = 0 →
    (s.hp.resetPending = true → exec .validationPassed s = .next s) ∧
    (s.hp.resetPending = false →
    let m := s.sc.image
    let byte (o : Nat) : Nat := (memRead m o).toNat
    let word (o : Nat) : Word := memRead m o ++ memRead m (o + 1)
    let absent (n : Nat) : Option Nat := if n = 0 then none else some n
    let subs := 13 + 7 * byte 10
    let groups := subs + 7 * byte 11
    let nq := { s.nq with mask := word 8 }
    ∃ pt st ga,
      exec .validationPassed s =
        .next
          { s with
            sc :=
              { s.sc with
                state := .halted, ownNumber := some (byte 1), epoch := s.sc.pendingEpoch, pendingEpoch := none
                presenceInterval := (word 4).toNat, silenceLimit := byte 3 * (word 4).toNat }
            la :=
              { s.la with
                watching := true, rate := byte 2, lineState := .idle, gap := 0, busy := 0, synced := false }
            cu := { s.cu with window := (word 6).toNat }
            ro :=
              s.ro.map (fun p =>
                if p.number = byte 1 then { p with state := .self, epoch := s.sc.pendingEpoch } else p)
            nq := posted { s with nq := nq } [(.sealResult, 0, 0), (.stationState, 2, 2)]
            pt := pt, st := st, ga := ga } ∧
      pt.length = byte 10 ∧ st.length = byte 11 ∧ ga.length = byte 12 ∧
      (∀ i < byte 10,
        let o := 13 + 7 * i
        let blank : Buffer := ⟨List.replicate (byte (o + 3)) 0, none⟩
        pt[i]? =
          some ⟨word o, byte (o + 2), byte (o + 3), (word (o + 4)).toNat, absent (byte (o + 6)), blank, blank, .a,
            none, false, none, 0, 0, 0, .unclaimed⟩) ∧
      (∀ i < byte 11,
        let o := subs + 7 * i
        let blank : List Byte := List.replicate (byte (o + 2)) 0
        st[i]? =
          some ⟨word o, byte (o + 2), (word (o + 3)).toNat, absent (byte (o + 5)), byte (o + 6) % 2 = 1, .unheard,
            none, none, none, blank, blank, blank, none, none, 0, 0⟩) ∧
      ∀ i < byte 12,
        let o := groups + 4 * i
        ga[i]? =
          some ⟨i + 1, byte o, (word (o + 1)).toNat, byte (o + 3) % 2 = 1, none, none, none, false, none, 0, 0⟩)

/-- What a result of 0 means (R153, R154): the CRC-32 of the image good (R150, R171), valid and distinct tags, every
field in its range, options bytes with nothing but their one option set (R150, R151), every producer group with no or
2..8 members, every consumer group with 2..8. -/
def Obligations.PassedImageIsSound : Prop :=
  ∀ m : Memory, (validate m).1 = 0 →
    let byte (o : Nat) : Nat := (memRead m o).toNat
    let word (o : Nat) : Nat := (memRead m o ++ memRead m (o + 1)).toNat
    let groups := 13 + 7 * byte 10 + 7 * byte 11
    let crcAt := groups + 4 * byte 12
    longBytes (crc32 ((List.range crcAt).map (memRead m))) = (List.range 4).map (fun i => memRead m (crcAt + i)) ∧
    (100 ≤ word 4 ∧ word 4 ≤ 5000) ∧ (20 ≤ word 6 ∧ word 6 ≤ 1000) ∧
    (∀ i < byte 11, byte (13 + 7 * byte 10 + 7 * i + 6) ≤ 1) ∧ (∀ i < byte 12, byte (groups + 4 * i + 3) ≤ 1) ∧
    (memRead m 0).toNat = 0x41 ∧
    (1 ≤ (memRead m 1).toNat ∧ (memRead m 1).toNat ≤ 62) ∧ (memRead m 2).toNat ≤ 3 ∧
    (2 ≤ (memRead m 3).toNat ∧ (memRead m 3).toNat ≤ 8) ∧
    (loadPubs m).length ≤ 32 ∧ (loadSubs m).length ≤ 64 ∧ (loadGroups m).length ≤ 16 ∧
    ((loadPubs m).map PubEntry.tag ++ (loadSubs m).map SubEntry.tag).Nodup ∧
    (∀ e ∈ loadPubs m, e.tag ≠ 0 ∧ e.tag ≠ 65535 ∧ 1 ≤ e.cls ∧ e.cls ≤ 11 ∧ 1 ≤ e.len ∧ e.len ≤ 32 ∧
      (e.period = 0 ∨ 5 ≤ e.period ∧ e.period ≤ 60000) ∧
      (∀ n, e.group = some n → 1 ≤ n ∧ n ≤ 8 ∧
        2 ≤ ((loadPubs m).filter (fun x => x.group = some n)).length ∧
        ((loadPubs m).filter (fun x => x.group = some n)).length ≤ 8)) ∧
    (∀ e ∈ loadSubs m, e.tag ≠ 0 ∧ e.tag ≠ 65535 ∧ 1 ≤ e.len ∧ e.len ≤ 32 ∧
      (e.freshLimit = 0 ∨ 10 ≤ e.freshLimit ∧ e.freshLimit ≤ 60000) ∧
      (∀ k, e.group = some k → ∃ r ∈ loadGroups m, r.index = k)) ∧
    ∀ r ∈ loadGroups m, 1 ≤ r.expected ∧ r.expected ≤ 8 ∧ 5 ≤ r.limit ∧ r.limit ≤ 5000 ∧
      2 ≤ ((loadSubs m).filter (fun e => e.group = some r.index)).length ∧
      ((loadSubs m).filter (fun e => e.group = some r.index)).length ≤ 8

/-- START is taken in HALTED and refused with BUSY in VALIDATING and STATE elsewhere (R140); it starts the listen timer
at the silence limit (R141). -/
def Obligations.StartListens : Prop :=
  ∀ (crc : Byte) (s : State), Arrived .start [] crc s →
    (s.sc.state = .halted →
      exec (.start crc) s =
        .next
          { s with
            sc :=
              { s.sc with
                state := .listen
                listenTimer := if s.sc.silenceLimit = 0 then none else some s.sc.silenceLimit }
            nq := posted s [(.stationState, 3, 1)]
            hp := replied .start [] crc .ok [] s }) ∧
    (s.sc.state = .validating → exec (.start crc) s = .next { s with hp := replied .start [] crc .busy [] s }) ∧
    (s.sc.state ≠ .halted → s.sc.state ≠ .validating →
      exec (.start crc) s = .next { s with hp := replied .start [] crc .state [] s })

/-- STOP (R143): LISTEN to HALTED, ANNOUNCE and ACTIVE to LEAVING with what R144 lists, the leaving PRESENCE joined or
the one in flight renewed (R69), refused elsewhere. The sets and, with them, the in-flight subsets of a CLAIM or DEFEND
still on the line are emptied (R53; the subsets by log 14). -/
def Obligations.StopHaltsOrLeaves : Prop :=
  ∀ (crc : Byte) (s : State), Arrived .stop [] crc s →
    (s.sc.state = .listen →
      exec (.stop crc) s =
        .next
          { s with
            sc := { s.sc with state := .halted, listenTimer := none }
            nq := posted s [(.stationState, 2, 1)]
            hp := replied .stop [] crc .ok [] s }) ∧
    (s.sc.state = .announce ∨ s.sc.state = .active →
      let kept := s.sq.entries.filter QueueEntry.inFlight
      exec (.stop crc) s =
        .next
          { s with
            sc := { s.sc with state := .leaving, presenceTimer := none }
            pt := s.pt.map (fun e => { e with claim := .unclaimed, periodTimer := none })
            cu := ⟨.none, [], [], [], [], none, s.cu.window⟩
            sq :=
              if ∃ e ∈ kept, e.subject = .presence then
                { s.sq with
                  entries := kept.map (fun e => if e.subject = .presence then { e with renew := true } else e) }
              else joinQueue .presence 12 { s.sq with entries := kept }
            nq := posted s [(.stationState, 6, 1)]
            hp := replied .stop [] crc .ok [] s }) ∧
    (s.sc.state = .validating → exec (.stop crc) s = .next { s with hp := replied .stop [] crc .busy [] s }) ∧
    (s.sc.state = .unconfigured ∨ s.sc.state = .halted ∨ s.sc.state = .leaving ∨ s.sc.state = .mute →
      exec (.stop crc) s = .next { s with hp := replied .stop [] crc .state [] s })

/-! Time. -/

/-- One millisecond: the station clock counts up and wraps, and every running timer counts down (R137). While the reset
pin holds the station nothing counts (R138). -/
def Obligations.ClockTickCountsEveryTimer : Prop :=
  ∀ s : State,
    let less (t : Option Nat) : Option Nat := t.map (· - 1)
    (s.sc.resetPin = false →
      exec .stationClockTick s =
        .next
          { s with
            sc :=
              { s.sc with
                clock := BitVec.ofNat 32 ((s.sc.clock.toNat + 1) % 4294967296)
                listenTimer := less s.sc.listenTimer
                presenceTimer := less s.sc.presenceTimer }
            pt := s.pt.map (fun e => { e with periodTimer := less e.periodTimer })
            cu := { s.cu with windowTimer := less s.cu.windowTimer }
            st := s.st.map (fun e => { e with freshTimer := less e.freshTimer })
            ga := s.ga.map (fun r => { r with assembly := r.assembly.map (fun a => { a with timer := a.timer - 1 }) })
            ro := s.ro.map (fun p => { p with silenceTimer := less p.silenceTimer }) }) ∧
    (s.sc.resetPin = true → exec .stationClockTick s = .next s)

/-- The end of the listen time (R141, R39, R44): ANNOUNCE with cause 3, every tag CLAIMING, the CLAIM set filled, and
the CLAIM and PRESENCE entries joining the queue, which is empty in LISTEN (R71). -/
def Obligations.ListenExpiryAnnounces : Prop :=
  ∀ s : State, s.sc.state = .listen → s.sc.listenTimer = some 0 → s.sq.entries = [] →
    let presence (join : Nat) : QueueEntry := ⟨.presence, 12, 0, join, false, false⟩
    exec .listenTimerExpiry s =
      .next
        { s with
          sc := { s.sc with state := .announce, listenTimer := none }
          nq := posted s [(.stationState, 4, 3)]
          pt := s.pt.map (fun e => { e with claim := .claiming })
          cu := if s.pt = [] then s.cu else { s.cu with claimSet := s.pt.map PubEntry.tag, phase := .send1 }
          sq :=
            if s.pt = [] then ⟨[presence s.sq.nextJoin], s.sq.nextJoin + 1⟩
            else
              ⟨[⟨.claim, 14, 0, s.sq.nextJoin, false, false⟩, presence (s.sq.nextJoin + 1)], s.sq.nextJoin + 2⟩ }

/-- The ends of the two claim windows (R41, R42): after the first, a second CLAIM for the tags still CLAIMING, or ACTIVE
at once with none; after the second, every CLAIMING tag OWNED with CLAIM_WON, ACTIVE with cause 4, the presence and
period timers started, and VALUE entries for the committed tags. -/
def Obligations.ClaimWindowsEnd : Prop :=
  ∀ s : State, ClaimsSafe s → KeysDistinct s → s.sc.state = .announce → s.cu.windowTimer = some 0 →
    let still := s.pt.filter (fun e => e.claim = .claiming)
    let start (n : Nat) : Option Nat := if n = 0 then none else some n
    (s.cu.phase = .window1 → still ≠ [] →
      exec .firstClaimWindowExpiry s =
        .next
          { s with
            cu := { s.cu with claimSet := still.map PubEntry.tag, phase := .send2, windowTimer := none }
            sq := joined .claim 14 s.sq }) ∧
    (s.cu.phase = .window1 → still = [] →
      exec .firstClaimWindowExpiry s =
        .next
          { s with
            sc := { s.sc with state := .active, presenceTimer := start s.sc.presenceInterval }
            cu := { s.cu with phase := .none, windowTimer := none }
            nq := posted s [(.stationState, 5, 4)] }) ∧
    (s.cu.phase = .window2 →
      exec .secondClaimWindowExpiry s =
        .next
          { s with
            sc := { s.sc with state := .active, presenceTimer := start s.sc.presenceInterval }
            cu := { s.cu with phase := .none, windowTimer := none }
            pt :=
              s.pt.map (fun e =>
                if e.claim = .claiming then { e with claim := .owned, periodTimer := start e.period } else e)
            sq := joinedValues (still.filter (fun e => e.committed.isSome)) s.sq
            nq := posted s (still.map (fun e => (.claimWon, e.tag, 0)) ++ [(.stationState, 5, 4)]) })

/-- The presence timer runs free, and each expiry requests the PRESENCE entry (R133). -/
def Obligations.PresenceExpiryRequestsPresence : Prop :=
  ∀ s : State, s.sc.state = .active → s.sc.presenceTimer = some 0 →
    exec .presenceTimerExpiry s =
      .next
        { s with
          sc :=
            { s.sc with
              presenceTimer := if s.sc.presenceInterval = 0 then none else some s.sc.presenceInterval }
          sq := joined .presence 12 s.sq }

/-- The expiry of a period timer, which runs in ACTIVE alone (R28, R29): it starts again at the full period; a committed
entry without a VALUE entry requests one, and one with a VALUE entry counts a missed period. -/
def Obligations.PeriodExpiryPublishesOrMisses : Prop :=
  ∀ (tag : Word) (s : State) (e : PubEntry), KeysDistinct s → s.sc.state = .active → s.pub tag = some e →
    e.periodTimer = some 0 →
    let start (n : Nat) : Option Nat := if n = 0 then none else some n
    let queued := s.sq.entries.any (fun q => q.subject = .value tag)
    let missed := bump 65535 e.missed
    exec (.periodTimerExpiry tag) s =
      .next
        { s with
          pt :=
            s.pt.map (fun x =>
              if x.tag = tag then
                { x with
                  periodTimer := start x.period
                  missed := if e.committed.isSome ∧ queued then missed else x.missed }
              else x)
          sq := if e.committed.isSome then joined (.value tag) e.cls s.sq else s.sq
          nq :=
            if e.committed.isSome ∧ queued then posted s [(.periodMissed, tag, BitVec.ofNat 16 missed)]
            else s.nq }

/-- The expiries of a freshness timer and of a silence timer (R99, R57, R59, R132): STALE with TAG_STALE and, with
resend-on-stale, a RESEND request; SILENT with PEER_SILENT. -/
def Obligations.FreshnessAndSilenceExpire : Prop :=
  ∀ s : State,
    (∀ tag e, s.sub tag = some e → e.freshTimer = some 0 →
      exec (.freshnessTimerExpiry tag) s =
        .next
          { s with
            st := s.st.map (fun x => if x.tag = tag then { x with state := .stale, freshTimer := none } else x)
            nq := posted s [(.tagStale, tag, BitVec.ofNat 16 (e.producer.getD 0))]
            sq := if e.resendOnStale then resendJoined tag s.sc.state s.sq else s.sq
            la :=
              if e.resendOnStale then
                { s.la with counters := resendCounted tag s.sc.state s.sq s.la.counters }
              else s.la }) ∧
    ∀ n p, s.peer n = some p → p.state = .present → p.silenceTimer = some 0 →
      exec (.silenceTimerExpiry n) s =
        .next
          { s with
            ro := s.ro.map (fun x => if x.number = n then { x with state := .silent, silenceTimer := none } else x)
            nq := posted s [(.peerSilent, BitVec.ofNat 16 n, (p.epoch.getD 0).setWidth 16)] }

/-- The expiry of an assembly timer (R118, R116): with resend-on-timeout and no resend made, a RESEND request for the
first missing member and a full timer; otherwise a tear for TIMEOUT. -/
def Obligations.AssemblyExpiryResendsOrTears : Prop :=
  ∀ (k : Nat) (s : State) (r : GroupRecord) (a : Assembly), s.grp k = some r → r.assembly = some a → a.timer = 0 →
    (∀ (p : Nat) (e : SubEntry), r.resendOnTimeout = true → a.resendDone = false → (∀ i < p, a.arrived[i]? = some true) →
      a.arrived[p]? = some false → (s.members k)[p]? = some e →
      exec (.assemblyTimerExpiry k) s =
        .next
          { s with
            ga :=
              s.ga.map (fun x =>
                if x.index = k then { x with assembly := some { a with resendDone := true, timer := r.limit } }
                else x)
            sq := resendJoined e.tag s.sc.state s.sq
            la := { s.la with counters := resendCounted e.tag s.sc.state s.sq s.la.counters } }) ∧
    (r.resendOnTimeout = false ∨ a.resendDone = true →
      exec (.assemblyTimerExpiry k) s =
        .next
          { s with
            ga :=
              s.ga.map (fun x =>
                if x.index = k then { x with assembly := none, torn := bump 65535 x.torn } else x)
            nq := posted s [(.groupTorn, BitVec.ofNat 16 k, BitVec.ofNat 16 (2 * 256 + a.arrived.count true))] })

/-! Publishing. -/

/-- DRAFT WRITE (R21): the checks in their order, and the bytes of the run written into the draft buffer alone, in every
claim state. -/
def Obligations.DraftWriteWritesTheDraft : Prop :=
  ∀ (tag : Word) (offset : Byte) (data : List Byte) (crc : Byte) (s : State), IsSealed s →
    let ops := [hiByte tag, loByte tag, offset, BitVec.ofNat 8 data.length] ++ data
    let refused (st : Status) : State := { s with hp := replied .draftWrite ops crc st [] s }
    let written (old : List Byte) : List Byte :=
      old.take offset.toNat ++ data ++ old.drop (offset.toNat + data.length)
    Arrived .draftWrite ops crc s →
    (s.pub tag = none → exec (.draftWrite tag offset data crc) s = .next (refused .unknown)) ∧
    ∀ e, s.pub tag = some e →
      (data.length < 1 ∨ e.len < offset.toNat + data.length →
        exec (.draftWrite tag offset data crc) s = .next (refused .range)) ∧
      (1 ≤ data.length → offset.toNat + data.length ≤ e.len → e.flipPending = true →
        exec (.draftWrite tag offset data crc) s = .next (refused .flipPending)) ∧
      (1 ≤ data.length → offset.toNat + data.length ≤ e.len → e.flipPending = false →
        exec (.draftWrite tag offset data crc) s =
          .next
            { s with
              pt :=
                s.pt.map (fun x =>
                  if x.tag = tag then
                    match x.live with
                    | .a => { x with bufB := { x.bufB with data := written x.bufB.data } }
                    | .b => { x with bufA := { x.bufA with data := written x.bufA.data } }
                  else x)
              hp := replied .draftWrite ops crc .ok [] s })

/-- COMMIT (R22, R23, R20): the checks in their order; the draft stamped with the next generation, which becomes the
committed one; the flip at once, after which both buffers are equal, or the flip-pending mark while the entry's
frame is in flight; a VALUE entry requested for an OWNED entry in ACTIVE. -/
def Obligations.CommitStampsAndFlips : Prop :=
  ∀ (tag : Word) (crc : Byte) (s : State), IsSealed s → KeysDistinct s →
    let ops := [hiByte tag, loByte tag]
    let refused (st : Status) : State := { s with hp := replied .commit ops crc st [] s }
    Arrived .commit ops crc s →
    (s.pub tag = none → exec (.commit tag crc) s = .next (refused .unknown)) ∧
    ∀ e, s.pub tag = some e →
      (e.group.isSome → exec (.commit tag crc) s = .next (refused .grouped)) ∧
      (e.group = none → e.claim = .yielded → exec (.commit tag crc) s = .next (refused .notOwned)) ∧
      (e.group = none → e.claim ≠ .yielded → e.flipPending = true →
        exec (.commit tag crc) s = .next (refused .flipPending)) ∧
      (e.group = none → e.claim ≠ .yielded → e.flipPending = false →
        let g : Word :=
          match e.committed with
          | none => 0
          | some h => h + 1
        let stamped : Buffer := ⟨(draftBuffer e).data, some g⟩
        let flying := s.sq.entries.any (fun q => q.subject = .value tag && q.inFlight)
        ∃ e',
          e' =
              (if flying then
                { e with
                  committed := some g, flipPending := true
                  bufA := if e.live = .a then e.bufA else stamped
                  bufB := if e.live = .a then stamped else e.bufB }
              else
                { e with
                  committed := some g, bufA := stamped, bufB := stamped
                  live := if e.live = .a then .b else .a }) ∧
            exec (.commit tag crc) s =
              .next
                { s with
                  pt := s.pt.map (fun x => if x.tag = tag then e' else x)
                  sq :=
                    if e.claim = .owned ∧ s.sc.state = .active then joined (.value tag) e.cls s.sq else s.sq
                  hp := replied .commit ops crc .ok [] s })

/-- GROUP COMMIT (R26, R27): the checks in their order, none of which changes anything; then one new generation for
every member, the flip at once for the members not in flight, the flip-pending mark for one in flight, and VALUE
entries requested in table order for the OWNED members in ACTIVE. -/
def Obligations.GroupCommitStampsEveryMember : Prop :=
  ∀ (number crc : Byte) (s : State), IsSealed s → KeysDistinct s → GroupsAgree s →
    let refused (st : Status) : State := { s with hp := replied .groupCommit [number] crc st [] s }
    let members := s.pt.filter (fun e => e.group = some number.toNat)
    Arrived .groupCommit [number] crc s →
    (number.toNat < 1 ∨ 8 < number.toNat → exec (.groupCommit number crc) s = .next (refused .range)) ∧
    (1 ≤ number.toNat → number.toNat ≤ 8 →
      (members = [] → exec (.groupCommit number crc) s = .next (refused .unknown)) ∧
      ((∃ e ∈ members, e.claim = .yielded) → exec (.groupCommit number crc) s = .next (refused .notOwned)) ∧
      ((∀ e ∈ members, e.claim ≠ .yielded) → (∃ e ∈ members, e.flipPending = true) →
        exec (.groupCommit number crc) s = .next (refused .flipPending)) ∧
      (members ≠ [] → (∀ e ∈ members, e.claim ≠ .yielded ∧ e.flipPending = false) →
        let flying (t : Word) : Bool := s.sq.entries.any (fun q => q.subject = .value t && q.inFlight)
        ∃ t, exec (.groupCommit number crc) s = .next t ∧
          t = { s with pt := t.pt, sq := t.sq, hp := replied .groupCommit [number] crc .ok [] s } ∧
          t.pt.length = s.pt.length ∧
          (∀ (i : Nat) (e : PubEntry), s.pt[i]? = some e → e.group ≠ some number.toNat → t.pt[i]? = some e) ∧
          (∀ (i : Nat) (e : PubEntry), s.pt[i]? = some e → e.group = some number.toNat →
            let g : Word :=
              match e.committed with
              | none => 0
              | some h => h + 1
            let stamped : Buffer := ⟨(draftBuffer e).data, some g⟩
            t.pt[i]? =
              some
                (if flying e.tag then
                  { e with
                    committed := some g, flipPending := true
                    bufA := if e.live = .a then e.bufA else stamped
                    bufB := if e.live = .a then stamped else e.bufB }
                else
                  { e with
                    committed := some g, bufA := stamped, bufB := stamped
                    live := if e.live = .a then .b else .a })) ∧
          t.sq =
            if s.sc.state = .active then joinedValues (members.filter (fun e => e.claim = .owned)) s.sq
            else s.sq))

/-! Consumer groups. -/

/-- GROUP HOLD and GROUP RELEASE (R120, R121, R108): RANGE, UNKNOWN, HELD and NOT_HELD in their order; a hold sets the
flag alone; a release clears it and, with a ready set, makes the ready buffer of every member the shown one, with
GROUP_UPDATED. -/
def Obligations.HoldAndRelease : Prop :=
  ∀ (index crc : Byte) (s : State), IsSealed s →
    let k := index.toNat
    (Arrived .groupHold [index] crc s →
      let refused (st : Status) : State := { s with hp := replied .groupHold [index] crc st [] s }
      (k < 1 ∨ 16 < k → exec (.groupHold index crc) s = .next (refused .range)) ∧
      (1 ≤ k → k ≤ 16 → s.grp k = none → exec (.groupHold index crc) s = .next (refused .unknown)) ∧
      ∀ r, 1 ≤ k → k ≤ 16 → s.grp k = some r →
        (r.held = true → exec (.groupHold index crc) s = .next (refused .held)) ∧
        (r.held = false →
          exec (.groupHold index crc) s =
            .next
              { s with
                ga := s.ga.map (fun x => if x.index = k then { x with held := true } else x)
                hp := replied .groupHold [index] crc .ok [] s })) ∧
    (Arrived .groupRelease [index] crc s →
      let refused (st : Status) : State := { s with hp := replied .groupRelease [index] crc st [] s }
      (k < 1 ∨ 16 < k → exec (.groupRelease index crc) s = .next (refused .range)) ∧
      (1 ≤ k → k ≤ 16 → s.grp k = none → exec (.groupRelease index crc) s = .next (refused .unknown)) ∧
      ∀ r, 1 ≤ k → k ≤ 16 → s.grp k = some r →
        (r.held = false → exec (.groupRelease index crc) s = .next (refused .notHeld)) ∧
        (r.held = true → r.ready = none →
          exec (.groupRelease index crc) s =
            .next
              { s with
                ga := s.ga.map (fun x => if x.index = k then { x with held := false } else x)
                hp := replied .groupRelease [index] crc .ok [] s }) ∧
        (∀ g, r.held = true → r.ready = some g →
          exec (.groupRelease index crc) s =
            .next
              { s with
                ga :=
                  s.ga.map (fun x =>
                    if x.index = k then { x with held := false, shownGen := some g, ready := none } else x)
                st :=
                  s.st.map (fun e => if e.group = some k then { e with shown := e.ready, ready := e.shown } else e)
                nq := posted s [(.groupUpdated, BitVec.ofNat 16 k, g)]
                hp := replied .groupRelease [index] crc .ok [] s }))

/-! The line. -/

/-- Synchronising, and the declaration and clearing of a line fault (R74, R87, R88). The rest of the station's own broken
frame is not counted (R79, log 10), the gap count at a declaration is a free value of 0..4 (log 22), and a mismatch of
the bid that still waits is taken before the fault clears (R77, log 9). -/
def Obligations.SynchronisingAndLineFaults : Prop :=
  ∀ s : State,
    (s.la.watching = true → s.la.synced = false → s.la.lineState = .idle →
      exec .synchronised s = .next { s with la := { s.la with synced := true, gap := 15, busy := 0 } }) ∧
    (s.la.watching = true → s.la.lineState = .idle ∨ s.la.lineState = .receiving →
      exec .lineFaultDeclared s =
        .next
          { s with
            la :=
              { s.la with
                lineState := .fault, gap := Config.faultGap s.sc.clock % 5, busy := 1001, heardBid := none
                ownBroken := false
                counters :=
                  { s.la.counters with
                    receivedBad :=
                      if s.la.lineState = .receiving ∧ s.la.ownBroken = false then
                        bump 4294967295 s.la.counters.receivedBad
                      else s.la.counters.receivedBad } }
            nq := posted s [(.lineState, 1, 0)] }) ∧
    (s.la.lineState = .fault →
      let cleared (u : State) : State :=
        { u with
          la := { u.la with lineState := .idle, gap := 15, busy := 0, synced := true }
          nq := posted u [(.lineState, 0, 0)] }
      (s.la.bidMismatch = false → exec .lineFaultCleared s = .next (cleared s)) ∧
      (s.la.bidMismatch = true → s.la.txErrors ≤ 7 → exec .lineFaultCleared s = .next (cleared (mismatchTaken s))))

/-- A round opens (R75, R61, R7): the station contends with a complete gap, in ANNOUNCE, ACTIVE or LEAVING, with a
non-empty queue; then the head is the candidate, every entry is noted, and rounds entered counts. On an idle line the
station drives the start bit itself as soon as these conditions hold (R75, R73). -/
def Obligations.RoundOpens : Prop :=
  ∀ (idle : Nat) (s : State), s.la.synced = true → s.la.lineState = .idle →
    let opened (r : Option Round) (counters : LineCounters) : State :=
      { s with
        la :=
          { s.la with
            lineState := .round, round := r, gap := 0, counters := counters
            busy := (if 5 ≤ min 15 (s.la.gap + idle) then 0 else s.la.busy + idle) + 1 } }
    let may := s.sc.state = .announce ∨ s.sc.state = .active ∨ s.sc.state = .leaving
    (∀ e es, 10 ≤ s.la.gap + idle → may → s.sq.entries = e :: es →
      exec (.roundOpen idle) s =
        .next
          (opened
            (some
              ⟨e.join, (e :: es).map QueueEntry.join,
                BitVec.ofNat 16 (e.cls * 4096 + e.age * 64 + s.sc.ownNumber.getD 0)⟩)
            { s.la.counters with roundsEntered := bump 4294967295 s.la.counters.roundsEntered })) ∧
    (s.la.gap + idle < 10 ∨ ¬may ∨ s.sq.entries = [] →
      exec (.roundOpen idle) s = .next (opened none s.la.counters)) ∧
    (s.drives (List.replicate idle false) = true ↔ 10 ≤ s.la.gap + idle ∧ may ∧ s.sq.entries ≠ [])

/-- A round is decided (R76, R62, R63, R78): not contending; lost to a higher bid, where exactly the noted entries gain
1 age, up to 63, and the queue is ordered again; won, where the candidate's send starts with the frame of its
subject. A start bit read recessive, or a bid read lower than the own one (log 8), shows a dominant bit read back
recessive, which waits for the end run (R77). In the round the station drives its start bit and the dominant bits of its
bid, and nothing from the first bit it reads otherwise (R73, R76, R77). -/
def Obligations.RoundIsDecided : Prop :=
  ∀ (bid : Word) (s : State), s.la.lineState = .round → QueueOrdered s → KeysDistinct s →
    let line : LineAccess := hearLine (msbBits bid) s.la
    let heard : LineAccess :=
      { line with lineState := .receiving, round := none, heardBid := some bid, bidMismatch := false }
    (s.la.round = none → ∀ start, exec (.roundDecided ⟨start, bid⟩) s = .next { s with la := heard }) ∧
    ∀ r, s.la.round = some r →
      (∀ read : List Bool,
        s.drives read = true ↔
          read = (true :: msbBits r.bid).take read.length ∧ (true :: msbBits r.bid)[read.length]? = some true) ∧
      exec (.roundDecided ⟨false, bid⟩) s =
        .next
          { s with
            la :=
              { hearLine (false :: msbBits bid) { s.la with gap := 10, busy := 0 } with
                lineState := .receiving, round := none, heardBid := some bid, bidMismatch := true } } ∧
      (bid.toNat < r.bid.toNat →
        exec (.roundDecided ⟨true, bid⟩) s = .next { s with la := { heard with bidMismatch := true } }) ∧
      (r.bid.toNat < bid.toNat →
        ∃ q, exec (.roundDecided ⟨true, bid⟩) s = .next { s with la := heard, sq := q } ∧
          q.nextJoin = s.sq.nextJoin ∧
          q.entries.Perm
            (s.sq.entries.map (fun e => if e.join ∈ r.noted then { e with age := bump 63 e.age } else e)) ∧
          QueueOrdered { s with sq := q }) ∧
      (∀ e, bid = r.bid → e ∈ s.sq.entries → e.join = r.candidate → (s.sq.entries.map QueueEntry.subject).Nodup →
        ∃ frame,
          exec (.roundDecided ⟨true, bid⟩) s =
            .next
              { s with
                la :=
                  { line with
                    lineState := .sending, round := none, sending := some ⟨some e.subject, bid, frame⟩ }
                sq :=
                  { s.sq with
                    entries := s.sq.entries.map (fun q => if q = e then { q with inFlight := true } else q) }
                cu :=
                  { s.cu with
                    claimFlight := if e.subject = .claim then s.cu.claimSet else s.cu.claimFlight
                    defendFlight := if e.subject = .defend then s.cu.defendSet else s.cu.defendFlight } } ∧
          frameEpoch frame = s.sc.epoch.getD 0 ∧
          (∀ tag p, e.subject = .value tag → s.pub tag = some p →
            frame =
              .value (s.sc.epoch.getD 0) p.tag ((liveBuffer p).gen.getD 0)
                (BitVec.ofNat 8 (p.group.getD 0))
                (match p.group with
                | none => 0
                | some n => BitVec.ofNat 8 (s.pt.filter (fun x => x.group = some n)).length)
                (liveBuffer p).data) ∧
          (∀ tag, e.subject = .resend tag → frame = .resend (s.sc.epoch.getD 0) tag) ∧
          (e.subject = .claim → ∃ tags, frame = .claim (s.sc.epoch.getD 0) tags ∧ tags.Perm s.cu.claimSet ∧
            tags.Pairwise (fun a b => a.toNat ≤ b.toNat)) ∧
          (e.subject = .defend → ∃ tags, frame = .defend (s.sc.epoch.getD 0) tags ∧ tags.Perm s.cu.defendSet ∧
            tags.Pairwise (fun a b => a.toNat ≤ b.toNat)) ∧
          (e.subject = .presence →
            frame =
              .presence (s.sc.epoch.getD 0)
                (if s.sc.state = .announce then 1 else if s.sc.state = .leaving then 3 else 2)
                (BitVec.ofNat 8 s.pt.length)))

/-- A won round whose candidate was withdrawn is filled (R65): with the queued PRESENCE entry, or with a filler PRESENCE
under the bid already sent. -/
def Obligations.WithdrawnCandidateIsFilled : Prop :=
  ∀ (s : State) (r : Round), s.la.lineState = .round → s.la.round = some r →
    (∀ e ∈ s.sq.entries, e.join ≠ r.candidate) →
    let frame : Frame :=
      .presence (s.sc.epoch.getD 0) (if s.sc.state = .announce then 1 else if s.sc.state = .leaving then 3 else 2)
        (BitVec.ofNat 8 s.pt.length)
    let line (entry : Option Subject) : LineAccess :=
      { hearLine (msbBits r.bid) s.la with
        lineState := .sending, round := none, sending := some ⟨entry, r.bid, frame⟩ }
    ((∃ e ∈ s.sq.entries, e.subject = .presence) →
      exec (.roundDecided ⟨true, r.bid⟩) s =
        .next
          { s with
            la := line (some .presence)
            sq :=
              { s.sq with
                entries := s.sq.entries.map (fun e => if e.subject = .presence then { e with inFlight := true } else e) } }) ∧
    ((∀ e ∈ s.sq.entries, e.subject ≠ .presence) →
      exec (.roundDecided ⟨true, r.bid⟩) s = .next { s with la := line none })

/-- A readback mismatch of the start bit or the bid (R77, R81), taken at the end run of its round, from the round itself
or where it waits: both counts rise, no entry ages and no block is told; the eighth in a row makes the station MUTE with
cause 6. Levels that pass 1000 bit times, counted from the counts at the end of the bid, are no end of a frame, and the
command changes nothing (R87; log 6). An empty body leaves the line idle and is not counted as received bad (an end bit alone is an empty body, log
19). At an end run that also closes a frame the mismatch is taken first and the frame then handled. In FAULT it is taken
alone (log 9). -/
def Obligations.BidMismatchIsCounted : Prop :=
  ∀ (bid : Word) (levels : List Bool) (s : State), s.la.txErrors ≤ 7 →
    let taken := mismatchTaken s
    let empty := bodyOfLevels levels = []
    let closed : State :=
      { taken with
        la :=
          { taken.la with
            lineState := .idle, gap := gapAtEnd bid (levels.all (fun b => !b)), busy := 0, heardBid := none
            ownBroken := false } }
    let waits := Receiving bid s.la ∧ s.la.bidMismatch = true
    (endsInTime (mismatchCounts bid s.la) levels = true → (s.la.lineState = .round ∧ s.la.round.isSome) ∨ waits →
      exec (.bidReadbackMismatch bid levels) s =
        .next
          (if empty then closed
          else
            { taken with
              la := { taken.la with lineState := .receiving, heardBid := some bid, gap := 5, busy := 0 } })) ∧
    (s.la.lineState ≠ .fault → endsInTime (mismatchCounts bid s.la) levels = false →
      exec (.bidReadbackMismatch bid levels) s = .next s) ∧
    (waits →
      (∀ f, InTime bid (frameLevels bid f) s →
        exec (frameCommand bid f) s = exec (frameCommand bid f) taken) ∧
      (∀ kind payload, InTime bid (payloadLevels bid kind payload) s →
        exec (.malformedFrameReceived bid kind payload) s = exec (.malformedFrameReceived bid kind payload) taken) ∧
      (¬empty → InTime bid levels s →
        exec (.badFrameReceived bid levels) s = exec (.badFrameReceived bid levels) taken) ∧
      (empty → InTime bid levels s → exec (.badFrameReceived bid levels) s = .next closed)) ∧
    (s.la.lineState = .fault →
      exec (.bidReadbackMismatch bid levels) s = .next (if s.la.bidMismatch then taken else s))

/-- A good send end (R80, R66): the line idle with its counts, and by the entry sent: a VALUE counted, a pending flip
made and a newer committed generation requested again (R25); a RESEND gone; a CLAIM's tags gone and its window
started (R40), or, withdrawn from its phase, gone alone; a DEFEND's tags gone (R52); a PRESENCE gone or, renewed, kept (R69), with HALTED after the leaving one
(R144) and ACTIVE after the one of a station without publications (R44); a filler with no entry. -/
def Obligations.GoodSendEnd : Prop :=
  ∀ (s : State) (x : Sending), s.la.lineState = .sending → s.la.sending = some x → KeysDistinct s →
    let line : LineAccess :=
      { s.la with
        lineState := .idle, sending := none, txErrors := 0, gap := 0
        busy := (hearLine (frameLevels x.bid x.frame) s.la).busy
        counters := { s.la.counters with roundsWon := bump 4294967295 s.la.counters.roundsWon } }
    let without (subj : Subject) : SendQueue :=
      { s.sq with entries := s.sq.entries.filter (fun q => q.subject ≠ subj) }
    let landed (subj : Subject) : SendQueue :=
      { s.sq with entries := s.sq.entries.map (fun q => if q.subject = subj then { q with inFlight := false } else q) }
    (∀ tag e p g n c data, x.entry = some (.value tag) → x.frame = .value e tag g n c data → s.pub tag = some p →
      exec .goodSendEnd s =
        .next
          { s with
            la := line
            pt :=
              s.pt.map (fun y =>
                if y.tag = tag then
                  { y with
                    sent := bump 4294967295 y.sent
                    flipPending := false
                    live := if y.flipPending then (if y.live = .a then .b else .a) else y.live
                    bufA := if y.flipPending then draftBuffer y else y.bufA
                    bufB := if y.flipPending then draftBuffer y else y.bufB }
                else y)
            sq :=
              if (∃ h, p.committed = some h ∧ 1 ≤ (h - g).toNat ∧ (h - g).toNat ≤ 32768) ∧ p.claim = .owned ∧
                  s.sc.state = .active then
                joinQueue (.value tag) p.cls (without (.value tag))
              else without (.value tag) }) ∧
    (∀ tag, x.entry = some (.resend tag) →
      exec .goodSendEnd s = .next { s with la := line, sq := without (.resend tag) }) ∧
    (x.entry = none → exec .goodSendEnd s = .next { s with la := line }) ∧
    (x.entry = some .claim → s.cu.phase = .send1 ∨ s.cu.phase = .send2 →
      (∀ tag ∈ s.cu.claimSet, tag ∈ s.cu.claimFlight) →
      exec .goodSendEnd s =
        .next
          { s with
            la := line
            sq := without .claim
            cu :=
              { s.cu with
                claimSet := [], claimFlight := []
                phase := if s.cu.phase = .send1 then .window1 else .window2
                windowTimer := if s.cu.window = 0 then none else some s.cu.window } }) ∧
    (x.entry = some .claim → s.cu.phase ≠ .send1 → s.cu.phase ≠ .send2 →
      let rest := s.cu.claimSet.filter (fun tag => tag ∉ s.cu.claimFlight)
      exec .goodSendEnd s =
        .next
          { s with
            la := line
            cu := { s.cu with claimSet := rest, claimFlight := [] }
            sq := if rest = [] then without .claim else landed .claim }) ∧
    (x.entry = some .defend →
      let rest := s.cu.defendSet.filter (fun tag => tag ∉ s.cu.defendFlight)
      exec .goodSendEnd s =
        .next
          { s with
            la := line
            cu := { s.cu with defendSet := rest, defendFlight := [] }
            sq := if rest = [] then without .defend else landed .defend }) ∧
    (x.entry = some .presence → s.sc.state ≠ .announce →
      (∃ e ∈ s.sq.entries, e.subject = .presence ∧ e.renew = true) →
      exec .goodSendEnd s =
        .next
          { s with
            la := line
            sq :=
              { s.sq with
                entries :=
                  s.sq.entries.map (fun q =>
                    if q.subject = .presence then { q with inFlight := false, renew := false } else q) } }) ∧
    (x.entry = some .presence → (∀ e ∈ s.sq.entries, e.subject = .presence → e.renew = false) →
      (s.sc.state = .leaving →
        exec .goodSendEnd s =
          .next
            { s with
              la := line
              sq := without .presence
              sc := { s.sc with state := .halted }
              nq := posted s [(.stationState, 2, 5)] }) ∧
      (s.sc.state = .announce → s.pt = [] →
        exec .goodSendEnd s =
          .next
            { s with
              la := line
              sq := without .presence
              sc :=
                { s.sc with
                  state := .active
                  presenceTimer := if s.sc.presenceInterval = 0 then none else some s.sc.presenceInterval }
              cu := { s.cu with phase := .none, windowTimer := none }
              nq := posted s [(.stationState, 5, 4)] }) ∧
      (s.sc.state ≠ .leaving → s.sc.state ≠ .announce ∨ s.pt ≠ [] →
        exec .goodSendEnd s = .next { s with la := line, sq := without .presence }))

/-- A bad send end (R79 to R81, R67, R25, R40, R52): the counts rise, the entry stays with its age and its mark clear,
unless its tag has yielded or the station is in LEAVING, a pending flip is made and nothing is counted as sent; a
CLAIM whose set is empty leaves, and its attempt ends in ACTIVE (R43); the eighth in a row makes the station MUTE. While
it sends, the station drives the dominant bits of its body and its end bit, and nothing from the first bit it reads
otherwise (R73, R79). -/
def Obligations.BadSendEnd : Prop :=
  ∀ (s : State) (x : Sending) (bit : Nat), s.la.lineState = .sending → s.la.sending = some x →
    bit < (frameLevels x.bid x.frame).length → s.la.txErrors ≤ 7 → KeysDistinct s →
    let levels := frameLevels x.bid x.frame
    let line : LineAccess :=
      { hearLine (levels.take bit ++ [!levels.getD bit true]) s.la with
        lineState := .receiving, sending := none, heardBid := some x.bid, ownBroken := true
        txErrors := s.la.txErrors + 1
        counters := { s.la.counters with readbackErrors := bump 4294967295 s.la.counters.readbackErrors } }
    let back (subj : Subject) : SendQueue :=
      { s.sq with
        entries :=
          s.sq.entries.map (fun q => if q.subject = subj then { q with inFlight := false, renew := false } else q) }
    let without (subj : Subject) : SendQueue :=
      { s.sq with entries := s.sq.entries.filter (fun q => q.subject ≠ subj) }
    let landed (subj : Subject) : SendQueue :=
      { s.sq with entries := s.sq.entries.map (fun q => if q.subject = subj then { q with inFlight := false } else q) }
    let settled (u : State) : Out := .next (if s.la.txErrors = 7 then muted 6 u else u)
    (∀ read : List Bool,
      s.drives read = true ↔ read = levels.take read.length ∧ levels[read.length]? = some true) ∧
    (∀ tag p, x.entry = some (.value tag) → s.pub tag = some p →
      exec (.badSendEnd bit) s =
        settled
          { s with
              la := line
              pt :=
                s.pt.map (fun y =>
                  if y.tag = tag then
                    { y with
                      flipPending := false
                      live := if y.flipPending then (if y.live = .a then .b else .a) else y.live
                      bufA := if y.flipPending then draftBuffer y else y.bufA
                      bufB := if y.flipPending then draftBuffer y else y.bufB }
                  else y)
              sq :=
                if p.claim = .owned ∧ s.sc.state ≠ .leaving then back (.value tag) else without (.value tag) }) ∧
    (∀ tag, x.entry = some (.resend tag) →
      exec (.badSendEnd bit) s =
        settled
          { s with
              la := line
              sq := if s.sc.state = .leaving then without (.resend tag) else back (.resend tag) }) ∧
    (x.entry = some .presence →
      exec (.badSendEnd bit) s = settled { s with la := line, sq := back .presence }) ∧
    (x.entry = some .claim → s.sc.state ≠ .leaving → s.cu.claimSet ≠ [] →
      exec (.badSendEnd bit) s = settled { s with la := line, sq := landed .claim, cu := { s.cu with claimFlight := [] } }) ∧
    (x.entry = some .claim →
      s.sc.state = .leaving ∨
        s.cu.claimSet = [] ∧ (s.sc.state ≠ .announce ∨ s.cu.phase ≠ .send1 ∧ s.cu.phase ≠ .send2) →
      exec (.badSendEnd bit) s = settled { s with la := line, sq := without .claim, cu := { s.cu with claimFlight := [] } }) ∧
    (x.entry = some .claim → ClaimsSafe s → s.sc.state = .announce → s.cu.phase = .send1 ∨ s.cu.phase = .send2 →
      s.cu.claimSet = [] →
      exec (.badSendEnd bit) s =
        settled
          { s with
              la := line
              sq := without .claim
              cu := { s.cu with claimFlight := [], phase := .none, windowTimer := none }
              sc :=
                { s.sc with
                  state := .active
                  presenceTimer := if s.sc.presenceInterval = 0 then none else some s.sc.presenceInterval }
              nq := posted s [(.stationState, 5, 4)] }) ∧
    (x.entry = some .defend →
      exec (.badSendEnd bit) s =
        settled
          { s with
              la := line
              sq := if s.cu.defendSet = [] ∨ s.sc.state = .leaving then without .defend else landed .defend
              cu := { s.cu with defendFlight := [] } }) ∧
    (x.entry = none → exec (.badSendEnd bit) s = settled { s with la := line })

/-- Frames that are not handed on (R83, R84): one that fails a check of R83 counts received bad alone, and a whole one
that is not well formed counts malformed alone; at the end run of the frame on the line the line is idle again, and one
whose end run lies behind is counted alone (log 8). The rest of the station's own broken frame is not counted (R79). A
frame of any kind that passes 1000 bit times, counted on from before its start bit where no end run lies between, and
with its end run, ends in a line fault and is none (R87; the command changes nothing, log 6). -/
def Obligations.BadAndMalformedFramesAreCounted : Prop :=
  ∀ (bid : Word) (s : State),
    let own := (s.la.lineState = .receiving ∧ s.la.heardBid = some bid) ∧ s.la.ownBroken = true
    let after (f : LineCounters → LineCounters) (line : LineAccess → LineAccess) : State :=
      { s with la := line (lineAfter bid (if own then s.la.counters else f s.la.counters) s.la) }
    (Hears bid s →
      (∀ levels, checkBody bid (bodyOfLevels levels) = .bad → InTime bid levels s →
        exec (.badFrameReceived bid levels) s =
          .next
            (after (fun c => { c with receivedBad := bump 4294967295 c.receivedBad })
              (fun l =>
                if s.la.lineState = .receiving ∧ s.la.heardBid = some bid then
                  { l with gap := gapAtEnd bid (levels.all (fun b => !b)) }
                else l))) ∧
      ∀ kind payload, (∀ f, parsePayload kind payload = some f → Machine.wellFormed bid f = false) →
        InTime bid (payloadLevels bid kind payload) s →
        exec (.malformedFrameReceived bid kind payload) s =
          .next (after (fun c => { c with malformed := bump 4294967295 c.malformed }) (fun l => l))) ∧
    (∀ levels, ¬InTime bid levels s → exec (.badFrameReceived bid levels) s = .next s) ∧
    (∀ kind payload, ¬InTime bid (payloadLevels bid kind payload) s →
      exec (.malformedFrameReceived bid kind payload) s = .next s) ∧
    ∀ f, ¬InTime bid (frameLevels bid f) s → exec (frameCommand bid f) s = .next s

/-! Received frames. -/

/-- A VALUE frame of a subscription, grouped or not, whose length differs is rejected, and changes nothing of a member's
group (R94). One of an ungrouped subscription is accepted as newer, with the producer check before it; taken as equal; or
counted late (R93, R95 to R97, R104). The line is left as log 8 says for a frame that is not the one on the line. -/
def Obligations.UngroupedValueIsTaken : Prop :=
  ∀ (bid : Word) (epoch : Byte) (tag g : Word) (group count : Byte) (data : List Byte) (s : State) (e : SubEntry),
    HearsGood bid (.value epoch tag g group count data) s → KeysDistinct s → RosterSafe s →
    let r := entered bid (.value epoch tag g group count data) s
    let src := bidSource bid
    r.sub tag = some e →
    let put (f : SubEntry → SubEntry) : List SubEntry := r.st.map (fun x => if x.tag = tag then f x else x)
    let start (n : Nat) : Option Nat := if n = 0 then none else some n
    let filter : Option Word := if e.producer = some src then e.filter else none
    let changed : List (NoticeKind × Word × Word) :=
      match e.producer with
      | none => []
      | some p => if p = src then [] else [(.producerChanged, tag, BitVec.ofNat 16 (p * 256 + src))]
    let fresh : List (NoticeKind × Word × Word) :=
      if e.state = .stale then [(.tagFresh, tag, BitVec.ofNat 16 src)] else []
    let run := exec (.valueFrameReceived bid epoch tag g group count data) s
    (data.length ≠ e.len →
      run =
        .next
          { r with
            st := put (fun x => { x with reject := bump 65535 x.reject })
            nq := posted r [(.valueRejected, tag, BitVec.ofNat 16 data.length)] }) ∧
    (e.group = none → data.length = e.len → (∀ h, filter = some h → 1 ≤ (g - h).toNat ∧ (g - h).toNat ≤ 32768) →
      run =
        .next
          { r with
            st :=
              put (fun x =>
                { x with
                  producer := some src, filter := some g, shownGen := some g, shown := data, state := .fresh
                  freshTimer := start x.freshLimit, lastAccepted := some s.sc.clock })
            nq := posted r (changed ++ [(.tagUpdated, tag, g)] ++ fresh) }) ∧
    (e.group = none → data.length = e.len → filter = some g →
      run =
        .next
          { r with
            st :=
              put (fun x =>
                { x with state := .fresh, freshTimer := start x.freshLimit, lastAccepted := some s.sc.clock })
            nq := posted r fresh }) ∧
    (∀ h, e.group = none → data.length = e.len → filter = some h → 32769 ≤ (g - h).toNat →
      run = .next { r with st := put (fun x => { x with late := bump 65535 x.late }) })

/-- A VALUE frame of a member of a consumer group: discarded with GROUP_MISMATCH when the group fields differ (R110).
Otherwise its producer is recorded, with PRODUCER_CHANGED for another one, which makes the completed generation absent,
and an assembly from another producer is torn (R111, R116). Then, against the completed generation (R112), a late frame
is counted and an equal one taken; a newer one starts an assembly in an idle group, continues the one of its generation
(R113), tears an older one as OVERTAKEN and starts anew, or is counted late against it (R114). The last missing member
shows every member in one event, or makes them ready while the group is held (R115, R108). The line is left as log 8
says for a frame that is not the one on the line. -/
def Obligations.MemberValueLandsAndCompletes : Prop :=
  ∀ (bid : Word) (epoch : Byte) (tag g : Word) (group count : Byte) (data : List Byte) (s : State) (e : SubEntry)
    (k : Nat) (q : GroupRecord),
    HearsGood bid (.value epoch tag g group count data) s → KeysDistinct s → RosterSafe s →
    let r := entered bid (.value epoch tag g group count data) s
    let src := bidSource bid
    r.sub tag = some e → e.group = some k → r.grp k = some q → data.length = e.len →
    let start (n : Nat) : Option Nat := if n = 0 then none else some n
    let newer (h : Word) : Prop := 1 ≤ (g - h).toNat ∧ (g - h).toNat ≤ 32768
    let late (h : Word) : Prop := 32769 ≤ (g - h).toNat
    let run := exec (.valueFrameReceived bid epoch tag g group count data) s
    let matching := group.toNat = q.expected ∧ count.toNat = (r.members k).length
    let torn (code : Nat) (a : Assembly) : NoticeKind × Word × Word :=
      (.groupTorn, BitVec.ofNat 16 k, BitVec.ofNat 16 (code * 256 + a.arrived.count true))
    let changed : List (NoticeKind × Word × Word) :=
      match e.producer with
      | none => []
      | some p => if p = src then [] else [(.producerChanged, tag, BitVec.ofNat 16 (p * 256 + src))]
    let foreign : Bool := q.assembly.any (fun a => a.producer ≠ src)
    let checked : GroupRecord :=
      { q with
        assembly := if foreign then none else q.assembly
        completed := if foreign ∨ changed ≠ [] then none else q.completed
        torn := if foreign then bump 65535 q.torn else q.torn }
    let notes : List (NoticeKind × Word × Word) := changed ++ (if foreign then (q.assembly.map (torn 3)).toList else [])
    let fresh : List (NoticeKind × Word × Word) :=
      if e.state = .stale then [(.tagFresh, tag, BitVec.ofNat 16 src)] else []
    let put (f : SubEntry → SubEntry) : List SubEntry :=
      r.st.map (fun x => if x.tag = tag then f { x with producer := some src } else x)
    let taken (x : SubEntry) : SubEntry :=
      { x with state := .fresh, freshTimer := start x.freshLimit, lastAccepted := some s.sc.clock }
    let record (x : GroupRecord) : List GroupRecord := r.ga.map (fun y => if y.index = k then x else y)
    let landed : List SubEntry := put (fun x => taken { x with landing := data })
    let arrived (a : Assembly) : List Bool := a.arrived.set ((r.members k).findIdx (fun m => m.tag = tag)) true
    let blank : Assembly := ⟨g, src, epoch, (r.members k).map (fun _ => false), false, q.limit⟩
    (¬matching →
      run = .next { r with nq := posted r [(.groupMismatch, tag, BitVec.ofNat 16 (group.toNat * 256 + count.toNat))] }) ∧
    (matching →
      (∀ h, (checked.completed = some h ∧ late h) ∨
          (∃ a, checked.assembly = some a ∧ a.gen = h ∧ late h ∧ ∀ c, checked.completed = some c → newer c) →
        run =
          .next
            { r with
              st := put (fun x => { x with late := bump 65535 x.late }), ga := record checked
              nq := posted r notes }) ∧
      (checked.completed = some g →
        run = .next { r with st := put taken, ga := record checked, nq := posted r (notes ++ fresh) }) ∧
      ((∀ h, checked.completed = some h → newer h) →
        ∀ (a : Assembly) (tears : Nat) (more : List (NoticeKind × Word × Word)),
          (checked.assembly = none ∧ a = blank ∧ tears = checked.torn ∧ more = []) ∨
            (checked.assembly = some a ∧ a.gen = g ∧ tears = checked.torn ∧ more = []) ∨
            (∃ b, checked.assembly = some b ∧ newer b.gen ∧ a = blank ∧ tears = bump 65535 checked.torn ∧
              more = [torn 1 b]) →
          ((∃ b ∈ arrived a, b = false) →
            run =
              .next
                { r with
                  st := landed
                  ga := record { checked with assembly := some { a with arrived := arrived a }, torn := tears }
                  nq := posted r (notes ++ more ++ fresh) }) ∧
          ((∀ b ∈ arrived a, b = true) → q.held = false →
            run =
              .next
                { r with
                  st :=
                    landed.map (fun x =>
                      if x.group = some k then { x with shown := x.landing, landing := x.shown } else x)
                  ga :=
                    record { checked with assembly := none, shownGen := some g, completed := some g, torn := tears }
                  nq := posted r (notes ++ more ++ fresh ++ [(.groupUpdated, BitVec.ofNat 16 k, g)]) }) ∧
          ((∀ b ∈ arrived a, b = true) → q.held = true →
            run =
              .next
                { r with
                  st :=
                    landed.map (fun x =>
                      if x.group = some k then { x with ready := x.landing, landing := x.ready } else x)
                  ga :=
                    record
                      { checked with
                        assembly := none, completed := some g, ready := some g, torn := tears
                        skipped := if q.ready.isSome then bump 65535 q.skipped else q.skipped }
                  nq := posted r (notes ++ more ++ fresh) })))

/-- Evidence (R45 to R48, R51, R43): the tags of a CLAIM or a DEFEND, and the published tag of a VALUE, are weighed one
after another, each yielded, defended or left as the table gives (R46, R47): a yield with its CLAIM_LOST or
OWNERSHIP_LOST, its waiting VALUE entry gone, its tag out of both sets and their waiting entries withdrawn when emptied,
and ACTIVE at once when it empties the CLAIM set before its entry is in flight (R43); a defence with its tag in the
DEFEND set and the DEFEND entry requested or absorbed (R51). After the frame each entry has the claim state the table
gives, and the receiving side has changed in nothing. The line is left as log 8 says for a frame that is not the one on
the line. -/
def Obligations.EvidenceIsWeighed : Prop :=
  ∀ (bid : Word) (s : State), KeysDistinct s → RosterSafe s → ClaimsSafe s →
    let src := bidSource bid
    let after (ev : Evidence) (f : Frame) (tags : List Word) : State :=
      tags.foldl (weighed ev src) (entered bid f s)
    let tableOf (ev : Evidence) (c : ClaimState) : Verdict := verdict ev (s.sc.ownNumber.getD 0 < src) c
    let table (ev : Evidence) (f : Frame) (tags : List Word) : Prop :=
      let r := entered bid f s
      let t := after ev f tags
      t.st = r.st ∧ t.ga = r.ga ∧ t.ro = r.ro ∧ t.la = r.la ∧ t.hp = s.hp ∧ t.pending = s.pending ∧
      t.pt.length = s.pt.length ∧
      ∀ (i : Nat) (e : PubEntry), s.pt[i]? = some e →
        ∃ e', t.pt[i]? = some e' ∧ e' = { e with claim := e'.claim, periodTimer := e'.periodTimer } ∧
          (e.tag ∈ tags → tableOf ev e.claim = .yields →
            e'.claim = .yielded ∧ e'.periodTimer = none ∧ e.tag ∉ t.cu.claimSet ∧ e.tag ∉ t.cu.defendSet ∧
              ∀ q ∈ t.sq.entries, q.subject = .value e.tag → q.inFlight = true) ∧
          (e.tag ∈ tags → tableOf ev e.claim = .defends → e'.claim = e.claim ∧ e.tag ∈ t.cu.defendSet) ∧
          (e.tag ∉ tags ∨ tableOf ev e.claim = .ignored → e'.claim = e.claim)
    (∀ epoch tags, HearsGood bid (.claim epoch tags) s →
      exec (.claimFrameReceived bid epoch tags) s = .next (after .claim (.claim epoch tags) tags) ∧
        table .claim (.claim epoch tags) tags) ∧
    (∀ epoch tags, HearsGood bid (.defend epoch tags) s →
      exec (.defendFrameReceived bid epoch tags) s = .next (after .defend (.defend epoch tags) tags) ∧
        table .defend (.defend epoch tags) tags) ∧
    (∀ epoch tag g group count data, HearsGood bid (.value epoch tag g group count data) s →
      (s.pub tag).isSome = true →
      exec (.valueFrameReceived bid epoch tag g group count data) s =
          .next (after .value (.value epoch tag g group count data) [tag]) ∧
        table .value (.value epoch tag g group count data) [tag])

/-- A good, well-formed frame of any of the five kinds enters the roster (R128 to R131): joining, heard data, epoch and, for
a PRESENCE, presence, with their notices in that order, and on a restart the filters cleared (R101) and the assemblies
torn (R119) after them. A PRESENCE, and a frame of another kind whose tags no table holds, do nothing beyond it (R85),
and no dispatch touches the roster. The line is left as log 8 says for a frame that is not the one on the line. -/
def Obligations.PresenceEntersTheRoster : Prop :=
  ∀ (bid : Word) (f : Frame) (s : State), KeysDistinct s → RosterSafe s → HearsGood bid f s →
    let unknown : Prop :=
      match f with
      | .value _ t _ _ _ _ => s.pub t = none ∧ s.sub t = none
      | .claim _ tags => ∀ t ∈ tags, s.pub t = none
      | .defend _ tags => ∀ t ∈ tags, s.pub t = none
      | .presence _ _ _ => True
      | .resend _ t => s.pub t = none
    (unknown → exec (frameCommand bid f) s = .next (entered bid f s)) ∧
    (∃ t, exec (frameCommand bid f) s = .next t ∧ t.ro = (entered bid f s).ro) ∧
    ∃ p, s.peer (bidSource bid) = some p ∧
      (entered bid f s).ro =
        s.ro.map (fun x => if x.number = bidSource bid then peerAfter f s.sc.clock s.sc.silenceLimit x else x)

/-- A frame that carries the station's own number (R128 step 1, R145): whatever its kind, it is counted in the SELF
record, the station becomes MUTE with cause 7, and no further block sees it; in MUTE the station stays MUTE. The frame is
the one on the line, or one taken late in IDLE (log 8). While the station contends, sends or receives another frame no
such frame can end, and the command changes nothing (R68, R145; the model's choice, log 6). -/
def Obligations.DuplicateStationMutes : Prop :=
  ∀ (bid : Word) (f : Frame) (s : State), Machine.wellFormed bid f = true → s.sc.ownNumber = some (bidSource bid) →
    let seen : State :=
      { s with
        la := lineAfterGood bid s.la
        ro :=
          s.ro.map (fun x =>
            if x.number = bidSource bid then
              { x with framesHeard := bump 65535 x.framesHeard, lastHeard := some s.sc.clock }
            else x) }
    (Hears bid s → InTime bid (frameLevels bid f) s →
      exec (frameCommand bid f) s = .next (if s.sc.state = .mute then seen else muted 7 seen)) ∧
    (s.la.lineState ≠ .idle → ¬(s.la.lineState = .receiving ∧ s.la.heardBid = some bid) →
      exec (frameCommand bid f) s = .next s)

/-- A RESEND frame (R30): answered for an OWNED, committed tag in ACTIVE, with VALUE entries for the tag or for every
OWNED member of its group in table order, and counted once; otherwise it changes nothing beyond the roster. The line is
left as log 8 says for a frame that is not the one on the line. -/
def Obligations.ResendIsAnswered : Prop :=
  ∀ (bid : Word) (epoch : Byte) (tag : Word) (s : State), KeysDistinct s → RosterSafe s →
    HearsGood bid (.resend epoch tag) s →
    let r := entered bid (.resend epoch tag) s
    (∀ e, s.pub tag = some e → e.claim = .owned → e.committed.isSome = true → s.sc.state = .active →
      exec (.resendFrameReceived bid epoch tag) s =
        .next
          { r with
            sq :=
              joinedValues
                (if e.group = none then [e]
                else s.pt.filter (fun x => x.group = e.group ∧ x.claim = .owned)) s.sq
            pt :=
              s.pt.map (fun x =>
                if x.tag = tag then { x with resendServed := bump 65535 x.resendServed } else x) }) ∧
    ((∀ e, s.pub tag = some e → e.claim ≠ .owned ∨ e.committed = none ∨ s.sc.state ≠ .active) →
      exec (.resendFrameReceived bid epoch tag) s = .next r)

/-! Shared operations. -/

/-- The comparison of two generations by their distance alone (R5). -/
def Obligations.GenerationsCompareByDistance : Prop :=
  ∀ g h : Word,
    (compareGen g h = .equal ↔ (g.toNat + 65536 - h.toNat) % 65536 = 0) ∧
    (compareGen g h = .newer ↔
      1 ≤ (g.toNat + 65536 - h.toNat) % 65536 ∧ (g.toNat + 65536 - h.toNat) % 65536 ≤ 32768) ∧
    (compareGen g h = .late ↔
      32769 ≤ (g.toNat + 65536 - h.toNat) % 65536 ∧ (g.toNat + 65536 - h.toNat) % 65536 ≤ 65535)

/-- A notice emitted by a block (R165, R166): nothing but the notice queue changes; a masked kind of 1..16 creates none;
an admitted one coalesces, is appended, or is dropped and counted. -/
def Obligations.NoticesArePosted : Prop :=
  ∀ (k : NoticeKind) (subject detail : Word) (s : State),
    let code := noticeCode k
    let admitted := 17 ≤ code ∨ s.nq.mask.getLsbD (code - 1) = true
    let coalescing := k = .tagUpdated ∨ k = .groupUpdated
    let same (n : Notice) : Prop := n.kind = k ∧ n.subject = subject
    (¬admitted → s.emit k subject detail = s) ∧
    (admitted → coalescing → (∃ n ∈ s.nq.notices, same n) →
      ∃ l, s.emit k subject detail = { s with nq := { s.nq with notices := l } } ∧
        List.Forall₂ (fun old new =>
          new.kind = old.kind ∧ new.subject = old.subject ∧ new.time = old.time ∧
            (same old → new.detail = detail) ∧ (¬same old → new.detail = old.detail)) s.nq.notices l) ∧
    (admitted → ¬(coalescing ∧ ∃ n ∈ s.nq.notices, same n) → s.nq.notices.length < 32 →
      s.emit k subject detail =
        { s with nq := { s.nq with notices := s.nq.notices ++ [⟨k, subject, detail, s.sc.clock⟩] } }) ∧
    (admitted → ¬(coalescing ∧ ∃ n ∈ s.nq.notices, same n) → 32 ≤ s.nq.notices.length →
      s.emit k subject detail = { s with nq := { s.nq with lost := bump 65535 s.nq.lost } })

/-- What a frame drives onto the line is read back whole (R73, R83, R170, R14): a receiver drops the stuff bits, finds
the CRC good and the fields of the frame that was sent. A frame is at most 718 bit times long from its start bit to its
end bit, and so ends before a line fault after an idle line (R73, R87). -/
def Obligations.FramesSurviveTheLine : Prop :=
  ∀ (bid : Word) (f : Frame), Machine.wellFormed bid f = true →
    checkBody bid (bodyOfLevels (frameLevels bid f)) = .whole (frameKind f) (framePayload f) ∧
    parsePayload (frameKind f) (framePayload f) = some f ∧
    bodyLevels (frameLevels bid f) = true ∧
    (true :: msbBits bid ++ frameLevels bid f).length ≤ 718 ∧
    endsInTime (bidCounts bid) (frameLevels bid f) = true

/-! Invariants. -/

/-- Every invariant below holds at the state after reset. -/
def Obligations.InvariantsHoldAtReset : Prop :=
  let s := State.reset
  Memory.wf s.sc.image = true ∧ TxErrorsSafe s ∧ NoticesSafe s ∧ QueueOrdered s ∧ QueueBounded s ∧ ClaimsSafe s ∧
    KeysDistinct s ∧ BuffersAgree s ∧ GroupsAgree s ∧ SilentUnlessContending s ∧ RosterSafe s ∧ CountsSafe s

/-- The image memory keeps its canonical form, inside the 1024 bytes of the buffer (R148, R149). -/
def Obligations.MemoryStaysCanonical : Prop :=
  ∀ (c : Instr) (s t : State), Memory.wf s.sc.image = true → exec c s = .next t → Memory.wf t.sc.image = true

/-- The transmit error count lies in 0..8 and is 8 in MUTE alone (R81), and every count that stops lies within its
largest value (R33, R89, R104, R125, R127). -/
def Obligations.CountsStayInRange : Prop :=
  ∀ (c : Instr) (s t : State), TxErrorsSafe s → CountsSafe s → exec c s = .next t → TxErrorsSafe t ∧ CountsSafe t

/-- The notice queue stays within 32 notices, one of each coalescing kind for a subject, and loses notices only while it
is full (R163, R166, R167). -/
def Obligations.NoticeQueueStaysSafe : Prop :=
  ∀ (c : Instr) (s t : State), NoticesSafe s → exec c s = .next t → NoticesSafe t

/-- The send queue stays in the order of R60, its ages in 0..63 (R61). -/
def Obligations.SendQueueStaysOrdered : Prop :=
  ∀ (c : Instr) (s t : State), QueueOrdered s → exec c s = .next t → QueueOrdered t

/-- The send queue holds one entry for a subject, at most eight RESEND entries, and so at most 43 entries (R58, R59). -/
def Obligations.SendQueueStaysBounded : Prop :=
  (∀ (c : Instr) (s t : State), QueueBounded s → exec c s = .next t → QueueBounded t) ∧
  ∀ s : State, QueueBounded s → s.sq.entries.length ≤ 43

/-- CLAIMING is held in ANNOUNCE alone, OWNED in ACTIVE alone, and a claim phase of sending has every CLAIMING tag in the
CLAIM set (R37, R38, R43). -/
def Obligations.ClaimStatesFollowTheStation : Prop :=
  ∀ (c : Instr) (s t : State), ClaimsSafe s → exec c s = .next t → ClaimsSafe t

/-- The live generation is the committed one but while a flip is pending, the members of a producer group share one
committed generation, and no tag has two entries (R19, R23, R2). -/
def Obligations.PublicationsStayConsistent : Prop :=
  ∀ (c : Instr) (s t : State), KeysDistinct s → BuffersAgree s → GroupsAgree s → exec c s = .next t →
    KeysDistinct t ∧ BuffersAgree t ∧ GroupsAgree t

/-- The committed generation of an entry changes by COMMIT and GROUP COMMIT alone, each time by one step (R19): a command
that is no reset, no validation's end and no commit leaves every committed generation, in VALIDATING too, and a commit
leaves it or steps it once. -/
def Obligations.CommittedGenerationsStepByCommits : Prop :=
  ∀ (c : Instr) (s t : State), KeysDistinct s → GroupsAgree s → exec c s = .next t → t.sc.state ≠ .unconfigured →
    c ≠ .validationPassed ∨ s.sc.state ≠ .validating →
    t.pt.length = s.pt.length ∧
    ∀ (i : Nat) (e e' : PubEntry), s.pt[i]? = some e → t.pt[i]? = some e' →
      e'.tag = e.tag ∧
        (e'.committed = e.committed ∨
          ((∃ tag crc, c = .commit tag crc) ∨ ∃ n crc, c = .groupCommit n crc) ∧
            e'.committed = some (match e.committed with | none => 0 | some g => g + 1))

/-- While a consumer group is held before and after a command, the shown buffers of its members and its shown generation
do not change (R120). -/
def Obligations.HeldGroupsStayShown : Prop :=
  ∀ (c : Instr) (s t : State) (k : Nat) (r r' : GroupRecord), KeysDistinct s → exec c s = .next t →
    s.grp k = some r → t.grp k = some r' → r.held = true → r'.held = true →
    r'.shownGen = r.shownGen ∧ (t.members k).map SubEntry.shown = (s.members k).map SubEntry.shown

/-- The station drives the line in ANNOUNCE, ACTIVE and LEAVING alone (R75), MUTE is left by a reset alone (R145), and
number and epoch change at a passing validation and at a reset alone (R1, R3). -/
def Obligations.StationKeepsItsPromises : Prop :=
  ∀ (c : Instr) (s t : State), SilentUnlessContending s → exec c s = .next t →
    SilentUnlessContending t ∧
    (s.sc.state = .mute → t.sc.state = .mute ∨ (t.sc.state = .unconfigured ∧ t.sc.clock = 0 ∧ t.sc.ownNumber = none)) ∧
    (c ≠ .validationPassed ∨ s.sc.state ≠ .validating →
      (t.sc.ownNumber = s.sc.ownNumber ∧ t.sc.epoch = s.sc.epoch) ∨
        (t.sc.state = .unconfigured ∧ t.sc.clock = 0 ∧ t.sc.ownNumber = none ∧ t.sc.epoch = none))

/-- The roster keeps one record for each number 1..62, and the record of the own number is SELF (R127). -/
def Obligations.RosterStaysSafe : Prop :=
  ∀ (c : Instr) (s t : State), RosterSafe s → exec c s = .next t → RosterSafe t

/-- Events whose condition does not hold change nothing (the model's choice, log 6): a timer that has not run out, a
validation that ended otherwise or was abandoned (log 20), a line event in another line state. -/
def Obligations.EventsThatCannotHappenChangeNothing : Prop :=
  ∀ s : State,
    (¬(s.sc.state = .listen ∧ s.sc.listenTimer = some 0) → exec .listenTimerExpiry s = .next s) ∧
    (¬(s.sc.state = .announce ∧ s.cu.phase = .window1 ∧ s.cu.windowTimer = some 0) →
      exec .firstClaimWindowExpiry s = .next s) ∧
    (¬(s.sc.state = .announce ∧ s.cu.phase = .window2 ∧ s.cu.windowTimer = some 0) →
      exec .secondClaimWindowExpiry s = .next s) ∧
    (¬(s.sc.state = .active ∧ s.sc.presenceTimer = some 0) → exec .presenceTimerExpiry s = .next s) ∧
    (∀ tag, (∀ e, s.pub tag = some e → e.periodTimer ≠ some 0) → exec (.periodTimerExpiry tag) s = .next s) ∧
    (∀ tag, (∀ e, s.sub tag = some e → e.freshTimer ≠ some 0) → exec (.freshnessTimerExpiry tag) s = .next s) ∧
    (∀ k, (∀ r a, s.grp k = some r → r.assembly = some a → a.timer ≠ 0) →
      exec (.assemblyTimerExpiry k) s = .next s) ∧
    (∀ n, (∀ p, s.peer n = some p → p.state ≠ .present ∨ p.silenceTimer ≠ some 0) →
      exec (.silenceTimerExpiry n) s = .next s) ∧
    (¬(s.sc.state = .validating ∧ s.hp.resetPending = false ∧ (validate s.sc.image).1 = 0) →
      exec .validationPassed s = .next s) ∧
    (¬(s.sc.state = .validating ∧ s.hp.resetPending = false ∧ (validate s.sc.image).1 ≠ 0) →
      exec .validationFailed s = .next s) ∧
    (¬(s.la.watching = true ∧ s.la.synced = false ∧ s.la.lineState = .idle) → exec .synchronised s = .next s) ∧
    (¬(s.la.watching = true ∧ (s.la.lineState = .idle ∨ s.la.lineState = .receiving)) →
      exec .lineFaultDeclared s = .next s) ∧
    (s.la.lineState ≠ .fault → exec .lineFaultCleared s = .next s) ∧
    (s.la.synced = false ∨ s.la.lineState = .fault →
      ∀ bid, (∀ f, exec (frameCommand bid f) s = .next s) ∧ (∀ levels, exec (.badFrameReceived bid levels) s = .next s) ∧
        ∀ kind payload, exec (.malformedFrameReceived bid kind payload) s = .next s) ∧
    (¬(s.la.lineState = .round ∧ s.la.round.isSome) → s.la.bidMismatch = false →
      ∀ bid levels, exec (.bidReadbackMismatch bid levels) s = .next s) ∧
    (¬(s.la.synced = true ∧ s.la.lineState = .idle) → ∀ n, exec (.roundOpen n) s = .next s) ∧
    (s.la.lineState ≠ .round → ∀ read, exec (.roundDecided read) s = .next s) ∧
    (s.la.lineState ≠ .sending → exec .goodSendEnd s = .next s ∧ ∀ bit, exec (.badSendEnd bit) s = .next s)
end

