-- ==== Sys2Proof/Laws/State.lean ====
section
/-! SUPPORT. One lemma for each field of State after each named update. -/

namespace Sys2Proof.Machine

variable (s : State)

/-! setPub -/

@[simp] theorem State.setPub_sc (t : Word) (f : PubEntry → PubEntry) : (s.setPub t f).sc = s.sc := rfl
@[simp] theorem State.setPub_pt (t : Word) (f : PubEntry → PubEntry) :
    (s.setPub t f).pt = updateKey PubEntry.tag t f s.pt := rfl
@[simp] theorem State.setPub_cu (t : Word) (f : PubEntry → PubEntry) : (s.setPub t f).cu = s.cu := rfl
@[simp] theorem State.setPub_sq (t : Word) (f : PubEntry → PubEntry) : (s.setPub t f).sq = s.sq := rfl
@[simp] theorem State.setPub_la (t : Word) (f : PubEntry → PubEntry) : (s.setPub t f).la = s.la := rfl
@[simp] theorem State.setPub_st (t : Word) (f : PubEntry → PubEntry) : (s.setPub t f).st = s.st := rfl
@[simp] theorem State.setPub_ga (t : Word) (f : PubEntry → PubEntry) : (s.setPub t f).ga = s.ga := rfl
@[simp] theorem State.setPub_ro (t : Word) (f : PubEntry → PubEntry) : (s.setPub t f).ro = s.ro := rfl
@[simp] theorem State.setPub_nq (t : Word) (f : PubEntry → PubEntry) : (s.setPub t f).nq = s.nq := rfl
@[simp] theorem State.setPub_hp (t : Word) (f : PubEntry → PubEntry) : (s.setPub t f).hp = s.hp := rfl
@[simp] theorem State.setPub_pending (t : Word) (f : PubEntry → PubEntry) :
    (s.setPub t f).pending = s.pending := rfl

/-! setSub -/

@[simp] theorem State.setSub_sc (t : Word) (f : SubEntry → SubEntry) : (s.setSub t f).sc = s.sc := rfl
@[simp] theorem State.setSub_pt (t : Word) (f : SubEntry → SubEntry) : (s.setSub t f).pt = s.pt := rfl
@[simp] theorem State.setSub_cu (t : Word) (f : SubEntry → SubEntry) : (s.setSub t f).cu = s.cu := rfl
@[simp] theorem State.setSub_sq (t : Word) (f : SubEntry → SubEntry) : (s.setSub t f).sq = s.sq := rfl
@[simp] theorem State.setSub_la (t : Word) (f : SubEntry → SubEntry) : (s.setSub t f).la = s.la := rfl
@[simp] theorem State.setSub_st (t : Word) (f : SubEntry → SubEntry) :
    (s.setSub t f).st = updateKey SubEntry.tag t f s.st := rfl
@[simp] theorem State.setSub_ga (t : Word) (f : SubEntry → SubEntry) : (s.setSub t f).ga = s.ga := rfl
@[simp] theorem State.setSub_ro (t : Word) (f : SubEntry → SubEntry) : (s.setSub t f).ro = s.ro := rfl
@[simp] theorem State.setSub_nq (t : Word) (f : SubEntry → SubEntry) : (s.setSub t f).nq = s.nq := rfl
@[simp] theorem State.setSub_hp (t : Word) (f : SubEntry → SubEntry) : (s.setSub t f).hp = s.hp := rfl
@[simp] theorem State.setSub_pending (t : Word) (f : SubEntry → SubEntry) :
    (s.setSub t f).pending = s.pending := rfl

/-! setGrp -/

@[simp] theorem State.setGrp_sc (k : Nat) (f : GroupRecord → GroupRecord) : (s.setGrp k f).sc = s.sc := rfl
@[simp] theorem State.setGrp_pt (k : Nat) (f : GroupRecord → GroupRecord) : (s.setGrp k f).pt = s.pt := rfl
@[simp] theorem State.setGrp_cu (k : Nat) (f : GroupRecord → GroupRecord) : (s.setGrp k f).cu = s.cu := rfl
@[simp] theorem State.setGrp_sq (k : Nat) (f : GroupRecord → GroupRecord) : (s.setGrp k f).sq = s.sq := rfl
@[simp] theorem State.setGrp_la (k : Nat) (f : GroupRecord → GroupRecord) : (s.setGrp k f).la = s.la := rfl
@[simp] theorem State.setGrp_st (k : Nat) (f : GroupRecord → GroupRecord) : (s.setGrp k f).st = s.st := rfl
@[simp] theorem State.setGrp_ga (k : Nat) (f : GroupRecord → GroupRecord) :
    (s.setGrp k f).ga = updateKey GroupRecord.index k f s.ga := rfl
@[simp] theorem State.setGrp_ro (k : Nat) (f : GroupRecord → GroupRecord) : (s.setGrp k f).ro = s.ro := rfl
@[simp] theorem State.setGrp_nq (k : Nat) (f : GroupRecord → GroupRecord) : (s.setGrp k f).nq = s.nq := rfl
@[simp] theorem State.setGrp_hp (k : Nat) (f : GroupRecord → GroupRecord) : (s.setGrp k f).hp = s.hp := rfl
@[simp] theorem State.setGrp_pending (k : Nat) (f : GroupRecord → GroupRecord) :
    (s.setGrp k f).pending = s.pending := rfl

/-! setPeer -/

@[simp] theorem State.setPeer_sc (n : Nat) (f : Peer → Peer) : (s.setPeer n f).sc = s.sc := rfl
@[simp] theorem State.setPeer_pt (n : Nat) (f : Peer → Peer) : (s.setPeer n f).pt = s.pt := rfl
@[simp] theorem State.setPeer_cu (n : Nat) (f : Peer → Peer) : (s.setPeer n f).cu = s.cu := rfl
@[simp] theorem State.setPeer_sq (n : Nat) (f : Peer → Peer) : (s.setPeer n f).sq = s.sq := rfl
@[simp] theorem State.setPeer_la (n : Nat) (f : Peer → Peer) : (s.setPeer n f).la = s.la := rfl
@[simp] theorem State.setPeer_st (n : Nat) (f : Peer → Peer) : (s.setPeer n f).st = s.st := rfl
@[simp] theorem State.setPeer_ga (n : Nat) (f : Peer → Peer) : (s.setPeer n f).ga = s.ga := rfl
@[simp] theorem State.setPeer_ro (n : Nat) (f : Peer → Peer) :
    (s.setPeer n f).ro = updateKey Peer.number n f s.ro := rfl
@[simp] theorem State.setPeer_nq (n : Nat) (f : Peer → Peer) : (s.setPeer n f).nq = s.nq := rfl
@[simp] theorem State.setPeer_hp (n : Nat) (f : Peer → Peer) : (s.setPeer n f).hp = s.hp := rfl
@[simp] theorem State.setPeer_pending (n : Nat) (f : Peer → Peer) :
    (s.setPeer n f).pending = s.pending := rfl

/-! setMembers -/

@[simp] theorem State.setMembers_sc (k : Nat) (f : SubEntry → SubEntry) : (s.setMembers k f).sc = s.sc := rfl
@[simp] theorem State.setMembers_pt (k : Nat) (f : SubEntry → SubEntry) : (s.setMembers k f).pt = s.pt := rfl
@[simp] theorem State.setMembers_cu (k : Nat) (f : SubEntry → SubEntry) : (s.setMembers k f).cu = s.cu := rfl
@[simp] theorem State.setMembers_sq (k : Nat) (f : SubEntry → SubEntry) : (s.setMembers k f).sq = s.sq := rfl
@[simp] theorem State.setMembers_la (k : Nat) (f : SubEntry → SubEntry) : (s.setMembers k f).la = s.la := rfl
@[simp] theorem State.setMembers_st (k : Nat) (f : SubEntry → SubEntry) :
    (s.setMembers k f).st = s.st.map (fun e => if e.group = some k then f e else e) := rfl
@[simp] theorem State.setMembers_ga (k : Nat) (f : SubEntry → SubEntry) : (s.setMembers k f).ga = s.ga := rfl
@[simp] theorem State.setMembers_ro (k : Nat) (f : SubEntry → SubEntry) : (s.setMembers k f).ro = s.ro := rfl
@[simp] theorem State.setMembers_nq (k : Nat) (f : SubEntry → SubEntry) : (s.setMembers k f).nq = s.nq := rfl
@[simp] theorem State.setMembers_hp (k : Nat) (f : SubEntry → SubEntry) : (s.setMembers k f).hp = s.hp := rfl
@[simp] theorem State.setMembers_pending (k : Nat) (f : SubEntry → SubEntry) :
    (s.setMembers k f).pending = s.pending := rfl

/-! count -/

@[simp] theorem State.count_sc (f : LineCounters → LineCounters) : (s.count f).sc = s.sc := rfl
@[simp] theorem State.count_pt (f : LineCounters → LineCounters) : (s.count f).pt = s.pt := rfl
@[simp] theorem State.count_cu (f : LineCounters → LineCounters) : (s.count f).cu = s.cu := rfl
@[simp] theorem State.count_sq (f : LineCounters → LineCounters) : (s.count f).sq = s.sq := rfl
@[simp] theorem State.count_la (f : LineCounters → LineCounters) :
    (s.count f).la = { s.la with counters := f s.la.counters } := rfl
@[simp] theorem State.count_st (f : LineCounters → LineCounters) : (s.count f).st = s.st := rfl
@[simp] theorem State.count_ga (f : LineCounters → LineCounters) : (s.count f).ga = s.ga := rfl
@[simp] theorem State.count_ro (f : LineCounters → LineCounters) : (s.count f).ro = s.ro := rfl
@[simp] theorem State.count_nq (f : LineCounters → LineCounters) : (s.count f).nq = s.nq := rfl
@[simp] theorem State.count_hp (f : LineCounters → LineCounters) : (s.count f).hp = s.hp := rfl
@[simp] theorem State.count_pending (f : LineCounters → LineCounters) :
    (s.count f).pending = s.pending := rfl

/-! setLine -/

@[simp] theorem State.setLine_sc (f : LineAccess → LineAccess) : (s.setLine f).sc = s.sc := rfl
@[simp] theorem State.setLine_pt (f : LineAccess → LineAccess) : (s.setLine f).pt = s.pt := rfl
@[simp] theorem State.setLine_cu (f : LineAccess → LineAccess) : (s.setLine f).cu = s.cu := rfl
@[simp] theorem State.setLine_sq (f : LineAccess → LineAccess) : (s.setLine f).sq = s.sq := rfl
@[simp] theorem State.setLine_la (f : LineAccess → LineAccess) : (s.setLine f).la = f s.la := rfl
@[simp] theorem State.setLine_st (f : LineAccess → LineAccess) : (s.setLine f).st = s.st := rfl
@[simp] theorem State.setLine_ga (f : LineAccess → LineAccess) : (s.setLine f).ga = s.ga := rfl
@[simp] theorem State.setLine_ro (f : LineAccess → LineAccess) : (s.setLine f).ro = s.ro := rfl
@[simp] theorem State.setLine_nq (f : LineAccess → LineAccess) : (s.setLine f).nq = s.nq := rfl
@[simp] theorem State.setLine_hp (f : LineAccess → LineAccess) : (s.setLine f).hp = s.hp := rfl
@[simp] theorem State.setLine_pending (f : LineAccess → LineAccess) :
    (s.setLine f).pending = s.pending := rfl

/-! answer: the fields it leaves. -/

@[simp] theorem State.answer_sc (bytes : List Byte) (crc : Byte) (st : Status) (results : List Byte) :
    (s.answer bytes crc st results).sc = s.sc := rfl
@[simp] theorem State.answer_pt (bytes : List Byte) (crc : Byte) (st : Status) (results : List Byte) :
    (s.answer bytes crc st results).pt = s.pt := rfl
@[simp] theorem State.answer_cu (bytes : List Byte) (crc : Byte) (st : Status) (results : List Byte) :
    (s.answer bytes crc st results).cu = s.cu := rfl
@[simp] theorem State.answer_sq (bytes : List Byte) (crc : Byte) (st : Status) (results : List Byte) :
    (s.answer bytes crc st results).sq = s.sq := rfl
@[simp] theorem State.answer_la (bytes : List Byte) (crc : Byte) (st : Status) (results : List Byte) :
    (s.answer bytes crc st results).la = s.la := rfl
@[simp] theorem State.answer_st (bytes : List Byte) (crc : Byte) (st : Status) (results : List Byte) :
    (s.answer bytes crc st results).st = s.st := rfl
@[simp] theorem State.answer_ga (bytes : List Byte) (crc : Byte) (st : Status) (results : List Byte) :
    (s.answer bytes crc st results).ga = s.ga := rfl
@[simp] theorem State.answer_ro (bytes : List Byte) (crc : Byte) (st : Status) (results : List Byte) :
    (s.answer bytes crc st results).ro = s.ro := rfl
@[simp] theorem State.answer_nq (bytes : List Byte) (crc : Byte) (st : Status) (results : List Byte) :
    (s.answer bytes crc st results).nq = s.nq := rfl
@[simp] theorem State.answer_pending (bytes : List Byte) (crc : Byte) (st : Status) (results : List Byte) :
    (s.answer bytes crc st results).pending = s.pending := rfl

/-! clearFilters: the fields it leaves. -/

@[simp] theorem State.clearFilters_sc (r : Nat) : (s.clearFilters r).sc = s.sc := rfl
@[simp] theorem State.clearFilters_pt (r : Nat) : (s.clearFilters r).pt = s.pt := rfl
@[simp] theorem State.clearFilters_cu (r : Nat) : (s.clearFilters r).cu = s.cu := rfl
@[simp] theorem State.clearFilters_sq (r : Nat) : (s.clearFilters r).sq = s.sq := rfl
@[simp] theorem State.clearFilters_la (r : Nat) : (s.clearFilters r).la = s.la := rfl
@[simp] theorem State.clearFilters_ga (r : Nat) : (s.clearFilters r).ga = s.ga := rfl
@[simp] theorem State.clearFilters_ro (r : Nat) : (s.clearFilters r).ro = s.ro := rfl
@[simp] theorem State.clearFilters_nq (r : Nat) : (s.clearFilters r).nq = s.nq := rfl
@[simp] theorem State.clearFilters_hp (r : Nat) : (s.clearFilters r).hp = s.hp := rfl
@[simp] theorem State.clearFilters_pending (r : Nat) : (s.clearFilters r).pending = s.pending := rfl

/-! commitGroup: the fields it leaves. -/

@[simp] theorem commitGroup_sc (n : Nat) (g : Word) : (commitGroup n g s).sc = s.sc := rfl
@[simp] theorem commitGroup_cu (n : Nat) (g : Word) : (commitGroup n g s).cu = s.cu := rfl
@[simp] theorem commitGroup_sq (n : Nat) (g : Word) : (commitGroup n g s).sq = s.sq := rfl
@[simp] theorem commitGroup_la (n : Nat) (g : Word) : (commitGroup n g s).la = s.la := rfl
@[simp] theorem commitGroup_st (n : Nat) (g : Word) : (commitGroup n g s).st = s.st := rfl
@[simp] theorem commitGroup_ga (n : Nat) (g : Word) : (commitGroup n g s).ga = s.ga := rfl
@[simp] theorem commitGroup_ro (n : Nat) (g : Word) : (commitGroup n g s).ro = s.ro := rfl
@[simp] theorem commitGroup_nq (n : Nat) (g : Word) : (commitGroup n g s).nq = s.nq := rfl
@[simp] theorem commitGroup_hp (n : Nat) (g : Word) : (commitGroup n g s).hp = s.hp := rfl
@[simp] theorem commitGroup_pending (n : Nat) (g : Word) : (commitGroup n g s).pending = s.pending := rfl

/-! unclaimAll: the fields it leaves. -/

@[simp] theorem State.unclaimAll_sc : (s.unclaimAll).sc = s.sc := rfl
@[simp] theorem State.unclaimAll_sq : (s.unclaimAll).sq = s.sq := rfl
@[simp] theorem State.unclaimAll_la : (s.unclaimAll).la = s.la := rfl
@[simp] theorem State.unclaimAll_st : (s.unclaimAll).st = s.st := rfl
@[simp] theorem State.unclaimAll_ga : (s.unclaimAll).ga = s.ga := rfl
@[simp] theorem State.unclaimAll_ro : (s.unclaimAll).ro = s.ro := rfl
@[simp] theorem State.unclaimAll_nq : (s.unclaimAll).nq = s.nq := rfl
@[simp] theorem State.unclaimAll_hp : (s.unclaimAll).hp = s.hp := rfl
@[simp] theorem State.unclaimAll_pending : (s.unclaimAll).pending = s.pending := rfl

/-! startPeriods: the fields it leaves. -/

@[simp] theorem State.startPeriods_sc : (s.startPeriods).sc = s.sc := rfl
@[simp] theorem State.startPeriods_cu : (s.startPeriods).cu = s.cu := rfl
@[simp] theorem State.startPeriods_sq : (s.startPeriods).sq = s.sq := rfl
@[simp] theorem State.startPeriods_la : (s.startPeriods).la = s.la := rfl
@[simp] theorem State.startPeriods_st : (s.startPeriods).st = s.st := rfl
@[simp] theorem State.startPeriods_ga : (s.startPeriods).ga = s.ga := rfl
@[simp] theorem State.startPeriods_ro : (s.startPeriods).ro = s.ro := rfl
@[simp] theorem State.startPeriods_nq : (s.startPeriods).nq = s.nq := rfl
@[simp] theorem State.startPeriods_hp : (s.startPeriods).hp = s.hp := rfl
@[simp] theorem State.startPeriods_pending : (s.startPeriods).pending = s.pending := rfl

/-! startFiller: the fields it leaves. -/

@[simp] theorem State.startFiller_sc (bid : Word) : (s.startFiller bid).sc = s.sc := rfl
@[simp] theorem State.startFiller_pt (bid : Word) : (s.startFiller bid).pt = s.pt := rfl
@[simp] theorem State.startFiller_cu (bid : Word) : (s.startFiller bid).cu = s.cu := rfl
@[simp] theorem State.startFiller_sq (bid : Word) : (s.startFiller bid).sq = s.sq := rfl
@[simp] theorem State.startFiller_st (bid : Word) : (s.startFiller bid).st = s.st := rfl
@[simp] theorem State.startFiller_ga (bid : Word) : (s.startFiller bid).ga = s.ga := rfl
@[simp] theorem State.startFiller_ro (bid : Word) : (s.startFiller bid).ro = s.ro := rfl
@[simp] theorem State.startFiller_nq (bid : Word) : (s.startFiller bid).nq = s.nq := rfl
@[simp] theorem State.startFiller_hp (bid : Word) : (s.startFiller bid).hp = s.hp := rfl
@[simp] theorem State.startFiller_pending (bid : Word) : (s.startFiller bid).pending = s.pending := rfl

/-! startEntry: the fields it leaves. -/

@[simp] theorem State.startEntry_sc (bid : Word) (subj : Subject) : (s.startEntry bid subj).sc = s.sc := rfl
@[simp] theorem State.startEntry_pt (bid : Word) (subj : Subject) : (s.startEntry bid subj).pt = s.pt := rfl
@[simp] theorem State.startEntry_st (bid : Word) (subj : Subject) : (s.startEntry bid subj).st = s.st := rfl
@[simp] theorem State.startEntry_ga (bid : Word) (subj : Subject) : (s.startEntry bid subj).ga = s.ga := rfl
@[simp] theorem State.startEntry_ro (bid : Word) (subj : Subject) : (s.startEntry bid subj).ro = s.ro := rfl
@[simp] theorem State.startEntry_nq (bid : Word) (subj : Subject) : (s.startEntry bid subj).nq = s.nq := rfl
@[simp] theorem State.startEntry_hp (bid : Word) (subj : Subject) : (s.startEntry bid subj).hp = s.hp := rfl
@[simp] theorem State.startEntry_pending (bid : Word) (subj : Subject) :
    (s.startEntry bid subj).pending = s.pending := rfl

/-! closeFrame: the fields it leaves. -/

@[simp] theorem State.closeFrame_sc (bid : Word) (empty : Bool) : (s.closeFrame bid empty).sc = s.sc := rfl
@[simp] theorem State.closeFrame_pt (bid : Word) (empty : Bool) : (s.closeFrame bid empty).pt = s.pt := rfl
@[simp] theorem State.closeFrame_cu (bid : Word) (empty : Bool) : (s.closeFrame bid empty).cu = s.cu := rfl
@[simp] theorem State.closeFrame_sq (bid : Word) (empty : Bool) : (s.closeFrame bid empty).sq = s.sq := rfl
@[simp] theorem State.closeFrame_st (bid : Word) (empty : Bool) : (s.closeFrame bid empty).st = s.st := rfl
@[simp] theorem State.closeFrame_ga (bid : Word) (empty : Bool) : (s.closeFrame bid empty).ga = s.ga := rfl
@[simp] theorem State.closeFrame_ro (bid : Word) (empty : Bool) : (s.closeFrame bid empty).ro = s.ro := rfl
@[simp] theorem State.closeFrame_nq (bid : Word) (empty : Bool) : (s.closeFrame bid empty).nq = s.nq := rfl
@[simp] theorem State.closeFrame_hp (bid : Word) (empty : Bool) : (s.closeFrame bid empty).hp = s.hp := rfl
@[simp] theorem State.closeFrame_pending (bid : Word) (empty : Bool) :
    (s.closeFrame bid empty).pending = s.pending := rfl

/-! receiveAfter: the fields it leaves. -/

@[simp] theorem State.receiveAfter_sc (bid : Word) (m : Bool) : (s.receiveAfter bid m).sc = s.sc := rfl
@[simp] theorem State.receiveAfter_pt (bid : Word) (m : Bool) : (s.receiveAfter bid m).pt = s.pt := rfl
@[simp] theorem State.receiveAfter_cu (bid : Word) (m : Bool) : (s.receiveAfter bid m).cu = s.cu := rfl
@[simp] theorem State.receiveAfter_sq (bid : Word) (m : Bool) : (s.receiveAfter bid m).sq = s.sq := rfl
@[simp] theorem State.receiveAfter_st (bid : Word) (m : Bool) : (s.receiveAfter bid m).st = s.st := rfl
@[simp] theorem State.receiveAfter_ga (bid : Word) (m : Bool) : (s.receiveAfter bid m).ga = s.ga := rfl
@[simp] theorem State.receiveAfter_ro (bid : Word) (m : Bool) : (s.receiveAfter bid m).ro = s.ro := rfl
@[simp] theorem State.receiveAfter_nq (bid : Word) (m : Bool) : (s.receiveAfter bid m).nq = s.nq := rfl
@[simp] theorem State.receiveAfter_hp (bid : Word) (m : Bool) : (s.receiveAfter bid m).hp = s.hp := rfl
@[simp] theorem State.receiveAfter_pending (bid : Word) (m : Bool) :
    (s.receiveAfter bid m).pending = s.pending := rfl

end Sys2Proof.Machine
end

