-- ==== Sys2Proof/Laws/Operations.lean ====
section
/-! SUPPORT. What each shared operation can do, said once: lookups and updates by key, notices, requests, the entries
into MUTE and LEAVING, and taking a host command. -/

namespace Sys2Proof.Machine

/-! Counts and tables. -/

theorem satInc_eq_bump (top n : Nat) : satInc top n = bump top n := rfl

theorem satInc_le {top n : Nat} (h : n ≤ top) : satInc top n ≤ top := by
  unfold satInc; split <;> omega

section Tables
variable {α κ : Type} [DecidableEq κ] {key : α → κ} {k : κ} {f : α → α} {l : List α}

theorem lookupKey_some {a : α} (h : lookupKey key k l = some a) : a ∈ l ∧ key a = k := by
  unfold lookupKey at h
  exact ⟨List.mem_of_find?_eq_some h, by simpa using List.find?_some h⟩

theorem lookupKey_none (h : lookupKey key k l = none) : ∀ a ∈ l, key a ≠ k := by
  unfold lookupKey at h
  simpa using h

theorem lookupKey_of_mem {a : α} (hn : (l.map key).Nodup) (ha : a ∈ l) (hk : key a = k) :
    lookupKey key k l = some a := by
  unfold lookupKey
  induction l with
  | nil => cases ha
  | cons b rest ih =>
    simp only [List.map_cons, List.nodup_cons, List.mem_map, not_exists, not_and] at hn
    rcases List.mem_cons.1 ha with rfl | hm
    · simp [hk]
    · have hb : key b ≠ k := fun e => hn.1 a hm (by rw [hk, e])
      simp [hb, ih hn.2 hm]

theorem updateKey_keys (hf : ∀ a, key a = k → key (f a) = k) : (updateKey key k f l).map key = l.map key := by
  unfold updateKey
  simp only [List.map_map]
  apply List.map_congr_left
  intro a _
  simp only [Function.comp]
  split
  · next h => rw [hf a h, h]
  · rfl

/-- The record of the changed key after an update that keeps it. -/
theorem lookupKey_updateKey (hf : ∀ a, key a = k → key (f a) = k) :
    lookupKey key k (updateKey key k f l) = (lookupKey key k l).map f := by
  unfold lookupKey updateKey
  induction l with
  | nil => rfl
  | cons a rest ih =>
    by_cases h : key a = k
    · simp [h, hf a h]
    · simp [h, ih]

theorem mem_updateKey {b : α} (h : b ∈ updateKey key k f l) :
    b ∈ l ∨ ∃ a ∈ l, key a = k ∧ b = f a := by
  unfold updateKey at h
  obtain ⟨a, ha, rfl⟩ := List.mem_map.1 h
  split
  · next e => exact .inr ⟨a, ha, e, rfl⟩
  · exact .inl ha

end Tables

/-! Lookups after updates of the same key. -/

theorem State.pub_setPub (s : State) (t : Word) (f : PubEntry → PubEntry) (hf : ∀ e, (f e).tag = e.tag) :
    (s.setPub t f).pub t = (s.pub t).map f :=
  lookupKey_updateKey (fun a h => (hf a).trans h)

theorem State.sub_setSub (s : State) (t : Word) (f : SubEntry → SubEntry) (hf : ∀ e, (f e).tag = e.tag) :
    (s.setSub t f).sub t = (s.sub t).map f :=
  lookupKey_updateKey (fun a h => (hf a).trans h)

theorem State.grp_setGrp (s : State) (k : Nat) (f : GroupRecord → GroupRecord) (hf : ∀ e, (f e).index = e.index) :
    (s.setGrp k f).grp k = (s.grp k).map f :=
  lookupKey_updateKey (fun a h => (hf a).trans h)

theorem State.peer_setPeer (s : State) (n : Nat) (f : Peer → Peer) (hf : ∀ e, (f e).number = e.number) :
    (s.setPeer n f).peer n = (s.peer n).map f :=
  lookupKey_updateKey (fun a h => (hf a).trans h)

/-! Distinct keys (R2, R106). -/

theorem KeysDistinct.pub_tags {s : State} (h : KeysDistinct s) : (s.pt.map PubEntry.tag).Nodup :=
  (List.nodup_append.1 h.1).1

theorem KeysDistinct.sub_tags {s : State} (h : KeysDistinct s) : (s.st.map SubEntry.tag).Nodup :=
  (List.nodup_append.1 h.1).2.1

/-- With distinct tags the entry of a tag is the one a lookup finds. -/
theorem KeysDistinct.pub_eq {s : State} (h : KeysDistinct s) {t : Word} {e x : PubEntry} (he : s.pub t = some e)
    (hx : x ∈ s.pt) (ht : x.tag = t) : x = e :=
  (Option.some.inj ((lookupKey_of_mem h.pub_tags hx ht).symm.trans he))

theorem KeysDistinct.sub_eq {s : State} (h : KeysDistinct s) {t : Word} {e x : SubEntry} (he : s.sub t = some e)
    (hx : x ∈ s.st) (ht : x.tag = t) : x = e :=
  (Option.some.inj ((lookupKey_of_mem h.sub_tags hx ht).symm.trans he))

theorem KeysDistinct.grp_eq {s : State} (h : KeysDistinct s) {k : Nat} {e x : GroupRecord} (he : s.grp k = some e)
    (hx : x ∈ s.ga) (ht : x.index = k) : x = e :=
  (Option.some.inj ((lookupKey_of_mem h.2 hx ht).symm.trans he))

/-! Notices (R165, R166). -/

@[simp] theorem posted_nil (s : State) : posted s [] = s.nq := rfl

/-- The notices of an event depend on the notice queue and the clock alone. -/
theorem posted_congr {s t : State} (l : List (NoticeKind × Word × Word)) (hn : s.nq = t.nq)
    (hc : s.sc.clock = t.sc.clock) : posted s l = posted t l := by
  unfold posted; rw [hn, hc]

theorem posted_append (s : State) (a b : List (NoticeKind × Word × Word)) :
    posted s (a ++ b) = posted { s with nq := posted s a } b := by
  unfold posted; simp

/-- An emitted notice changes the notice queue alone. -/
theorem emit_eq (k : NoticeKind) (a b : Word) (s : State) :
    s.emit k a b = { s with nq := posted s [(k, a, b)] } := by
  unfold State.emit posted
  by_cases h : admits s.nq.mask k <;> simp [h]

theorem emitStation_eq (cause : Nat) (s : State) :
    s.emitStation cause =
      { s with
        nq := posted s [(.stationState, BitVec.ofNat 16 (stationCode s.sc.state), BitVec.ofNat 16 cause)] } :=
  emit_eq _ _ _ _

/-- The mask is never changed by a notice. -/
@[simp] theorem posted_mask (s : State) (l : List (NoticeKind × Word × Word)) : (posted s l).mask = s.nq.mask := by
  suffices h : ∀ (l : List (NoticeKind × Word × Word)) (q : NoticeQueue) (c : Clock),
      (l.foldl (fun q n => if admits q.mask n.1 then postNotice c n.1 n.2.1 n.2.2 q else q) q).mask = q.mask from
    h l s.nq s.sc.clock
  intro l
  induction l with
  | nil => intro q c; rfl
  | cons n rest ih =>
    intro q c
    simp only [List.foldl_cons]
    rw [ih]
    split
    · unfold postNotice
      split
      · rfl
      · split <;> rfl
    · rfl

/-! Requests (R57 to R59). -/

theorem hasEntry_eq (q : SendQueue) (subj : Subject) :
    hasEntry q subj = q.entries.any (fun e => e.subject = subj) := rfl

/-- A request of a kind other than RESEND: joined where SQ takes requests, nothing elsewhere. -/
theorem request_eq (subj : Subject) (s : State) (h : isResend subj = false) :
    s.request subj = if s.takesRequests then { s with sq := joined subj (s.classOf subj) s.sq } else s := by
  unfold State.request joined
  cases ht : s.takesRequests <;> simp [h, hasEntry]
  split <;> rfl

/-- A RESEND request: taken in ANNOUNCE and ACTIVE, absorbed, dropped and counted at eight, else joined. -/
theorem request_resend_eq (t : Word) (s : State) :
    s.request (.resend t) =
      { s with
        sq := resendJoined t s.sc.state s.sq
        la := { s.la with counters := resendCounted t s.sc.state s.sq s.la.counters } } := by
  unfold State.request resendJoined resendCounted State.takesRequests
  have hr : resendEntries s.sq = resendCount s.sq := rfl
  simp only [isResend, Bool.true_and, hr, hasEntry, Config.resendRoom, Config.count32, decide_eq_true_eq,
    Bool.not_eq_true', Bool.or_eq_false_iff, decide_eq_false_iff_not]
  by_cases hs : s.sc.state = .announce ∨ s.sc.state = .active
  · have hn : ¬(¬s.sc.state = .announce ∧ ¬s.sc.state = .active) := by tauto
    by_cases he : s.sq.entries.any (fun e => decide (e.subject = .resend t)) = true
    · simp only [hs, hn, he]; simp
    · by_cases h8 : 8 ≤ resendCount s.sq
      · simp only [hs, hn, he, h8]; simp [show ¬resendCount s.sq < 8 by omega, State.count, satInc, bump]
      · simp only [hs, hn, he, h8]
        simp [show resendCount s.sq < 8 by omega, State.classOf]
  · have hn : ¬s.sc.state = .announce ∧ ¬s.sc.state = .active := by tauto
    simp [hn]

/-- A VALUE request for a tag: joined for an OWNED entry in ACTIVE alone (R23). -/
theorem requestValue_eq (t : Word) (s : State) {e : PubEntry} (h : s.pub t = some e) :
    s.requestValue t =
      if e.claim = .owned ∧ s.sc.state = .active then { s with sq := joined (.value t) e.cls s.sq } else s := by
  unfold State.requestValue
  rw [h]
  by_cases hc : e.claim = .owned ∧ s.sc.state = .active
  · simp only [hc, and_self, if_true]
    rw [request_eq _ _ rfl]
    simp [State.takesRequests, hc.2, State.classOf, h]
  · simp [hc]

/-- VALUE requests for entries of the table that are OWNED, in ACTIVE, join in order (R27, R30, R42). -/
theorem requestValues_eq (l : List PubEntry) (s : State) (ha : s.sc.state = .active)
    (hl : ∀ e ∈ l, s.pub e.tag = some e ∧ e.claim = .owned) :
    s.requestValues (l.map PubEntry.tag) = { s with sq := joinedValues l s.sq } := by
  unfold State.requestValues joinedValues
  induction l generalizing s with
  | nil => rfl
  | cons e rest ih =>
    have he := hl e (by simp)
    simp only [List.map_cons, List.foldl_cons]
    rw [requestValue_eq _ _ he.1]
    simp only [he.2, ha, and_self, if_true]
    exact ih { s with sq := joined (.value e.tag) e.cls s.sq } ha (fun x hx => hl x (by simp [hx]))

/-! MUTE and LEAVING (R144, R145). -/

theorem enterMute_eq (cause : Nat) (s : State) : s.enterMute cause = muted (BitVec.ofNat 16 cause) s := by
  unfold State.enterMute
  simp only [emitStation_eq, State.unclaimAll, muted, emptyQueue]
  rfl

theorem enterLeaving_eq (s : State) :
    s.enterLeaving =
      { s with
        sc := { s.sc with state := .leaving, presenceTimer := none }
        sq := leaveQueue s.sq
        pt := s.pt.map (fun e => { e with claim := .unclaimed, periodTimer := none })
        cu :=
          { s.cu with
            phase := .none, claimSet := [], claimFlight := [], defendSet := [], defendFlight := []
            windowTimer := none }
        nq := posted s [(.stationState, 6, 1)] } := by
  unfold State.enterLeaving
  simp only [emitStation_eq, State.unclaimAll]
  rfl

/-! Host commands (R157 to R160). -/

theorem answer_eq (s : State) (c : Command) (ops : List Byte) (crc : Byte) (st : Status) (results : List Byte) :
    s.answer (commandCode c :: ops) crc st results = { s with hp := replied c ops crc st results s } := rfl

/-- A command that arrives is gated and then makes its own checks. -/
theorem takeCommand_arrived {c : Command} {ops : List Byte} {crc : Byte} {s : State} (act : State → Reply)
    (h : Arrived c ops crc s) :
    takeCommand c ops crc act s = finish (commandCode c :: ops) crc s (gatedReply c act s) := by
  unfold takeCommand
  simp [h.1, h.2]

/-- A taken command has three outcomes: the state unchanged, a status alone, or its effect and an OK answer. -/
theorem takeCommand_cases (c : Command) (ops : List Byte) (crc : Byte) (act : State → Reply) (s : State) :
    takeCommand c ops crc act s = s ∨
    (∃ st, takeCommand c ops crc act s = { s with hp := replied c ops crc st [] s }) ∨
    ∃ t results, gate c s.sc.state = none ∧ act s = .ok (t, results) ∧
      takeCommand c ops crc act s = { t with hp := replied c ops crc .ok results t } := by
  unfold takeCommand gatedReply
  split
  · split
    · split
      · exact .inr (.inl ⟨_, rfl⟩)
      · next hg =>
        cases ha : act s with
        | error st => exact .inr (.inl ⟨st, rfl⟩)
        | ok p => exact .inr (.inr ⟨p.1, p.2, hg, rfl, rfl⟩)
    · exact .inr (.inl ⟨_, rfl⟩)
  · exact .inl rfl

/-- The commands gated by the sealed states alone are taken in them (R162). -/
theorem gate_sealed {c : Command} {st : StationState} (hu : st ≠ .unconfigured) (hv : st ≠ .validating)
    (h : c ≠ .imageWrite ∧ c ≠ .seal ∧ c ≠ .start ∧ c ≠ .stop) : gate c st = none := by
  cases c <;> cases st <;> simp_all [gate]

end Sys2Proof.Machine
end

