-- ==== Sys2Proof/Laws/Receiving.lean ====
section
/-! SUPPORT. A received frame: LA's part, what the roster leaves of the other blocks, and the dispatch. -/

namespace Sys2Proof.Machine

/-- The state after LA has counted a well-formed frame (R84). -/
def afterGood (bid : Word) (s : State) : State := { s with la := lineAfterGood bid s.la }

/-- The receive event of a frame that is heard with no mismatch waiting: at its end run, or of a frame whose end run
lies behind (R83; log 8). -/
theorem endFrame_hears {bid : Word} {levels : List Bool} {handle : Bool → Bool → State → State} {s : State}
    (h : Hears bid s) (ht : InTime bid levels s) :
    s.endFrame bid levels handle =
      if s.la.lineState = .receiving ∧ s.la.heardBid = some bid then
        handle s.la.ownBroken false (s.closeFrame bid (levels.all (fun b => !b)))
      else handle false false s := by
  obtain ⟨h1, h2, h3, h4⟩ := h
  have ht : endsInTime (frameCounts bid s.la) levels = true := ht
  unfold State.endFrame State.takeMismatch closesFrame endedBefore
  rw [ht]
  simp only [Bool.not_true, Bool.false_eq_true, if_false]
  by_cases hc : s.la.lineState = .receiving ∧ s.la.heardBid = some bid
  · simp [h1, h3, hc.1, hc.2]
  · rw [if_neg hc]
    have hl : s.la.lineState = .idle ∨ s.sc.ownNumber ≠ some (bidSource bid) := by tauto
    simp only [h1, Bool.true_and, Bool.and_eq_true, decide_eq_true_eq, hc, if_false]
    simp [hl, h2]

/-- A frame that passes 1000 bit times is none (R87). -/
theorem endFrame_late {bid : Word} {levels : List Bool} {handle : Bool → Bool → State → State} {s : State}
    (ht : ¬InTime bid levels s) : s.endFrame bid levels handle = s := by
  have ht : endsInTime (frameCounts bid s.la) levels = false := by simpa [InTime] using ht
  unfold State.endFrame
  simp [ht]

/-- LA's part of a well-formed frame it can take (R83, R84). -/
theorem hearFrame_good {bid : Word} {f : Frame} {s : State} (h : Hears bid s) (hw : wellFormed bid f = true)
    (ht : InTime bid (frameLevels bid f) s) :
    s.hearFrame bid f = (afterGood bid s).receiveGood (bidSource bid) f := by
  unfold State.hearFrame
  have hl : (frameLevels bid f).all (fun b => !b) = false := by simp [frameLevels, payloadLevels]
  rw [endFrame_hears h ht, hl]
  unfold State.receiveFrame afterGood lineAfterGood lineAfter
  simp only [hw, if_true]
  split <;> rfl

/-- The state after LA and RO have handled a frame of another station (R84, R85 step 1). -/
def enteredBy (bid : Word) (f : Frame) (s : State) : State :=
  match (afterGood bid s).peer (bidSource bid) with
  | some p => (afterGood bid s).enterPeer (bidSource bid) f p
  | none => afterGood bid s

/-- A good frame of another station is entered in the roster and then dispatched (R85). -/
theorem hearFrame_enteredBy {bid : Word} {f : Frame} {s : State} (h : HearsGood bid f s) :
    s.hearFrame bid f = (enteredBy bid f s).dispatch (bidSource bid) f := by
  rw [hearFrame_good h.1 h.2.1 h.2.2.2]
  unfold State.receiveGood enteredBy
  have : ¬(afterGood bid s).sc.ownNumber = some (bidSource bid) := h.2.2.1
  rw [if_neg this]
  cases (afterGood bid s).peer (bidSource bid) <;> rfl

/-- What RO, ST's filter clearing and GA's tears leave of the other blocks, and the keys of the tables. -/
structure Kept (s t : State) : Prop where
  sc : t.sc = s.sc
  pt : t.pt = s.pt
  cu : t.cu = s.cu
  sq : t.sq = s.sq
  la : t.la = s.la
  hp : t.hp = s.hp
  pending : t.pending = s.pending
  subTags : t.st.map SubEntry.tag = s.st.map SubEntry.tag
  indexes : t.ga.map GroupRecord.index = s.ga.map GroupRecord.index

theorem kept_refl (s : State) : Kept s s := ⟨rfl, rfl, rfl, rfl, rfl, rfl, rfl, rfl, rfl⟩

theorem kept_trans {a b c : State} (h : Kept a b) (g : Kept b c) : Kept a c :=
  ⟨g.sc.trans h.sc, g.pt.trans h.pt, g.cu.trans h.cu, g.sq.trans h.sq, g.la.trans h.la, g.hp.trans h.hp,
    g.pending.trans h.pending, g.subTags.trans h.subTags, g.indexes.trans h.indexes⟩

theorem kept_emit (s : State) (k : NoticeKind) (a b : Word) : Kept s (s.emit k a b) := by
  rw [emit_eq]; exact ⟨rfl, rfl, rfl, rfl, rfl, rfl, rfl, rfl, rfl⟩

theorem kept_setPeer (s : State) (n : Nat) (f : Peer → Peer) : Kept s (s.setPeer n f) :=
  ⟨rfl, rfl, rfl, rfl, rfl, rfl, rfl, rfl, rfl⟩

theorem kept_setGrp (s : State) (k : Nat) (f : GroupRecord → GroupRecord) (hf : ∀ r, (f r).index = r.index) :
    Kept s (s.setGrp k f) :=
  ⟨rfl, rfl, rfl, rfl, rfl, rfl, rfl, rfl, updateKey_keys (fun a h => (hf a).trans h)⟩

theorem kept_tear (s : State) (k : Nat) (r : TearReason) (a : Assembly) : Kept s (s.tear k r a) :=
  kept_trans (kept_setGrp s k _ (by intro r; rfl)) (kept_emit _ _ _ _)

theorem kept_clearFilters (s : State) (r : Nat) : Kept s (s.clearFilters r) := by
  refine ⟨rfl, rfl, rfl, rfl, rfl, rfl, rfl, ?_, rfl⟩
  unfold State.clearFilters
  simp only [List.map_map]
  apply List.map_congr_left
  intro e _
  simp only [Function.comp]
  split <;> rfl

theorem kept_groupRestart (station : Nat) (s : State) (k : Nat) : Kept s (State.groupRestart station s k) := by
  unfold State.groupRestart
  split
  · exact kept_refl _
  · have hc : Kept s (if (s.members k).any (fun e => decide (e.producer = some station)) = true then
        s.setGrp k fun x => { x with completed := none } else s) := by
      split
      · exact kept_setGrp s k _ (by intro r; rfl)
      · exact kept_refl _
    dsimp only
    split
    · split
      · exact kept_tear _ _ _ _
      · exact hc
    · exact hc

theorem kept_producerRestarted (s : State) (station : Nat) : Kept s (s.producerRestarted station) := by
  unfold State.producerRestarted
  have fold : ∀ (l : List Nat) (u : State), Kept u (l.foldl (State.groupRestart station) u) := by
    intro l
    induction l with
    | nil => intro u; exact kept_refl _
    | cons k r ih => intro u; exact kept_trans (kept_groupRestart station u k) (ih _)
  exact kept_trans (kept_clearFilters s station) (fold _ _)

theorem kept_joinPeer (s : State) (src : Nat) (f : Frame) (p : Peer) : Kept s (s.joinPeer src f p) := by
  unfold State.joinPeer
  split
  · exact kept_trans (kept_setPeer _ _ _) (kept_emit _ _ _ _)
  · exact kept_refl _

theorem kept_epochStep (s : State) (src : Nat) (recorded : Option Byte) (e : Byte) :
    Kept s (s.epochStep src recorded e) := by
  unfold State.epochStep
  split
  · exact kept_setPeer _ _ _
  · split
    · exact kept_refl _
    · exact kept_trans (kept_emit _ _ _ _) (kept_setPeer _ _ _)

theorem kept_presenceStep (s : State) (src : Nat) (standing : PeerState) (f : Frame) :
    Kept s (s.presenceStep src standing f) := by
  unfold State.presenceStep
  split
  · exact kept_refl _
  · dsimp only
    split
    · split
      · exact kept_trans (kept_trans (kept_setPeer _ _ _) (kept_setPeer _ _ _)) (kept_emit _ _ _ _)
      · exact kept_trans (kept_setPeer _ _ _) (kept_setPeer _ _ _)
    · exact kept_setPeer _ _ _

/-- The roster's handling of a frame leaves every block but RO, NQ and the working state of ST and GA. -/
theorem kept_enterPeer (s : State) (src : Nat) (f : Frame) (p : Peer) : Kept s (s.enterPeer src f p) := by
  have h :=
    kept_trans
      (kept_trans (kept_trans (kept_joinPeer s src f p) (kept_setPeer _ src _))
        (kept_epochStep ((s.joinPeer src f p).hearPeer src) src p.epoch (frameEpoch f)))
      (kept_presenceStep _ src p.state f)
  unfold State.enterPeer
  dsimp only
  split
  · exact kept_trans h (kept_producerRestarted _ _)
  · exact h

theorem kept_enteredBy (bid : Word) (f : Frame) (s : State) : Kept (afterGood bid s) (enteredBy bid f s) := by
  unfold enteredBy
  split
  · exact kept_enterPeer _ _ _ _
  · exact kept_refl _

theorem keysDistinct_enteredBy {bid : Word} {f : Frame} {s : State} (h : KeysDistinct s) :
    KeysDistinct (enteredBy bid f s) := by
  have k := kept_enteredBy bid f s
  refine ⟨?_, ?_⟩
  · rw [k.pt, k.subTags]; exact h.1
  · rw [k.indexes]; exact h.2

/-- Evidence about tags the station does not publish has no effect in CU (R45). -/
theorem weighAll_none {ev : Evidence} {src : Nat} {tags : List Word} {s : State}
    (h : ∀ t ∈ tags, s.pub t = none) : s.weighAll ev src tags = s := by
  unfold State.weighAll
  induction tags with
  | nil => rfl
  | cons t r ih =>
    simp only [List.foldl_cons]
    have : s.weigh ev src t = s := by unfold State.weigh; rw [h t (by simp)]
    rw [this]
    exact ih (fun x hx => h x (by simp [hx]))

/-! The comparison of generations by its distance (R5). -/

theorem compareGen_self (g : Word) : compareGen g g = .equal := by
  simp [compareGen]

theorem compareGen_newer {g h : Word} (low : 1 ≤ (g - h).toNat) (high : (g - h).toNat ≤ 32768) :
    compareGen g h = .newer := by
  unfold compareGen
  simp only
  rw [if_neg (by omega), if_pos high]

theorem compareGen_late {g h : Word} (low : 32769 ≤ (g - h).toNat) : compareGen g h = .late := by
  unfold compareGen
  simp only
  rw [if_neg (by omega), if_neg (by omega)]

end Sys2Proof.Machine
end

