-- ==== Sys2Proof/Laws/Entering.lean ====
section
/-! SUPPORT. The roster's handling of a frame, said once as a whole next state (R101, R119, R128 to R131). -/

namespace Sys2Proof.Machine

/-! Updates of one record. -/

section Tables
variable {α κ : Type} [DecidableEq κ] {key : α → κ} {k : κ} {l : List α}

theorem updateKey_updateKey {f g : α → α} (hg : ∀ a, key a = k → key (g a) = k) :
    updateKey key k f (updateKey key k g l) = updateKey key k (fun a => f (g a)) l := by
  unfold updateKey
  rw [List.map_map]
  apply List.map_congr_left
  intro a _
  by_cases h : key a = k
  · simp [h, hg a h]
  · simp [h]

/-- With distinct keys an update depends on the record of its key alone. -/
theorem updateKey_congr {f g : α → α} {a : α} (hn : (l.map key).Nodup) (ha : lookupKey key k l = some a)
    (hfg : f a = g a) : updateKey key k f l = updateKey key k g l := by
  unfold updateKey
  apply List.map_congr_left
  intro b hb
  by_cases h : key b = k
  · have : a = b := Option.some.inj (ha.symm.trans (lookupKey_of_mem hn hb h))
    rw [if_pos h, if_pos h, ← this, hfg]
  · simp [h]

theorem updateKey_absent {f : α → α} (h : lookupKey key k l = none) : updateKey key k f l = l := by
  unfold updateKey
  conv_rhs => rw [← List.map_id l]
  apply List.map_congr_left
  intro b hb
  simp [lookupKey_none h b hb]

theorem updateKey_id : updateKey key k id l = l := by
  unfold updateKey; simp

theorem lookupKey_updateKey_of_ne {f : α → α} {j : κ} (hf : ∀ a, key a = k → key (f a) = k) (h : j ≠ k) :
    lookupKey key j (updateKey key k f l) = lookupKey key j l := by
  unfold lookupKey updateKey
  induction l with
  | nil => rfl
  | cons a rest ih =>
    by_cases ha : key a = k
    · simp [ha, hf a ha, Ne.symm h, ih]
    · simp only [List.map_cons, ha, if_false, List.find?_cons, ih]

end Tables

/-! The restart of a station at the consumer groups (R119). -/

/-- The notice of the tear a restart makes in the group of an index (R116, R119). -/
def restartNotice (s : State) (src k : Nat) : List (NoticeKind × Word × Word) :=
  match s.grp k with
  | none => []
  | some r =>
    if r.assembly.any (fun a => a.producer = src) then
      [(.groupTorn, BitVec.ofNat 16 r.index,
        BitVec.ofNat 16 (4 * 256 + ((r.assembly.map (fun a => a.arrived.count true)).getD 0)))]
    else []

theorem groupAfterRestart_index (s : State) (src : Nat) (r : GroupRecord) :
    (groupAfterRestart s src r).index = r.index := by
  unfold groupAfterRestart
  split
  · rfl
  · split <;> rfl

/-- The restart of a station at one group (R119). -/
theorem groupRestart_eq (src k : Nat) {s : State} (hn : (s.ga.map GroupRecord.index).Nodup) :
    State.groupRestart src s k =
      { s with
        ga := updateKey GroupRecord.index k (groupAfterRestart s src) s.ga
        nq := posted s (restartNotice s src k) } := by
  unfold State.groupRestart restartNotice
  cases hg : s.grp k with
  | none => simp only [posted_nil]; rw [updateKey_absent hg]
  | some r =>
    have hi : r.index = k := (lookupKey_some hg).2
    by_cases hp : r.assembly.any (fun a => a.producer = src) = true
    · have e : groupAfterRestart s src r = { r with assembly := none, completed := none, torn := bump 65535 r.torn } :=
        if_pos hp
      cases ha : r.assembly with
      | none => simp [ha] at hp
      | some a =>
        have hs : a.producer = src := by simpa [ha] using hp
        simp only [ha, hs, if_true, Option.any_some, decide_true, State.tear, emit_eq, State.setGrp, hi]
        rw [updateKey_congr (g := groupAfterRestart s src) hn hg (e.symm ▸ rfl)]
        rfl
    · have e : groupAfterRestart s src r =
          if (s.members k).any (fun e => e.producer = some src) = true then { r with completed := none } else r := by
        rw [← hi]; exact if_neg hp
      have clear :
          (if (s.members k).any (fun e => e.producer = some src) = true then
            s.setGrp k (fun x => { x with completed := none })
          else s) =
            { s with ga := updateKey GroupRecord.index k (groupAfterRestart s src) s.ga } := by
        split
        · next hf =>
          rw [if_pos hf] at e
          unfold State.setGrp
          rw [updateKey_congr (g := groupAfterRestart s src) hn hg e.symm]
        · next hf =>
          rw [if_neg hf] at e
          rw [updateKey_congr (f := groupAfterRestart s src) (g := id) hn hg e, updateKey_id]
      simp only [hp, Bool.false_eq_true, if_false, posted_nil, clear]
      cases ha : r.assembly with
      | none => rfl
      | some a =>
        have hs : ¬a.producer = src := by simpa [ha] using hp
        simp only [hs, if_false]

/-- The restart of a station at a run of groups. -/
theorem groupRestarts_eq (src : Nat) : ∀ (ks : List Nat) (s : State), (s.ga.map GroupRecord.index).Nodup → ks.Nodup →
    ks.foldl (State.groupRestart src) s =
      { s with
        ga := s.ga.map (fun r => if r.index ∈ ks then groupAfterRestart s src r else r)
        nq := posted s (ks.flatMap (restartNotice s src)) } := by
  intro ks
  induction ks with
  | nil => intro s _ _; simp
  | cons k rest ih =>
    intro s hn hk
    obtain ⟨hk1, hk2⟩ := List.nodup_cons.1 hk
    rw [List.foldl_cons, groupRestart_eq src k hn]
    have hkeys : (updateKey GroupRecord.index k (groupAfterRestart s src) s.ga).map GroupRecord.index =
        s.ga.map GroupRecord.index :=
      updateKey_keys (fun a h => (groupAfterRestart_index s src a).trans h)
    rw [ih _ (by simpa [hkeys] using hn) hk2]
    have hnote : rest.flatMap (restartNotice
          { s with
            ga := updateKey GroupRecord.index k (groupAfterRestart s src) s.ga
            nq := posted s (restartNotice s src k) } src) = rest.flatMap (restartNotice s src) := by
      apply List.flatMap_congr
      intro j hj
      have hne : j ≠ k := fun e => hk1 (e ▸ hj)
      unfold restartNotice State.grp
      simp only
      rw [lookupKey_updateKey_of_ne (fun a h => (groupAfterRestart_index s src a).trans h) hne]
    simp only [hnote, List.flatMap_cons]
    rw [posted_append]
    congr 1
    · unfold updateKey
      rw [List.map_map]
      apply List.map_congr_left
      intro r _
      by_cases h : r.index = k
      · have : (groupAfterRestart s src r).index ∉ rest := by rw [groupAfterRestart_index, h]; exact hk1
        simp [h, this]
      · have : ∀ x : State, x.st = s.st → groupAfterRestart x src r = groupAfterRestart s src r := by
          intro x hx; unfold groupAfterRestart State.members; rw [hx]
        simp [h, this]

/-- The restart of a station at ST and GA (R101, R119). -/
theorem producerRestarted_eq (src : Nat) {s : State} (hn : (s.ga.map GroupRecord.index).Nodup) :
    s.producerRestarted src =
      { s with
        st := s.st.map (fun e => if e.group = none ∧ e.producer = some src then { e with filter := none } else e)
        ga := s.ga.map (groupAfterRestart s src)
        nq := posted s (tornNotices s src) } := by
  have hm : ∀ k, ((s.clearFilters src).members k) = s.members k := by
    intro k
    unfold State.members State.clearFilters
    simp only [List.filter_map]
    have : ((fun e : SubEntry => decide (e.group = some k)) ∘ fun e =>
        if e.group = none ∧ e.producer = some src then { e with filter := none } else e) =
        fun e => decide (e.group = some k) := by
      funext e; simp only [Function.comp]; split <;> rfl
    rw [this]
    conv_rhs => rw [← List.map_id (s.st.filter _)]
    apply List.map_congr_left
    intro e he
    have : e.group = some k := by simpa using (List.mem_filter.1 he).2
    simp [this]
  have ha : ∀ r, groupAfterRestart (s.clearFilters src) src r = groupAfterRestart s src r := by
    intro r; unfold groupAfterRestart; rw [hm]
  have hc : ((s.clearFilters src).ga.map GroupRecord.index).Nodup := hn
  unfold State.producerRestarted
  simp only
  rw [groupRestarts_eq src _ _ hc hc]
  have hnote : ((s.clearFilters src).ga.map GroupRecord.index).flatMap (restartNotice (s.clearFilters src) src) =
      tornNotices s src := by
    have hl : ∀ l : List GroupRecord, (∀ r ∈ l, s.grp r.index = some r) →
        (l.map GroupRecord.index).flatMap (restartNotice (s.clearFilters src) src) =
          (l.filter (fun r => r.assembly.any (fun a => a.producer = src))).map (fun r =>
            (.groupTorn, BitVec.ofNat 16 r.index,
              BitVec.ofNat 16 (4 * 256 + ((r.assembly.map (fun a => a.arrived.count true)).getD 0)))) := by
      intro l
      induction l with
      | nil => intro _; rfl
      | cons r rest ih =>
        intro h
        have hr : (s.clearFilters src).grp r.index = some r := h r (by simp)
        rw [List.map_cons, List.flatMap_cons, ih (fun x hx => h x (by simp [hx])), List.filter_cons]
        unfold restartNotice
        simp only [hr]
        split <;> rfl
    exact hl s.ga (fun r hr => lookupKey_of_mem hn hr rfl)
  rw [hnote]
  have hg : (s.clearFilters src).ga.map (fun r =>
      if r.index ∈ (s.clearFilters src).ga.map GroupRecord.index then groupAfterRestart (s.clearFilters src) src r
      else r) = s.ga.map (groupAfterRestart s src) := by
    apply List.map_congr_left
    intro r hr
    rw [if_pos (List.mem_map_of_mem (f := GroupRecord.index) hr), ha]
  rw [hg]
  rfl

/-! The record of the source (R129 to R131). -/

/-- A condition a well-formed PRESENCE carries (R12, R14). -/
def hasCondition : Frame → Bool
  | .presence _ c _ => (conditionOf c).isSome
  | _ => true

theorem hasCondition_of_wellFormed {bid : Word} {f : Frame} (h : wellFormed bid f = true) : hasCondition f = true := by
  cases f with
  | presence e c n =>
    simp only [wellFormed, kindFits, Bool.and_eq_true, decide_eq_true_eq] at h
    obtain ⟨⟨⟨⟨⟨-, h1⟩, h3⟩, -⟩, -⟩, -⟩ := h
    unfold hasCondition conditionOf
    have : c.toNat = 1 ∨ c.toNat = 2 ∨ c.toNat = 3 := by omega
    rcases this with h | h | h <;> simp [h]
  | _ => rfl

theorem conditionOf_leaving {c : Byte} : conditionOf c = some .leaving ↔ c.toNat = 3 := by
  unfold conditionOf
  split <;> simp_all

theorem isLeaving_eq (f : Frame) : isLeaving f = saysLeaving f := by
  cases f with
  | presence e c n =>
    unfold isLeaving presenceOf saysLeaving
    cases h : conditionOf c with
    | none =>
      have : ¬c.toNat = 3 := fun e => by rw [conditionOf_leaving.2 e] at h; cases h
      simp [this, h]
    | some x =>
      have := conditionOf_leaving (c := c)
      rw [h] at this
      cases x <;> simp_all
  | _ => rfl

/-- A change of one roster record with the notices of the event. -/
def rostered (src : Nat) (f : Peer → Peer) (l : List (NoticeKind × Word × Word)) (s : State) : State :=
  { s with ro := updateKey Peer.number src f s.ro, nq := posted s l }

theorem rostered_rostered {src : Nat} {f g : Peer → Peer} {l m : List (NoticeKind × Word × Word)} {s : State}
    (hf : ∀ x, (f x).number = x.number) :
    rostered src g m (rostered src f l s) = rostered src (fun x => g (f x)) (l ++ m) s := by
  unfold rostered
  simp only [posted_append]
  rw [updateKey_updateKey (fun a h => (hf a).trans h)]
  rfl

theorem rostered_id (src : Nat) (s : State) : rostered src id [] s = s := by
  unfold rostered; rw [updateKey_id]; rfl

theorem setPeer_rostered (src : Nat) (f : Peer → Peer) (s : State) : s.setPeer src f = rostered src f [] s := rfl

theorem emit_rostered (src : Nat) (k : NoticeKind) (a b : Word) (s : State) :
    s.emit k a b = rostered src id [(k, a, b)] s := by
  unfold rostered; rw [emit_eq, updateKey_id]

/-- The record of the source after the joining step (R129), on its standing before the frame. -/
def afterJoin (f : Frame) (standing : PeerState) (x : Peer) : Peer :=
  if (standing = .absent ∨ standing = .silent) ∧ ¬saysLeaving f then { x with state := .present } else x

/-- The record of the source after the heard-data step (R129). -/
def afterHeard (clock : Clock) (limit : Nat) (x : Peer) : Peer :=
  { x with
    lastHeard := some clock
    framesHeard := satInc Config.count16 x.framesHeard
    silenceTimer := if x.state = .present then startTimer limit else x.silenceTimer }

/-- The record of the source after the epoch step (R130). -/
def afterEpoch (f : Frame) (x : Peer) : Peer := { x with epoch := some (frameEpoch f) }

/-- The record of the source after the presence step (R131). -/
def afterPresence (f : Frame) (x : Peer) : Peer :=
  let y : Peer :=
    match f with
    | .presence _ c n => { x with condition := conditionOf c, publications := some n.toNat }
    | _ => x
  if saysLeaving f then { y with state := .absent, silenceTimer := none } else y

theorem afterJoin_number (f : Frame) (st : PeerState) (x : Peer) : (afterJoin f st x).number = x.number := by
  unfold afterJoin; split <;> rfl

theorem afterEpoch_same {f : Frame} {x : Peer} (h : x.epoch = some (frameEpoch f)) : afterEpoch f x = x := by
  unfold afterEpoch; rw [← h]

/-- The four steps together. -/
theorem peerAfter_steps (f : Frame) (clock : Clock) (limit : Nat) (p : Peer) :
    afterPresence f (afterEpoch f (afterHeard clock limit (afterJoin f p.state p))) = peerAfter f clock limit p := by
  unfold afterPresence afterEpoch afterHeard afterJoin peerAfter
  obtain ⟨n, st, e, c, k, l, h, t⟩ := p
  by_cases hl : saysLeaving f = true
  · cases f <;> cases st <;> simp [hl, satInc_eq_bump, Config.count16]
  · cases f <;> cases st <;> simp [hl, satInc_eq_bump, startTimer, Config.count16]

theorem joinPeer_eq (src : Nat) (f : Frame) (p : Peer) (s : State) :
    s.joinPeer src f p =
      rostered src (afterJoin f p.state)
        (if (p.state = .absent ∨ p.state = .silent) ∧ ¬saysLeaving f then
          [(.peerJoined, BitVec.ofNat 16 src, (frameEpoch f).setWidth 16)]
        else []) s := by
  unfold State.joinPeer afterJoin
  rw [isLeaving_eq]
  by_cases h : (p.state = .absent ∨ p.state = .silent) ∧ ¬saysLeaving f = true
  · have h' : (p.state = .absent ∨ p.state = .silent) ∧ (!saysLeaving f) = true := by simpa using h
    simp only [if_pos h, if_pos h', emit_rostered src, setPeer_rostered]
    rw [rostered_rostered (by intro x; rfl)]
    rfl
  · have h' : ¬((p.state = .absent ∨ p.state = .silent) ∧ (!saysLeaving f) = true) := by simpa using h
    simp only [if_neg h, if_neg h']
    exact (rostered_id src s).symm

theorem epochStep_eq (src : Nat) (f : Frame) (p : Peer) (s : State) :
    s.epochStep src p.epoch (frameEpoch f) =
      rostered src (fun x => if p.epoch = some (frameEpoch f) then x else afterEpoch f x)
        (if restarts f p then
          [(.peerRestarted, BitVec.ofNat 16 src,
            BitVec.ofNat 16 ((p.epoch.getD 0).toNat * 256 + (frameEpoch f).toNat))]
        else []) s := by
  unfold State.epochStep restarts afterEpoch
  cases p.epoch with
  | none => simp [setPeer_rostered]
  | some o =>
    by_cases h : o = frameEpoch f
    · simp only [h, if_true, Option.isSome_some, bne_self_eq_false, Bool.and_false, Bool.false_eq_true, if_false]
      exact (rostered_id src s).symm
    · have : ¬some o = some (frameEpoch f) := by simpa using h
      simp only [h, if_false, this, setPeer_rostered, emit_rostered src]
      rw [rostered_rostered (by intro x; rfl)]
      simp [h, epochPair]

theorem presenceStep_eq {src : Nat} {f : Frame} (p : Peer) (s : State) (hf : hasCondition f = true) :
    s.presenceStep src p.state f =
      rostered src (afterPresence f)
        (if saysLeaving f ∧ (p.state = .present ∨ p.state = .silent) then
          [(.peerLeft, BitVec.ofNat 16 src, (frameEpoch f).setWidth 16)]
        else []) s := by
  cases f with
  | presence e c n =>
    obtain ⟨x, hx⟩ := Option.isSome_iff_exists.1 hf
    have hl : saysLeaving (.presence e c n) = decide (x = .leaving) := by
      simp only [saysLeaving, ← conditionOf_leaving, hx, Option.some.injEq]
    unfold State.presenceStep presenceOf afterPresence
    simp only [hx, Option.map_some, hl, decide_eq_true_eq, setPeer_rostered, emit_rostered src]
    by_cases h : x = .leaving
    · simp only [h, if_true, true_and]
      split
      · rw [rostered_rostered (by intro x; rfl), rostered_rostered (by intro x; rfl)]; rfl
      · rw [rostered_rostered (by intro x; rfl)]; rfl
    · simp [h]
  | _ => exact (rostered_id src s).symm

/-- The roster's handling of a frame of another station, with the filters cleared and the assemblies torn on a restart
(R101, R119, R128 to R131). -/
theorem enterPeer_eq {src : Nat} {f : Frame} {p : Peer} {s : State} (hk : (s.ga.map GroupRecord.index).Nodup)
    (hn : (s.ro.map Peer.number).Nodup) (hp : s.peer src = some p) (hf : hasCondition f = true) :
    s.enterPeer src f p =
      { s with
        ro := updateKey Peer.number src (peerAfter f s.sc.clock s.sc.silenceLimit) s.ro
        st :=
          if restarts f p then
            s.st.map (fun e => if e.group = none ∧ e.producer = some src then { e with filter := none } else e)
          else s.st
        ga := if restarts f p then s.ga.map (groupAfterRestart s src) else s.ga
        nq := posted s (peerNotices src f p ++ (if restarts f p then tornNotices s src else [])) } := by
  have pre :
      (((s.joinPeer src f p).hearPeer src).epochStep src p.epoch (frameEpoch f)).presenceStep src p.state f =
        rostered src (peerAfter f s.sc.clock s.sc.silenceLimit) (peerNotices src f p) s := by
    have heard : ∀ u : State, u.hearPeer src = rostered src (afterHeard u.sc.clock u.sc.silenceLimit) [] u := fun _ => rfl
    rw [joinPeer_eq, heard, epochStep_eq, presenceStep_eq p _ hf, rostered_rostered, rostered_rostered,
      rostered_rostered]
    · unfold rostered
      rw [updateKey_congr (g := peerAfter f s.sc.clock s.sc.silenceLimit) hn hp]
      · unfold peerNotices
        simp
      · rw [← peerAfter_steps]
        dsimp only
        split
        · next he =>
          rw [afterEpoch_same]
          unfold afterHeard afterJoin
          split <;> exact he
        · rfl
    · exact afterJoin_number _ _
    · exact fun _ => rfl
    · intro x; split <;> rfl
  unfold State.enterPeer
  simp only [pre]
  by_cases hr : restarts f p = true
  · have : p.epoch.isSome = true ∧ p.epoch ≠ some (frameEpoch f) := by simpa [restarts] using hr
    rw [if_pos this, producerRestarted_eq src (by exact hk)]
    simp only [hr, if_true, posted_append]
    rfl
  · have : ¬(p.epoch.isSome = true ∧ p.epoch ≠ some (frameEpoch f)) := by simpa [restarts] using hr
    rw [if_neg this]
    simp only [hr, Bool.false_eq_true, if_false, List.append_nil]
    rfl

/-- The record of every number 1..62 is there (R127). -/
theorem RosterSafe.numbers {s : State} (h : RosterSafe s) : (s.ro.map Peer.number).Nodup := by
  rw [h.1]; decide

/-- A good frame's receive event up to its dispatch, in the words of the statements (R84, R85 step 1). -/
theorem enteredBy_eq {bid : Word} {f : Frame} {s : State} (hk : KeysDistinct s) (hr : RosterSafe s)
    (hw : wellFormed bid f = true) : enteredBy bid f s = entered bid f s := by
  unfold enteredBy entered
  have hp : (afterGood bid s).peer (bidSource bid) = s.peer (bidSource bid) := rfl
  cases h : s.peer (bidSource bid) with
  | none => simp only [hp, h]; rfl
  | some p =>
    simp only [hp, h]
    rw [enterPeer_eq (s := afterGood bid s) hk.2 hr.numbers h (hasCondition_of_wellFormed hw)]
    rfl

/-- A good frame of another station is entered in the roster and then dispatched (R85). -/
theorem hearFrame_entered {bid : Word} {f : Frame} {s : State} (hk : KeysDistinct s) (hr : RosterSafe s)
    (h : HearsGood bid f s) : s.hearFrame bid f = (entered bid f s).dispatch (bidSource bid) f := by
  rw [hearFrame_enteredBy h, enteredBy_eq hk hr h.2.1]

/-- What the roster leaves of the other blocks (R85). -/
theorem kept_entered {bid : Word} {f : Frame} {s : State} (hk : KeysDistinct s) (hr : RosterSafe s)
    (hw : wellFormed bid f = true) : Kept (afterGood bid s) (entered bid f s) :=
  enteredBy_eq hk hr hw ▸ kept_enteredBy bid f s

end Sys2Proof.Machine
end

