-- ==== Sys2Proof/Laws/Line.lean ====
section
/-! SUPPORT. Bits and bytes on the line: what a stuffed run holds and how it is read back (R73, R170). -/

namespace Sys2Proof.Machine

/-- The receiver drops exactly the stuff bits the sender put in (R73). -/
theorem unstuff_stuff (l : List Bool) : ∀ n < 4, unstuff n (stuff n l) = l := by
  induction l with
  | nil => intro n _; cases n <;> rfl
  | cons b bs ih =>
    intro n hn
    cases b with
    | true =>
      have : n ≠ 4 := by omega
      simp [stuff, unstuff, this, ih 0 (by omega)]
    | false =>
      have h4 : n ≠ 4 := by omega
      by_cases h3 : n = 3
      · subst h3
        simp [stuff, unstuff, ih 0 (by omega)]
      · simp [stuff, unstuff, h3, h4, ih (n + 1) (by omega)]

/-- The end bit is the last dominant level, and the levels before it are the body's (R73). -/
theorem bodyOfLevels_end (l : List Bool) : bodyOfLevels (l ++ [true]) = unstuff 0 l := by
  simp [bodyOfLevels]

/-- Two bytes of a 16-bit field are read back as the field (R170). -/
theorem wordOfBytes_wordBytes (w : Word) : wordOfBytes (hiByte w) (loByte w) = w := by
  apply BitVec.eq_of_toNat_eq
  have := w.isLt
  simp only [wordOfBytes, hiByte, loByte, BitVec.toNat_append, BitVec.toNat_setWidth, BitVec.toNat_ushiftRight,
    Nat.shiftRight_eq_div_pow]
  rw [Nat.shiftLeft_eq, ← Nat.shiftLeft_eq, ← Nat.shiftLeft_add_eq_or_of_lt (Nat.mod_lt _ (by decide)), Nat.shiftLeft_eq]
  omega

/-- A list of tags is read back from its bytes (R170). -/
theorem tagsOfBytes_wordBytes (tags : List Word) : tagsOfBytes (tags.flatMap wordBytes) = some tags := by
  induction tags with
  | nil => rfl
  | cons t ts ih =>
    show tagsOfBytes (hiByte t :: loByte t :: ts.flatMap wordBytes) = _
    simp [tagsOfBytes, ih, wordOfBytes_wordBytes]

/-! The length of a frame (R73) and the busy count over it (R87). -/

/-- One stuff bit at most for every four body bits (R73). -/
theorem stuff_length (l : List Bool) : ∀ n < 4, (stuff n l).length ≤ l.length + (n + l.length) / 4 := by
  induction l with
  | nil => intro n _; simp [stuff]
  | cons b bs ih =>
    intro n hn
    have h0 := ih 0 (by omega)
    cases b with
    | true => simp only [stuff, if_true, List.length_cons]; omega
    | false =>
      by_cases h3 : n = 3
      · subst h3
        simp only [stuff, Bool.false_eq_true, if_false, if_true, List.length_cons]; omega
      · have := ih (n + 1) (by omega)
        simp only [stuff, Bool.false_eq_true, if_false, h3, List.length_cons]; omega

theorem hearBit_busy (c : Nat × Nat) (b : Bool) : (hearBit c b).2 ≤ c.2 + 1 := by
  unfold hearBit
  cases b with
  | true => simp
  | false => simp only [Bool.false_eq_true, if_false]; split <;> omega

/-- A run of levels shorter than what is left to the limit stays within it. -/
theorem withinBusy_of_length (l : List Bool) : ∀ c : Nat × Nat, c.2 + l.length ≤ 1000 → withinBusy c l = true := by
  induction l with
  | nil => intro c h; exact decide_eq_true (show c.2 ≤ 1000 by simpa using h)
  | cons b bs ih =>
    intro c h
    have hb := hearBit_busy c b
    simp only [List.length_cons] at h
    unfold withinBusy
    rw [Bool.and_eq_true]
    exact ⟨decide_eq_true (show c.2 ≤ 1000 by omega), ih _ (by omega)⟩

theorem endsInTime_of_length {c : Nat × Nat} {levels : List Bool} (h : c.2 + levels.length ≤ 995) :
    endsInTime c levels = true :=
  withinBusy_of_length _ _ (by simp only [List.length_append, List.length_replicate, Config.endRun]; omega)

theorem foldl_hearBit_busy (l : List Bool) : ∀ c : Nat × Nat, (l.foldl hearBit c).2 ≤ c.2 + l.length := by
  induction l with
  | nil => intro c; simp
  | cons b bs ih =>
    intro c
    have h := ih (hearBit c b)
    have hb := hearBit_busy c b
    simp only [List.foldl_cons, List.length_cons]; omega

end Sys2Proof.Machine
end

