-- ==== Sys2Proof/Laws/Memory.lean ====
section
/-! SUPPORT. The image memory: reads after writes, and every operation keeps the canonical form. -/

namespace Sys2Proof.Machine

theorem memRead_cons (x : Nat) (y : Byte) (r : Memory) (a : Nat) :
    memRead ((x, y) :: r) a = if x = a then y else memRead r a := by
  unfold memRead
  by_cases h : x = a <;> simp [h]

theorem memSorted_weaken {lo lo' : Nat} (h : lo' ≤ lo) {m : Memory} (hs : memSorted lo m = true) :
    memSorted lo' m = true := by
  cases m with
  | nil => rfl
  | cons c r =>
    obtain ⟨a, b⟩ := c
    simp only [memSorted, Bool.and_eq_true, decide_eq_true_eq] at hs ⊢
    exact ⟨⟨by omega, hs.1.2⟩, hs.2⟩

theorem memRead_below {lo : Nat} {m : Memory} {a : Nat} (hs : memSorted lo m = true) (h : a < lo) :
    memRead m a = 0 := by
  induction m generalizing lo with
  | nil => rfl
  | cons c r ih =>
    obtain ⟨x, y⟩ := c
    simp only [memSorted, Bool.and_eq_true, decide_eq_true_eq] at hs
    rw [memRead_cons, if_neg (by omega)]
    exact ih hs.2 (by omega)

/-- A read after a write: the byte written at its offset, the old byte at every other one (R149). -/
theorem memRead_memWrite {lo : Nat} {m : Memory} (hs : memSorted lo m = true) (a : Nat) (b : Byte) (x : Nat) :
    memRead (memWrite m a b) x = if x = a then b else memRead m x := by
  induction m generalizing lo with
  | nil =>
    unfold memWrite
    split
    · next h => subst h; by_cases hx : x = a <;> simp [hx, memRead]
    · by_cases hx : x = a
      · simp [hx, memRead]
      · simp [hx, memRead, Ne.symm hx]
  | cons c r ih =>
    obtain ⟨y, z⟩ := c
    have hs' := hs
    simp only [memSorted, Bool.and_eq_true, decide_eq_true_eq] at hs
    unfold memWrite
    split
    · next h1 =>
      split
      · next h2 =>
        by_cases hx : x = a
        · subst hx
          rw [if_pos rfl, h2]
          rw [memRead_cons, if_neg (by omega)]
          exact memRead_below hs.2 (by omega)
        · rw [if_neg hx]
      · rw [memRead_cons]
        by_cases hx : x = a
        · simp [hx]
        · rw [if_neg (Ne.symm hx), if_neg hx]
    · split
      · next h2 =>
        subst h2
        split
        · next h3 =>
          by_cases hx : x = a
          · subst hx
            rw [if_pos rfl, h3]
            exact memRead_below hs.2 (by omega)
          · rw [if_neg hx, memRead_cons, if_neg (Ne.symm hx)]
        · rw [memRead_cons, memRead_cons]
          by_cases hx : x = a
          · simp [hx]
          · rw [if_neg (Ne.symm hx), if_neg hx, if_neg (Ne.symm hx)]
      · rw [memRead_cons, memRead_cons, ih hs.2]
        by_cases hx : x = a
        · subst hx; rw [if_pos rfl, if_neg (by omega)]; simp
        · simp [hx]

theorem memSorted_memWrite {lo : Nat} {m : Memory} (hs : memSorted lo m = true) (a : Nat) (b : Byte)
    (h : lo ≤ a) : memSorted lo (memWrite m a b) = true := by
  induction m generalizing lo with
  | nil =>
    unfold memWrite
    split
    · rfl
    · next hb => simp only [memSorted, Bool.and_eq_true, decide_eq_true_eq]; exact ⟨⟨h, by simpa using hb⟩, trivial⟩
  | cons c r ih =>
    obtain ⟨y, z⟩ := c
    have hs' := hs
    simp only [memSorted, Bool.and_eq_true, decide_eq_true_eq] at hs
    unfold memWrite
    split
    · split
      · exact hs'
      · next h1 hb =>
        simp only [memSorted, Bool.and_eq_true, decide_eq_true_eq]
        exact ⟨⟨h, by simpa using hb⟩, ⟨⟨by omega, hs.1.2⟩, hs.2⟩⟩
    · split
      · split
        · exact memSorted_weaken (by omega) hs.2
        · next h2 hb =>
          simp only [memSorted, Bool.and_eq_true, decide_eq_true_eq]
          exact ⟨⟨hs.1.1, by simpa using hb⟩, hs.2⟩
      · simp only [memSorted, Bool.and_eq_true, decide_eq_true_eq]
        exact ⟨hs.1, ih hs.2 (by omega)⟩

theorem mem_memWrite {m : Memory} {a : Nat} {b : Byte} {c : Host.Cell} (h : c ∈ memWrite m a b) :
    c ∈ m ∨ c.1 = a := by
  induction m with
  | nil =>
    unfold memWrite at h
    split at h
    · cases h
    · simp at h; exact .inr (by rw [h])
  | cons d r ih =>
    obtain ⟨y, z⟩ := d
    unfold memWrite at h
    split at h
    · split at h
      · exact .inl h
      · rcases List.mem_cons.1 h with rfl | h
        · exact .inr rfl
        · exact .inl h
    · split at h
      · next hy =>
        split at h
        · exact .inl (List.mem_cons_of_mem _ h)
        · rcases List.mem_cons.1 h with rfl | h
          · exact .inr hy.symm
          · exact .inl (List.mem_cons_of_mem _ h)
      · rcases List.mem_cons.1 h with rfl | h
        · exact .inl (List.mem_cons_self ..)
        · rcases ih h with h | h
          · exact .inl (List.mem_cons_of_mem _ h)
          · exact .inr h

/-- A write inside the buffer keeps the canonical form (R148). -/
theorem wf_memWrite {m : Memory} {a : Nat} {b : Byte} (h : Memory.wf m = true) (ha : a < Config.imageBytes) :
    Memory.wf (memWrite m a b) = true := by
  unfold Memory.wf at *
  rw [Bool.and_eq_true, List.all_eq_true] at *
  refine ⟨memSorted_memWrite h.1 a b (Nat.zero_le a), fun c hc => ?_⟩
  rcases mem_memWrite hc with h' | h'
  · exact h.2 c h'
  · simpa [h'] using ha

/-- A run written inside the buffer keeps the canonical form (R149). -/
theorem wf_memWriteRun {m : Memory} {a : Nat} {bs : List Byte} (h : Memory.wf m = true)
    (ha : a + bs.length ≤ Config.imageBytes) : Memory.wf (memWriteRun m a bs) = true := by
  induction bs generalizing m a with
  | nil => exact h
  | cons b r ih =>
    simp only [List.length_cons] at ha
    exact ih (wf_memWrite h (by omega)) (by omega)

/-- Reads after a run: the bytes of the run inside it, the old bytes outside it (R149). -/
theorem memRead_memWriteRun {m : Memory} (hs : memSorted 0 m = true) (a : Nat) (bs : List Byte) (x : Nat) :
    memRead (memWriteRun m a bs) x =
      if h : a ≤ x ∧ x < a + bs.length then bs[x - a]'(by omega) else memRead m x := by
  induction bs generalizing m a with
  | nil => rw [dif_neg (by simp)]; rfl
  | cons b r ih =>
    unfold memWriteRun
    rw [ih (memSorted_memWrite hs a b (Nat.zero_le a)), memRead_memWrite hs]
    by_cases h1 : x = a
    · subst h1; simp
    · by_cases h2 : a + 1 ≤ x ∧ x < a + 1 + r.length
      · have h3 : a ≤ x ∧ x < a + (b :: r).length := by simp only [List.length_cons]; omega
        rw [dif_pos h2, dif_pos h3]
        have : x - a = (x - (a + 1)) + 1 := by omega
        simp [this]
      · have h3 : ¬(a ≤ x ∧ x < a + (b :: r).length) := by simp only [List.length_cons]; omega
        rw [dif_neg h2, dif_neg h3, if_neg h1]

/-- The memory after reset is in the canonical form, and every byte of it is 0 (R148). -/
theorem reset_image : Memory.wf State.reset.sc.image = true ∧ ∀ a, memRead State.reset.sc.image a = 0 :=
  ⟨by decide, fun _ => rfl⟩

end Sys2Proof.Machine
end

