-- ==== Sys2Proof/Laws/Notices.lean ====
section
/-! SUPPORT. The notice queue: what posting and draining do to its size and its lost count (R163, R166, R167). -/

namespace Sys2Proof.Machine

/-- A posted notice coalesces and keeps the size, is appended below the limit, or is lost at it (R166). -/
theorem postNotice_cases (clock : Clock) (k : NoticeKind) (subject detail : Word) (q : NoticeQueue) :
    ((postNotice clock k subject detail q).notices.length = q.notices.length ∧
        (postNotice clock k subject detail q).lost = q.lost ∧ coalesces k = true) ∨
      (q.notices.length < 32 ∧ (postNotice clock k subject detail q).lost = q.lost ∧
        (postNotice clock k subject detail q).notices = q.notices ++ [⟨k, subject, detail, clock⟩]) ∨
      (32 ≤ q.notices.length ∧ (postNotice clock k subject detail q).notices = q.notices ∧
        (postNotice clock k subject detail q).lost = satInc 65535 q.lost) := by
  unfold postNotice
  split
  · rename_i h
    exact .inl ⟨by simp, rfl, by simp_all⟩
  · split
    · rename_i h
      exact .inr (.inl ⟨h, rfl, rfl⟩)
    · rename_i h
      exact .inr (.inr ⟨by simpa [Config.noticeRoom] using h, rfl, rfl⟩)

@[simp] theorem postNotice_mask (clock : Clock) (k : NoticeKind) (subject detail : Word) (q : NoticeQueue) :
    (postNotice clock k subject detail q).mask = q.mask := by
  unfold postNotice
  split
  · rfl
  · split <;> rfl

/-- The queue never holds more than 32 notices (R163). -/
theorem postNotice_length (clock : Clock) (k : NoticeKind) (subject detail : Word) {q : NoticeQueue}
    (h : q.notices.length ≤ 32) : (postNotice clock k subject detail q).notices.length ≤ 32 := by
  rcases postNotice_cases clock k subject detail q with ⟨hl, -, -⟩ | ⟨hl, -, he⟩ | ⟨-, he, -⟩
  · omega
  · rw [he]
    simp
    omega
  · rw [he]
    exact h

end Sys2Proof.Machine
end

