-- ==== Sys2Proof/Laws/Pins.lean ====
section
/-! SUPPORT. The line-side pins: what a station that drives its next bit can be (R73, R75, R76, R79). -/

namespace Sys2Proof.Machine

/-- The next level driven is dominant, and every level read so far is the one driven (R73). -/
theorem drivesNext_iff (own heard : List Bool) :
    drivesNext own heard = true ↔ heard = own.take heard.length ∧ own[heard.length]? = some true := by
  unfold drivesNext
  rw [Bool.and_eq_true, decide_eq_true_eq, List.getD_eq_getElem?_getD]
  constructor
  · rintro ⟨h1, h2⟩
    refine ⟨h1.symm, ?_⟩
    cases h : own[heard.length]? with
    | none => simp [h] at h2
    | some b => simpa [h] using h2
  · rintro ⟨h1, h2⟩
    exact ⟨h1.symm, by simp [h2]⟩

/-- A station that drives is about to open a round it contends in, is in one, or sends. -/
theorem drives_cases {heard : List Bool} {s : State} (h : s.drives heard = true) :
    (s.la.lineState = .idle ∧ s.mayContend = true) ∨ (s.la.lineState = .round ∧ s.la.round.isSome) ∨
      (s.la.lineState = .sending ∧ s.la.sending.isSome) := by
  unfold State.drives at h
  split at h
  · next hl =>
    simp only [State.opensRound, State.contends, Bool.and_eq_true] at h
    exact .inl ⟨hl, h.2.2.1.2⟩
  · next hl =>
    split at h
    · next hr => exact .inr (.inl ⟨hl, by simp [hr]⟩)
    · cases h
  · next hl =>
    split at h
    · next hx => exact .inr (.inr ⟨hl, by simp [hx]⟩)
    · cases h
  · cases h
  · cases h

end Sys2Proof.Machine
end

