-- ==== Sys2Proof/Laws/Queue.lean ====
section
/-! SUPPORT. The send queue's operations: what a join, a new order and an aging do to the entries (R56, R60, R62). -/

namespace Sys2Proof.Machine

/-- The order of R60 as a relation: a higher local bid, or an equal one and an earlier join. -/
def Ahead (a b : QueueEntry) : Prop :=
  localBid b < localBid a ∨ (localBid b = localBid a ∧ a.join < b.join)

theorem goesBefore_iff (a b : QueueEntry) : goesBefore a b = true ↔ Ahead a b := by
  simp only [goesBefore, Ahead, Bool.or_eq_true, Bool.and_eq_true, decide_eq_true_eq]
  rw [eq_comm (a := localBid a)]

theorem Ahead.trans {a b c : QueueEntry} (h : Ahead a b) (k : Ahead b c) : Ahead a c := by
  unfold Ahead at *
  omega

/-- Entries with different joins stand in one order or the other. -/
theorem ahead_of_not {a b : QueueEntry} (h : ¬Ahead a b) (hj : a.join ≠ b.join) : Ahead b a := by
  unfold Ahead at *
  omega

theorem insertEntry_perm (e : QueueEntry) (l : List QueueEntry) : (insertEntry e l).Perm (e :: l) := by
  induction l with
  | nil => exact .refl _
  | cons x xs ih =>
    simp only [insertEntry]
    split
    · exact .refl _
    · exact (ih.cons x).trans (.swap e x xs)

theorem sortEntries_perm (l : List QueueEntry) : (sortEntries l).Perm l := by
  induction l with
  | nil => exact .refl _
  | cons x xs ih => exact (insertEntry_perm x _).trans (ih.cons x)

@[simp] theorem mem_insertEntry {e x : QueueEntry} {l : List QueueEntry} : x ∈ insertEntry e l ↔ x = e ∨ x ∈ l := by
  simp [(insertEntry_perm e l).mem_iff]

@[simp] theorem mem_sortEntries {x : QueueEntry} {l : List QueueEntry} : x ∈ sortEntries l ↔ x ∈ l :=
  (sortEntries_perm l).mem_iff

@[simp] theorem length_insertEntry (e : QueueEntry) (l : List QueueEntry) :
    (insertEntry e l).length = l.length + 1 := by
  simpa using (insertEntry_perm e l).length_eq

/-- An entry of a new join takes its place without breaking the order. -/
theorem ordered_insertEntry {e : QueueEntry} {l : List QueueEntry} (h : l.Pairwise Ahead)
    (hj : ∀ x ∈ l, x.join ≠ e.join) : (insertEntry e l).Pairwise Ahead := by
  induction l with
  | nil => simp [insertEntry]
  | cons x xs ih =>
    obtain ⟨hx, hxs⟩ := List.pairwise_cons.mp h
    simp only [insertEntry]
    split
    · rename_i hb
      have hex := (goesBefore_iff e x).mp hb
      refine List.pairwise_cons.mpr ⟨fun y hy => ?_, h⟩
      rcases List.mem_cons.mp hy with rfl | hy
      · exact hex
      · exact hex.trans (hx y hy)
    · rename_i hb
      have hxe : Ahead x e :=
        ahead_of_not (fun h => hb ((goesBefore_iff e x).mpr h)) (hj x (List.mem_cons_self ..)).symm
      refine List.pairwise_cons.mpr ⟨fun y hy => ?_, ih hxs (fun y hy => hj y (List.mem_cons_of_mem _ hy))⟩
      rcases mem_insertEntry.mp hy with rfl | hy
      · exact hxe
      · exact hx y hy

/-- Entries of distinct joins come out of a sort in the order of R60. -/
theorem ordered_sortEntries {l : List QueueEntry} (h : (l.map QueueEntry.join).Nodup) :
    (sortEntries l).Pairwise Ahead := by
  induction l with
  | nil => simp [sortEntries]
  | cons x xs ih =>
    obtain ⟨hx, hxs⟩ := List.nodup_cons.mp (List.map_cons ▸ h)
    refine ordered_insertEntry (ih hxs) (fun y hy he => hx ?_)
    exact he ▸ List.mem_map_of_mem (mem_sortEntries.mp hy)

/-- A join adds one entry of age 0 with clear marks, and takes the next position (R56). -/
theorem joinQueue_perm (subj : Subject) (cls : Nat) (q : SendQueue) :
    (joinQueue subj cls q).entries.Perm (⟨subj, cls, 0, q.nextJoin, false, false⟩ :: q.entries) ∧
      (joinQueue subj cls q).nextJoin = q.nextJoin + 1 :=
  ⟨insertEntry_perm _ _, rfl⟩

/-- A lost round ages the noted entries still present, and changes nothing else of the queue but its order (R62). -/
theorem ageQueue_perm (noted : List Nat) (q : SendQueue) :
    (ageQueue noted q).entries.Perm (q.entries.map (ageEntry noted)) ∧ (ageQueue noted q).nextJoin = q.nextJoin :=
  ⟨sortEntries_perm _, rfl⟩

@[simp] theorem ageEntry_join (noted : List Nat) (e : QueueEntry) : (ageEntry noted e).join = e.join := by
  unfold ageEntry
  split <;> rfl

@[simp] theorem ageEntry_subject (noted : List Nat) (e : QueueEntry) : (ageEntry noted e).subject = e.subject := by
  unfold ageEntry
  split <;> rfl

/-- An age stays in 0..63 (R56, R62). -/
theorem ageEntry_age {noted : List Nat} {e : QueueEntry} (h : e.age ≤ 63) : (ageEntry noted e).age ≤ 63 := by
  unfold ageEntry satInc Config.maxAge
  split
  · simp only
    split <;> omega
  · exact h

/-- The mark of an entry changed: the same entries in the same order, with the change on the entry of the subject. -/
theorem markEntry_entries (subj : Subject) (f : QueueEntry → QueueEntry) (q : SendQueue) :
    (markEntry subj f q).entries = q.entries.map (fun e => if e.subject = subj then f e else e) ∧
      (markEntry subj f q).nextJoin = q.nextJoin :=
  ⟨rfl, rfl⟩

@[simp] theorem mem_removeEntry {subj : Subject} {q : SendQueue} {e : QueueEntry} :
    e ∈ (removeEntry subj q).entries ↔ e ∈ q.entries ∧ e.subject ≠ subj := by
  simp [removeEntry]

@[simp] theorem mem_removeWaiting {subj : Subject} {q : SendQueue} {e : QueueEntry} :
    e ∈ (removeWaiting subj q).entries ↔ e ∈ q.entries ∧ (e.subject = subj → e.inFlight = true) := by
  simp only [removeWaiting, List.mem_filter, Bool.not_eq_true', Bool.and_eq_false_iff, decide_eq_false_iff_not,
    Bool.not_eq_false', ← imp_iff_not_or]

/-- The entries after a departure or a withdrawal keep their order (R66 to R69). -/
theorem removeEntry_sublist (subj : Subject) (q : SendQueue) : (removeEntry subj q).entries.Sublist q.entries :=
  List.filter_sublist

theorem removeWaiting_sublist (subj : Subject) (q : SendQueue) : (removeWaiting subj q).entries.Sublist q.entries :=
  List.filter_sublist

end Sys2Proof.Machine
end

