-- ==== Sys2Proof/Laws/Wire.lean ====
section
/-! SUPPORT. The bytes of the host port: a command is read back from the bytes that carry it (R157, R172). -/

namespace Sys2Proof.Machine

/-- A code byte names its command: the codes of R172 are distinct. -/
theorem commandNamed_code (c : Command) : commandNamed (commandCode c) = some c := by
  cases c <;> decide

/-- A code byte that names no command (R172). -/
theorem commandNamed_none {code : Byte} (h : namesCommand code = false) : commandNamed code = none := by
  unfold commandNamed
  rw [List.find?_eq_none]
  unfold namesCommand at h
  rw [List.any_eq_false] at h
  exact h

/-- Counted data and the CRC-8 byte after them are read back (R157). -/
theorem countedData_append {data : List Byte} (h : data.length ≤ 255) (crc : Byte) (rest : List Byte) :
    countedData (BitVec.ofNat 8 data.length) (data ++ crc :: rest) = some (data, crc) := by
  have hn : (BitVec.ofNat 8 data.length).toNat = data.length := by
    rw [BitVec.toNat_ofNat]; omega
  unfold countedData
  rw [hn]
  simp

/-- Counted data are incomplete until the byte after them (R157). -/
theorem countedData_short {count : Byte} {bytes : List Byte} (h : bytes.length ≤ count.toNat) :
    countedData count bytes = none := by
  unfold countedData
  rw [List.drop_eq_nil_of_le h]

/-- The bytes of a host command, and any after them, spell it (R157, R172). -/
theorem commandOf_hostWire {i : Instr} {c : Command} {ops : List Byte} {crc : Byte} (rest : List Byte)
    (h : hostWire i = some (c, ops, crc)) (hw : i.wellFormed = true) :
    commandOf (commandCode c :: ops ++ crc :: rest) = some i := by
  unfold commandOf
  simp only [List.cons_append, commandNamed_code]
  cases i <;> simp only [hostWire, Option.some.injEq, Prod.mk.injEq, reduceCtorEq] at h <;>
    obtain ⟨rfl, rfl, rfl⟩ := h <;>
    simp_all [spelled, wordBytes, wordOfBytes_wordBytes, countedData_append, Instr.wellFormed]

/-- A byte is read back from its bits (R157). -/
theorem byteOfBits_msbBits (b : Byte) : byteOfBits (msbBits b) = b := by
  revert b; decide

/-- Eight clocked bits are one byte (R157). -/
theorem wholeBytes_msbBits (b : Byte) (bits : List Bool) : wholeBytes (msbBits b ++ bits) = b :: wholeBytes bits := by
  conv => rhs; rw [← byteOfBits_msbBits b]
  rfl

/-- Fewer than eight clocked bits are no byte (R159). -/
theorem wholeBytes_part {part : List Bool} (h : part.length < 8) : wholeBytes part = [] := by
  unfold wholeBytes
  split
  · simp only [List.length_cons] at h; omega
  · rfl

/-- The bytes on data in are read back from their bits, and an incomplete byte after them is dropped (R157, R159). -/
theorem wholeBytes_bitsOfBytes (bs : List Byte) {part : List Bool} (h : part.length < 8) :
    wholeBytes (bitsOfBytes bs ++ part) = bs := by
  induction bs with
  | nil => exact wholeBytes_part h
  | cons b bs ih => rw [bitsOfBytes, List.flatMap_cons, List.append_assoc, wholeBytes_msbBits]; exact congrArg _ ih

/-- Of bytes cut short at a clock, the whole ones before it are received (R159). -/
theorem wholeBytes_take (bs : List Byte) (n : Nat) : wholeBytes ((bitsOfBytes bs).take n) = bs.take (n / 8) := by
  induction bs generalizing n with
  | nil => simp [bitsOfBytes, wholeBytes]
  | cons b bs ih =>
    have hl : (msbBits b).length = 8 := by simp [msbBits]
    rw [bitsOfBytes, List.flatMap_cons, List.take_append, hl]
    by_cases hn : n < 8
    · rw [show n - 8 = 0 by omega, List.take_zero, List.append_nil, Nat.div_eq_of_lt hn]
      exact wholeBytes_part (by rw [List.length_take]; omega)
    · rw [List.take_of_length_le (by omega), wholeBytes_msbBits, show n / 8 = (n - 8) / 8 + 1 by omega,
        List.take_succ_cons]
      exact congrArg _ (ih (n - 8))

end Sys2Proof.Machine
end

