-- ==== Sys2Proof/Tests/Slice0.lean ====
section
/-! SUPPORT. Tests of the model: the checks of well-formed commands, values the manual works out, single steps, and
for each statement with hypotheses a state and operands that meet them. Expected results are the manual's. -/

namespace Sys2Proof.Tests

open Sys2Proof Sys2Proof.Machine

set_option maxRecDepth 20000

/-! Well-formed commands: each check refuses an ill-formed one. -/

theorem test_wf_image_write_count : (Instr.imageWrite 0 (List.replicate 256 0) 0).wellFormed = false := by decide
theorem test_wf_draft_write_count : (Instr.draftWrite 5 0 (List.replicate 256 0) 0).wellFormed = false := by decide
theorem test_wf_unknown_code : (Instr.unknownCommandCode 0x11 0).wellFormed = false := by decide
theorem test_wf_period_tag : (Instr.periodTimerExpiry 0).wellFormed = false := by decide
theorem test_wf_freshness_tag : (Instr.freshnessTimerExpiry 0xFFFF).wellFormed = false := by decide
theorem test_wf_group_index : (Instr.assemblyTimerExpiry 17).wellFormed = false := by decide
theorem test_wf_station_number : (Instr.silenceTimerExpiry 63).wellFormed = false := by decide
theorem test_wf_send_bit : (Instr.badSendEnd 701).wellFormed = false := by decide
theorem test_wf_bad_frame_end_run :
    (Instr.badFrameReceived 0xC003 [true, false, false, false, false, false, true]).wellFormed = false := by decide
theorem test_wf_bad_frame_last_level : (Instr.badFrameReceived 0xC003 [true, false]).wellFormed = false := by decide
theorem test_wf_bad_frame_is_bad : (Instr.badFrameReceived 0xC003 [true, true]).wellFormed = true := by decide
theorem test_wf_bad_frame_too_long :
    (Instr.badFrameReceived 0xC003 (List.replicate 1000 true)).wellFormed = false := by decide
theorem test_wf_mismatch_end_run :
    (Instr.bidReadbackMismatch 0xC003 [true, false, false, false, false, false, true]).wellFormed = false := by decide
theorem test_wf_malformed_too_long :
    (Instr.malformedFrameReceived 0xC003 9 (List.replicate 130 0xFF)).wellFormed = false := by decide
theorem test_wf_malformed_is_malformed : (Instr.malformedFrameReceived 0xC003 4 [1, 2, 3]).wellFormed = false := by
  decide
theorem test_wf_value_length : (Instr.valueFrameReceived 0x5003 1 9 0 0 0 []).wellFormed = false := by decide
theorem test_wf_claim_order : (Instr.claimFrameReceived 0xE003 1 [9, 8]).wellFormed = false := by decide
theorem test_wf_defend_class : (Instr.defendFrameReceived 0xE003 1 [8, 9]).wellFormed = false := by decide
theorem test_wf_presence_condition : (Instr.presenceFrameReceived 0xC003 1 4 0).wellFormed = false := by decide
theorem test_wf_resend_epoch : (Instr.resendFrameReceived 0xD003 0 9).wellFormed = false := by decide
theorem test_wf_resend_source : (Instr.resendFrameReceived 0xD000 1 9).wellFormed = false := by decide

/-! Values the manual works out. -/

/-- The nine ASCII bytes "123456789". -/
def nine : List Byte := [0x31, 0x32, 0x33, 0x34, 0x35, 0x36, 0x37, 0x38, 0x39]

/-- R172: 0xF4. -/
theorem test_crc8 : crc8 nine = 0xF4 := by decide
/-- R170: 0x29B1. -/
theorem test_crc16 : crc16 nine = 0x29B1 := by decide
/-- R171: 0xCBF43926. -/
theorem test_crc32 : crc32 nine = 0xCBF43926 := by decide
/-- R7 and its table of bids. -/
theorem test_bids :
    makeBid 14 0 9 = 57353 ∧ makeBid 5 3 17 = 20689 ∧ makeBid 5 2 40 = 20648 ∧ makeBid 1 0 1 = 4097 ∧
      makeBid 15 63 62 = 65534 ∧ bidClass 20689 = 5 ∧ bidAge 20689 = 3 ∧ bidSource 20689 = 17 := by decide
/-- R5 at the boundaries of its table. -/
theorem test_generations :
    compareGen 4 4 = .equal ∧ compareGen 5 4 = .newer ∧ compareGen 0 65535 = .newer ∧
      compareGen 32768 0 = .newer ∧ compareGen 32769 0 = .late ∧ compareGen 65535 0 = .late := by decide
/-- R73: a stuff bit after four recessive bits, one at the end of the body too. -/
theorem test_stuffing :
    stuff 0 [false, false, false, false, false, true, false, false, false, false] =
      [false, false, false, false, true, false, true, false, false, false, false, true] := by decide

/-! States for the tests. -/

/-- The CRC-8 byte of a command. -/
def sum (c : Command) (operands : List Byte) : Byte := crc8 (commandCode c :: operands)

/-- The state a command leaves. -/
def after (c : Instr) (s : State) : State :=
  match exec c s with
  | .next t => t
  | _ => s

/-- An OWNED entry of tag 10 in class 5, its period run out, generation 7 live and committed. -/
def pub10 : PubEntry :=
  { tag := 10, cls := 5, len := 2, period := 5, group := none, bufA := ⟨[1, 2], some 7⟩, bufB := ⟨[1, 2], some 7⟩
    live := .a, committed := some 7, flipPending := false, periodTimer := some 0, sent := 0, missed := 0
    resendServed := 0, claim := .owned }

/-- Two members of producer group 1. -/
def pub20 : PubEntry :=
  { pub10 with tag := 20, group := some 1, bufA := ⟨[1, 2], some 3⟩, bufB := ⟨[1, 2], some 3⟩, committed := some 3 }
def pub30 : PubEntry := { pub20 with tag := 30 }

/-- An ungrouped subscription, FRESH from station 3 under generation 100, its freshness timer run out. -/
def sub50 : SubEntry :=
  { tag := 50, len := 1, freshLimit := 10, group := none, resendOnStale := true, state := .fresh
    producer := some 3, filter := some 100, shownGen := some 100, shown := [1], ready := [0], landing := [0]
    freshTimer := some 0, lastAccepted := some 0, late := 0, reject := 0 }

/-- Two members of consumer group 1, fed by station 3. -/
def sub60 : SubEntry := { sub50 with tag := 60, group := some 1, filter := none }
def sub70 : SubEntry := { sub60 with tag := 70 }

/-- Consumer group 1 with an assembly of generation 9 whose first member has arrived and whose timer has run out. -/
def group1 : GroupRecord :=
  { index := 1, expected := 2, limit := 50, resendOnTimeout := true
    assembly := some ⟨9, 3, 1, [true, false], false, 0⟩, completed := some 8, shownGen := some 8, held := false
    ready := none, skipped := 0, torn := 0 }

/-- Station 17 in ACTIVE on a synchronised, idle line, station 3 PRESENT with its silence timer run out, an open
transaction at the port. -/
def active : State :=
  { State.reset with
    sc :=
      { State.reset.sc with
        state := .active, ownNumber := some 17, epoch := some 1, presenceTimer := some 0, presenceInterval := 100
        silenceLimit := 300 }
    pt := [pub10, pub20, pub30]
    st := [sub50, sub60, sub70]
    ga := [group1]
    ro :=
      State.reset.ro.map (fun p =>
        if p.number = 17 then { p with state := .self, epoch := some 1 }
        else if p.number = 3 then { p with state := .present, epoch := some 1, silenceTimer := some 0 }
        else p)
    la := { State.reset.la with watching := true, synced := true, gap := 15 }
    nq := { notices := [⟨.stationState, 5, 4, 0⟩], lost := 0, mask := 0xFFFF }
    hp := { State.reset.hp with phase := .receiving } }

/-- The same station in another station state. -/
def inState (st : StationState) : State := { active with sc := { active.sc with state := st } }

/-- The same station with a send queue. -/
def queued (es : List QueueEntry) (s : State) : State := { s with sq := ⟨es, 9⟩ }

/-- A VALUE entry of tag 10 and a CLAIM entry. -/
def value10 : QueueEntry := ⟨.value 10, 5, 0, 1, false, false⟩
def claim0 : QueueEntry := ⟨.claim, 14, 0, 2, false, false⟩
def presence0 : QueueEntry := ⟨.presence, 12, 0, 3, false, false⟩

/-- The station in a round it contends in with its head, at a bid. -/
def inRound (e : QueueEntry) (s : State) : State :=
  { queued [e] s with
    la :=
      { s.la with
        lineState := .round, gap := 0, round := some ⟨e.join, [e.join], makeBid e.cls e.age 17⟩ } }

/-- The station sending a frame for an entry, or a filler. -/
def sendingOf (entry : Option Subject) (f : Frame) (bid : Word) (s : State) : State :=
  { s with la := { s.la with lineState := .sending, gap := 0, sending := some ⟨entry, bid, f⟩ } }

/-- The one entry of a subject, in flight. -/
def flown (subj : Subject) (cls : Nat) (s : State) : State := queued [⟨subj, cls, 0, 1, true, false⟩] s

/-- A PRESENCE frame of the own station. -/
def ownPresence : Frame := .presence 1 2 3

/-- An image with two publications, two subscriptions and one consumer group, with its CRC-32. -/
def goodImage : Memory :=
  let body : List Byte :=
    [0x41, 17, 2, 3, 1, 0xF4, 0, 100, 0xFF, 0xFF, 1, 2, 1] ++ [1, 0x9C, 6, 4, 0, 0, 0] ++
      [1, 0x2C, 6, 0, 200, 1, 0] ++ [1, 0x36, 6, 0, 200, 1, 1] ++ [2, 0, 50, 1]
  memWriteRun [] 0 (body ++ longBytes (crc32 body))

/-- A validation of an image under way. -/
def validating (m : Memory) : State :=
  { State.reset with sc := { State.reset.sc with state := .validating, image := m, pendingEpoch := some 42 } }

/-! Single steps. -/

/-- The example image of chapter 10's kind passes, and an empty buffer fails the format check (R153). -/
theorem test_validate : validate goodImage = (0, 0) ∧ validate [] = (1, 0) := by decide
/-- R155: HALTED, station 17, its timing, and the notices SEAL_RESULT and STATION_STATE. -/
theorem test_validation_passed :
    let t := after .validationPassed (validating goodImage)
    t.sc.state = .halted ∧ t.sc.ownNumber = some 17 ∧ t.sc.silenceLimit = 1500 ∧ t.cu.window = 100 ∧
      t.pt.map PubEntry.tag = [412] ∧ t.st.map SubEntry.tag = [300, 310] ∧
      t.nq.notices = [⟨.sealResult, 0, 0, 0⟩, ⟨.stationState, 2, 2, 0⟩] := by decide
/-- R23: the commit steps 7 to 8, flips, and requests the VALUE entry. -/
theorem test_commit :
    let t := after (.commit 10 (sum .commit (wordBytes 10))) active
    (t.pub 10).map PubEntry.committed = some (some 8) ∧ (t.pub 10).map PubEntry.live = some .b ∧
      t.sq.entries.map QueueEntry.subject = [.value 10] ∧ t.hp.response = [0, 0] := by decide
/-- R62: a lost round ages the noted entry. -/
theorem test_lost_round_ages :
    (after (.roundDecided ⟨true, 0xF003⟩) (inRound value10 active)).sq.entries.map QueueEntry.age = [1] := by decide
/-- R115: the second member completes the assembly and both members show its generation. -/
theorem test_group_completes :
    let t := after (.valueFrameReceived (makeBid 5 0 3) 1 70 9 2 2 [5]) active
    (t.grp 1).map GroupRecord.shownGen = some (some 9) ∧ (t.grp 1).map GroupRecord.assembly = some none := by decide
/-- R46: a DEFEND from a higher number makes the owner yield, with OWNERSHIP_LOST. -/
theorem test_defend_yields :
    let t := after (.defendFrameReceived (makeBid 15 0 18) 1 [10]) active
    (t.pub 10).map PubEntry.claim = some .yielded := by decide
/-- R145: a frame with the own number makes the station MUTE. -/
theorem test_duplicate_mutes :
    (after (.presenceFrameReceived (makeBid 12 0 17) 1 2 0) active).sc.state = .mute := by decide
/-- R81: the eighth readback error in a row makes the station MUTE. -/
theorem test_eighth_error_mutes :
    let s := flown (.value 10) 5 active
    (after (.badSendEnd 0)
      (sendingOf (some (.value 10)) ownPresence 0x5011 { s with la := { s.la with txErrors := 7 } })).sc.state =
      .mute := by decide
/-- A station that waits for a body of a bid, after an idle line. -/
def receivingFrom (bid : Word) (s : State) : State :=
  { s with
    la :=
      { s.la with
        lineState := .receiving, gap := (bidCounts bid).1, busy := (bidCounts bid).2, heardBid := some bid } }

/-- R48 step 3, R64, R65: a yield taken while its VALUE is the candidate of an open round withdraws it, and the round won
with it is filled. -/
theorem test_yield_fills_the_round :
    let t := after (.defendFrameReceived 0xF012 1 [10]) (inRound value10 active)
    t.sq.entries = [] ∧ t.la.lineState = .round ∧
      (after (.roundDecided ⟨true, 0x5011⟩) t).la.sending = some ⟨none, 0x5011, .presence 1 2 3⟩ := by decide
/-- R49: a yield taken after the send start leaves the entry in flight until its send end. -/
theorem test_yield_in_flight :
    let t := after (.defendFrameReceived 0xF012 1 [10])
      (sendingOf (some (.value 10)) ownPresence 0x5011 (flown (.value 10) 5 active))
    (t.pub 10).map PubEntry.claim = some .yielded ∧ t.la.lineState = .sending ∧
      t.sq.entries.map QueueEntry.subject = [.value 10] := by decide
/-- R77: a start bit read recessive is no won round, whatever the bid shows. -/
theorem test_start_bit_mismatch :
    let t := after (.roundDecided ⟨false, 0x5011⟩) (inRound value10 active)
    t.la.lineState = .receiving ∧ t.la.bidMismatch = true ∧ t.sq.entries.map QueueEntry.age = [0] := by decide
/-- R77: the line shows nothing after the failed start bit, and the end run takes the mismatch alone. -/
theorem test_bid_mismatch_empty :
    let t := after (.bidReadbackMismatch 0 []) (after (.roundDecided ⟨false, 0⟩) (inRound value10 active))
    t.la.lineState = .idle ∧ t.la.txErrors = 1 ∧ t.la.counters.readbackErrors = 1 ∧ t.la.counters.receivedBad = 0 := by
  decide
/-- R139: after a RESET no validation ends. -/
theorem test_reset_abandons_validation :
    let s := validating []
    after .validationFailed { s with hp := { s.hp with phase := .answered, resetPending := true } } =
      { s with hp := { s.hp with phase := .answered, resetPending := true } } := by decide
/-- R73, R76: the bid 0x5011 drives its start bit and its ones, and nothing after a recessive bit read dominant. -/
theorem test_drives_the_bid :
    let s := inRound value10 active
    s.drives [] = true ∧ s.drives [true] = false ∧ s.drives [true, false] = true ∧ s.drives [true, true] = false ∧
      s.drives [true, true, true] = false := by decide
/-- R75: the station drives the start bit itself once the gap is complete. -/
theorem test_opens_its_round :
    let s := queued [value10] { active with la := { active.la with gap := 5 } }
    s.drives (List.replicate 4 false) = false ∧ s.drives (List.replicate 5 false) = true ∧
      s.lineTransmit (List.replicate 5 false) = some false := by decide
/-- R157, R158: 0x00 for the two command bytes and the gap byte, then status and CRC-8, then 0x00. -/
theorem test_data_out :
    let t := after (.start 0) active
    active.dataOut 0 = some 0 ∧ (List.range 6).map (fun i => t.dataOut i) =
      [some 0, some 0, some 0, some 10, some (crc8 [10]), some 0] ∧ State.reset.dataOut 0 = none := by decide
/-- R172, R157: bytes spell commands, whole ones alone, and nothing after their CRC-8. -/
theorem test_bytes_spell_commands :
    commandOf [0x01, 0x15] = some (.statusRead 0x15) ∧
      commandOf [0x02, 1, 2, 2, 8, 9, 7, 6] = some (.imageWrite 0x0102 [8, 9] 7) ∧
      commandOf [0x10, 0, 10, 3, 0, 7] = some (.draftWrite 10 3 [] 7) ∧
      commandOf [0x02, 1, 2, 2, 8, 9] = none ∧ commandOf [0x07, 9] = some (.unknownCommandCode 7 9) ∧
      transaction (bitsOfBytes [0x04, 0x1C]) = [.chipSelectFall, .start 0x1C, .chipSelectRise] := by decide
/-- R157, R159: sixteen clocks of 0000 0100 0001 1100 carry START and its CRC-8 byte, fifteen carry no command. -/
theorem test_bits_spell_commands :
    let bits := [false, false, false, false, false, true, false, false,
      false, false, false, true, true, true, false, false]
    transaction bits = [.chipSelectFall, .start 0x1C, .chipSelectRise] ∧
      transaction (bits ++ [true]) = [.chipSelectFall, .start 0x1C, .chipSelectRise] ∧
      transaction (bits.take 15) = [.chipSelectFall, .chipSelectRise] := by decide
/-- R158: status 10, 0000 1010, leaves in the byte after the gap byte, its most significant bit first. -/
theorem test_data_out_bits :
    (List.range 8).map (fun k => (after (.start 0) active).dataOutBit (24 + k)) =
      [some false, some false, some false, some false, some true, some false, some true, some false] := by decide
/-- R160: a damaged command answers CHECK, status 10. -/
theorem test_damaged_command : (after (.start 0) active).hp.response.head? = some 10 := by decide

/-! Witnesses: a state and operands that meet the hypotheses of each statement, clause by clause. -/

theorem witness_step :
    { active with pending := [.powerUp, .synchronised] }.pending = [.powerUp, .synchronised] ∧ active.pending = [] := by
  decide

theorem witness_reset_pin :
    { active with sc := { active.sc with resetPin := true } }.sc.resetPin = true ∧ active.sc.resetPin = false := by
  decide

theorem witness_chip_select :
    State.reset.hp.phase = .idle ∧ (active.hp.phase ≠ .idle ∧ active.hp.resetPending = false) ∧
      (let s := after (.reset (sum .reset [])) active
      s.hp.phase ≠ .idle ∧ s.hp.resetPending = true) ∧
      Arrived .reset [] (sum .reset []) active := by
  unfold Arrived
  decide

theorem witness_damaged :
    active.hp.phase = .receiving ∧ hostWire (.start 0) = some (.start, [], 0) ∧ crc8 [commandCode .start] ≠ 0 ∧
      (0x07 : Byte) ∉
        ([0x01, 0x02, 0x03, 0x04, 0x05, 0x06, 0x10, 0x11, 0x12, 0x18, 0x19, 0x20, 0x21, 0x22, 0x28, 0x29, 0x30,
          0x31] : List Byte) ∧
      State.reset.hp.phase ≠ .receiving ∧ (Instr.start 0).wellFormed = true ∧
      (Instr.unknownCommandCode 7 0).wellFormed = true ∧ [true, false].length < 8 ∧ active.sc.resetPin = false ∧
      (after (.start 0) active).hp.phase = .answered ∧ (after (.start 0) active).hp.response[1]? = some (crc8 [10]) := by
  decide

theorem witness_gating :
    hostWire (.start (sum .start [])) = some (.start, [], sum .start []) ∧ Arrived .start [] (sum .start []) active ∧
      (gateRow .start)[stationCode active.sc.state]? = some (some .state) ∧
      Arrived .start [] (sum .start []) (inState .halted) ∧
      (gateRow .start)[stationCode (inState .halted).sc.state]? = some none := by
  unfold Arrived
  decide

theorem witness_status_read : Arrived .statusRead [] (sum .statusRead []) active := by
  unfold Arrived
  decide

theorem witness_tag_reads :
    IsSealed active ∧ Arrived .valueRead [hiByte 10, loByte 10] (sum .valueRead (wordBytes 10)) active ∧
      Arrived .tagStatusRead [hiByte 10, loByte 10] (sum .tagStatusRead (wordBytes 10)) active ∧
      active.pub 10 = some pub10 ∧ (active.pub 50 = none ∧ active.sub 50 = some sub50) ∧
      (active.pub 99 = none ∧ active.sub 99 = none) := by
  unfold Arrived IsSealed
  decide

theorem witness_group_status :
    IsSealed active ∧ Arrived .groupStatusRead [1] (sum .groupStatusRead [1]) active ∧
      active.grp (1 : Byte).toNat = some group1 ∧
      (Arrived .groupStatusRead [0] (sum .groupStatusRead [0]) active ∧ (0 : Byte).toNat < 1) ∧
      (Arrived .groupStatusRead [17] (sum .groupStatusRead [17]) active ∧ 16 < (17 : Byte).toNat) ∧
      (Arrived .groupStatusRead [16] (sum .groupStatusRead [16]) active ∧ active.grp (16 : Byte).toNat = none) := by
  unfold Arrived IsSealed
  decide

theorem witness_roster_and_queue :
    let s := queued [value10] active
    IsSealed s ∧ (Arrived .rosterRead [62] (sum .rosterRead [62]) s ∧ s.peer 62 = some (resetPeer 62)) ∧
      (Arrived .rosterRead [63] (sum .rosterRead [63]) s ∧ 62 < (63 : Byte).toNat) ∧
      (Arrived .sendQueueRead [1] (sum .sendQueueRead [1]) s ∧ s.sq.entries[(1 : Byte).toNat - 1]? = some value10) ∧
      (Arrived .sendQueueRead [2] (sum .sendQueueRead [2]) s ∧ s.sq.entries.length < (2 : Byte).toNat) := by
  unfold Arrived IsSealed
  decide

theorem witness_notice_read :
    active.sc.state ≠ .validating ∧
      (Arrived .noticeRead [1] (sum .noticeRead [1]) active ∧ Arrived .noticeRead [4] (sum .noticeRead [4]) active) ∧
      (Arrived .noticeRead [0] (sum .noticeRead [0]) active ∧ Arrived .noticeRead [5] (sum .noticeRead [5]) active) := by
  unfold Arrived
  decide

theorem witness_counters :
    IsSealed active ∧ Arrived .countersRead [0] (sum .countersRead [0]) active ∧
      Arrived .countersRead [1] (sum .countersRead [1]) active ∧
      Arrived .countersRead [2] (sum .countersRead [2]) active := by
  unfold Arrived IsSealed
  decide

theorem witness_image_write :
    let s := { State.reset with hp := { State.reset.hp with phase := .receiving } }
    Memory.wf s.sc.image = true ∧ s.sc.state = .unconfigured ∧
      (Arrived .imageWrite [hiByte 1023, loByte 1023, 1, 9] (sum .imageWrite [hiByte 1023, loByte 1023, 1, 9]) s ∧
        (1023 : Word).toNat + 1 ≤ 1024) ∧
      (Arrived .imageWrite [hiByte 1023, loByte 1023, 2, 9, 9] (sum .imageWrite [hiByte 1023, loByte 1023, 2, 9, 9]) s ∧
        1024 < (1023 : Word).toNat + 2) := by
  unfold Arrived
  decide

theorem witness_seal :
    let s := { State.reset with hp := { State.reset.hp with phase := .receiving } }
    s.sc.state = .unconfigured ∧ Arrived .seal [1] (sum .seal [1]) s ∧ Arrived .seal [0] (sum .seal [0]) s ∧
      ((validating []).sc.state = .validating ∧ (validate (validating []).sc.image).1 ≠ 0) := by
  unfold Arrived
  decide

/-- An image body of 42 bytes with its CRC-32. -/
def sealedBody (body : List Byte) : Memory := memWriteRun [] 0 (body ++ longBytes (crc32 body))
/-- The body of the good image with its header, tables and group in parts. -/
def imageBody (head pub sub1 sub2 group : List Byte) : Memory := sealedBody (head ++ pub ++ sub1 ++ sub2 ++ group)
def head0 : List Byte := [0x41, 17, 2, 3, 1, 0xF4, 0, 100, 0xFF, 0xFF, 1, 2, 1]
def pub0 : List Byte := [1, 0x9C, 6, 4, 0, 0, 0]
def sub0 : List Byte := [1, 0x2C, 6, 0, 200, 1, 0]
def sub1 : List Byte := [1, 0x36, 6, 0, 200, 1, 1]
def grp0 : List Byte := [2, 0, 50, 1]

/-- An image for each result of R153 with the detail R154 gives, results 0 to 9 in order, the last a consumer group. -/
theorem witness_validation_results :
    (validate goodImage, validate [], validate [(0, 0x41), (10, 33)], validate [(0, 0x41)],
        validate (imageBody (head0.set 1 63) pub0 sub0 sub1 grp0)) =
      ((0, 0), (1, 0), (2, 0), (3, 0), (4, 0)) ∧
    (validate (imageBody head0 (pub0.set 2 12) sub0 sub1 grp0),
        validate (imageBody head0 pub0 sub0 (sub1.set 6 2) grp0),
        validate (imageBody head0 pub0 sub0 sub1 (grp0.set 3 2))) = ((5, 1), (6, 3), (7, 4)) ∧
    (validate (imageBody head0 pub0 sub0 (pub0.set 3 0 |>.set 4 200) grp0),
        validate (imageBody head0 (pub0.set 6 1) sub0 sub1 grp0),
        validate (imageBody head0 pub0 sub0 (sub1.set 5 0) grp0)) = ((8, 3), (9, 1), (9, 4)) := by decide

theorem witness_passed_image :
    (validating goodImage).sc.state = .validating ∧ (validate (validating goodImage).sc.image).1 = 0 ∧
      (validating goodImage).hp.resetPending = false := by decide

theorem witness_start :
    Arrived .start [] (sum .start []) (inState .halted) ∧ (inState .halted).sc.state = .halted ∧
      Arrived .start [] (sum .start []) (inState .validating) ∧ Arrived .start [] (sum .start []) active := by
  unfold Arrived
  decide

theorem witness_stop :
    Arrived .stop [] (sum .stop []) (inState .listen) ∧ Arrived .stop [] (sum .stop []) (inState .announce) ∧
      (Arrived .stop [] (sum .stop []) active ∧ active.sc.state = .active) ∧
      Arrived .stop [] (sum .stop []) (inState .validating) ∧ Arrived .stop [] (sum .stop []) (inState .mute) := by
  unfold Arrived
  decide

theorem witness_tick : active.sc.resetPin = false := by decide

theorem witness_listen :
    let s := { inState .listen with sc := { (inState .listen).sc with listenTimer := some 0 } }
    s.sc.state = .listen ∧ s.sc.listenTimer = some 0 ∧ s.sq.entries = [] := by decide

/-- An announcing station in a claim phase, its window run out, its entries in a claim state. -/
def announcing (phase : ClaimPhase) (c : ClaimState) : State :=
  { inState .announce with
    pt := [{ pub10 with claim := c, periodTimer := none }]
    cu := { active.cu with phase := phase, windowTimer := some 0, window := 20 } }

theorem witness_windows :
    ∀ s ∈ [announcing .window1 .claiming, announcing .window1 .yielded, announcing .window2 .claiming],
      ClaimsSafe s ∧ KeysDistinct s ∧ s.sc.state = .announce ∧ s.cu.windowTimer = some 0 := by
  unfold ClaimsSafe KeysDistinct
  simp only [List.forall_mem_cons]
  exact ⟨⟨by decide, by decide, rfl, rfl⟩, ⟨by decide, by decide, rfl, rfl⟩, ⟨by decide, by decide, rfl, rfl⟩,
    by simp⟩

theorem witness_window_clauses :
    (announcing .window1 .claiming).pt.filter (fun e => e.claim = .claiming) ≠ [] ∧
      (announcing .window1 .yielded).pt.filter (fun e => e.claim = .claiming) = [] ∧
      (announcing .window2 .claiming).cu.phase = .window2 := by
  decide

theorem witness_presence_expiry : active.sc.state = .active ∧ active.sc.presenceTimer = some 0 := by decide

theorem witness_period :
    KeysDistinct active ∧ active.sc.state = .active ∧ active.pub 10 = some pub10 ∧ pub10.periodTimer = some 0 := by
  unfold KeysDistinct
  decide

theorem witness_freshness_and_silence :
    (active.sub 50 = some sub50 ∧ sub50.freshTimer = some 0) ∧
      ((active.peer 3).map Peer.state = some .present ∧ (active.peer 3).map Peer.silenceTimer = some (some 0)) := by
  decide

theorem witness_assembly :
    let a : Assembly := ⟨9, 3, 1, [true, false], false, 0⟩
    (active.grp 1 = some group1 ∧ group1.assembly = some a ∧ a.timer = 0) ∧
      (group1.resendOnTimeout = true ∧ a.resendDone = false ∧ (∀ i < 1, a.arrived[i]? = some true) ∧
        a.arrived[1]? = some false ∧ (active.members 1)[1]? = some sub70) ∧
      ({ group1 with resendOnTimeout := false }).resendOnTimeout = false := by
  decide

theorem witness_draft_write :
    IsSealed active ∧ Arrived .draftWrite [0, 10, 1, 1, 9] (sum .draftWrite [0, 10, 1, 1, 9]) active ∧
      active.pub 10 = some pub10 ∧ 1 + 1 ≤ pub10.len ∧ pub10.flipPending = false ∧ pub10.len < 2 + 1 ∧
      active.pub 99 = none ∧ ({ pub10 with flipPending := true }).flipPending = true := by
  unfold Arrived IsSealed
  decide

theorem witness_commit :
    IsSealed active ∧ KeysDistinct active ∧
      Arrived .commit [hiByte 10, loByte 10] (sum .commit (wordBytes 10)) active ∧ active.pub 99 = none ∧
      (active.pub 20 = some pub20 ∧ pub20.group.isSome) ∧
      (active.pub 10 = some pub10 ∧ pub10.group = none ∧ pub10.claim ≠ .yielded ∧ pub10.flipPending = false) ∧
      (announcing .window1 .yielded).pub 10 = some { pub10 with claim := .yielded, periodTimer := none } := by
  unfold Arrived IsSealed KeysDistinct
  decide

theorem witness_group_commit :
    IsSealed active ∧ KeysDistinct active ∧ GroupsAgree active ∧
      (Arrived .groupCommit [1] (sum .groupCommit [1]) active ∧
        active.pt.filter (fun e => e.group = some (1 : Byte).toNat) = [pub20, pub30] ∧
        ∀ e ∈ [pub20, pub30], e.claim ≠ .yielded ∧ e.flipPending = false) ∧
      (Arrived .groupCommit [8] (sum .groupCommit [8]) active ∧
        active.pt.filter (fun e => e.group = some (8 : Byte).toNat) = []) ∧
      Arrived .groupCommit [0] (sum .groupCommit [0]) active ∧ Arrived .groupCommit [9] (sum .groupCommit [9]) active := by
  unfold Arrived IsSealed KeysDistinct GroupsAgree
  decide

/-- The station with group 1 held, with and without a ready set. -/
def held (ready : Option Word) : State := { active with ga := [{ group1 with held := true, ready := ready }] }

theorem witness_hold_and_release :
    IsSealed active ∧
      (Arrived .groupHold [1] (sum .groupHold [1]) active ∧ active.grp 1 = some group1 ∧ group1.held = false) ∧
      (Arrived .groupRelease [1] (sum .groupRelease [1]) (held none) ∧
        ((held none).grp 1).map (fun r => (r.held, r.ready)) = some (true, none)) ∧
      ((held (some 9)).grp 1).map (fun r => (r.held, r.ready)) = some (true, some 9) ∧
      Arrived .groupHold [17] (sum .groupHold [17]) active ∧
      (Arrived .groupRelease [16] (sum .groupRelease [16]) active ∧ active.grp 16 = none) := by
  unfold Arrived IsSealed
  decide

theorem witness_line_events :
    (let s := { active with la := { active.la with synced := false } }
    s.la.watching = true ∧ s.la.synced = false ∧ s.la.lineState = .idle) ∧
      (active.la.watching = true ∧ active.la.lineState = .idle) ∧
      (after .lineFaultDeclared active).la.lineState = .fault ∧ (after .lineFaultDeclared active).la.bidMismatch = false ∧
      (let s := after .lineFaultDeclared { active with la := { active.la with bidMismatch := true } }
      s.la.lineState = .fault ∧ s.la.bidMismatch = true ∧ s.la.txErrors ≤ 7) := by
  decide

theorem witness_round_opens :
    let s := queued [value10] active
    s.la.synced = true ∧ s.la.lineState = .idle ∧ 10 ≤ s.la.gap + 0 ∧ s.sc.state = .active ∧
      s.sq.entries = [value10] ∧ active.sq.entries = [] ∧
      { active with la := { active.la with gap := 9 } }.la.gap + 0 < 10 := by decide

theorem witness_round_decided :
    let s := inRound value10 active
    s.la.lineState = .round ∧ QueueOrdered s ∧ KeysDistinct s ∧
      s.la.round = some ⟨1, [1], 0x5011⟩ ∧ (0x5010 : Word).toNat < (0x5011 : Word).toNat ∧
      (0x5011 : Word).toNat < (0xF003 : Word).toNat ∧
      (value10 ∈ s.sq.entries ∧ value10.join = 1 ∧ (s.sq.entries.map QueueEntry.subject).Nodup) ∧
      { s with la := { s.la with round := none } }.la.round = none := by
  unfold QueueOrdered KeysDistinct
  decide

theorem witness_withdrawn :
    let s := { inRound value10 active with sq := ⟨[presence0], 9⟩ }
    s.la.lineState = .round ∧ s.la.round = some ⟨1, [1], 0x5011⟩ ∧ (∀ e ∈ s.sq.entries, e.join ≠ 1) ∧
      (∃ e ∈ s.sq.entries, e.subject = .presence) ∧
      (∀ e ∈ ({ s with sq := ⟨[], 9⟩ } : State).sq.entries, e.subject ≠ .presence) := by
  decide

/-- The station after a round with a mismatch, waiting for the end run of a frame of a bid. -/
def mismatched (bid : Word) : State := after (.roundDecided ⟨false, bid⟩) (inRound value10 active)

theorem witness_bid_mismatch :
    (let s := inRound value10 active
    s.la.lineState = .round ∧ s.la.round.isSome ∧ s.la.txErrors ≤ 7) ∧
      (Receiving 0xC003 (mismatched 0xC003).la ∧ (mismatched 0xC003).la.bidMismatch = true ∧
        (mismatched 0xC003).la.txErrors ≤ 7 ∧
        InTime 0xC003 [true, true] (mismatched 0xC003) ∧
        InTime 0xC003 (frameLevels 0xC003 (.presence 1 2 3)) (mismatched 0xC003)) ∧
      (after .lineFaultDeclared (mismatched 0xC003)).la.lineState = .fault ∧ bodyOfLevels [true] = [] ∧
      bodyOfLevels [true, true] ≠ [] ∧
      (endsInTime (mismatchCounts 0xC003 (inRound value10 active).la) [true, true] = true ∧
        endsInTime (mismatchCounts 0xC003 (inRound value10 active).la) (List.replicate 1000 true) = false) := by
  unfold Receiving InTime
  decide

/-- The states in which a send ends: for a VALUE, a RESEND, a filler, a CLAIM, a DEFEND and a PRESENCE. -/
def sendingValue : State := sendingOf (some (.value 10)) (.value 1 10 7 0 0 [1, 2]) 0x5011 (flown (.value 10) 5 active)
def sendingResend : State := sendingOf (some (.resend 50)) (.resend 1 50) 0xD011 (flown (.resend 50) 13 active)
def sendingFiller : State := sendingOf none ownPresence 0x5011 active
def sendingClaim : State :=
  let s := announcing .send1 .claiming
  sendingOf (some .claim) (.claim 1 [10]) 0xE011
    (flown .claim 14 { s with cu := { s.cu with claimSet := [10], claimFlight := [10] } })
def sendingDefend : State :=
  sendingOf (some .defend) (.defend 1 [10]) 0xF011
    (flown .defend 15 { active with cu := { active.cu with defendSet := [10], defendFlight := [10] } })
def sendingPresence (st : StationState) : State :=
  sendingOf (some .presence) ownPresence 0xC011 (flown .presence 12 (inState st))

theorem witness_send_ends :
    ∀ s ∈
      [sendingValue, sendingResend, sendingFiller, sendingClaim, sendingDefend, sendingPresence .active,
        sendingPresence .leaving],
      s.la.lineState = .sending ∧ s.la.sending.isSome ∧ s.la.txErrors ≤ 7 ∧
        (s.pt.map PubEntry.tag ++ s.st.map SubEntry.tag).Nodup ∧ (s.ga.map GroupRecord.index).Nodup := by
  decide

theorem witness_value_send_end :
    sendingValue.la.sending = some ⟨some (.value 10), 0x5011, .value 1 10 7 0 0 [1, 2]⟩ ∧
      sendingValue.pub 10 = some pub10 ∧ 0 < (frameLevels 0x5011 (.value 1 10 7 0 0 [1, 2])).length :=
  ⟨by decide, by decide, by simp [frameLevels, payloadLevels]⟩

theorem witness_other_send_ends :
    sendingResend.la.sending.map Sending.entry = some (some (.resend 50)) ∧
      sendingFiller.la.sending.map Sending.entry = some none ∧
      (sendingClaim.la.sending.map Sending.entry = some (some .claim) ∧ sendingClaim.cu.phase = .send1 ∧
        sendingClaim.cu.claimFlight = sendingClaim.cu.claimSet ∧ sendingClaim.cu.claimSet ≠ [] ∧
        sendingClaim.sc.state ≠ .leaving) ∧
      sendingDefend.la.sending.map Sending.entry = some (some .defend) :=
  ⟨rfl, rfl, ⟨rfl, rfl, rfl, by decide, by decide⟩, rfl⟩

/-- A CLAIM in flight whose set is emptied, or whose phase has ended, or in LEAVING. -/
def emptiedClaim : State :=
  sendingOf (some .claim) (.claim 1 [10]) 0xE011 (flown .claim 14 (announcing .send1 .yielded))
def endedClaim (st : StationState) : State :=
  sendingOf (some .claim) (.claim 1 [10]) 0xE011 (flown .claim 14 (inState st))

theorem witness_claim_send_ends :
    (emptiedClaim.sc.state = .announce ∧ emptiedClaim.cu.phase = .send1 ∧ emptiedClaim.cu.claimSet = []) ∧
      ((endedClaim .leaving).sc.state = .leaving ∧ (endedClaim .active).cu.phase = .none ∧
        (endedClaim .active).cu.claimSet = [] ∧ (endedClaim .active).sc.state ≠ .announce) :=
  ⟨⟨rfl, rfl, rfl⟩, rfl, rfl, rfl, by decide⟩

theorem witness_emptied_claims : ClaimsSafe emptiedClaim ∧ KeysDistinct emptiedClaim := by
  unfold ClaimsSafe KeysDistinct
  exact ⟨by decide, by decide⟩

theorem witness_presence_send_ends :
    (sendingPresence .leaving).la.sending.map Sending.entry = some (some .presence) ∧
      (let s := sendingPresence .leaving
      let r := queued [⟨.presence, 12, 0, 1, true, true⟩] s
      r.sc.state ≠ .announce ∧ ∃ e ∈ r.sq.entries, e.subject = .presence ∧ e.renew = true) ∧
      ((sendingPresence .leaving).sc.state = .leaving ∧
        ∀ e ∈ (sendingPresence .leaving).sq.entries, e.subject = .presence → e.renew = false) ∧
      (let s := { sendingPresence .announce with pt := [] }
      s.sc.state = .announce ∧ s.pt = [] ∧ ∀ e ∈ s.sq.entries, e.subject = .presence → e.renew = false) ∧
      ((sendingPresence .active).sc.state ≠ .leaving ∧ (sendingPresence .active).sc.state ≠ .announce ∧
        ∀ e ∈ (sendingPresence .active).sq.entries, e.subject = .presence → e.renew = false) := by
  decide

theorem hears_active (bid : Word) : Hears bid active :=
  ⟨rfl, by decide, rfl, fun _ => .inl rfl⟩

theorem hears_receiving (bid : Word) : Hears bid (receivingFrom bid active) :=
  ⟨rfl, LineState.noConfusion, rfl, fun _ => .inr ⟨rfl, rfl⟩⟩

theorem witness_bad_frames :
    Hears 0xC003 active ∧ Hears 0xC003 (receivingFrom 0xC003 active) ∧
      (let s := receivingFrom 0xC003 active
      Hears 0xC003 { s with la := { s.la with ownBroken := true } }) ∧
      checkBody 0xC003 (bodyOfLevels [true, true]) = .bad ∧ InTime 0xC003 [true, true] active ∧
      InTime 0xC003 [true, true] (receivingFrom 0xC003 active) ∧ ¬InTime 0xC003 (List.replicate 1000 true) active ∧
      parsePayload 9 [1] = none ∧ InTime 0xC003 (payloadLevels 0xC003 9 [1]) active := by
  refine ⟨hears_active _, hears_receiving _, ⟨rfl, by decide, rfl, fun _ => .inr ⟨rfl, rfl⟩⟩, ?_⟩
  unfold InTime
  decide

/-- R87: the end run's first four recessive bits count. With 996 bit times counted to the end bit it ends the frame, and
with 997 the fault comes first, for whatever kind of frame. -/
theorem test_end_run_counts :
    let busy (n : Nat) : State :=
      let s := receivingFrom 0xC003 active
      { s with la := { s.la with gap := 0, busy := n } }
    (after (.badFrameReceived 0xC003 [true]) (busy 995)).la.lineState = .idle ∧
      after (.badFrameReceived 0xC003 [true]) (busy 996) = busy 996 ∧
      after (.presenceFrameReceived 0xC003 1 2 3) (busy 950) = busy 950 := by
  decide

/-- R87: a round that opens less than five bit times after a frame's end bit keeps its busy count. -/
theorem test_busy_goes_on :
    let s := { active with la := { active.la with gap := 0, busy := 718 } }
    (after (.roundDecided ⟨true, 0xFFFE⟩) (after (.roundOpen 4) s)).la.busy = 739 ∧
      (after (.roundOpen 5) s).la.busy = 1 := by
  decide

/-- A well-formed frame of a station other than 17 is heard in IDLE, and at the end run of the frame on the line. -/
theorem hearsGood {bid : Word} {f : Frame} (hw : Machine.wellFormed bid f = true) (hs : bidSource bid ≠ 17)
    (ht : endsInTime (bidCounts bid) (frameLevels bid f) = true) :
    HearsGood bid f active ∧ HearsGood bid f (receivingFrom bid active) := by
  have hn : some 17 ≠ some (bidSource bid) := fun h => hs (Option.some.inj h).symm
  refine ⟨⟨hears_active bid, hw, hn, ht⟩, ⟨hears_receiving bid, hw, hn, ?_⟩⟩
  have : frameCounts bid (receivingFrom bid active).la = bidCounts bid := if_pos ⟨rfl, rfl, rfl⟩
  unfold InTime
  rw [this]
  exact ht

theorem active_roster : RosterSafe active := by
  refine ⟨by decide, fun n h => ?_⟩
  have : n = 17 := (Option.some.inj h).symm
  subst this
  decide

theorem active_keys : KeysDistinct active := by
  unfold KeysDistinct
  decide

/-- VALUE frames from station 3: a generation newer, equal and late against filter 100, and a wrong length. -/
theorem witness_ungrouped_value :
    KeysDistinct active ∧ RosterSafe active ∧ HearsGood 0x5003 (.value 1 50 101 0 0 [5]) active ∧
      HearsGood 0x5003 (.value 1 50 101 0 0 [5]) (receivingFrom 0x5003 active) ∧
      ([101, 100, 32868, 32869, 99] : List Word).all
        (fun g => Machine.wellFormed 0x5003 (.value 1 50 g 0 0 [5])) = true ∧
      Machine.wellFormed 0x5003 (.value 1 50 101 0 0 [5, 6]) = true :=
  ⟨active_keys, active_roster, (hearsGood (by decide) (by decide) (by decide)).1, (hearsGood (by decide) (by decide) (by decide)).2, by decide,
    by decide⟩

theorem witness_ungrouped_entry :
    (entered 0x5003 (.value 1 50 101 0 0 [5]) active).sub 50 = some sub50 ∧
      sub50.group = none ∧ sub50.producer = some (bidSource 0x5003) ∧ sub50.len = 1 ∧
      (1 ≤ (101 - 100 : Word).toNat ∧ (32868 - 100 : Word).toNat ≤ 32768 ∧ 32769 ≤ (32869 - 100 : Word).toNat ∧
        32769 ≤ (99 - 100 : Word).toNat) := by
  decide

/-- A VALUE frame of two data bytes for a member of one byte: R94 rejects it. -/
theorem witness_member_rejected :
    HearsGood 0x5003 (.value 1 70 9 2 2 [5, 6]) active ∧
      HearsGood 0x5003 (.value 1 70 9 2 2 [5, 6]) (receivingFrom 0x5003 active) ∧
      (entered 0x5003 (.value 1 70 9 2 2 [5, 6]) active).sub 70 = some sub70 ∧ sub70.group = some 1 ∧
      ([5, 6] : List Byte).length ≠ sub70.len :=
  ⟨(hearsGood (by decide) (by decide) (by decide)).1, (hearsGood (by decide) (by decide) (by decide)).2, by decide,
    by decide, by decide⟩

/-- VALUE frames from station 3 for the members of group 1, matching it and not, and from station 4. -/
theorem witness_member_value :
    KeysDistinct active ∧ RosterSafe active ∧ HearsGood 0x5003 (.value 1 70 9 2 2 [5]) active ∧
      HearsGood 0x5003 (.value 1 70 9 2 2 [5]) (receivingFrom 0x5003 active) ∧
      HearsGood 0x5003 (.value 1 70 9 3 2 [5]) active ∧ HearsGood 0x5004 (.value 1 70 9 2 2 [5]) active ∧
      ([8, 7, 10] : List Word).all (fun g => Machine.wellFormed 0x5003 (.value 1 70 g 2 2 [5])) = true :=
  ⟨active_keys, active_roster, (hearsGood (by decide) (by decide) (by decide)).1, (hearsGood (by decide) (by decide) (by decide)).2,
    (hearsGood (by decide) (by decide) (by decide)).1, (hearsGood (by decide) (by decide) (by decide)).1, by decide⟩

theorem witness_member_entry :
    let r := entered 0x5003 (.value 1 70 9 2 2 [5]) active
    r.sub 70 = some sub70 ∧ r.grp 1 = some group1 ∧ (r.members 1).map SubEntry.tag = [60, 70] ∧
      group1.expected = (2 : Byte).toNat ∧ sub70.group = some 1 ∧ sub70.producer = some (bidSource 0x5003) ∧
      group1.assembly.map (fun a => (a.gen, a.producer)) = some (9, bidSource 0x5003) ∧
      ((9 - 8 : Word).toNat = 1 ∧ (10 - 9 : Word).toNat = 1 ∧ 32769 ≤ (7 - 8 : Word).toNat) ∧
      ((held none).grp 1).map GroupRecord.held = some true ∧ bidSource 0x5004 = 4 := by
  decide

/-- An announcing station hears a CLAIM from a lower and a higher number. -/
theorem hearsGood_announcing {bid : Word} {f : Frame} {p : ClaimPhase} {c : ClaimState}
    (hw : Machine.wellFormed bid f = true) (hs : bidSource bid ≠ 17)
    (ht : endsInTime (bidCounts bid) (frameLevels bid f) = true) : HearsGood bid f (announcing p c) :=
  ⟨⟨rfl, LineState.noConfusion, rfl, fun _ => .inl rfl⟩, hw, fun h => hs (Option.some.inj h).symm, ht⟩

theorem announcing_roster (p : ClaimPhase) (c : ClaimState) : RosterSafe (announcing p c) := active_roster

theorem witness_evidence :
    KeysDistinct active ∧ RosterSafe active ∧ ClaimsSafe active ∧ HearsGood 0xE003 (.claim 1 [10]) active ∧
      HearsGood 0xF012 (.defend 1 [10]) active ∧ HearsGood 0xF003 (.defend 1 [10]) (receivingFrom 0xF003 active) ∧
      (HearsGood 0x5012 (.value 1 10 7 0 0 [5]) active ∧ (active.pub 10).isSome) ∧ active.pt[0]? = some pub10 :=
  ⟨active_keys, active_roster, by unfold ClaimsSafe; decide, (hearsGood (by decide) (by decide) (by decide)).1,
    (hearsGood (by decide) (by decide) (by decide)).1, (hearsGood (by decide) (by decide) (by decide)).2,
    ⟨(hearsGood (by decide) (by decide) (by decide)).1, by decide⟩, by decide⟩

theorem witness_evidence_announcing :
    let s := announcing .window1 .claiming
    KeysDistinct s ∧ RosterSafe s ∧ ClaimsSafe s ∧ HearsGood 0xE012 (.claim 1 [10]) s ∧
      HearsGood 0xE003 (.claim 1 [10]) s :=
  ⟨by unfold KeysDistinct; decide, announcing_roster _ _, by unfold ClaimsSafe; decide,
    hearsGood_announcing (by decide) (by decide) (by decide), hearsGood_announcing (by decide) (by decide) (by decide)⟩

/-- A CLAIM set emptied in SEND 1 by a CLAIM from a higher number: ACTIVE at once (R43). -/
theorem test_emptied_claim_set :
    let s := announcing .send1 .claiming
    (after (.claimFrameReceived 0xE012 1 [10])
      (queued [claim0] { s with cu := { s.cu with claimSet := [10] } })).sc.state = .active := by decide

theorem witness_presence_frame :
    KeysDistinct active ∧ RosterSafe active ∧ HearsGood 0xC003 (.presence 2 2 0) active ∧
      HearsGood 0xC03E (.presence 2 3 32) (receivingFrom 0xC03E active) ∧
      (HearsGood 0xE003 (.claim 2 [99]) active ∧ active.pub 99 = none) ∧
      (HearsGood 0xD003 (.resend 2 99) active ∧ HearsGood 0x5003 (.value 2 99 7 0 0 [1]) active) ∧
      active.sub 99 = none :=
  ⟨active_keys, active_roster, (hearsGood (by decide) (by decide) (by decide)).1, (hearsGood (by decide) (by decide) (by decide)).2,
    ⟨(hearsGood (by decide) (by decide) (by decide)).1, rfl⟩,
    ⟨(hearsGood (by decide) (by decide) (by decide)).1, (hearsGood (by decide) (by decide) (by decide)).1⟩, rfl⟩

/-- A PRESENCE of another epoch joins, restarts and tears: the explicit roster is the model's (R129, R130, R119). -/
theorem test_entered :
    after (.presenceFrameReceived 0xC003 2 2 0) active = entered 0xC003 (.presence 2 2 0) active := by decide

theorem witness_duplicate :
    Hears 0xC011 active ∧ Hears 0xC011 (receivingFrom 0xC011 active) ∧
      Machine.wellFormed 0xC011 (.presence 1 2 0) = true ∧ active.sc.ownNumber = some (bidSource 0xC011) ∧
      (inRound value10 active).la.lineState ≠ .idle ∧ InTime 0xC011 (frameLevels 0xC011 (.presence 1 2 0)) active :=
  ⟨hears_active _, hears_receiving _, by decide, by decide, by decide, by unfold InTime; decide⟩

theorem witness_resend :
    KeysDistinct active ∧ RosterSafe active ∧ HearsGood 0xD003 (.resend 1 10) active ∧
      HearsGood 0xD003 (.resend 1 10) (receivingFrom 0xD003 active) ∧
      (active.pub 10 = some pub10 ∧ pub10.claim = .owned ∧ pub10.committed.isSome ∧ active.sc.state = .active) ∧
      active.pub 50 = none :=
  ⟨active_keys, active_roster, (hearsGood (by decide) (by decide) (by decide)).1, (hearsGood (by decide) (by decide) (by decide)).2,
    by decide, rfl⟩

theorem witness_notices :
    (¬(17 ≤ noticeCode .tagStale ∨ (0 : Word).getLsbD (noticeCode .tagStale - 1) = true)) ∧
      active.nq.mask.getLsbD (noticeCode .tagUpdated - 1) = true ∧ active.nq.notices.length < 32 ∧
      (∃ n ∈ [(⟨.tagUpdated, 50, 1, 0⟩ : Notice)], n.kind = .tagUpdated ∧ n.subject = 50) ∧
      32 ≤ (List.replicate 32 (⟨.tagStale, 50, 1, 0⟩ : Notice)).length := by
  decide

theorem witness_frames :
    Machine.wellFormed 0x5011 (.value 1 10 7 0 0 [0, 0]) = true ∧ Machine.wellFormed 0xE011 (.claim 1 [10, 65534]) = true ∧
      Machine.wellFormed 0xFFFE (.defend 1 [1]) = true ∧ Machine.wellFormed 0xC011 ownPresence = true ∧
      Machine.wellFormed 0xD011 (.resend 1 10) = true := by
  decide

/-- The invariants hold in the ACTIVE station, and a command of each kind gives a next state. -/
theorem witness_invariants :
    TxErrorsSafe active ∧ NoticesSafe active ∧ QueueOrdered (queued [claim0, value10] active) ∧ ClaimsSafe active ∧
      exec .stationClockTick active = .next (after .stationClockTick active) := by
  unfold TxErrorsSafe NoticesSafe QueueOrdered ClaimsSafe
  exact ⟨by decide, by decide, by decide, by decide, rfl⟩

theorem witness_more_invariants :
    Memory.wf active.sc.image = true ∧ KeysDistinct active ∧ BuffersAgree active ∧ GroupsAgree active ∧
      SilentUnlessContending active ∧ exec .goodSendEnd active = .next (after .goodSendEnd active) := by
  unfold KeysDistinct BuffersAgree GroupsAgree
  exact ⟨by decide, by decide, by decide, by decide, fun _ _ => .inr (.inl rfl), rfl⟩

theorem witness_counts :
    TxErrorsSafe active ∧ CountsSafe active ∧ exec .stationClockTick active = .next (after .stationClockTick active) := by
  unfold TxErrorsSafe CountsSafe
  exact ⟨by decide, ⟨by decide, by decide, by decide, by decide, by decide⟩, rfl⟩

theorem witness_roster_safe : RosterSafe active ∧ exec .presenceTimerExpiry active = .next (after .presenceTimerExpiry active) :=
  ⟨active_roster, rfl⟩

theorem witness_queue_bounded :
    QueueBounded (queued [value10] active) ∧
      exec .stationClockTick (queued [value10] active) = .next (after .stationClockTick (queued [value10] active)) := by
  refine ⟨⟨by decide, by decide, ?_, by decide, by decide⟩, rfl⟩
  intro e he t ht
  have hv : e = value10 := List.mem_singleton.mp he
  subst hv
  have : t = 10 := (Subject.value.inj ht).symm
  exact ⟨pub10, by decide, this.symm ▸ rfl⟩

theorem witness_commits_step :
    let c := Instr.groupCommit 1 (sum .groupCommit [1])
    KeysDistinct active ∧ GroupsAgree active ∧ exec c active = .next (after c active) ∧
      (after c active).sc.state ≠ .unconfigured ∧ active.sc.state ≠ .validating ∧
      (after c active).pt[1]?.map PubEntry.committed = some (some 4) := by
  unfold KeysDistinct GroupsAgree
  exact ⟨by decide, by decide, rfl, by decide, by decide, by decide⟩

theorem witness_held_group :
    let c := Instr.valueFrameReceived 0x5003 1 70 9 2 2 [5]
    KeysDistinct (held none) ∧ exec c (held none) = .next (after c (held none)) ∧
      (((held none).grp 1).map GroupRecord.held = some true ∧
        ((after c (held none)).grp 1).map (fun r => (r.held, r.ready)) = some (true, some 9)) := by
  unfold KeysDistinct
  exact ⟨by decide, rfl, by decide⟩

theorem witness_mute :
    (inState .mute).sc.state = .mute ∧ SilentUnlessContending (inState .mute) ∧ active.sc.state ≠ .validating ∧
      exec .powerUp (inState .mute) = .next (after .powerUp (inState .mute)) := by
  refine ⟨rfl, fun heard h => ?_, by decide, rfl⟩
  exact absurd (drives_cases h) (by decide)

/-- A command of the host taken while the station validates: no VALIDATION_PASSED, and no reset after it. -/
theorem witness_validating :
    let s := validating []
    let c := Instr.start (sum .start [])
    s.sc.state = .validating ∧ SilentUnlessContending s ∧ KeysDistinct s ∧ GroupsAgree s ∧
      exec c s = .next (after c s) ∧ c ≠ .validationPassed ∧ (after c s).sc.state ≠ .unconfigured := by
  refine ⟨rfl, fun heard h => ?_, by unfold KeysDistinct; decide, by unfold GroupsAgree; decide, rfl, by decide, by decide⟩
  exact absurd (drives_cases h) (by decide)

/-- In the state after reset none of the events of the last statement can happen. -/
theorem witness_impossible_events :
    let s := State.reset
    ¬(s.sc.state = .listen ∧ s.sc.listenTimer = some 0) ∧ s.pub 10 = none ∧ s.grp 1 = none ∧
      ((s.peer 1).map Peer.state = some .absent) ∧ s.la.lineState ≠ .fault ∧ s.la.lineState ≠ .round ∧
      s.la.lineState ≠ .sending ∧ ¬(s.la.synced = true ∧ s.la.lineState = .idle) := by
  decide

end Sys2Proof.Tests
end

section
/-! SUPPORT. Publishing: a host command's own checks in the sealed states, drafts and commits of one entry, and the
requests after a group commit; then the statements on DRAFT WRITE, COMMIT and GROUP COMMIT. -/

namespace Sys2Proof.Machine

/-! Host commands the sealed states alone gate (R160, R162): the answer follows from the command's own checks. -/

section SealedCommands
variable {c : Command} {ops : List Byte} {crc : Byte} {act : State → Reply} {s : State}

theorem takeCommand_refused (hin : Arrived c ops crc s) (hs : IsSealed s)
    (hc : c ≠ .imageWrite ∧ c ≠ .seal ∧ c ≠ .start ∧ c ≠ .stop) {st : Status} (hact : act s = .error st) :
    takeCommand c ops crc act s = { s with hp := replied c ops crc st [] s } := by
  rw [takeCommand_arrived act hin, gatedReply, gate_sealed hs.1 hs.2 hc]
  simp only [hact, finish, answer_eq]

theorem takeCommand_accepted (hin : Arrived c ops crc s) (hs : IsSealed s)
    (hc : c ≠ .imageWrite ∧ c ≠ .seal ∧ c ≠ .start ∧ c ≠ .stop) {t : State} {results : List Byte}
    (hact : act s = .ok (t, results)) :
    takeCommand c ops crc act s = { t with hp := replied c ops crc .ok results t } := by
  rw [takeCommand_arrived act hin, gatedReply, gate_sealed hs.1 hs.2 hc]
  simp only [hact, finish, answer_eq]

end SealedCommands

/-! DRAFT WRITE (R21). -/

theorem draftWriteReply_unknown {t : Word} {s : State} (offset : Byte) (bytes : List Byte) (h : s.pub t = none) :
    draftWriteReply t offset bytes s = .error .unknown := by
  simp only [draftWriteReply, h]

theorem draftWriteReply_known {t : Word} {s : State} {e : PubEntry} (offset : Byte) (bytes : List Byte)
    (h : s.pub t = some e) :
    draftWriteReply t offset bytes s =
      if bytes.length = 0 ∨ e.len < offset.toNat + bytes.length then .error .range
      else if e.flipPending then .error .flipPending
      else .ok (s.setPub t (writeDraft offset.toNat bytes), []) := by
  simp only [draftWriteReply, h]

theorem writeDraft_live_a {e : PubEntry} (h : e.live = .a) (offset : Nat) (bytes : List Byte) :
    writeDraft offset bytes e = { e with bufB := { e.bufB with data := writeBytes offset bytes e.bufB.data } } := by
  simp only [writeDraft, setDraft, draftBuffer, h]

theorem writeDraft_live_b {e : PubEntry} (h : e.live = .b) (offset : Nat) (bytes : List Byte) :
    writeDraft offset bytes e = { e with bufA := { e.bufA with data := writeBytes offset bytes e.bufA.data } } := by
  simp only [writeDraft, setDraft, draftBuffer, h]

/-! Commits of one entry (R20, R23, R27). -/

/-- The draft as a commit under generation `g` stamps it (R23). -/
def stampedDraft (g : Word) (e : PubEntry) : Buffer := ⟨(draftBuffer e).data, some g⟩

/-- A commit of an entry without a pending flip: while its frame is in flight the draft is stamped where it stands and
waits for its flip; otherwise both buffers hold the stamped draft and the sides change. -/
theorem commitEntry_eq (g : Word) (flying : Bool) {e : PubEntry} (hf : e.flipPending = false) :
    commitEntry g flying e =
      if flying then
        { e with
          committed := some g, flipPending := true
          bufA := if e.live = .a then e.bufA else stampedDraft g e
          bufB := if e.live = .a then stampedDraft g e else e.bufB }
      else
        { e with
          committed := some g, bufA := stampedDraft g e, bufB := stampedDraft g e
          live := if e.live = .a then .b else .a } := by
  cases flying with
  | true => cases hl : e.live <;> simp [commitEntry, setDraft, draftBuffer, stampedDraft, hl]
  | false => cases hl : e.live <;> simp [commitEntry, makeFlip, setDraft, draftBuffer, otherSide, stampedDraft, hl, hf]

/-- A commit leaves what the entry is and who owns it. -/
theorem commitEntry_frame (g : Word) (flying : Bool) (e : PubEntry) :
    (commitEntry g flying e).tag = e.tag ∧ (commitEntry g flying e).cls = e.cls ∧
      (commitEntry g flying e).claim = e.claim := by
  cases flying <;> cases hl : e.live <;> simp [commitEntry, makeFlip, setDraft, otherSide, hl]

/-! COMMIT (R22). -/

theorem commitReply_unknown {t : Word} {s : State} (h : s.pub t = none) : commitReply t s = .error .unknown := by
  simp only [commitReply, h]

theorem commitReply_known {t : Word} {s : State} {e : PubEntry} (h : s.pub t = some e) :
    commitReply t s =
      if e.group.isSome then .error .grouped
      else if e.claim = .yielded then .error .notOwned
      else if e.flipPending then .error .flipPending
      else
        .ok ((s.setPub t (commitEntry (nextGen e.committed) (inFlight s.sq (.value t)))).requestValue t, []) := by
  simp only [commitReply, h]

/-- With distinct tags a change of the entry of a tag puts one entry in its place. -/
theorem KeysDistinct.setPub_pt_eq {s : State} (hk : KeysDistinct s) {t : Word} {e : PubEntry} (he : s.pub t = some e)
    (f : PubEntry → PubEntry) : (s.setPub t f).pt = s.pt.map (fun x => if x.tag = t then f e else x) := by
  rw [State.setPub_pt, updateKey]
  refine List.map_congr_left fun x hx => ?_
  split
  · next ht => rw [hk.pub_eq he hx ht]
  · rfl

/-- An accepted COMMIT as a whole next state: the entry committed in its place, and a VALUE entry requested for it
when it is OWNED in ACTIVE (R23). -/
theorem commit_effect {s : State} (hk : KeysDistinct s) {t : Word} {e : PubEntry} (he : s.pub t = some e) (g : Word)
    (flying : Bool) :
    (s.setPub t (commitEntry g flying)).requestValue t =
      { s with
        pt := s.pt.map (fun x => if x.tag = t then commitEntry g flying e else x)
        sq := if e.claim = .owned ∧ s.sc.state = .active then joined (.value t) e.cls s.sq else s.sq } := by
  obtain ⟨-, hcls, hclaim⟩ := commitEntry_frame g flying e
  have hpub : (s.setPub t (commitEntry g flying)).pub t = some (commitEntry g flying e) := by
    rw [State.pub_setPub s t _ fun x => (commitEntry_frame g flying x).1, he]; rfl
  rw [requestValue_eq t _ hpub, hclaim, hcls, State.setPub_sc, ← hk.setPub_pt_eq he]
  split <;> rfl

/-! GROUP COMMIT (R26, R27). -/

theorem groupCommitReply_range {number : Byte} (s : State) (h : number.toNat < 1 ∨ 8 < number.toNat) :
    groupCommitReply number s = .error .range := by
  simp only [groupCommitReply, h, if_true]

theorem groupCommitReply_unknown {number : Byte} {s : State} (h1 : 1 ≤ number.toNat) (h8 : number.toNat ≤ 8)
    (hm : s.producerMembers number.toNat = []) : groupCommitReply number s = .error .unknown := by
  have hr : ¬(number.toNat < 1 ∨ 8 < number.toNat) := by omega
  simp only [groupCommitReply, hr, if_false, hm]

/-- The checks of a group that has a member; the new generation is taken from its first member. -/
theorem groupCommitReply_known {number : Byte} {s : State} (h1 : 1 ≤ number.toNat) (h8 : number.toNat ≤ 8)
    {e : PubEntry} {es : List PubEntry} (hm : s.producerMembers number.toNat = e :: es) :
    groupCommitReply number s =
      if ∃ m ∈ s.producerMembers number.toNat, m.claim = .yielded then .error .notOwned
      else if ∃ m ∈ s.producerMembers number.toNat, m.flipPending = true then .error .flipPending
      else
        .ok
          ((commitGroup number.toNat (nextGen e.committed) s).requestValues
            ((s.producerMembers number.toNat).map PubEntry.tag), []) := by
  have hr : ¬(number.toNat < 1 ∨ 8 < number.toNat) := by omega
  simp only [groupCommitReply, hr, if_false, hm, List.any_eq_true, decide_eq_true_eq]

/-- VALUE requests for entries whose claim and class the table holds: the OWNED ones join in order in ACTIVE, none
elsewhere (R27). -/
theorem requestValues_owned (l : List PubEntry) (s : State)
    (hl : ∀ e ∈ l, ∃ x, s.pub e.tag = some x ∧ x.claim = e.claim ∧ x.cls = e.cls) :
    s.requestValues (l.map PubEntry.tag) =
      { s with
        sq :=
          if s.sc.state = .active then joinedValues (l.filter (fun e => e.claim = .owned)) s.sq else s.sq } := by
  induction l generalizing s with
  | nil => simp [State.requestValues, joinedValues]
  | cons e rest ih =>
    obtain ⟨x, hx, hclaim, hcls⟩ := hl e (List.mem_cons_self ..)
    have hrest : ∀ q : SendQueue, ∀ y ∈ rest,
        ∃ x, ({ s with sq := q } : State).pub y.tag = some x ∧ x.claim = y.claim ∧ x.cls = y.cls :=
      fun _ y hy => hl y (List.mem_cons_of_mem _ hy)
    have hhead : s.requestValues ((e :: rest).map PubEntry.tag) =
        (s.requestValue e.tag).requestValues (rest.map PubEntry.tag) := rfl
    rw [hhead, requestValue_eq _ _ hx, hclaim, hcls]
    by_cases hactive : s.sc.state = .active
    · by_cases howned : e.claim = .owned
      · rw [if_pos ⟨howned, hactive⟩, ih _ (hrest _)]
        simp [hactive, howned, joinedValues]
      · rw [if_neg (fun h => howned h.1), ih s (hrest s.sq)]
        simp [hactive, howned]
    · rw [if_neg (fun h => hactive h.2), ih s (hrest s.sq)]
      simp [hactive]

/-- After a group commit the table holds every member with the claim and the class it had. -/
theorem commitGroup_pub {s : State} (hk : KeysDistinct s) (n : Nat) (g : Word) {e : PubEntry}
    (he : e ∈ s.producerMembers n) :
    ∃ x, (commitGroup n g s).pub e.tag = some x ∧ x.claim = e.claim ∧ x.cls = e.cls := by
  obtain ⟨hmem, hgroup⟩ : e ∈ s.pt ∧ e.group = some n := by simpa [State.producerMembers] using he
  obtain ⟨htag, hcls, hclaim⟩ := commitEntry_frame g (inFlight s.sq (.value e.tag)) e
  refine ⟨_, lookupKey_of_mem ?_ (List.mem_map.2 ⟨e, hmem, if_pos hgroup⟩) htag, hclaim, hcls⟩
  have htags : (commitGroup n g s).pt.map PubEntry.tag = s.pt.map PubEntry.tag := by
    rw [commitGroup, List.map_map]
    refine List.map_congr_left fun x _ => ?_
    rw [Function.comp_apply, apply_ite PubEntry.tag, (commitEntry_frame _ _ x).1, ite_self]
  exact htags ▸ hk.pub_tags

/-- What a commit of group `n` makes of one entry of the table (R27, steps 1 and 2). -/
theorem commitGroup_getElem? {s : State} {i : Nat} {e : PubEntry} (n : Nat) (g : Word) (hi : s.pt[i]? = some e) :
    (commitGroup n g s).pt[i]? =
      some (if e.group = some n then commitEntry g (inFlight s.sq (.value e.tag)) e else e) := by
  simp [commitGroup, hi]

/-- An accepted GROUP COMMIT as a whole next state: the table of `commitGroup`, and VALUE entries for the OWNED members
in table order (R27). -/
theorem groupCommit_effect {s : State} (hk : KeysDistinct s) (n : Nat) (g : Word) :
    (commitGroup n g s).requestValues ((s.producerMembers n).map PubEntry.tag) =
      { s with
        pt := (commitGroup n g s).pt
        sq :=
          if s.sc.state = .active then
            joinedValues ((s.producerMembers n).filter (fun e => e.claim = .owned)) s.sq
          else s.sq } := by
  rw [requestValues_owned _ _ fun e he => commitGroup_pub hk n g he]
  rfl

/-! The statements. -/

/-- Settles O27: the checks of R21 one by one, and the draft side by the side that is live. -/
theorem draftWriteWritesTheDraft : Obligations.DraftWriteWritesTheDraft := by
  intro tag offset data crc s hs ops refused written hin
  have refuse {st : Status} (h : draftWriteReply tag offset data s = .error st) :
      exec (.draftWrite tag offset data crc) s = .next (refused st) :=
    congrArg Host.Outcome.next (takeCommand_refused hin hs (by decide) h)
  refine ⟨fun hn => refuse (draftWriteReply_unknown _ _ hn), fun e he => ⟨fun hr => refuse ?_, ?_, ?_⟩⟩
  · rw [draftWriteReply_known _ _ he, if_pos (by omega)]
  · intro h1 hlen hf
    refine refuse ?_
    rw [draftWriteReply_known _ _ he, if_neg (by omega), if_pos hf]
  · intro h1 hlen hf
    have hok : draftWriteReply tag offset data s = .ok (s.setPub tag (writeDraft offset.toNat data), []) := by
      rw [draftWriteReply_known _ _ he, if_neg (by omega), if_neg (by simp [hf])]
    refine (congrArg Host.Outcome.next (takeCommand_accepted hin hs (by decide) hok)).trans ?_
    congr 2
    refine List.map_congr_left fun x _ => if_congr Iff.rfl ?_ rfl
    split
    · next hl => exact writeDraft_live_a hl _ _
    · next hl => exact writeDraft_live_b hl _ _

/-- Settles O28: the checks of R22 one by one, then `commit_effect` with the two outcomes of `commitEntry_eq`. -/
theorem commitStampsAndFlips : Obligations.CommitStampsAndFlips := by
  intro tag crc s hs hk ops refused hin
  have refuse {st : Status} (h : commitReply tag s = .error st) :
      exec (.commit tag crc) s = .next (refused st) :=
    congrArg Host.Outcome.next (takeCommand_refused hin hs (by decide) h)
  refine ⟨fun hn => refuse (commitReply_unknown hn), fun e he => ⟨fun hg => refuse ?_, ?_, ?_, ?_⟩⟩
  · rw [commitReply_known he, if_pos hg]
  · intro hg hy
    refine refuse ?_
    rw [commitReply_known he, if_neg (by simp [hg]), if_pos hy]
  · intro hg hy hf
    refine refuse ?_
    rw [commitReply_known he, if_neg (by simp [hg]), if_neg hy, if_pos hf]
  · intro hg hy hf g stamped flying
    have hgen : nextGen e.committed = g := by cases h : e.committed <;> simp [g, h, nextGen]
    have hok : commitReply tag s = .ok ((s.setPub tag (commitEntry g flying)).requestValue tag, []) := by
      rw [commitReply_known he, if_neg (by simp [hg]), if_neg hy, if_neg (by simp [hf]), hgen]
      rfl
    refine ⟨_, rfl, (congrArg Host.Outcome.next (takeCommand_accepted hin hs (by decide) hok)).trans ?_⟩
    rw [commit_effect hk he, commitEntry_eq g flying hf]
    rfl

/-- Settles O29: the checks of R26 one by one, then `groupCommit_effect`; the members agree on the committed generation,
so the new one is each member's next. -/
theorem groupCommitStampsEveryMember : Obligations.GroupCommitStampsEveryMember := by
  intro number crc s hs hk hagree refused members hin
  have hmembers : s.producerMembers number.toNat = members := rfl
  have hmem {e : PubEntry} : e ∈ members ↔ e ∈ s.pt ∧ e.group = some number.toNat := by simp [members]
  have refuse {st : Status} (h : groupCommitReply number s = .error st) :
      exec (.groupCommit number crc) s = .next (refused st) :=
    congrArg Host.Outcome.next (takeCommand_refused hin hs (by decide) h)
  refine ⟨fun hr => refuse (groupCommitReply_range s hr), fun h1 h8 => ⟨?_, ?_, ?_, ?_⟩⟩
  · exact fun hm => refuse (groupCommitReply_unknown h1 h8 hm)
  · intro hy
    obtain ⟨m, ms, hm⟩ := List.exists_cons_of_ne_nil (List.ne_nil_of_mem hy.choose_spec.1)
    refine refuse ?_
    rw [groupCommitReply_known h1 h8 hm, hmembers, if_pos hy]
  · intro hy hf
    obtain ⟨m, ms, hm⟩ := List.exists_cons_of_ne_nil (List.ne_nil_of_mem hf.choose_spec.1)
    refine refuse ?_
    rw [groupCommitReply_known h1 h8 hm, hmembers, if_neg (fun ⟨x, hx, h⟩ => hy x hx h), if_pos hf]
  · intro hne hfree flying
    obtain ⟨m, ms, hm⟩ := List.exists_cons_of_ne_nil hne
    have hok : groupCommitReply number s =
        .ok ((commitGroup number.toNat (nextGen m.committed) s).requestValues (members.map PubEntry.tag), []) := by
      rw [groupCommitReply_known h1 h8 hm, hmembers, if_neg (fun ⟨x, hx, h⟩ => (hfree x hx).1 h),
        if_neg (fun ⟨x, hx, h⟩ => by simp [(hfree x hx).2] at h)]
    refine ⟨_, congrArg Host.Outcome.next (takeCommand_accepted hin hs (by decide) hok), ?_⟩
    rw [← hmembers, groupCommit_effect hk]
    refine ⟨rfl, by simp [commitGroup], fun i e hi hg => ?_, fun i e hi hg => ?_, rfl⟩
    · exact (commitGroup_getElem? _ _ hi).trans (by rw [if_neg hg])
    · intro g stamped
      have hin_pt : e ∈ s.pt := List.mem_of_getElem? hi
      obtain ⟨hm_pt, hm_group⟩ := hmem.1 (hm ▸ List.mem_cons_self ..)
      have hgen : nextGen m.committed = g := by
        rw [hagree m hm_pt e hin_pt (by simp [hm_group]) (hm_group.trans hg.symm)]
        cases h : e.committed <;> simp [g, h, nextGen]
      refine (commitGroup_getElem? _ _ hi).trans ?_
      rw [if_pos hg, hgen, commitEntry_eq g _ (hfree e (hmem.2 ⟨hin_pt, hg⟩)).2]
      rfl

end Sys2Proof.Machine
end

section
/-! SUPPORT. The assembly timer: which member is missing first, a tear as a whole next state, and the two answers to an
expiry; then the statement on ASSEMBLY_TIMER_EXPIRY. -/

namespace Sys2Proof.Machine

/-- The first missing member is the one at the first position that has not arrived (R107). -/
theorem firstMissing_eq {s : State} {k p : Nat} {a : Assembly} {e : SubEntry}
    (hbefore : ∀ i < p, a.arrived[i]? = some true) (hp : a.arrived[p]? = some false)
    (he : (s.members k)[p]? = some e) : s.firstMissing k a = some e.tag := by
  obtain ⟨hlt, hfalse⟩ := List.getElem?_eq_some_iff.1 hp
  have hidx : a.arrived.findIdx (fun b => !b) = p := by
    refine (List.findIdx_eq hlt).2 ⟨by rw [hfalse]; rfl, fun i hi => ?_⟩
    obtain ⟨_, htrue⟩ := List.getElem?_eq_some_iff.1 (hbefore i hi)
    rw [htrue]; rfl
  rw [State.firstMissing, hidx, he]; rfl

/-- A tear changes the group's record and posts GROUP_TORN, nothing else (R116). -/
theorem tear_eq (k : Nat) (reason : TearReason) (a : Assembly) (s : State) :
    s.tear k reason a =
      { s with
        ga := updateKey GroupRecord.index k (fun r =>
          { r with
            assembly := none
            torn := bump 65535 r.torn
            completed := if tearClears reason then none else r.completed }) s.ga
        nq := posted s
          [(.groupTorn, BitVec.ofNat 16 k, BitVec.ofNat 16 (tearCode reason * 256 + a.arrived.count true))] } := by
  rw [State.tear, emit_eq]; rfl

/-- An expiry that finds its timer run out is answered by `assemblyExpiry` (R118). -/
theorem exec_assemblyTimerExpiry_due {k : Nat} {s : State} {r : GroupRecord} {a : Assembly} (hr : s.grp k = some r)
    (ha : r.assembly = some a) (hdue : a.timer = 0) :
    exec (.assemblyTimerExpiry k) s = .next (s.assemblyExpiry k r a) := by
  change execAssemblyTimerExpiry k s = _
  simp only [execAssemblyTimerExpiry, hr, ha, hdue, if_true]

/-- With resend-on-timeout and no resend made, the assembly is marked, its timer is full again, and a RESEND is
requested for the first missing member (R118). -/
theorem assemblyExpiry_resend {k : Nat} {s : State} {r : GroupRecord} {a : Assembly} {t : Word}
    (hopt : r.resendOnTimeout = true) (hdone : a.resendDone = false) (ht : s.firstMissing k a = some t) :
    s.assemblyExpiry k r a =
      (s.setGrp k fun x => { x with assembly := some { a with resendDone := true, timer := r.limit } }).request
        (.resend t) := by
  rw [State.assemblyExpiry, if_pos ⟨hopt, by rw [hdone]; rfl⟩, ht]

/-- Without the option, or after the one resend, the assembly is torn (R118). -/
theorem assemblyExpiry_tear {k : Nat} {s : State} {r : GroupRecord} {a : Assembly}
    (h : r.resendOnTimeout = false ∨ a.resendDone = true) : s.assemblyExpiry k r a = s.tear k .timeout a := by
  refine if_neg fun ⟨hopt, hdone⟩ => ?_
  rcases h with h | h
  · rw [h] at hopt; cases hopt
  · rw [h] at hdone; cases hdone

/-- Settles O26: the two answers of R118, the request through `request_resend_eq` and the tear through `tear_eq`. -/
theorem assemblyExpiryResendsOrTears : Obligations.AssemblyExpiryResendsOrTears := by
  intro k s r a hr ha hdue
  rw [exec_assemblyTimerExpiry_due hr ha hdue]
  constructor
  · intro p e hopt hdone hbefore hp he
    rw [assemblyExpiry_resend hopt hdone (firstMissing_eq hbefore hp he), request_resend_eq]
    rfl
  · intro h
    rw [assemblyExpiry_tear h, tear_eq]
    rfl

end Sys2Proof.Machine
end

section
/-! SUPPORT. START: its row of the gating table, the answer of a command the table refuses, and its effect as a whole
next state; then the statement on START. -/

namespace Sys2Proof.Machine

/-- A command that its row of the gating table refuses changes the host port alone (R160, R162). -/
theorem takeCommand_gated {c : Command} {ops : List Byte} {crc : Byte} {act : State → Reply} {s : State} {st : Status}
    (hin : Arrived c ops crc s) (hg : gate c s.sc.state = some st) :
    takeCommand c ops crc act s = { s with hp := replied c ops crc st [] s } := by
  rw [takeCommand_arrived act hin, gatedReply, hg]
  rfl

/-- START's row of the gating table (R140, R162). -/
theorem gate_start (st : StationState) :
    gate .start st = if st = .halted then none else if st = .validating then some .busy else some .state := by
  cases st <;> rfl

/-- START enters LISTEN with its notice, of cause 1, and the listen timer at the silence limit (R140, R141). -/
theorem startReply_eq (s : State) :
    startReply s =
      .ok
        ({ s with
            sc := { s.sc with state := .listen, listenTimer := startTimer s.sc.silenceLimit }
            nq := posted s [(.stationState, 3, 1)] }, []) := by
  unfold startReply
  simp only [emitStation_eq]
  rfl

/-- Settles O18: START's row of the gating table, and `startReply_eq` where the row takes it. -/
theorem startListens : Obligations.StartListens := by
  intro crc s hin
  have refuse {st : Status} (hg : gate .start s.sc.state = some st) :
      exec (.start crc) s = .next { s with hp := replied .start [] crc st [] s } :=
    congrArg Host.Outcome.next (takeCommand_gated hin hg)
  refine ⟨fun hh => ?_, fun hv => refuse ?_, fun hh hv => refuse ?_⟩
  · have htaken : gate .start s.sc.state = none := by rw [gate_start, if_pos hh]
    refine congrArg Host.Outcome.next ?_
    rw [takeCommand_arrived startReply hin, gatedReply, htaken]
    simp only [startReply_eq, finish, answer_eq]
    rfl
  · rw [hv, gate_start]; rfl
  · rw [gate_start, if_neg hh, if_neg hv]

end Sys2Proof.Machine
end

section
/-! SUPPORT. COUNTERS READ: its results and its three options; a notice emitted by a block: when it is admitted, and its
three ways into the queue; then the statements on COUNTERS READ and on emitted notices. -/

namespace Sys2Proof.Machine

/-! COUNTERS READ (R169). -/

/-- The results are the seven counters in the order of R169, four bytes each, most significant first. -/
theorem counterResults_eq (c : LineCounters) :
    counterResults c =
      ([c.receivedGood, c.receivedBad, c.malformed, c.roundsEntered, c.roundsWon, c.readbackErrors,
        c.resendDropped] : List Nat).flatMap (fun n => longBytes (BitVec.ofNat 32 n)) := by
  simp [counterResults, field4]

theorem countersReply_keep (s : State) : countersReply 0 s = .ok (s, counterResults s.la.counters) := rfl

/-- The counters answered are those before the clear. -/
theorem countersReply_clear (s : State) :
    countersReply 1 s =
      .ok ({ s with la := { s.la with counters := ⟨0, 0, 0, 0, 0, 0, 0⟩ } }, counterResults s.la.counters) := rfl

theorem countersReply_range {option : Byte} (s : State) (h0 : option ≠ 0) (h1 : option ≠ 1) :
    countersReply option s = .error .range := by
  rw [countersReply, if_neg h0, if_neg h1]

/-! Emitted notices (R165, R166). -/

/-- A kind without an admit flag is always admitted, one with a flag when its flag is set (R165, R171). -/
theorem admits_iff (mask : Word) (k : NoticeKind) :
    admits mask k = true ↔ 17 ≤ noticeCode k ∨ mask.getLsbD (noticeCode k - 1) = true := by
  rw [admits, Bool.or_eq_true, decide_eq_true_eq, Nat.lt_iff_add_one_le]

theorem coalesces_iff (k : NoticeKind) : coalesces k = true ↔ k = .tagUpdated ∨ k = .groupUpdated := by
  cases k <;> simp [coalesces]

/-- The test for coalescing: a coalescing kind, and a notice of the same kind and subject in the queue (R166). -/
theorem coalesces_and_any_iff (k : NoticeKind) (subject : Word) (l : List Notice) :
    (coalesces k && l.any (fun n => n.kind = k && n.subject = subject)) = true ↔
      (k = .tagUpdated ∨ k = .groupUpdated) ∧ ∃ n ∈ l, n.kind = k ∧ n.subject = subject := by
  simp only [Bool.and_eq_true, coalesces_iff, List.any_eq_true, decide_eq_true_eq]

section Posting
variable (clock : Clock) {k : NoticeKind} {subject : Word} (detail : Word) {q : NoticeQueue}

/-- A coalescing notice renews the detail of the notice it meets and leaves every other one, in place (R166). -/
theorem postNotice_coalesced (hk : k = .tagUpdated ∨ k = .groupUpdated)
    (hq : ∃ n ∈ q.notices, n.kind = k ∧ n.subject = subject) :
    postNotice clock k subject detail q =
      { q with
        notices :=
          q.notices.map (fun n => if n.kind = k ∧ n.subject = subject then { n with detail := detail } else n) } :=
  if_pos ((coalesces_and_any_iff k subject q.notices).2 ⟨hk, hq⟩)

theorem postNotice_appended
    (hq : ¬((k = .tagUpdated ∨ k = .groupUpdated) ∧ ∃ n ∈ q.notices, n.kind = k ∧ n.subject = subject))
    (hroom : q.notices.length < 32) :
    postNotice clock k subject detail q =
      { q with notices := q.notices ++ [⟨k, subject, detail, clock⟩] } := by
  rw [postNotice, if_neg (mt (coalesces_and_any_iff k subject q.notices).1 hq), Config.noticeRoom, if_pos hroom]

theorem postNotice_lost
    (hq : ¬((k = .tagUpdated ∨ k = .groupUpdated) ∧ ∃ n ∈ q.notices, n.kind = k ∧ n.subject = subject))
    (hfull : 32 ≤ q.notices.length) :
    postNotice clock k subject detail q = { q with lost := bump 65535 q.lost } := by
  rw [postNotice, if_neg (mt (coalesces_and_any_iff k subject q.notices).1 hq), Config.noticeRoom,
    if_neg (Nat.not_lt.2 hfull), satInc_eq_bump, Config.count16]

end Posting

theorem emit_admitted {k : NoticeKind} {s : State}
    (h : 17 ≤ noticeCode k ∨ s.nq.mask.getLsbD (noticeCode k - 1) = true) (subject detail : Word) :
    s.emit k subject detail = { s with nq := postNotice s.sc.clock k subject detail s.nq } :=
  if_pos ((admits_iff _ k).2 h)

theorem emit_masked {k : NoticeKind} {s : State}
    (h : ¬(17 ≤ noticeCode k ∨ s.nq.mask.getLsbD (noticeCode k - 1) = true)) (subject detail : Word) :
    s.emit k subject detail = s :=
  if_neg (mt (admits_iff _ k).1 h)

/-! The statements. -/

/-- Settles O13: the three options of `countersReply` in a sealed state. -/
theorem countersReadAndClear : Obligations.CountersReadAndClear := by
  intro option crc s hs hin c port
  have hport : port = replied .countersRead [option] crc .ok (counterResults c) s := by rw [counterResults_eq]
  refine ⟨?_, ?_, fun h0 h1 => ?_⟩
  · rintro rfl
    rw [hport]
    exact congrArg Host.Outcome.next (takeCommand_accepted hin hs (by decide) (countersReply_keep s))
  · rintro rfl
    rw [hport]
    exact congrArg Host.Outcome.next (takeCommand_accepted hin hs (by decide) (countersReply_clear s))
  · exact congrArg Host.Outcome.next (takeCommand_refused hin hs (by decide) (countersReply_range s h0 h1))

/-- Settles O46: a masked notice by `emit_masked`, an admitted one by the three ways into the queue. -/
theorem noticesArePosted : Obligations.NoticesArePosted := by
  intro k subject detail s code admitted coalescing same
  refine ⟨fun h => emit_masked h _ _, fun h hk hq => ?_, fun h hq hroom => ?_, fun h hq hfull => ?_⟩
  · refine ⟨_, by rw [emit_admitted h, postNotice_coalesced _ _ hk hq], ?_⟩
    refine List.forall₂_map_right_iff.2 (List.forall₂_same.2 fun n _ => ?_)
    by_cases hn : n.kind = k ∧ n.subject = subject
    · rw [if_pos hn]
      exact ⟨rfl, rfl, rfl, fun _ => rfl, fun hne => absurd hn hne⟩
    · rw [if_neg hn]
      exact ⟨rfl, rfl, rfl, fun he => absurd he hn, fun _ => rfl⟩
  · rw [emit_admitted h, postNotice_appended _ _ hq hroom]
  · rw [emit_admitted h, postNotice_lost _ _ hq hfull]

end Sys2Proof.Machine
end

section
/-! SUPPORT. What a command can do, said once: the moves its effect is made of. Every block's operation is a run of
moves, and `exec_course` (below) says it of every command; each invariant is then one case analysis of the moves. -/

namespace Sys2Proof.Machine

/-- Every line counter lies within its largest value (R89). -/
def CountersInRange (c : LineCounters) : Prop :=
  c.receivedGood ≤ 4294967295 ∧ c.receivedBad ≤ 4294967295 ∧ c.malformed ≤ 4294967295 ∧
    c.roundsEntered ≤ 4294967295 ∧ c.roundsWon ≤ 4294967295 ∧ c.readbackErrors ≤ 4294967295 ∧
    c.resendDropped ≤ 4294967295

/-- LA is in a round the station contends in, or sends. -/
def Driving (l : LineAccess) : Prop :=
  (l.lineState = .round ∧ l.round.isSome = true) ∨ (l.lineState = .sending ∧ l.sending.isSome = true)

/-- `BuffersAgree` for one publication entry. -/
def EntryAgrees (e : PubEntry) : Prop :=
  if e.flipPending then (draftBuffer e).gen = e.committed else (liveBuffer e).gen = e.committed

/-- `CountsSafe` for one publication entry. -/
def PubCounts (e : PubEntry) : Prop := e.sent ≤ 4294967295 ∧ e.missed ≤ 65535 ∧ e.resendServed ≤ 65535

/-- A change of a publication entry that is no commit and touches no claim. -/
structure PubKept (e e' : PubEntry) : Prop where
  tag : e'.tag = e.tag
  group : e'.group = e.group
  committed : e'.committed = e.committed
  claim : e'.claim = e.claim
  agrees : EntryAgrees e → EntryAgrees e'

/-- A change of a subscription entry that keeps what its counts and its group promise. -/
structure SubKept (e e' : SubEntry) : Prop where
  tag : e'.tag = e.tag
  group : e'.group = e.group
  counts : e.late ≤ 65535 ∧ e.reject ≤ 65535 → e'.late ≤ 65535 ∧ e'.reject ≤ 65535

/-- A change of a consumer group record that keeps its index and its counts in range. -/
structure GrpKept (r r' : GroupRecord) : Prop where
  index : r'.index = r.index
  counts : r.skipped ≤ 65535 ∧ r.torn ≤ 65535 → r'.skipped ≤ 65535 ∧ r'.torn ≤ 65535

/-- The station state after a move of Station Control: the same one, or one step of START, STOP, SEAL, the listen
time, a failed validation or the leaving PRESENCE (R140 to R144, R152, R156). -/
inductive StationStep (s : State) : StationState → Prop where
  | stay : StationStep s s.sc.state
  | sealed : s.sc.state = .unconfigured → StationStep s .validating
  | unsealed : s.sc.state = .validating → StationStep s .unconfigured
  | start : s.sc.state = .halted → StationStep s .listen
  | stop : s.sc.state = .listen → StationStep s .halted
  | announce : s.sc.state = .listen → StationStep s .announce
  | leave : s.sc.state = .leaving → ¬Driving s.la → StationStep s .halted

/-- A publication entry under another claim state, as a change of claims leaves it. -/
def reclaim (c : ClaimState) (e : PubEntry) : PubEntry := { e with claim := c }

/-- The phase is one in which the CLAIM set must hold every CLAIMING tag (R38). -/
def NoneClaiming (s : State) : Prop :=
  (∀ e ∈ s.pt, e.claim ≠ .claiming) ∨ (sendPhase s.cu.phase = true ∧ s.cu.claimSet = [])

/-- The moves of the station: the changes its blocks make, each with what keeps the station's promises. -/
inductive Move (s : State) : State → Prop where
  | notices (l : List (NoticeKind × Word × Word)) : Move s { s with nq := posted s l }
  | drain (n : Nat) : Move s { s with nq := drainNotices s.sc.clock n s.nq }
  | port (h : HostPort) : Move s { s with hp := h }
  | control {c : StationControl} (station : StationStep s c.state) (number : c.ownNumber = s.sc.ownNumber)
      (epoch : c.epoch = s.sc.epoch) (image : Memory.wf s.sc.image = true → Memory.wf c.image = true) :
      Move s { s with sc := c }
  | pubs {f : PubEntry → PubEntry} (kept : ∀ e, PubKept e (f e))
      (counts : (∀ e ∈ s.pt, PubCounts e) → ∀ e ∈ s.pt, PubCounts (f e)) : Move s { s with pt := s.pt.map f }
  | yields (t : Word) (claimed : ∃ e ∈ s.pt, e.claim = .claiming ∨ e.claim = .owned) :
      Move s (s.setPub t (fun e => { e with claim := .yielded, periodTimer := none }))
  | claimUnit {cu : ClaimUnit}
      (covers : cu.phase = .send1 ∨ cu.phase = .send2 →
        (∀ e ∈ s.pt, e.claim = .claiming → e.tag ∈ cu.claimSet) ∨
          ((s.cu.phase = .send1 ∨ s.cu.phase = .send2) ∧
            ∀ e ∈ s.pt, e.claim = .claiming → e.tag ∈ s.cu.claimSet → e.tag ∈ cu.claimSet)) :
      Move s { s with cu := cu }
  | claimAll (announce : s.sc.state = .announce) :
      Move s
        { s with
          pt := s.pt.map (reclaim .claiming)
          cu := { s.cu with claimSet := (s.pt.map (reclaim .claiming)).map PubEntry.tag, phase := .send1 } }
  | activate (announce : s.sc.state = .announce) (settled : NoneClaiming s) :
      Move s
        { s with
          cu := { s.cu with phase := .none, windowTimer := none }
          sc := { s.sc with state := .active } }
  | win (announce : s.sc.state = .announce) :
      Move s
        { s with
          pt := s.pt.map (fun e => if e.claim = .claiming then reclaim .owned e else e)
          cu := { s.cu with phase := .none, windowTimer := none }
          sc := { s.sc with state := .active } }
  | unclaim {st : StationState} (listen presence : Option Nat)
      (ends : (st = .leaving ∧ (s.sc.state = .announce ∨ s.sc.state = .active)) ∨ (st = .mute ∧ ¬Driving s.la)) :
      Move s { s.unclaimAll with sc := { s.sc with state := st, listenTimer := listen, presenceTimer := presence } }
  | request (subj : Subject) (known : ∀ t, subj = .value t → (s.pub t).isSome = true) : Move s (s.request subj)
  | sift (p : QueueEntry → Bool) : Move s { s with sq := { s.sq with entries := s.sq.entries.filter p } }
  | mark {f : QueueEntry → QueueEntry}
      (kept : ∀ e, (f e).subject = e.subject ∧ (f e).cls = e.cls ∧ (f e).age = e.age ∧ (f e).join = e.join) :
      Move s { s with sq := { s.sq with entries := s.sq.entries.map f } }
  | age (noted : List Nat) : Move s { s with sq := ageQueue noted s.sq }
  | subs {f : SubEntry → SubEntry} (kept : ∀ e, SubKept e (f e)) (shown : ∀ e, (f e).shown = e.shown) :
      Move s { s with st := s.st.map f }
  | accept {t : Word} {e : SubEntry} {f : SubEntry → SubEntry} (entry : s.sub t = some e) (ungrouped : e.group = none)
      (kept : ∀ e, SubKept e (f e)) : Move s (s.setSub t f)
  | groups {f : GroupRecord → GroupRecord} (kept : ∀ r, GrpKept r (f r))
      (shown : ∀ r, (f r).shownGen = r.shownGen ∧ (f r).held = r.held) : Move s { s with ga := s.ga.map f }
  | reveal {k : Nat} {f : SubEntry → SubEntry} {h : GroupRecord → GroupRecord} (keptSub : ∀ e, SubKept e (f e))
      (keptGrp : ∀ r, GrpKept r (h r)) (free : ∀ r, s.grp k = some r → (h r).held = false) :
      Move s ((s.setMembers k f).setGrp k h)
  | peers {ro : List Peer} (numbers : ro.map Peer.number = s.ro.map Peer.number)
      (counts : (∀ p ∈ s.ro, p.framesHeard ≤ 65535) → ∀ p ∈ ro, p.framesHeard ≤ 65535)
      (self : ∀ n, s.sc.ownNumber = some n → (s.peer n).map Peer.state = some .self →
        (lookupKey Peer.number n ro).map Peer.state = some .self) :
      Move s { s with ro := ro }
  | counters {f : LineCounters → LineCounters} (range : ∀ c, CountersInRange c → CountersInRange (f c)) :
      Move s (s.count f)
  | line {l : LineAccess} (counters : l.counters = s.la.counters) (errors : l.txErrors = s.la.txErrors ∨ l.txErrors = 0)
      (drives : Driving l → Driving s.la ∨ s.mayContend = true) : Move s { s with la := l }

/-- A run of moves. -/
abbrev Moves : State → State → Prop := Relation.ReflTransGen Move

/-! Kept changes that recur. -/

theorem PubKept.refl (e : PubEntry) : PubKept e e := ⟨rfl, rfl, rfl, rfl, id⟩

theorem SubKept.refl (e : SubEntry) : SubKept e e := ⟨rfl, rfl, id⟩

theorem GrpKept.refl (r : GroupRecord) : GrpKept r r := ⟨rfl, id⟩

/-! Runs of moves over the tables: a change under a key is a change of every record that keeps the others. -/

section Runs
variable {s : State}

theorem Moves.emit (k : NoticeKind) (a b : Word) : Moves s (s.emit k a b) := by
  rw [emit_eq]; exact .single (.notices _)

theorem Moves.emitStation (cause : Nat) : Moves s (s.emitStation cause) := Moves.emit _ _ _

theorem Moves.setPub (t : Word) {f : PubEntry → PubEntry} (kept : ∀ e, PubKept e (f e))
    (counts : (∀ e ∈ s.pt, PubCounts e) → ∀ e ∈ s.pt, PubCounts (f e)) : Moves s (s.setPub t f) := by
  refine .single (Move.pubs (fun e => ?_) fun h e he => ?_)
  · split
    · exact kept e
    · exact .refl e
  · split
    · exact counts h e he
    · exact h e he

theorem Moves.setSub (t : Word) {f : SubEntry → SubEntry} (kept : ∀ e, SubKept e (f e))
    (shown : ∀ e, (f e).shown = e.shown) : Moves s (s.setSub t f) := by
  refine .single (Move.subs (fun e => ?_) fun e => ?_)
  · split
    · exact kept e
    · exact .refl e
  · split
    · exact shown e
    · rfl

theorem Moves.setMembers (k : Nat) {f : SubEntry → SubEntry} (kept : ∀ e, SubKept e (f e))
    (shown : ∀ e, (f e).shown = e.shown) : Moves s (s.setMembers k f) := by
  refine .single (Move.subs (fun e => ?_) fun e => ?_)
  · split
    · exact kept e
    · exact .refl e
  · split
    · exact shown e
    · rfl

theorem Moves.setGrp (k : Nat) {f : GroupRecord → GroupRecord} (kept : ∀ r, GrpKept r (f r))
    (shown : ∀ r, (f r).shownGen = r.shownGen ∧ (f r).held = r.held) : Moves s (s.setGrp k f) := by
  refine .single (Move.groups (fun r => ?_) fun r => ?_)
  · split
    · exact kept r
    · exact .refl r
  · split
    · exact shown r
    · exact ⟨rfl, rfl⟩

/-- A record of another number, or one whose standing stays: the SELF record stays SELF. -/
theorem Moves.setPeer (n : Nat) {f : Peer → Peer} (number : ∀ p, (f p).number = p.number)
    (counts : ∀ p, p.framesHeard ≤ 65535 → (f p).framesHeard ≤ 65535)
    (self : s.sc.ownNumber = some n → (s.peer n).map Peer.state = some .self →
      ∀ p, p.state = .self → (f p).state = .self) :
    Moves s (s.setPeer n f) := by
  refine .single (Move.peers (updateKey_keys fun p h => (number p).trans h) (fun h p hp => ?_) fun m hm hs => ?_)
  · rcases mem_updateKey hp with hp | ⟨q, hq, -, rfl⟩
    · exact h p hp
    · exact counts q (h q hq)
  · by_cases hmn : m = n
    · subst hmn
      rw [lookupKey_updateKey fun p h => (number p).trans h]
      obtain ⟨p, hp, hps⟩ := Option.map_eq_some_iff.1 hs
      rw [show lookupKey Peer.number m s.ro = some p from hp]
      exact congrArg some (self hm hs p hps)
    · rw [lookupKey_updateKey_of_ne (fun p h => (number p).trans h) hmn]
      exact hs

/-- A move of Station Control that leaves the station state, the image, the number and the epoch. -/
theorem Moves.timers {c : StationControl} (station : c.state = s.sc.state) (number : c.ownNumber = s.sc.ownNumber)
    (epoch : c.epoch = s.sc.epoch) (image : c.image = s.sc.image) : Moves s { s with sc := c } :=
  .single (.control (station ▸ .stay) number epoch (fun h => image ▸ h))

theorem Moves.removeEntry (subj : Subject) : Moves s { s with sq := removeEntry subj s.sq } := .single (.sift _)

theorem Moves.removeWaiting (subj : Subject) : Moves s { s with sq := removeWaiting subj s.sq } := .single (.sift _)

theorem Moves.markEntry (subj : Subject) {f : QueueEntry → QueueEntry}
    (kept : ∀ e, (f e).subject = e.subject ∧ (f e).cls = e.cls ∧ (f e).age = e.age ∧ (f e).join = e.join) :
    Moves s { s with sq := markEntry subj f s.sq } := by
  refine .single (Move.mark fun e => ?_)
  split
  · exact kept e
  · exact ⟨rfl, rfl, rfl, rfl⟩

/-- A request of another kind than VALUE. -/
theorem Moves.request (subj : Subject) (h : ∀ t, subj ≠ .value t) : Moves s (s.request subj) :=
  .single (.request subj fun t ht => absurd ht (h t))

theorem CountersInRange.bump {c : LineCounters} (h : CountersInRange c) :
    CountersInRange { c with receivedGood := satInc Config.count32 c.receivedGood } ∧
      CountersInRange { c with receivedBad := satInc Config.count32 c.receivedBad } ∧
      CountersInRange { c with malformed := satInc Config.count32 c.malformed } ∧
      CountersInRange { c with roundsEntered := satInc Config.count32 c.roundsEntered } ∧
      CountersInRange { c with roundsWon := satInc Config.count32 c.roundsWon } ∧
      CountersInRange { c with readbackErrors := satInc Config.count32 c.readbackErrors } ∧
      CountersInRange { c with resendDropped := satInc Config.count32 c.resendDropped } := by
  obtain ⟨h1, h2, h3, h4, h5, h6, h7⟩ := h
  have up {n : Nat} (hn : n ≤ 4294967295) : satInc Config.count32 n ≤ 4294967295 := satInc_le hn
  exact ⟨⟨up h1, h2, h3, h4, h5, h6, h7⟩, ⟨h1, up h2, h3, h4, h5, h6, h7⟩, ⟨h1, h2, up h3, h4, h5, h6, h7⟩,
    ⟨h1, h2, h3, up h4, h5, h6, h7⟩, ⟨h1, h2, h3, h4, up h5, h6, h7⟩, ⟨h1, h2, h3, h4, h5, up h6, h7⟩,
    ⟨h1, h2, h3, h4, h5, h6, up h7⟩⟩

end Runs

end Sys2Proof.Machine
end

section
/-! SUPPORT. The operations of the publishing and claiming blocks as runs of moves. -/

namespace Sys2Proof.Machine

/-- A run of moves before another: the last one is found first, from where the run ends. -/
theorem Moves.after {s t u : State} (last : Moves t u) (first : Moves s t) : Moves s u := first.trans last

section Runs
variable {s : State}

/-! Publishing (R17 to R30). -/

theorem EntryAgrees.setDraft_same {e : PubEntry} {d : Buffer} (hd : d.gen = (draftBuffer e).gen) (h : EntryAgrees e) :
    EntryAgrees (setDraft d e) := by
  cases hl : e.live <;> cases hf : e.flipPending <;>
    simp_all [EntryAgrees, setDraft, draftBuffer, liveBuffer]

/-- A flip that was pending makes the committed generation the live one (R20, R23). -/
theorem EntryAgrees.makeFlip {e : PubEntry} (hf : e.flipPending = true) (h : EntryAgrees e) :
    EntryAgrees (makeFlip e) := by
  cases hl : e.live <;>
    simp_all [EntryAgrees, Machine.makeFlip, setDraft, draftBuffer, liveBuffer, otherSide]

theorem makeFlip_frame (e : PubEntry) :
    (makeFlip e).tag = e.tag ∧ (makeFlip e).group = e.group ∧ (makeFlip e).committed = e.committed ∧
      (makeFlip e).claim = e.claim ∧ (PubCounts e → PubCounts (makeFlip e)) := by
  cases hl : e.live <;> simp [makeFlip, setDraft, otherSide, hl, PubCounts]

theorem pubKept_writeDraft (offset : Nat) (bytes : List Byte) (e : PubEntry) :
    PubKept e (writeDraft offset bytes e) := by
  refine ⟨?_, ?_, ?_, ?_, fun h => EntryAgrees.setDraft_same rfl h⟩ <;>
    cases hl : e.live <;> simp [writeDraft, setDraft, hl]

theorem pubCounts_writeDraft (offset : Nat) (bytes : List Byte) {e : PubEntry} (h : PubCounts e) :
    PubCounts (writeDraft offset bytes e) := by
  obtain ⟨h1, h2, h3⟩ := h
  cases hl : e.live <;> simp [PubCounts, writeDraft, setDraft, hl, h1, h2, h3]

/-- The entry after its sent count has risen at a good send end (R25). -/
def countSent (good : Bool) (e : PubEntry) : PubEntry :=
  if good then { e with sent := satInc Config.count32 e.sent } else e

theorem sendEndEntry_eq (good : Bool) (e : PubEntry) :
    sendEndEntry good e = if e.flipPending then makeFlip (countSent good e) else countSent good e := rfl

theorem pubKept_countSent (good : Bool) (e : PubEntry) : PubKept e (countSent good e) := by
  cases good <;> exact ⟨rfl, rfl, rfl, rfl, id⟩

theorem pubCounts_countSent (good : Bool) {e : PubEntry} (h : PubCounts e) : PubCounts (countSent good e) := by
  cases good
  · exact h
  · exact ⟨satInc_le h.1, h.2⟩

theorem pubKept_sendEndEntry (good : Bool) (e : PubEntry) : PubKept e (sendEndEntry good e) := by
  have counted := pubKept_countSent good e
  rw [sendEndEntry_eq]
  split
  · next hf =>
    obtain ⟨ht, hg, hc, hcl, -⟩ := makeFlip_frame (countSent good e)
    have hf' : (countSent good e).flipPending = true := by cases good <;> exact hf
    exact ⟨ht.trans counted.tag, hg.trans counted.group, hc.trans counted.committed, hcl.trans counted.claim,
      fun h => EntryAgrees.makeFlip hf' (counted.agrees h)⟩
  · exact counted

theorem pubCounts_sendEndEntry (good : Bool) {e : PubEntry} (h : PubCounts e) : PubCounts (sendEndEntry good e) := by
  rw [sendEndEntry_eq]
  split
  · exact (makeFlip_frame _).2.2.2.2 (pubCounts_countSent good h)
  · exact pubCounts_countSent good h

theorem Moves.requestValue (t : Word) : Moves s (s.requestValue t) := by
  unfold State.requestValue
  split
  · next e he =>
    split
    · exact .single (.request _ fun u hu => by cases hu; rw [he]; rfl)
    · exact .refl
  · exact .refl

/-- An operation done for each element of a list, one after another. -/
theorem Moves.foldl {α : Type} {f : State → α → State} (h : ∀ s a, Moves s (f s a)) (l : List α) :
    ∀ s, Moves s (l.foldl f s) := by
  induction l with
  | nil => exact fun _ => .refl
  | cons a rest ih => exact fun s => (h s a).trans (ih _)

theorem Moves.requestValues (tags : List Word) : Moves s (s.requestValues tags) :=
  Moves.foldl (fun _ t => Moves.requestValue t) tags s

theorem Moves.valueSendEnd (good : Bool) (t g : Word) : Moves s (s.valueSendEnd good t g) := by
  have pubs : Moves s (s.setPub t (sendEndEntry good)) :=
    Moves.setPub t (pubKept_sendEndEntry good) fun h e he => pubCounts_sendEndEntry good (h e he)
  unfold State.valueSendEnd
  dsimp only
  split
  · split
    · exact pubs.trans (Moves.requestValue t)
    · exact pubs
  · exact pubs

/-- A period timer alone changed. -/
theorem Moves.setPeriod (t : Word) (g : PubEntry → Option Nat) :
    Moves s (s.setPub t (fun x => { x with periodTimer := g x })) :=
  Moves.setPub t (fun _ => ⟨rfl, rfl, rfl, rfl, id⟩) fun h e he => h e he

theorem Moves.periodExpiry {t : Word} {e : PubEntry} (he : s.pub t = some e) : Moves s (s.periodExpiry t e) := by
  have timer := Moves.setPeriod (s := s) t (fun x => startTimer x.period)
  have hpub := State.pub_setPub s t (fun x => { x with periodTimer := startTimer x.period }) fun _ => rfl
  rw [he] at hpub
  unfold State.periodExpiry
  dsimp only
  split
  · exact timer
  · split
    · refine Moves.after (Moves.emit _ _ _) (Moves.after (Moves.setPub t (fun _ => ⟨rfl, rfl, rfl, rfl, id⟩) ?_) timer)
      intro h x hx
      have hmissed : PubCounts e := h { e with periodTimer := startTimer e.period } (lookupKey_some hpub).1
      exact ⟨(h x hx).1, satInc_le hmissed.2.1, (h x hx).2.2⟩
    · refine timer.tail (.request _ fun u hu => ?_)
      cases hu
      rw [hpub]; rfl

theorem Moves.answerResend (t : Word) : Moves s (s.answerResend t) := by
  unfold State.answerResend
  split
  · split
    · refine Moves.after (Moves.setPub t (fun _ => ⟨rfl, rfl, rfl, rfl, id⟩) fun h x hx => ?_) (Moves.requestValues _)
      exact ⟨(h x hx).1, (h x hx).2.1, satInc_le (h x hx).2.2⟩
    · exact .refl
  · exact .refl

/-! The claims (R37 to R54). -/

/-- What follows the change to ACTIVE: its notice, the timers and the VALUE entries (R42, steps 2 to 4). -/
def afterActive (s : State) : State :=
  let s2 := s.emitStation 4
  let s3 := { s2 with sc := { s2.sc with presenceTimer := startTimer s2.sc.presenceInterval } }
  let s4 := s3.startPeriods
  s4.requestValues s4.publishable

theorem becomeActive_eq (s : State) :
    s.becomeActive =
      afterActive
        { s with
          cu := { s.cu with phase := .none, windowTimer := none }
          sc := { s.sc with state := .active } } := rfl

theorem Moves.afterActive : Moves s (afterActive s) := by
  unfold Machine.afterActive
  have periods (u : State) : Moves u u.startPeriods := by
    refine .single (Move.pubs (fun e => ?_) fun h e he => ?_)
    · split <;> exact ⟨rfl, rfl, rfl, rfl, id⟩
    · split <;> exact h e he
  exact Moves.after (Moves.requestValues _)
    (Moves.after (periods _) (Moves.after (Moves.timers rfl rfl rfl rfl) (Moves.emitStation 4)))

theorem Moves.becomeActive (announce : s.sc.state = .announce) (settled : NoneClaiming s) : Moves s s.becomeActive :=
  Moves.after Moves.afterActive (.single (.activate announce settled))

/-- Step 1 of R42 as a whole next state. -/
theorem winClaims_eq (s : State) :
    s.winClaims =
      { s with
        pt := s.pt.map (fun e => if e.claim = .claiming then reclaim .owned e else e)
        nq := posted s ((s.pt.filter (fun e => e.claim = .claiming)).map (fun e => (.claimWon, e.tag, 0))) } := by
  have emits (l : List PubEntry) (u : State) :
      (l.map PubEntry.tag).foldl (fun t tag => t.emit .claimWon tag 0) u =
        { u with nq := posted u (l.map (fun e => (.claimWon, e.tag, 0))) } := by
    induction l generalizing u with
    | nil => rfl
    | cons e rest ih => rw [List.map_cons, List.foldl_cons, ih, emit_eq]; rfl
  unfold State.winClaims
  rw [emits]
  rfl

theorem Moves.winClaims_becomeActive (announce : s.sc.state = .announce) : Moves s s.winClaims.becomeActive := by
  rw [winClaims_eq, becomeActive_eq]
  generalize (s.pt.filter (fun e => e.claim = .claiming)).map (fun e => (NoticeKind.claimWon, e.tag, (0 : Word))) = won
  have first : Moves s { s with nq := posted s won } := .single (.notices won)
  exact Moves.after Moves.afterActive (first.tail (.win announce))

theorem Moves.endFirstWindow (announce : s.sc.state = .announce) : Moves s s.endFirstWindow := by
  have mem {e : PubEntry} (he : e ∈ s.pt) (hc : e.claim = .claiming) : e.tag ∈ s.claimingTags := by
    unfold State.claimingTags
    exact List.mem_map_of_mem (List.mem_filter.2 ⟨he, by simpa using hc⟩)
  unfold State.endFirstWindow
  split
  · next h =>
    refine Moves.becomeActive announce (.inl fun e he hc => ?_)
    exact List.not_mem_nil (List.isEmpty_iff.1 h ▸ mem he hc)
  · exact Moves.after (Moves.request _ (by intro t ht; cases ht))
      (.single (.claimUnit fun _ => .inl fun e he hc => mem he hc))

theorem Moves.announce (listen : s.sc.state = .listen) : Moves s s.announce := by
  have station : Moves s { s with sc := { s.sc with state := .announce, listenTimer := none } } :=
    .single (.control (.announce listen) rfl rfl id)
  have claims (u : State) (h : u.sc.state = .announce) : Moves u u.startClaims := by
    unfold State.startClaims
    dsimp only
    split
    · next he =>
      have hnil : u.pt = [] := by simpa using he
      rw [hnil, List.map_nil, ← hnil]
    · exact Moves.after (Moves.request _ (by intro t ht; cases ht)) (.single (.claimAll h))
  unfold State.announce
  dsimp only
  refine Moves.after (Moves.request _ (by intro t ht; cases ht))
    (Moves.after (claims _ ?_) (Moves.after (Moves.emitStation 3) station))
  rw [emitStation_eq]

/-- The queue after the send end of a tag set's entry (R66, R67). -/
def settledQueue (subj : Subject) (set : List Word) (q : SendQueue) : SendQueue :=
  if set.isEmpty then removeEntry subj q else markEntry subj (fun e => { e with inFlight := false }) q

theorem settleSet_eq (subj : Subject) (set : List Word) (s : State) :
    settleSet subj set s = { s with sq := settledQueue subj set s.sq } := by
  unfold settleSet settledQueue
  split <;> rfl

theorem Moves.settledQueue (subj : Subject) (set : List Word) :
    Moves s { s with sq := settledQueue subj set s.sq } := by
  unfold Machine.settledQueue
  split
  · exact Moves.removeEntry _
  · exact Moves.markEntry _ fun _ => ⟨rfl, rfl, rfl, rfl⟩

/-- CU after a good send end of a CLAIM (R40). -/
def claimSent (cu : ClaimUnit) : ClaimUnit :=
  { cu with
    claimSet := withoutTags cu.claimSet cu.claimFlight, claimFlight := [], phase := windowOf cu.phase
    windowTimer := if sendPhase cu.phase then startTimer cu.window else cu.windowTimer }

/-- A good send end of a CLAIM as a whole next state (R40, R66). -/
theorem claimSentGood_eq (s : State) :
    s.claimSentGood =
      { s with
        cu := claimSent s.cu
        sq := settledQueue .claim (withoutTags s.cu.claimSet s.cu.claimFlight) s.sq } := by
  unfold State.claimSentGood claimSent
  simp only [settleSet_eq]
  split
  · rfl
  · next h => cases hp : s.cu.phase <;> simp_all [sendPhase, windowOf]

theorem windowOf_not_send (p : ClaimPhase) : ¬(windowOf p = .send1 ∨ windowOf p = .send2) := by
  cases p <;> decide

theorem Moves.claimSentGood : Moves s s.claimSentGood := by
  have unit : Moves s { s with cu := claimSent s.cu } :=
    .single (.claimUnit fun h => absurd h (windowOf_not_send s.cu.phase))
  rw [claimSentGood_eq]
  exact unit.trans (Moves.settledQueue _ _)

/-- A change of CU that leaves the phase and the CLAIM set. -/
theorem Moves.keepClaims {cu : ClaimUnit} (phase : cu.phase = s.cu.phase) (set : cu.claimSet = s.cu.claimSet) :
    Moves s { s with cu := cu } :=
  .single (.claimUnit fun h => .inr ⟨phase ▸ h, fun _ _ _ ht => set ▸ ht⟩)

/-- The queue after a bad send end of a tag set's entry, which leaves in LEAVING in any case (R67). -/
def brokenQueue (subj : Subject) (set : List Word) (st : StationState) (q : SendQueue) : SendQueue :=
  if st = .leaving then removeEntry subj (settledQueue subj set q) else settledQueue subj set q

theorem Moves.brokenQueue (subj : Subject) (set : List Word) (st : StationState) :
    Moves s { s with sq := brokenQueue subj set st s.sq } := by
  unfold Machine.brokenQueue
  split
  · exact Moves.after (Moves.removeEntry _) (Moves.settledQueue _ _)
  · exact Moves.settledQueue _ _

/-- A bad send end of a CLAIM before its attempt can end (R40, R67). -/
def claimBroken (s : State) : State :=
  { s with
    cu := { s.cu with claimFlight := [] }
    sq := brokenQueue .claim s.cu.claimSet s.sc.state s.sq }

theorem claimSentBad_eq (s : State) :
    s.claimSentBad =
      if s.cu.claimSet.isEmpty ∧ sendPhase s.cu.phase ∧ s.sc.state = .announce then (claimBroken s).becomeActive
      else claimBroken s := by
  unfold State.claimSentBad claimBroken brokenQueue
  simp only [settleSet_eq]
  by_cases hl : s.sc.state = .leaving <;> simp [hl]

theorem defendSentBad_eq (s : State) :
    s.defendSentBad =
      { s with
        cu := { s.cu with defendFlight := [] }
        sq := brokenQueue .defend s.cu.defendSet s.sc.state s.sq } := by
  unfold State.defendSentBad brokenQueue
  simp only [settleSet_eq]
  split <;> rfl

theorem defendSentGood_eq (s : State) :
    s.defendSentGood =
      { s with
        cu := { s.cu with defendSet := withoutTags s.cu.defendSet s.cu.defendFlight, defendFlight := [] }
        sq := settledQueue .defend (withoutTags s.cu.defendSet s.cu.defendFlight) s.sq } := by
  unfold State.defendSentGood
  rw [settleSet_eq]

theorem Moves.claimSentBad : Moves s s.claimSentBad := by
  have unit : Moves s { s with cu := { s.cu with claimFlight := [] } } := Moves.keepClaims rfl rfl
  have broken : Moves s (claimBroken s) := unit.trans (Moves.brokenQueue _ _ _)
  rw [claimSentBad_eq]
  split
  · next h => exact Moves.after (Moves.becomeActive h.2.2 (.inr ⟨h.2.1, List.isEmpty_iff.1 h.1⟩)) broken
  · exact broken

theorem Moves.defendSentGood : Moves s s.defendSentGood := by
  have unit : Moves s
      { s with
        cu := { s.cu with defendSet := withoutTags s.cu.defendSet s.cu.defendFlight, defendFlight := [] } } :=
    Moves.keepClaims rfl rfl
  rw [defendSentGood_eq]
  exact unit.trans (Moves.settledQueue _ _)

theorem Moves.defendSentBad : Moves s s.defendSentBad := by
  have unit : Moves s { s with cu := { s.cu with defendFlight := [] } } := Moves.keepClaims rfl rfl
  rw [defendSentBad_eq]
  exact unit.trans (Moves.brokenQueue _ _ _)

/-- A tag that no CLAIMING entry has leaves the CLAIM set. -/
theorem Moves.leaveClaimSet {t : Word} (h : ∀ e ∈ s.pt, e.tag = t → e.claim ≠ .claiming) :
    Moves s (s.leaveClaimSet t) := by
  have set : Moves s { s with cu := { s.cu with claimSet := s.cu.claimSet.filter (· ≠ t) } } := by
    refine .single (.claimUnit fun hp => .inr ⟨hp, fun e he hc ht => List.mem_filter.2 ⟨ht, ?_⟩⟩)
    simpa using fun htag => h e he htag hc
  unfold State.leaveClaimSet
  dsimp only
  split
  · exact Moves.after (Moves.removeWaiting _) set
  · exact set

theorem Moves.leaveDefendSet (t : Word) : Moves s (s.leaveDefendSet t) := by
  have set : Moves s { s with cu := { s.cu with defendSet := s.cu.defendSet.filter (· ≠ t) } } :=
    Moves.keepClaims rfl rfl
  unfold State.leaveDefendSet
  dsimp only
  split
  · exact Moves.after (Moves.removeWaiting _) set
  · exact set

theorem Moves.afterEmptied (had : Bool) : Moves s (s.afterEmptied had) := by
  unfold State.afterEmptied
  split
  · next h => exact Moves.becomeActive h.2.2.2.1 (.inr ⟨h.2.2.1, List.isEmpty_iff.1 h.2.1⟩)
  · exact .refl

theorem Moves.yieldTag {t : Word} {e : PubEntry} (he : s.pub t = some e) (hc : e.claim = .claiming ∨ e.claim = .owned)
    (src : Nat) (kind : NoticeKind) : Moves s (s.yieldTag t src kind) := by
  unfold State.yieldTag
  dsimp only
  refine Moves.after (Moves.afterEmptied _) (Moves.after (Moves.leaveDefendSet t) (Moves.after (Moves.leaveClaimSet ?_)
    (Moves.after (Moves.removeWaiting _) (Moves.after (Moves.emit _ _ _)
      (.single (.yields t ⟨e, (lookupKey_some he).1, hc⟩))))))
  intro x hx ht
  rw [emit_eq] at hx
  obtain ⟨y, -, rfl⟩ := List.mem_map.1 hx
  split
  · simp
  · next hy => rw [if_neg hy] at ht; exact absurd ht hy

theorem Moves.addDefend (t : Word) : Moves s (s.addDefend t) := by
  unfold State.addDefend
  split
  · exact .refl
  · exact Moves.after (Moves.request _ (by intro t ht; cases ht)) (Moves.keepClaims rfl rfl)

/-- The notice of a yield (R48, step 2). -/
def lossNotice (c : ClaimState) : NoticeKind := if c = .claiming then .claimLost else .ownershipLost

/-- One tag weighed, by the table of R46. -/
theorem weigh_eq {s : State} {t : Word} {e : PubEntry} (he : s.pub t = some e) (ev : Evidence) (src : Nat) :
    s.weigh ev src t =
      match verdict ev (s.sc.ownNumber.getD 0 < src) e.claim with
      | .ignored => s
      | .yields => s.yieldTag t src (lossNotice e.claim)
      | .defends => s.addDefend t := by
  unfold State.weigh
  rw [he]
  by_cases h : s.sc.ownNumber.getD 0 < src <;> cases hc : e.claim <;> cases ev <;>
    simp [verdict, h, hc, State.own, lossNotice]

theorem verdict_yields {ev : Evidence} {higher : Bool} {c : ClaimState} (h : verdict ev higher c = .yields) :
    c = .claiming ∨ c = .owned := by
  cases c <;> simp_all [verdict]

theorem Moves.weigh (ev : Evidence) (src : Nat) (s : State) (t : Word) : Moves s (s.weigh ev src t) := by
  cases he : s.pub t with
  | none => unfold State.weigh; rw [he]
  | some e =>
    rw [weigh_eq he]
    split
    · exact .refl
    · next hv => exact Moves.yieldTag he (verdict_yields hv) _ _
    · exact Moves.addDefend t

theorem Moves.weighAll (ev : Evidence) (src : Nat) (tags : List Word) : Moves s (s.weighAll ev src tags) :=
  Moves.foldl (Moves.weigh ev src) tags s

end Runs

end Sys2Proof.Machine
end

section
/-! SUPPORT. The operations of the receiving blocks, the roster and Station Control as runs of moves. -/

namespace Sys2Proof.Machine

section Runs
variable {s : State}

/-! Subscriptions (R93 to R101). -/

/-- A change of a subscription entry that touches neither its counts nor its group. -/
theorem SubKept.plain {e e' : SubEntry} (tag : e'.tag = e.tag) (group : e'.group = e.group) (late : e'.late = e.late)
    (reject : e'.reject = e.reject) : SubKept e e' :=
  ⟨tag, group, fun h => by rw [late, reject]; exact h⟩

theorem subKept_takeFrame (clock : Clock) (e : SubEntry) : SubKept e (takeFrame clock e) := .plain rfl rfl rfl rfl

theorem Moves.emitFresh (before : SubState) (t : Word) (src : Nat) : Moves s (s.emitFresh before t src) := by
  unfold State.emitFresh
  split
  · exact Moves.emit _ _ _
  · exact .refl

theorem Moves.countLate (t : Word) : Moves s (s.countLate t) :=
  Moves.setSub t (fun _ => ⟨rfl, rfl, fun h => ⟨satInc_le h.1, h.2⟩⟩) fun _ => rfl

theorem Moves.rejectValue (t : Word) (n : Nat) : Moves s (s.rejectValue t n) :=
  Moves.after (Moves.emit _ _ _)
    (Moves.setSub t (fun _ => ⟨rfl, rfl, fun h => ⟨h.1, satInc_le h.2⟩⟩) fun _ => rfl)

theorem Moves.takeMember (t : Word) (src : Nat) (before : SubState) : Moves s (s.takeMember t src before) :=
  Moves.after (Moves.emitFresh _ _ _) (Moves.setSub t (subKept_takeFrame _) fun _ => rfl)

theorem Moves.checkProducer (t : Word) (src : Nat) (e : SubEntry) : Moves s (s.checkProducer t src e) := by
  unfold State.checkProducer
  split
  · exact Moves.setSub t (fun _ => .plain rfl rfl rfl rfl) fun _ => rfl
  · split
    · exact .refl
    · exact Moves.after (Moves.setSub t (fun _ => .plain rfl rfl rfl rfl) fun _ => rfl) (Moves.emit _ _ _)

/-- The producer check leaves the group of the entry, and everything it is found by. -/
theorem sub_checkProducer {t : Word} {e : SubEntry} (src : Nat) (he : s.sub t = some e) :
    ∃ x, (s.checkProducer t src e).sub t = some x ∧ x.group = e.group := by
  have put (u : State) (hu : u.sub t = some e) {f : SubEntry → SubEntry} (htag : ∀ x, (f x).tag = x.tag)
      (hf : (f e).group = e.group) : ∃ x, (u.setSub t f).sub t = some x ∧ x.group = e.group :=
    ⟨f e, by rw [State.sub_setSub u t f htag, hu]; rfl, hf⟩
  unfold State.checkProducer
  split
  · exact put s he (fun _ => rfl) rfl
  · split
    · exact ⟨e, he, rfl⟩
    · rw [emit_eq]
      exact put { s with nq := _ } he (fun _ => rfl) rfl

theorem Moves.acceptNewer {t : Word} {e : SubEntry} (he : s.sub t = some e) (hg : e.group = none) (src : Nat) (g : Word)
    (data : List Byte) (before : SubState) : Moves s (s.acceptNewer t src g data before) :=
  Moves.after (Moves.emitFresh _ _ _) (Moves.after (Moves.emit _ _ _)
    (.single (.accept he hg fun _ => .plain rfl rfl rfl rfl)))

theorem Moves.ungroupedValue {t : Word} {e : SubEntry} (he : s.sub t = some e) (hg : e.group = none) (src : Nat)
    (g : Word) (data : List Byte) : Moves s (s.ungroupedValue t src g data e) := by
  obtain ⟨x, hx, hxg⟩ := sub_checkProducer src he
  have check := Moves.checkProducer (s := s) t src e
  unfold State.ungroupedValue
  dsimp only
  split
  · exact check.trans (Moves.acceptNewer hx (hxg.trans hg) _ _ _ _)
  · exact Moves.after (Moves.emitFresh _ _ _) (Moves.after (Moves.setSub t (subKept_takeFrame _) fun _ => rfl) check)
  · exact Moves.after (Moves.countLate t) check

theorem Moves.goStale (t : Word) (e : SubEntry) : Moves s (s.goStale t e) := by
  have stale : Moves s ((s.setSub t (fun x => { x with state := .stale, freshTimer := none })).emit .tagStale t
      (BitVec.ofNat 16 (e.producer.getD 0))) :=
    Moves.after (Moves.emit _ _ _) (Moves.setSub t (fun _ => .plain rfl rfl rfl rfl) fun _ => rfl)
  unfold State.goStale
  dsimp only
  split
  · exact stale.trans (Moves.request _ (by intro t ht; cases ht))
  · exact stale

theorem Moves.clearFilters (r : Nat) : Moves s (s.clearFilters r) := by
  refine .single (.subs (fun e => ?_) fun e => ?_)
  · split
    · exact .plain rfl rfl rfl rfl
    · exact .refl e
  · split <;> rfl

/-! Consumer groups (R109 to R122). -/

theorem Moves.tear (k : Nat) (reason : TearReason) (a : Assembly) : Moves s (s.tear k reason a) :=
  Moves.after (Moves.emit _ _ _)
    (Moves.setGrp k (fun _ => ⟨rfl, fun h => ⟨h.1, satInc_le h.2⟩⟩) fun _ => ⟨rfl, rfl⟩)

theorem Moves.completeAssembly {k : Nat} {r : GroupRecord} (hr : s.grp k = some r) (g : Word) :
    Moves s (s.completeAssembly k g r) := by
  unfold State.completeAssembly
  split
  · refine Moves.after (Moves.setGrp k (fun x => ⟨rfl, fun h => ⟨?_, h.2⟩⟩) fun _ => ⟨rfl, rfl⟩)
      (Moves.setMembers k (fun _ => .plain rfl rfl rfl rfl) fun _ => rfl)
    show (if x.ready.isSome then satInc Config.count16 x.skipped else x.skipped) ≤ 65535
    split
    · exact satInc_le h.1
    · exact h.1
  · next hh =>
    refine Moves.after (Moves.emit _ _ _) (.single (.reveal (fun _ => .plain rfl rfl rfl rfl) (fun _ => ⟨rfl, id⟩) ?_))
    intro x hx
    cases hr.symm.trans hx
    simpa using hh

theorem Moves.land (k : Nat) (t : Word) (src : Nat) (data : List Byte) (before : SubState) (a : Assembly) :
    Moves s (s.land k t src data before a) := by
  have landed (arrived : List Bool) : Moves s
      (((s.setSub t (fun e => { e with landing := data })).setGrp k
        (fun r => { r with assembly := some { a with arrived := arrived } })).takeMember t src before) :=
    Moves.after (Moves.takeMember _ _ _) (Moves.after (Moves.setGrp k (fun _ => ⟨rfl, id⟩) fun _ => ⟨rfl, rfl⟩)
      (Moves.setSub t (fun _ => .plain rfl rfl rfl rfl) fun _ => rfl))
  unfold State.land
  dsimp only
  split
  · split
    · next hr => exact (landed _).trans (Moves.completeAssembly hr _)
    · exact landed _
  · exact landed _

theorem Moves.assemble (k : Nat) (t : Word) (src : Nat) (epoch : Byte) (g : Word) (data : List Byte) (before : SubState)
    (r : GroupRecord) : Moves s (s.assemble k t src epoch g data before r) := by
  unfold State.assemble
  split
  · exact Moves.land _ _ _ _ _ _
  · split
    · exact Moves.land _ _ _ _ _ _
    · exact Moves.after (Moves.land _ _ _ _ _ _) (Moves.tear _ _ _)
    · exact Moves.countLate t

theorem Moves.checkMemberProducer (k : Nat) (t : Word) (src : Nat) (e : SubEntry) :
    Moves s (s.checkMemberProducer k t src e) := by
  unfold State.checkMemberProducer
  split
  · exact Moves.setSub t (fun _ => .plain rfl rfl rfl rfl) fun _ => rfl
  · split
    · exact .refl
    · exact Moves.after (Moves.setGrp k (fun _ => ⟨rfl, id⟩) fun _ => ⟨rfl, rfl⟩)
        (Moves.after (Moves.setSub t (fun _ => .plain rfl rfl rfl rfl) fun _ => rfl) (Moves.emit _ _ _))

theorem Moves.checkAssemblyProducer (k src : Nat) : Moves s (s.checkAssemblyProducer k src) := by
  unfold State.checkAssemblyProducer
  split
  · split
    · split
      · exact .refl
      · exact Moves.tear _ _ _
    · exact .refl
  · exact .refl

theorem Moves.completedCheck (k : Nat) (t : Word) (src : Nat) (epoch : Byte) (g : Word) (data : List Byte)
    (before : SubState) : Moves s (s.completedCheck k t src epoch g data before) := by
  unfold State.completedCheck
  split
  · split
    · exact Moves.assemble _ _ _ _ _ _ _ _
    · exact Moves.takeMember _ _ _
    · exact Moves.countLate t
  · exact .refl

theorem Moves.memberValue (k : Nat) (t : Word) (src : Nat) (epoch : Byte) (g : Word) (number count : Byte)
    (data : List Byte) (e : SubEntry) : Moves s (s.memberValue k t src epoch g number count data e) := by
  unfold State.memberValue
  split
  · exact .refl
  · split
    · exact Moves.after (Moves.completedCheck _ _ _ _ _ _ _)
        (Moves.after (Moves.checkAssemblyProducer _ _) (Moves.checkMemberProducer _ _ _ _))
    · exact Moves.emit _ _ _

theorem Moves.valueData (src : Nat) (epoch : Byte) (t g : Word) (number count : Byte) (data : List Byte) :
    Moves s (s.valueData src epoch t g number count data) := by
  unfold State.valueData
  split
  · exact .refl
  · next he =>
    split
    · exact Moves.rejectValue _ _
    · split
      · next hg => exact Moves.ungroupedValue he hg _ _ _
      · exact Moves.memberValue _ _ _ _ _ _ _ _ _

theorem Moves.assemblyExpiry (k : Nat) (r : GroupRecord) (a : Assembly) : Moves s (s.assemblyExpiry k r a) := by
  have resend : Moves s (s.setGrp k (fun x =>
      { x with assembly := some { a with resendDone := true, timer := r.limit } })) :=
    Moves.setGrp k (fun _ => ⟨rfl, id⟩) fun _ => ⟨rfl, rfl⟩
  unfold State.assemblyExpiry
  split
  · dsimp only
    split
    · exact resend.trans (Moves.request _ (by intro t ht; cases ht))
    · exact resend
  · exact Moves.tear _ _ _

theorem Moves.groupRestart (station : Nat) (s : State) (k : Nat) : Moves s (State.groupRestart station s k) := by
  have clear : Moves s (if (s.members k).any (fun e => decide (e.producer = some station)) = true then
      s.setGrp k fun x => { x with completed := none } else s) := by
    split
    · exact Moves.setGrp k (fun _ => ⟨rfl, id⟩) fun _ => ⟨rfl, rfl⟩
    · exact .refl
  unfold State.groupRestart
  split
  · exact .refl
  · dsimp only
    split
    · split
      · exact Moves.tear _ _ _
      · exact clear
    · exact clear

theorem Moves.producerRestarted (station : Nat) : Moves s (s.producerRestarted station) :=
  Moves.after (Moves.foldl (Moves.groupRestart station) _ _) (Moves.clearFilters station)

theorem Moves.releaseGroup {k : Nat} {r : GroupRecord} : Moves s (s.releaseGroup k r) := by
  have release (f : SubEntry → SubEntry) (hf : ∀ e, SubKept e (f e)) (h : GroupRecord → GroupRecord)
      (hh : ∀ r, GrpKept r (h r)) (free : ∀ r, (h r).held = false) : Moves s ((s.setMembers k f).setGrp k h) :=
    .single (.reveal hf hh fun r _ => free r)
  unfold State.releaseGroup
  split
  · have plain := release id SubKept.refl (fun x => { x with held := false }) (fun _ => ⟨rfl, id⟩) fun _ => rfl
    have same : s.setMembers k id = s := by
      unfold State.setMembers; simp
    rwa [same] at plain
  · refine Moves.after (Moves.emit _ _ _) (release _ ?_ _ ?_ ?_)
    · exact fun _ => .plain rfl rfl rfl rfl
    · exact fun _ => ⟨rfl, id⟩
    · exact fun _ => rfl

/-! The roster (R128 to R132). -/

theorem Moves.joinPeer {src : Nat} (other : s.sc.ownNumber ≠ some src) (f : Frame) (p : Peer) :
    Moves s (s.joinPeer src f p) := by
  unfold State.joinPeer
  split
  · exact Moves.after (Moves.emit _ _ _) (Moves.setPeer src (fun _ => rfl) (fun _ h => h) fun h => absurd h other)
  · exact .refl

theorem Moves.hearPeer (src : Nat) : Moves s (s.hearPeer src) :=
  Moves.setPeer src (fun _ => rfl) (fun _ h => satInc_le h) fun _ _ _ h => h

theorem Moves.epochStep (src : Nat) (recorded : Option Byte) (e : Byte) : Moves s (s.epochStep src recorded e) := by
  have put (u : State) : Moves u (u.setPeer src (fun p => { p with epoch := some e })) :=
    Moves.setPeer src (fun _ => rfl) (fun _ h => h) fun _ _ _ h => h
  unfold State.epochStep
  split
  · exact put s
  · split
    · exact .refl
    · exact Moves.after (put _) (Moves.emit _ _ _)

theorem Moves.presenceStep {src : Nat} (other : s.sc.ownNumber ≠ some src) (standing : PeerState) (f : Frame) :
    Moves s (s.presenceStep src standing f) := by
  unfold State.presenceStep
  split
  · exact .refl
  · next c n _ =>
    have said : Moves s (s.setPeer src (fun p => { p with condition := some c, publications := some n })) :=
      Moves.setPeer src (fun _ => rfl) (fun _ h => h) fun _ _ _ h => h
    have gone : Moves s ((s.setPeer src (fun p => { p with condition := some c, publications := some n })).setPeer src
        (fun p => { p with state := .absent, silenceTimer := none })) :=
      said.trans (Moves.setPeer src (fun _ => rfl) (fun _ h => h) fun h => absurd h other)
    dsimp only
    split
    · split
      · exact gone.trans (Moves.emit _ _ _)
      · exact gone
    · exact said

theorem Moves.enterPeer {src : Nat} (other : s.sc.ownNumber ≠ some src) (f : Frame) (p : Peer) :
    Moves s (s.enterPeer src f p) := by
  have kept := kept_trans (kept_trans (kept_joinPeer s src f p) (kept_setPeer _ src _))
    (kept_epochStep ((s.joinPeer src f p).hearPeer src) src p.epoch (frameEpoch f))
  have steps : Moves s
      ((((s.joinPeer src f p).hearPeer src).epochStep src p.epoch (frameEpoch f)).presenceStep src p.state f) :=
    Moves.after (Moves.presenceStep (by rw [kept.sc]; exact other) _ _) (Moves.after (Moves.epochStep _ _ _)
      (Moves.after (Moves.hearPeer src) (Moves.joinPeer other f p)))
  unfold State.enterPeer
  dsimp only
  split
  · exact steps.trans (Moves.producerRestarted _)
  · exact steps

theorem Moves.silence {n : Nat} {p : Peer} (hp : s.peer n = some p) (present : p.state = .present) (a b : Word) :
    Moves s ((s.setPeer n (fun x => { x with state := .silent, silenceTimer := none })).emit .peerSilent a b) := by
  refine Moves.after (Moves.emit _ _ _) (Moves.setPeer n (fun _ => rfl) (fun _ h => h) fun _ hs => ?_)
  rw [hp, Option.map_some, present] at hs
  cases hs

/-! Station Control (R137 to R145). -/

theorem Moves.tick : Moves s s.tick := by
  have clock : Moves s
      { s with
        sc :=
          { s.sc with
            clock := s.sc.clock + 1
            listenTimer := tickTimer s.sc.listenTimer
            presenceTimer := tickTimer s.sc.presenceTimer } } := Moves.timers rfl rfl rfl rfl
  refine (((((clock.tail (.pubs (f := tickPub) ?_ ?_)).tail (.claimUnit ?_)).tail (.subs (f := tickSub) ?_ ?_)).tail
    (.groups (f := tickGroup) ?_ ?_)).tail (.peers ?_ ?_ ?_))
  · exact fun _ => ⟨rfl, rfl, rfl, rfl, id⟩
  · exact fun h e he => h e he
  · exact fun h => .inr ⟨h, fun _ _ _ ht => ht⟩
  · exact fun _ => .plain rfl rfl rfl rfl
  · exact fun _ => rfl
  · exact fun _ => ⟨rfl, id⟩
  · exact fun _ => ⟨rfl, rfl⟩
  · rw [List.map_map]; rfl
  · intro h p hp
    obtain ⟨q, hq, rfl⟩ := List.mem_map.1 hp
    exact h q hq
  · intro n _ hs
    obtain ⟨p, hp, hps⟩ := Option.map_eq_some_iff.1 hs
    have hfind : lookupKey Peer.number n (s.ro.map tickPeer) = (lookupKey Peer.number n s.ro).map tickPeer := by
      unfold lookupKey
      rw [List.find?_map]
      rfl
    rw [hfind, show lookupKey Peer.number n s.ro = some p from hp]
    exact congrArg some hps

theorem Moves.emptyQueue : Moves s { s with sq := emptyQueue s.sq } := by
  have sifted : Move s { s with sq := { s.sq with entries := s.sq.entries.filter fun _ => false } } := .sift _
  rw [List.filter_false] at sifted
  exact .single sifted

theorem Moves.enterMute (cause : Nat) (quiet : ¬Driving s.la) : Moves s (s.enterMute cause) := by
  rw [enterMute_eq]
  have noted : Moves s { s with nq := posted s [(.stationState, 7, BitVec.ofNat 16 cause)] } := .single (.notices _)
  have emptied := noted.trans Moves.emptyQueue
  exact emptied.trans (.single (.unclaim (st := .mute) none none (.inr ⟨rfl, quiet⟩)))

/-- The queue at the entry into LEAVING: a request of the PRESENCE, or the renewal of the one in flight (R69). -/
theorem Moves.leaveQueue (h : s.sc.state = .announce ∨ s.sc.state = .active) :
    Moves s { s with sq := leaveQueue s.sq } := by
  have kept : Moves s { s with sq := { s.sq with entries := s.sq.entries.filter QueueEntry.inFlight } } :=
    .single (.sift _)
  unfold Machine.leaveQueue
  dsimp only
  split
  · exact kept.trans (Moves.markEntry _ fun _ => ⟨rfl, rfl, rfl, rfl⟩)
  · next hp =>
    have requested := kept.trans (Moves.request .presence (by intro t ht; cases ht))
    rw [request_eq _ _ rfl] at requested
    have takes :
        State.takesRequests { s with sq := { s.sq with entries := s.sq.entries.filter QueueEntry.inFlight } } =
          true := by
      simpa [State.takesRequests] using h
    rw [if_pos takes] at requested
    unfold joined at requested
    rwa [if_neg (by simpa [hasEntry] using hp)] at requested

theorem Moves.enterLeaving (h : s.sc.state = .announce ∨ s.sc.state = .active) : Moves s s.enterLeaving := by
  rw [enterLeaving_eq]
  have noted : Moves s { s with nq := posted s [(.stationState, 6, 1)] } := .single (.notices _)
  have queued := noted.trans (Moves.leaveQueue h)
  exact queued.trans (.single (.unclaim (st := .leaving) s.sc.listenTimer none (.inl ⟨rfl, h⟩)))

theorem Moves.leaveSent (leaving : s.sc.state = .leaving) (quiet : ¬Driving s.la) : Moves s s.leaveSent :=
  Moves.after (Moves.emitStation 5) (.single (.control (.leave leaving quiet) rfl rfl id))

end Runs

end Sys2Proof.Machine
end

section
/-! SUPPORT. Line Access as runs of moves, and the course of every command: a run of moves, a reset, the load of an
image, a commit, a hold, or a readback mismatch counted on the way to MUTE. -/

namespace Sys2Proof.Machine

/-- LA counts a bad send end (R77, R81). -/
def broken (s : State) : State :=
  s.setLine (fun l => { l with txErrors := satInc Config.readbackLimit l.txErrors })

/-- The eighth bad send end in a row makes the station MUTE (R81). -/
def limited (s : State) : State := if s.la.txErrors = Config.readbackLimit then s.enterMute 6 else s

/-- The entries a COMMIT or a GROUP COMMIT steps (R22, R23, R26, R27). -/
inductive Commits (s : State) : State → Prop where
  | one {t : Word} {e : PubEntry} (flying : Bool) (entry : s.pub t = some e) (ungrouped : e.group = none)
      (settled : e.flipPending = false) : Commits s (s.setPub t (commitEntry (nextGen e.committed) flying))
  | group {n : Nat} {e : PubEntry} (member : e ∈ s.producerMembers n)
      (settled : ∀ m ∈ s.producerMembers n, m.flipPending = false) : Commits s (commitGroup n (nextGen e.committed) s)

/-- What a command can do. -/
inductive Course (c : Instr) (s : State) : State → Prop where
  | moves {t : State} (run : Moves s t) : Course c s t
  | failed {u v t : State} (before : Moves s u) (sent : Moves (broken u) v) (quiet : ¬Driving v.la)
      (rest : Moves (limited v) t) : Course c s t
  | reset (pin : Bool) (hp : HostPort) :
      Course c s
        { State.reset with sc := { State.reset.sc with resetPin := pin }, hp := hp, pending := s.pending }
  | loaded {t : State} (command : c = .validationPassed) (validating : s.sc.state = .validating)
      (passed : (validate s.sc.image).1 = 0) (rest : Moves s.loadImage t) : Course c s t
  | commit {u t : State} (command : (∃ tag crc, c = .commit tag crc) ∨ ∃ n crc, c = .groupCommit n crc)
      (commits : Commits s u) (rest : Moves u t) : Course c s t
  | hold {k : Nat} {r : GroupRecord} {t : State} (entry : s.grp k = some r) (free : r.held = false)
      (rest : Moves (s.setGrp k (fun x => { x with held := true })) t) : Course c s t

/-- A course goes on with the answer of the host port. -/
theorem Course.port {c : Instr} {s t : State} (h : Course c s t) (hp : HostPort) : Course c s { t with hp := hp } := by
  have answered {u : State} (run : Moves u t) : Moves u { t with hp := hp } := run.tail (.port hp)
  cases h with
  | moves run => exact .moves (answered run)
  | failed before sent quiet rest => exact .failed before sent quiet (answered rest)
  | reset pin _ => exact .reset pin hp
  | loaded command validating passed rest => exact .loaded command validating passed (answered rest)
  | commit command commits rest => exact .commit command commits (answered rest)
  | hold entry free rest => exact .hold entry free (answered rest)

/-- A host command's course is that of its effect, where the gating takes it. -/
theorem Course.take {i : Instr} {c : Command} {ops : List Byte} {crc : Byte} {act : State → Reply} {s : State}
    (h : ∀ u results, gate c s.sc.state = none → act s = .ok (u, results) → Course i s u) :
    Course i s (takeCommand c ops crc act s) := by
  rcases takeCommand_cases c ops crc act s with h' | ⟨st, h'⟩ | ⟨u, results, hg, ha, h'⟩
  · rw [h']; exact .moves .refl
  · rw [h']; exact (Course.moves .refl).port _
  · rw [h']; exact (h u results hg ha).port _

/-- The same for a command whose effect leaves the state. -/
theorem Course.read {i : Instr} {c : Command} {ops : List Byte} {crc : Byte} {act : State → Reply} {s : State}
    (h : ∀ u results, act s = .ok (u, results) → u = s) : Course i s (takeCommand c ops crc act s) :=
  .take fun u results _ ha => h u results ha ▸ .moves .refl

section Runs
variable {s : State}

/-! Line Access. -/

theorem not_driving_of {l : LineAccess} (round : l.lineState ≠ .round) (sending : l.lineState ≠ .sending) :
    ¬Driving l := by
  rintro (⟨h, -⟩ | ⟨h, -⟩)
  · exact round h
  · exact sending h

/-- A change of LA that ends in a state in which the station does not drive. -/
theorem Moves.quietLine {f : LineAccess → LineAccess} (counters : (f s.la).counters = s.la.counters)
    (errors : (f s.la).txErrors = s.la.txErrors ∨ (f s.la).txErrors = 0) (quiet : ¬Driving (f s.la)) :
    Moves s (s.setLine f) :=
  .single (.line counters errors fun h => absurd h quiet)

theorem Moves.countBad : Moves s (s.count (fun c => { c with receivedBad := satInc Config.count32 c.receivedBad })) :=
  .single (.counters fun _ h => h.bump.2.1)

theorem Moves.countMalformed :
    Moves s (s.count (fun c => { c with malformed := satInc Config.count32 c.malformed })) :=
  .single (.counters fun _ h => h.bump.2.2.1)

theorem Moves.countReadback :
    Moves s (s.count (fun c => { c with readbackErrors := satInc Config.count32 c.readbackErrors })) :=
  .single (.counters fun _ h => h.bump.2.2.2.2.2.1)

theorem Moves.closeFrame (bid : Word) (empty : Bool) : Moves s (s.closeFrame bid empty) :=
  Moves.quietLine rfl (.inl rfl) (not_driving_of (by simp) (by simp))

theorem Moves.awaitBody (bid : Word) : Moves s (s.awaitBody bid) :=
  Moves.quietLine rfl (.inl rfl) (not_driving_of (by simp) (by simp))

/-- A bad send end without a send start goes on the way to MUTE. -/
theorem Course.bidBroken {c : Instr} {t : State} (h : s.la.lineState ≠ .sending) (rest : Moves s.bidBroken t) :
    Course c s t := by
  have quiet {l : LineAccess} (hl : l.lineState = s.la.lineState) (hr : l.round = none) : ¬Driving l := by
    rintro (⟨-, h'⟩ | ⟨h', -⟩)
    · rw [hr] at h'; cases h'
    · exact h (hl ▸ h')
  refine .failed .refl ?_ ?_ rest
  · exact Moves.after Moves.countReadback
      (Moves.quietLine (f := fun l => { l with round := none, bidMismatch := false }) rfl (.inl rfl) (quiet rfl rfl))
  · exact quiet rfl rfl

theorem Course.takeMismatch {c : Instr} {t : State} (h : s.la.lineState ≠ .sending) (rest : Moves s.takeMismatch t) :
    Course c s t := by
  unfold State.takeMismatch at rest
  split at rest
  · exact .bidBroken h rest
  · exact .moves rest

theorem Moves.declareFault : Moves s s.declareFault := by
  have counted : Moves s
      (if s.la.lineState = .receiving ∧ !s.la.ownBroken then
        s.count (fun c => { c with receivedBad := satInc Config.count32 c.receivedBad })
      else s) := by
    split
    · exact Moves.countBad
    · exact .refl
  unfold State.declareFault
  exact Moves.after (Moves.emit _ _ _)
    (Moves.after (Moves.quietLine rfl (.inl rfl) (not_driving_of (by simp) (by simp))) counted)

theorem openedRound_contends {r : Round} (h : s.openedRound = some r) : s.mayContend = true := by
  unfold State.openedRound at h
  split at h
  · cases h
  · split at h
    · next hc =>
      simp only [State.contends, Bool.and_eq_true] at hc
      exact hc.1.2
    · cases h

theorem Moves.openRound (idle : s.la.lineState = .idle) (n : Nat) : Moves s ((s.setLine (idleLine n)).openRound) := by
  have line : Moves s (s.setLine (idleLine n)) :=
    Moves.quietLine rfl (.inl rfl) (not_driving_of (by simp [idleLine, idle]) (by simp [idleLine, idle]))
  have counted (u : State) : Moves u
      (if u.openedRound.isSome then
        u.count (fun c => { c with roundsEntered := satInc Config.count32 c.roundsEntered })
      else u) := by
    split
    · exact .single (.counters fun _ h => h.bump.2.2.2.1)
    · exact .refl
  unfold State.openRound
  refine Moves.after (.single (.line rfl (.inl rfl) fun h => .inr ?_)) (Moves.after (counted _) line)
  have opened : (s.setLine (idleLine n)).openedRound.isSome = true := by
    rcases h with ⟨-, h⟩ | ⟨h, -⟩
    · exact h
    · cases h
  obtain ⟨r, hr⟩ := Option.isSome_iff_exists.1 opened
  have may := openedRound_contends hr
  split <;> exact may

/-- The send of an entry starts in a round the station contends in. -/
theorem Moves.startEntry {f : LineAccess → LineAccess} (driving : Driving s.la)
    (counters : (f s.la).counters = s.la.counters) (errors : (f s.la).txErrors = s.la.txErrors) (bid : Word)
    (subj : Subject) : Moves s ((s.setLine f).startEntry bid subj) := by
  have line : Moves s { s with la := ((s.setLine f).startEntry bid subj).la } :=
    .single (.line counters (.inl errors) fun _ => .inl driving)
  have unit : Moves s
      { s with la := ((s.setLine f).startEntry bid subj).la, cu := fixSubset subj s.cu } :=
    line.trans (Moves.keepClaims (by cases subj <;> rfl) (by cases subj <;> rfl))
  exact unit.trans (Moves.markEntry subj fun _ => ⟨rfl, rfl, rfl, rfl⟩)

theorem Moves.receiveAfter {f : LineAccess → LineAccess} (counters : (f s.la).counters = s.la.counters)
    (errors : (f s.la).txErrors = s.la.txErrors) (bid : Word) (mismatch : Bool) :
    Moves s ((s.setLine f).receiveAfter bid mismatch) :=
  .single (.line counters (.inl errors) fun h => absurd h (not_driving_of (by simp) (by simp)))

theorem Moves.decideRound (round : s.la.lineState = .round) (read : RoundRead) : Moves s (s.decideRound read) := by
  unfold State.decideRound
  split
  · exact Moves.receiveAfter rfl rfl _ _
  · next r hr =>
    have driving : Driving s.la := .inl ⟨round, by rw [hr]; rfl⟩
    split
    · unfold State.decideBid
      split
      · unfold State.sendStart
        split
        · exact Moves.startEntry (f := fun l => { hearLine (msbBits read.bid) l with round := none }) driving rfl rfl
            _ _
        · split
          · exact Moves.startEntry (f := fun l => { hearLine (msbBits read.bid) l with round := none }) driving rfl rfl
              _ _
          · exact .single (.line rfl (.inl rfl) fun _ => .inl driving)
      · split
        · exact (Moves.receiveAfter rfl rfl read.bid false).tail (.age r.noted)
        · exact Moves.receiveAfter rfl rfl _ _
    · exact Moves.receiveAfter rfl rfl _ _

theorem Moves.either {p : Prop} [Decidable p] {t u : State} (yes : Moves s t) (no : Moves s u) :
    Moves s (if p then t else u) := by
  split
  · exact yes
  · exact no

theorem Moves.sentGood (x : Sending) : Moves s (s.sentGood x) := by
  unfold State.sentGood
  split
  · exact .refl
  · exact Moves.after (Moves.valueSendEnd _ _ _) (Moves.removeEntry _)
  · exact Moves.removeEntry _
  · exact Moves.claimSentGood
  · exact Moves.defendSentGood
  · split
    · exact Moves.markEntry _ fun _ => ⟨rfl, rfl, rfl, rfl⟩
    · exact Moves.removeEntry _

theorem Moves.goodSend (x : Sending) : Moves s (s.goodSend x) := by
  have line : Moves s
      ((s.setLine (fun l =>
        hearLine (frameLevels x.bid x.frame)
          { l with lineState := .idle, sending := none, txErrors := 0 })).count
        (fun c => { c with roundsWon := satInc Config.count32 c.roundsWon })) :=
    Moves.after (.single (.counters fun _ h => h.bump.2.2.2.2.1))
      (Moves.quietLine rfl (.inr rfl) (not_driving_of (by simp [hearLine]) (by simp [hearLine])))
  have presence {u : State} (hx : x.entry = some .presence) :
      (u.sentGood x).sc = u.sc ∧ (u.sentGood x).la = u.la ∧ (u.sentGood x).pt = u.pt := by
    unfold State.sentGood
    rw [hx]
    dsimp only
    split <;> exact ⟨rfl, rfl, rfl⟩
  have sent := Moves.after (Moves.sentGood x) line
  unfold State.goodSend
  dsimp only
  split
  · next h =>
    simp only [State.isLeavingSend, Bool.and_eq_true, decide_eq_true_eq] at h
    obtain ⟨hsc, hla, -⟩ := presence (u := (s.setLine (fun l =>
        hearLine (frameLevels x.bid x.frame)
          { l with lineState := .idle, sending := none, txErrors := 0 })).count
        (fun c => { c with roundsWon := satInc Config.count32 c.roundsWon })) h.1.1
    refine sent.trans (Moves.leaveSent (by rw [hsc]; exact h.1.2) ?_)
    rw [hla]
    exact not_driving_of (by simp [hearLine]) (by simp [hearLine])
  · split
    · next h =>
      simp only [State.isAnnouncedSend, Bool.and_eq_true, decide_eq_true_eq, List.isEmpty_iff] at h
      obtain ⟨hsc, -, hpt⟩ := presence (u := (s.setLine (fun l =>
          hearLine (frameLevels x.bid x.frame)
            { l with lineState := .idle, sending := none, txErrors := 0 })).count
          (fun c => { c with roundsWon := satInc Config.count32 c.roundsWon })) h.1.1
      refine sent.trans (Moves.becomeActive (by rw [hsc]; exact h.1.2) (.inl ?_))
      rw [hpt, State.count_pt, State.setLine_pt, h.2]
      simp
    · exact sent

theorem Moves.sentBad (x : Sending) : Moves s (s.sentBad x) := by
  have clear (subj : Subject) : Moves s
      { s with sq := Machine.markEntry subj (fun e => { e with inFlight := false, renew := false }) s.sq } :=
    Moves.markEntry _ fun _ => ⟨rfl, rfl, rfl, rfl⟩
  unfold State.sentBad
  dsimp only
  split
  · exact .refl
  · exact Moves.after (Moves.valueSendEnd _ _ _) (Moves.either (Moves.removeEntry _) (clear _))
  · split
    · exact Moves.removeEntry _
    · exact clear _
  · exact Moves.claimSentBad
  · exact Moves.defendSentBad
  · exact clear _

/-- VALUE requests leave the line (R59). -/
theorem requestValues_la (tags : List Word) (s : State) : (s.requestValues tags).la = s.la := by
  have one (t : Word) (u : State) : (u.requestValue t).la = u.la := by
    unfold State.requestValue
    split
    · split
      · rw [request_eq _ _ rfl]; split <;> rfl
      · rfl
    · rfl
  unfold State.requestValues
  induction tags generalizing s with
  | nil => rfl
  | cons t rest ih => exact (ih _).trans (one t s)

theorem afterActive_la (s : State) : (afterActive s).la = s.la := by
  unfold afterActive
  rw [requestValues_la]
  simp only [emitStation_eq, State.startPeriods_la]

/-- No bad send end touches the line but for its counts. -/
theorem sentBad_la (x : Sending) (s : State) : (s.sentBad x).la = s.la := by
  have value (t : Word) (u : State) : (u.valueSendEnd false t 0).la = u.la := by
    unfold State.valueSendEnd
    simp only [Bool.false_eq_true, false_and, if_false]
    split <;> rfl
  unfold State.sentBad
  dsimp only
  split
  · rfl
  · rw [value]
    split
    · split <;> rfl
    · rfl
  · split <;> rfl
  · rw [claimSentBad_eq]
    split
    · rw [becomeActive_eq, afterActive_la]; rfl
    · rfl
  · rw [defendSentBad_eq]
  · rfl

theorem Course.badSend {c : Instr} (bit : Nat) (x : Sending) : Course c s (s.badSend bit x) := by
  have line : Moves s (s.setLine (fun l =>
      hearLine (brokenLevels (frameLevels x.bid x.frame) bit)
        { l with lineState := .receiving, sending := none, heardBid := some x.bid, ownBroken := true })) :=
    Moves.quietLine rfl (.inl rfl) (not_driving_of (by simp [hearLine]) (by simp [hearLine]))
  refine .failed line (Moves.after (Moves.sentBad x) Moves.countReadback) ?_ .refl
  rw [sentBad_la]
  exact not_driving_of (by simp [hearLine, broken]) (by simp [hearLine, broken])

/-! Received frames. -/

theorem Moves.dispatch (src : Nat) (f : Frame) : Moves s (s.dispatch src f) := by
  cases f with
  | value => exact Moves.after (Moves.valueData _ _ _ _ _ _ _) (Moves.weighAll _ _ _)
  | claim => exact Moves.weighAll _ _ _
  | defend => exact Moves.weighAll _ _ _
  | presence => exact .refl
  | resend => exact Moves.answerResend _

/-- A frame of a source is handled while the line is idle, or is one of another station. -/
def Handles (src : Nat) (s : State) : Prop := s.la.lineState = .idle ∨ s.sc.ownNumber ≠ some src

theorem Moves.receiveGood {src : Nat} (h : Handles src s) (f : Frame) : Moves s (s.receiveGood src f) := by
  unfold State.receiveGood
  split
  · next own =>
    have idle : s.la.lineState = .idle := h.resolve_right (fun hne => hne own)
    have heard : Moves s (s.setPeer s.own (fun p =>
        { p with framesHeard := satInc Config.count16 p.framesHeard, lastHeard := some s.sc.clock })) :=
      Moves.setPeer _ (fun _ => rfl) (fun _ h => satInc_le h) fun _ _ _ h => h
    unfold State.duplicate
    dsimp only
    split
    · exact heard
    · exact heard.trans (Moves.enterMute 7 (not_driving_of (by simp [idle]) (by simp [idle])))
  · next other =>
    split
    · exact Moves.after (Moves.dispatch _ _) (Moves.enterPeer other _ _)
    · exact Moves.dispatch _ _

theorem Moves.receiveFrame {bid : Word} (h : Handles (bidSource bid) s) (own : Bool) (f : Frame) :
    Moves s (s.receiveFrame bid own f) := by
  unfold State.receiveFrame
  split
  · exact Moves.after (Moves.receiveGood (s := s.count _) h f) (.single (.counters fun _ h => h.bump.1))
  · split
    · exact .refl
    · exact Moves.countMalformed

theorem Moves.receivePayload {bid : Word} (h : Handles (bidSource bid) s) (own : Bool) (kind : Byte)
    (payload : List Byte) : Moves s (s.receivePayload bid own kind payload) := by
  unfold State.receivePayload
  split
  · exact Moves.receiveFrame h own _
  · split
    · exact .refl
    · exact Moves.countMalformed

theorem Moves.receiveBits {bid : Word} (h : Handles (bidSource bid) s) (own mismatch : Bool) (bits : List Bool) :
    Moves s (s.receiveBits bid own mismatch bits) := by
  unfold State.receiveBits
  split
  · split
    · exact .refl
    · exact Moves.countBad
  · exact Moves.receivePayload h own _ _

/-- The course of every frame command: a mismatch that waits is taken first, then the frame is handled. -/
theorem Course.endFrame {c : Instr} {bid : Word} {levels : List Bool} {handle : Bool → Bool → State → State}
    (h : ∀ own mismatch u, Handles (bidSource bid) u → Moves u (handle own mismatch u)) :
    Course c s (s.endFrame bid levels handle) := by
  unfold State.endFrame
  split
  · exact .moves .refl
  · split
    · next hc =>
      simp only [closesFrame, Bool.and_eq_true, decide_eq_true_eq] at hc
      refine .takeMismatch (by rw [hc.1.2]; decide) (Moves.after (h _ _ _ (.inl rfl)) (Moves.closeFrame _ _))
    · split
      · next he =>
        simp only [endedBefore, Bool.and_eq_true, Bool.or_eq_true, decide_eq_true_eq] at he
        exact .moves (h _ _ _ he.2)
      · exact .moves .refl

theorem Course.hearFrame {c : Instr} (bid : Word) (f : Frame) : Course c s (s.hearFrame bid f) :=
  Course.endFrame fun own _ _ h => Moves.receiveFrame h own f

end Runs

end Sys2Proof.Machine
end

section
/-! SUPPORT. The course of every command. -/

namespace Sys2Proof.Machine

section Courses
variable {s : State}

theorem Course.of_next {c : Instr} {t u : State} (h : Host.Outcome.next u = (Host.Outcome.next t : Out))
    (course : Course c s u) : Course c s t :=
  Host.Outcome.next.inj h ▸ course

/-- An event that happens in some states alone. -/
theorem Course.either {c : Instr} {p : Prop} [Decidable p] {t u : State} (yes : p → Course c s t)
    (no : ¬p → Course c s u) : Course c s (if p then t else u) := by
  split
  · next h => exact yes h
  · next h => exact no h

theorem Course.guarded {c : Instr} {p : Prop} [Decidable p] {t : State} (yes : p → Moves s t) :
    Course c s (if p then t else s) :=
  .either (fun h => .moves (yes h)) fun _ => .moves .refl

/-! Host commands with an effect. -/

theorem Moves.imageWriteReply {offset : Word} {data : List Byte} {u : State} {results : List Byte}
    (h : imageWriteReply offset data s = .ok (u, results)) : Moves s u := by
  unfold Machine.imageWriteReply at h
  split at h
  · cases h
  · next hr =>
    cases h
    exact .single (.control .stay rfl rfl fun hw => wf_memWriteRun hw (by omega))

theorem Moves.sealReply {epoch : Byte} {u : State} {results : List Byte} (unconfigured : s.sc.state = .unconfigured)
    (h : sealReply epoch s = .ok (u, results)) : Moves s u := by
  unfold Machine.sealReply at h
  split at h
  · cases h
  · cases h
    exact .single (.control (.sealed unconfigured) rfl rfl id)

theorem Moves.startReply {u : State} {results : List Byte} (halted : s.sc.state = .halted)
    (h : startReply s = .ok (u, results)) : Moves s u := by
  rw [startReply_eq] at h
  cases h
  have noted : Moves s { s with nq := posted s [(.stationState, 3, 1)] } := .single (.notices _)
  exact noted.tail (.control (.start halted) rfl rfl id)

theorem Moves.stopReply {u : State} {results : List Byte}
    (taken : s.sc.state = .listen ∨ s.sc.state = .announce ∨ s.sc.state = .active)
    (h : stopReply s = .ok (u, results)) : Moves s u := by
  unfold Machine.stopReply at h
  split at h
  · next listen =>
    cases h
    exact Moves.after (Moves.emitStation 1) (.single (.control (.stop listen) rfl rfl id))
  · next listen =>
    cases h
    exact Moves.enterLeaving (taken.resolve_left listen)

theorem Moves.draftWriteReply {t : Word} {offset : Byte} {bytes : List Byte} {u : State} {results : List Byte}
    (h : draftWriteReply t offset bytes s = .ok (u, results)) : Moves s u := by
  cases he : s.pub t with
  | none => rw [draftWriteReply_unknown _ _ he] at h; cases h
  | some e =>
    rw [draftWriteReply_known _ _ he] at h
    split at h
    · cases h
    · split at h
      · cases h
      · cases h
        exact Moves.setPub t (pubKept_writeDraft _ _) fun hc x hx => pubCounts_writeDraft _ _ (hc x hx)

theorem Course.commitReply {t : Word} {crc : Byte} {u : State} {results : List Byte}
    (h : commitReply t s = .ok (u, results)) : Course (.commit t crc) s u := by
  cases he : s.pub t with
  | none => rw [commitReply_unknown he] at h; cases h
  | some e =>
    rw [commitReply_known he] at h
    split at h
    · cases h
    · next hg =>
      split at h
      · cases h
      · split at h
        · cases h
        · next hf =>
          cases h
          exact .commit (.inl ⟨t, crc, rfl⟩) (.one _ he (by simpa using hg) (by simpa using hf)) (Moves.requestValue t)

theorem Course.groupCommitReply {number crc : Byte} {u : State} {results : List Byte}
    (h : groupCommitReply number s = .ok (u, results)) : Course (.groupCommit number crc) s u := by
  by_cases hr : number.toNat < 1 ∨ 8 < number.toNat
  · rw [groupCommitReply_range s hr] at h; cases h
  · cases hm : s.producerMembers number.toNat with
    | nil => rw [groupCommitReply_unknown (by omega) (by omega) hm] at h; cases h
    | cons e es =>
      rw [groupCommitReply_known (by omega) (by omega) hm] at h
      split at h
      · cases h
      · split at h
        · cases h
        · next hf =>
          cases h
          refine .commit (.inr ⟨number, crc, rfl⟩) (.group (hm ▸ List.mem_cons_self ..) fun m hmem => ?_)
            (Moves.requestValues _)
          exact Bool.eq_false_iff.2 fun hp => hf ⟨m, hmem, hp⟩

theorem groupIndexReply_ok {index : Byte} {act : GroupRecord → Reply} {p : State × List Byte}
    (h : groupIndexReply index s act = .ok p) : ∃ r, s.grp index.toNat = some r ∧ act r = .ok p := by
  unfold groupIndexReply at h
  split at h
  · cases h
  · split at h
    · cases h
    · next r hr => exact ⟨r, hr, h⟩

theorem Course.holdReply {c : Instr} {index : Byte} {u : State} {results : List Byte}
    (h : holdReply index s = .ok (u, results)) : Course c s u := by
  obtain ⟨r, hr, h⟩ := groupIndexReply_ok h
  split at h
  · cases h
  · next hh =>
    cases h
    exact .hold hr (by simpa using hh) .refl

theorem Moves.releaseReply {index : Byte} {u : State} {results : List Byte}
    (h : releaseReply index s = .ok (u, results)) : Moves s u := by
  obtain ⟨r, -, h⟩ := groupIndexReply_ok h
  split at h
  · cases h
    exact Moves.releaseGroup
  · cases h

theorem Moves.noticeReply {n : Byte} {u : State} {results : List Byte} (h : noticeReply n s = .ok (u, results)) :
    Moves s u := by
  unfold Machine.noticeReply at h
  split at h
  · cases h
  · cases h
    exact .single (.drain _)

theorem Moves.countersReply {clear : Byte} {u : State} {results : List Byte}
    (h : countersReply clear s = .ok (u, results)) : Moves s u := by
  unfold Machine.countersReply at h
  split at h
  · cases h; exact .refl
  · split at h
    · cases h
      exact .single (.counters fun _ _ => by unfold CountersInRange resetCounters; decide)
    · cases h

/-! Host commands that read. -/

theorem valueReadReply_same {t : Word} {u : State} {results : List Byte} (h : valueReadReply t s = .ok (u, results)) :
    u = s := by
  unfold valueReadReply at h
  split at h <;> cases h <;> rfl

theorem tagStatusReply_same {t : Word} {u : State} {results : List Byte} (h : tagStatusReply t s = .ok (u, results)) :
    u = s := by
  unfold tagStatusReply at h
  split at h <;> cases h <;> rfl

theorem groupStatusReply_same {index : Byte} {u : State} {results : List Byte}
    (h : groupStatusReply index s = .ok (u, results)) : u = s := by
  obtain ⟨r, -, h⟩ := groupIndexReply_ok h
  cases h; rfl

theorem rosterReply_same {n : Byte} {u : State} {results : List Byte} (h : rosterReply n s = .ok (u, results)) :
    u = s := by
  unfold rosterReply at h
  split at h
  · cases h
  · split at h <;> cases h; rfl

theorem queueReply_same {p : Byte} {u : State} {results : List Byte} (h : queueReply p s = .ok (u, results)) :
    u = s := by
  unfold queueReply at h
  split at h
  · cases h
  · split at h <;> cases h; rfl

/-! Pins, timers and the ends of a validation. -/

theorem gate_seal_none {st : StationState} (h : gate .seal st = none) : st = .unconfigured := by
  cases st <;> simp_all [gate]

theorem gate_start_none {st : StationState} (h : gate .start st = none) : st = .halted := by
  cases st <;> simp_all [gate]

theorem gate_stop_none {st : StationState} (h : gate .stop st = none) :
    st = .listen ∨ st = .announce ∨ st = .active := by
  cases st <;> simp_all [gate]

theorem validating_of_runs (h : s.validationRuns = true) : s.sc.state = .validating := by
  simp only [State.validationRuns, Bool.and_eq_true, decide_eq_true_eq] at h
  exact h.1

theorem Course.chipSelectRise {t : State} (h : execChipSelectRise s = .next t) : Course .chipSelectRise s t := by
  refine .of_next h (.either (fun _ => .moves .refl) fun _ => .either (fun _ => ?_) fun _ => ?_)
  · exact .reset _ _
  · exact .moves (.single (.port _))

theorem Course.validationPassed {t : State} (h : execValidationPassed s = .next t) : Course .validationPassed s t := by
  refine .of_next h (.either (fun hp => ?_) fun _ => .moves .refl)
  exact .loaded rfl (validating_of_runs hp.1) hp.2 (Moves.after (Moves.emitStation 2) (Moves.emit _ _ _))

theorem Moves.validationFailed (validating : s.sc.state = .validating) (a b : Word) :
    Moves s (({ s with sc := { s.sc with state := .unconfigured, pendingEpoch := none } }).emit .sealResult a b) :=
  Moves.after (Moves.emit _ _ _) (.single (.control (.unsealed validating) rfl rfl id))

theorem Course.bidReadbackMismatch {c : Instr} {bid : Word} {levels : List Bool} {t : State}
    (h : execBidReadbackMismatch bid levels s = .next t) : Course c s t := by
  refine .of_next h (.either (fun hf => ?_) fun _ => .either (fun hm => ?_) fun _ => .moves .refl)
  · exact .takeMismatch (by rw [hf]; decide) .refl
  · have hs : s.la.lineState ≠ .sending := by
      have := hm.1
      simp only [mismatchPossible, Bool.or_eq_true, Bool.and_eq_true, decide_eq_true_eq] at this
      rcases this with h | h
      · rw [h.1]; decide
      · rw [h.1.2]; decide
    exact .either (fun _ => .bidBroken hs (Moves.closeFrame _ _)) fun _ => .bidBroken hs (Moves.awaitBody _)

theorem Course.lineFaultCleared {c : Instr} {t : State} (h : execLineFaultCleared s = .next t) : Course c s t := by
  refine .of_next h (.either (fun hf => ?_) fun _ => .moves .refl)
  exact .takeMismatch (by rw [hf]; decide) (Moves.after (Moves.emit _ _ _)
    (Moves.quietLine rfl (.inl rfl) (not_driving_of (by simp) (by simp))))

theorem Course.periodTimerExpiry {c : Instr} {tag : Word} {t : State} (h : execPeriodTimerExpiry tag s = .next t) :
    Course c s t := by
  unfold execPeriodTimerExpiry at h
  split at h
  · next e he => exact .of_next h (.guarded fun _ => Moves.periodExpiry he)
  · exact .of_next h (.moves .refl)

theorem Course.freshnessTimerExpiry {c : Instr} {tag : Word} {t : State}
    (h : execFreshnessTimerExpiry tag s = .next t) : Course c s t := by
  unfold execFreshnessTimerExpiry at h
  split at h
  · exact .of_next h (.guarded fun _ => Moves.goStale _ _)
  · exact .of_next h (.moves .refl)

theorem Course.assemblyTimerExpiry {c : Instr} {k : Nat} {t : State} (h : execAssemblyTimerExpiry k s = .next t) :
    Course c s t := by
  unfold execAssemblyTimerExpiry at h
  split at h
  · split at h
    · exact .of_next h (.guarded fun _ => Moves.assemblyExpiry _ _ _)
    · exact .of_next h (.moves .refl)
  · exact .of_next h (.moves .refl)

theorem Course.silenceTimerExpiry {c : Instr} {n : Nat} {t : State} (h : execSilenceTimerExpiry n s = .next t) :
    Course c s t := by
  unfold execSilenceTimerExpiry at h
  split at h
  · next p hp => exact .of_next h (.guarded fun hd => Moves.silence hp hd.1 _ _)
  · exact .of_next h (.moves .refl)

theorem Course.goodSendEnd {c : Instr} {t : State} (h : execGoodSendEnd s = .next t) : Course c s t := by
  refine .of_next h ?_
  split
  · exact .guarded fun _ => Moves.goodSend _
  · exact .moves .refl

theorem Course.badSendEnd {c : Instr} {bit : Nat} {t : State} (h : execBadSendEnd bit s = .next t) : Course c s t := by
  refine .of_next h ?_
  split
  · exact .either (fun _ => .badSend _ _) fun _ => .moves .refl
  · exact .moves .refl

end Courses

/-- What every command can do, in every state. -/
theorem exec_course {c : Instr} {s t : State} (h : exec c s = .next t) : Course c s t := by
  cases c with
  | statusRead => exact .of_next h (.read fun _ _ h => by cases h; rfl)
  | imageWrite => exact .of_next h (.take fun _ _ _ h => .moves (Moves.imageWriteReply h))
  | start => exact .of_next h (.take fun _ _ hg h => .moves (Moves.startReply (gate_start_none hg) h))
  | stop => exact .of_next h (.take fun _ _ hg h => .moves (Moves.stopReply (gate_stop_none hg) h))
  | reset => exact .of_next h (.take fun _ _ _ h => by cases h; exact .moves (.single (.port _)))
  | draftWrite => exact .of_next h (.take fun _ _ _ h => .moves (Moves.draftWriteReply h))
  | commit => exact .of_next h (.take fun _ _ _ h => Course.commitReply h)
  | groupCommit => exact .of_next h (.take fun _ _ _ h => Course.groupCommitReply h)
  | valueRead => exact .of_next h (.read fun _ _ h => valueReadReply_same h)
  | tagStatusRead => exact .of_next h (.read fun _ _ h => tagStatusReply_same h)
  | groupHold => exact .of_next h (.take fun _ _ _ h => Course.holdReply h)
  | groupRelease => exact .of_next h (.take fun _ _ _ h => .moves (Moves.releaseReply h))
  | groupStatusRead => exact .of_next h (.read fun _ _ h => groupStatusReply_same h)
  | rosterRead => exact .of_next h (.read fun _ _ h => rosterReply_same h)
  | sendQueueRead => exact .of_next h (.read fun _ _ h => queueReply_same h)
  | noticeRead => exact .of_next h (.take fun _ _ _ h => .moves (Moves.noticeReply h))
  | countersRead => exact .of_next h (.take fun _ _ _ h => .moves (Moves.countersReply h))
  | unknownCommandCode => exact .of_next h (.guarded fun _ => .single (.port _))
  | chipSelectRise => exact Course.chipSelectRise h
  | resetPinAsserted => exact .of_next h (.reset _ _)
  | resetPinReleased => exact .of_next h (.either (fun _ => .reset _ _) fun _ => .moves .refl)
  | powerUp => exact .of_next h (.reset _ _)
  | validationPassed => exact Course.validationPassed h
  | validationFailed =>
    exact .of_next h (.guarded fun hp => Moves.validationFailed (validating_of_runs hp.1) _ _)
  | stationClockTick => exact .of_next h (.either (fun _ => .moves .refl) fun _ => .moves Moves.tick)
  | listenTimerExpiry => exact .of_next h (.guarded fun hp => Moves.announce hp.1)
  | firstClaimWindowExpiry => exact .of_next h (.guarded fun hp => Moves.endFirstWindow hp.1)
  | secondClaimWindowExpiry => exact .of_next h (.guarded fun hp => Moves.winClaims_becomeActive hp.1)
  | periodTimerExpiry => exact Course.periodTimerExpiry h
  | presenceTimerExpiry =>
    exact .of_next h
      (.guarded fun _ => Moves.after (Moves.request _ (by intro t ht; cases ht)) (Moves.timers rfl rfl rfl rfl))
  | freshnessTimerExpiry => exact Course.freshnessTimerExpiry h
  | assemblyTimerExpiry => exact Course.assemblyTimerExpiry h
  | silenceTimerExpiry => exact Course.silenceTimerExpiry h
  | synchronised =>
    exact .of_next h
      (.guarded fun hp => Moves.quietLine rfl (.inl rfl) (not_driving_of (by simp [hp.2.2]) (by simp [hp.2.2])))
  | lineFaultDeclared => exact .of_next h (.guarded fun _ => Moves.declareFault)
  | lineFaultCleared => exact Course.lineFaultCleared h
  | roundOpen => exact .of_next h (.guarded fun hp => Moves.openRound hp.2 _)
  | bidReadbackMismatch => exact Course.bidReadbackMismatch h
  | roundDecided => exact .of_next h (.guarded fun hp => Moves.decideRound hp _)
  | goodSendEnd => exact Course.goodSendEnd h
  | badSendEnd => exact Course.badSendEnd h
  | badFrameReceived => exact .of_next h (.endFrame fun _ _ _ hh => Moves.receiveBits hh _ _ _)
  | malformedFrameReceived => exact .of_next h (.endFrame fun _ _ _ hh => Moves.receivePayload hh _ _ _)
  | valueFrameReceived => exact .of_next h (.hearFrame _ _)
  | claimFrameReceived => exact .of_next h (.hearFrame _ _)
  | defendFrameReceived => exact .of_next h (.hearFrame _ _)
  | presenceFrameReceived => exact .of_next h (.hearFrame _ _)
  | resendFrameReceived => exact .of_next h (.hearFrame _ _)
  | chipSelectFall => exact .of_next h (.guarded fun _ => .single (.port _))
  -- SEAL remains: the name of its constructor is a keyword of Lean.
  | _ => exact .of_next h (.take fun _ _ hg h => .moves (Moves.sealReply (gate_seal_none hg) h))

end Sys2Proof.Machine
end

section
/-! SUPPORT. The invariants, each by one case analysis of the moves. -/

namespace Sys2Proof.Machine

/-- What every move keeps, every run keeps. -/
theorem Moves.keeps {P : State → Prop} (move : ∀ {s t : State}, Move s t → P s → P t) {s t : State} (run : Moves s t)
    (hs : P s) : P t := by
  induction run with
  | refl => exact hs
  | tail _ last ih => exact move last ih

/-- The eighth bad send end is a run of moves. -/
theorem Moves.limited {v : State} (quiet : ¬Driving v.la) : Moves v (limited v) :=
  .either (.enterMute 6 quiet) .refl

/-- The station right after a reset, with what lies outside it (R138). -/
def resetWith (pin : Bool) (hp : HostPort) (pending : List Instr) : State :=
  { State.reset with sc := { State.reset.sc with resetPin := pin }, hp := hp, pending := pending }

/-- What the moves, a counted mismatch, a reset, the load of an image, a commit and a hold keep, every command keeps. -/
theorem Course.keeps {P : State → Prop} (move : ∀ {s t : State}, Move s t → P s → P t)
    (mismatch : ∀ {s : State}, P s → P (broken s)) (reset : ∀ pin hp pending, P (resetWith pin hp pending))
    (load : ∀ {s : State}, s.sc.state = .validating → (validate s.sc.image).1 = 0 → P s → P s.loadImage)
    (commit : ∀ {s t : State}, Commits s t → P s → P t)
    (hold : ∀ {s : State} (k : Nat), P s → P (s.setGrp k (fun x => { x with held := true })))
    {c : Instr} {s t : State} (course : Course c s t) (hs : P s) : P t := by
  cases course with
  | moves run => exact run.keeps move hs
  | failed before sent quiet rest =>
    exact Moves.keeps move rest (Moves.keeps move (Moves.limited quiet)
      (Moves.keeps move sent (mismatch (Moves.keeps move before hs))))
  | reset pin hp => exact reset pin hp _
  | loaded _ validating passed rest => exact Moves.keeps move rest (load validating passed hs)
  | commit _ commits rest => exact Moves.keeps move rest (commit commits hs)
  | hold _ _ rest => exact Moves.keeps move rest (hold _ hs)

/-- A request is not taken, or dropped and counted, or joins a subject that has no entry (R57 to R59). -/
theorem request_cases (subj : Subject) (s : State) :
    s.request subj = s ∨
      s.request subj = s.count (fun c => { c with resendDropped := satInc Config.count32 c.resendDropped }) ∨
      (s.takesRequests = true ∧ hasEntry s.sq subj = false ∧ (isResend subj = true → resendEntries s.sq < 8) ∧
        s.request subj = { s with sq := joinQueue subj (s.classOf subj) s.sq }) := by
  unfold State.request
  split
  · exact .inl rfl
  · next ht =>
    split
    · exact .inl rfl
    · next he =>
      split
      · exact .inr (.inl rfl)
      · next hr =>
        refine .inr (.inr ⟨by simpa using ht, by simpa using he, fun h => ?_, rfl⟩)
        exact Nat.lt_of_not_le fun h8 => hr (by rw [h]; exact decide_eq_true h8)

/-- A request changes the send queue and the line counters alone. -/
theorem request_frame (subj : Subject) (s : State) :
    ∃ q c, s.request subj = { s with sq := q, la := { s.la with counters := c } } := by
  rcases request_cases subj s with h | h | ⟨-, -, -, h⟩
  · exact ⟨s.sq, s.la.counters, h⟩
  · exact ⟨s.sq, _, h⟩
  · exact ⟨_, s.la.counters, h⟩

/-! The image memory (R148, R149). -/

theorem Move.memory {s t : State} (h : Move s t) (hs : Memory.wf s.sc.image = true) : Memory.wf t.sc.image = true := by
  cases h with
  | control _ _ _ image => exact image hs
  | request subj _ => obtain ⟨q, c, h⟩ := request_frame subj s; rw [h]; exact hs
  | _ => exact hs

theorem Commits.sc {s t : State} (h : Commits s t) : t.sc = s.sc := by cases h <;> rfl

/-- Settles O49: the image is changed by IMAGE WRITE alone, whose run lies inside the buffer. -/
theorem memoryStaysCanonical : Obligations.MemoryStaysCanonical := by
  intro c s t hs h
  refine Course.keeps (P := fun s => Memory.wf s.sc.image = true) Move.memory (fun h => h) (fun _ _ _ => reset_image.1)
    (fun _ _ h => h) (fun hc h => ?_) (fun _ h => h) (exec_course h) hs
  rw [hc.sc]; exact h

/-! Notices (R163, R166, R167). -/

/-- `NoticesSafe` of a queue. -/
def QueueSafe (q : NoticeQueue) : Prop :=
  q.notices.length ≤ 32 ∧
    q.notices.Pairwise (fun a b =>
      ¬(a.kind = b.kind ∧ a.subject = b.subject ∧ (a.kind = .tagUpdated ∨ a.kind = .groupUpdated))) ∧
    q.lost ≤ 65535 ∧ (q.lost ≠ 0 → q.notices.length = 32)

theorem QueueSafe.postNotice {q : NoticeQueue} (h : QueueSafe q) (clock : Clock) (k : NoticeKind)
    (subject detail : Word) :
    QueueSafe (postNotice clock k subject detail q) := by
  obtain ⟨hlen, hpair, hlost, hfull⟩ := h
  by_cases hq : (k = .tagUpdated ∨ k = .groupUpdated) ∧ ∃ n ∈ q.notices, n.kind = k ∧ n.subject = subject
  · rw [postNotice_coalesced clock detail hq.1 hq.2]
    refine ⟨by simpa using hlen, ?_, hlost, fun hl => by simpa using hfull hl⟩
    have same (n : Notice) :
        (if n.kind = k ∧ n.subject = subject then { n with detail := detail } else n).kind = n.kind ∧
          (if n.kind = k ∧ n.subject = subject then { n with detail := detail } else n).subject = n.subject := by
      split <;> exact ⟨rfl, rfl⟩
    rw [List.pairwise_map]
    refine hpair.imp fun {a b} hab => ?_
    rwa [(same a).1, (same a).2, (same b).1, (same b).2]
  · by_cases hroom : q.notices.length < 32
    · rw [postNotice_appended clock detail hq hroom]
      refine ⟨by simp only [List.length_append, List.length_singleton]; omega, ?_, hlost, fun hl => ?_⟩
      · refine List.pairwise_append.2 ⟨hpair, List.pairwise_singleton .., fun a ha b hb hab => ?_⟩
        obtain rfl := List.mem_singleton.1 hb
        have hk : a.kind = k := hab.1
        exact hq ⟨hk ▸ hab.2.2, a, ha, hk, hab.2.1⟩
      · exact absurd (hfull hl) (by omega)
    · rw [postNotice_lost clock detail hq (by omega)]
      exact ⟨hlen, hpair, satInc_le hlost, fun _ => Nat.le_antisymm hlen (Nat.le_of_not_lt hroom)⟩

theorem QueueSafe.posted {s : State} (h : QueueSafe s.nq) (l : List (NoticeKind × Word × Word)) :
    QueueSafe (posted s l) := by
  induction l generalizing s with
  | nil => exact h
  | cons n rest ih =>
    rw [show n :: rest = [n] ++ rest from rfl, posted_append]
    refine ih (s := { s with nq := _ }) ?_
    show QueueSafe (if admits s.nq.mask n.1 then Machine.postNotice s.sc.clock n.1 n.2.1 n.2.2 s.nq else s.nq)
    split
    · exact h.postNotice _ _ _ _
    · exact h

theorem QueueSafe.drain {q : NoticeQueue} (h : QueueSafe q) (clock : Clock) (n : Nat) :
    QueueSafe (drainNotices clock n q) := by
  obtain ⟨hlen, hpair, hlost, hfull⟩ := h
  unfold drainNotices
  dsimp only
  split
  · refine ⟨by simp only [List.length_append, List.length_drop, List.length_singleton]; omega, ?_, Nat.zero_le _,
      fun hl => absurd rfl hl⟩
    refine List.pairwise_append.2 ⟨hpair.sublist (List.drop_sublist ..), List.pairwise_singleton ..,
      fun a _ b hb hab => ?_⟩
    obtain rfl := List.mem_singleton.1 hb
    simp [hab.1] at hab
  · refine ⟨by simp only [List.length_drop]; omega, hpair.sublist (List.drop_sublist ..), hlost, fun hl => ?_⟩
    have hl : q.lost ≠ 0 := hl
    have := hfull hl
    simp only [List.length_drop]
    omega

theorem Move.noticesSafe {s t : State} (h : Move s t) (hs : QueueSafe s.nq) : QueueSafe t.nq := by
  cases h with
  | notices l => exact hs.posted l
  | drain n => exact hs.drain _ n
  | request subj _ => obtain ⟨q, c, h⟩ := request_frame subj s; rw [h]; exact hs
  | _ => exact hs

/-- Settles O51: notices are posted and drained, and nothing else touches the notice queue but the new mask of an
image. -/
theorem noticeQueueStaysSafe : Obligations.NoticeQueueStaysSafe := by
  intro c s t hs h
  refine Course.keeps (P := fun s => QueueSafe s.nq) Move.noticesSafe (fun h => h) (fun _ _ _ => ?_) (fun _ _ h => h)
    (fun hc h => ?_) (fun _ h => h) (exec_course h) hs
  · exact ⟨Nat.zero_le _, List.Pairwise.nil, Nat.zero_le _, fun h => absurd rfl h⟩
  · cases hc <;> exact h

/-! The order of the send queue (R56, R60, R61). -/

theorem QueueOrdered.joinQueue {s : State} (h : QueueOrdered s) (subj : Subject) (cls : Nat) :
    QueueOrdered { s with sq := joinQueue subj cls s.sq } := by
  obtain ⟨hpair, hjoins, hages⟩ := h
  have hjoin : ∀ x ∈ s.sq.entries, x.join ≠ s.sq.nextJoin := fun x hx => Nat.ne_of_lt (hages x hx).2
  refine ⟨ordered_insertEntry hpair hjoin, ?_, fun e he => ?_⟩
  · refine ((joinQueue_perm subj cls s.sq).1.map QueueEntry.join).nodup_iff.2 (List.nodup_cons.2 ⟨?_, hjoins⟩)
    intro hmem
    obtain ⟨x, hx, hxj⟩ := List.mem_map.1 hmem
    exact hjoin x hx hxj
  · have hnext : (Machine.joinQueue subj cls s.sq).nextJoin = s.sq.nextJoin + 1 := rfl
    rcases mem_insertEntry.1 he with rfl | he
    · exact ⟨Nat.zero_le _, by rw [hnext]; exact Nat.lt_succ_self _⟩
    · exact ⟨(hages e he).1, by rw [hnext]; exact Nat.lt_succ_of_lt (hages e he).2⟩

theorem QueueOrdered.sublist {s : State} (h : QueueOrdered s) {l : List QueueEntry} (hl : l.Sublist s.sq.entries) :
    QueueOrdered { s with sq := { s.sq with entries := l } } :=
  ⟨h.1.sublist hl, h.2.1.sublist (hl.map _), fun e he => h.2.2 e (hl.subset he)⟩

theorem QueueOrdered.mark {s : State} (h : QueueOrdered s) {f : QueueEntry → QueueEntry}
    (kept : ∀ e, (f e).cls = e.cls ∧ (f e).age = e.age ∧ (f e).join = e.join) :
    QueueOrdered { s with sq := { s.sq with entries := s.sq.entries.map f } } := by
  obtain ⟨hpair, hjoins, hages⟩ := h
  refine ⟨List.pairwise_map.2 (hpair.imp fun {a b} hab => ?_), ?_, fun e he => ?_⟩
  · obtain ⟨ca, aa, ja⟩ := kept a
    obtain ⟨cb, ab, jb⟩ := kept b
    rwa [ca, aa, ja, cb, ab, jb]
  · rw [List.map_map, show QueueEntry.join ∘ f = QueueEntry.join from funext fun e => (kept e).2.2]
    exact hjoins
  · obtain ⟨x, hx, rfl⟩ := List.mem_map.1 he
    obtain ⟨-, ha, hj⟩ := kept x
    rw [ha, hj]
    exact hages x hx

theorem QueueOrdered.age {s : State} (h : QueueOrdered s) (noted : List Nat) :
    QueueOrdered { s with sq := ageQueue noted s.sq } := by
  obtain ⟨-, hjoins, hages⟩ := h
  have hj : ((s.sq.entries.map (ageEntry noted)).map QueueEntry.join).Nodup := by
    rw [List.map_map,
      show QueueEntry.join ∘ ageEntry noted = QueueEntry.join from funext fun e => ageEntry_join noted e]
    exact hjoins
  refine ⟨ordered_sortEntries hj, ((sortEntries_perm _).map _).nodup_iff.2 hj, fun e he => ?_⟩
  obtain ⟨x, hx, rfl⟩ := List.mem_map.1 (mem_sortEntries.1 he)
  exact ⟨ageEntry_age (hages x hx).1, by rw [ageEntry_join]; exact (hages x hx).2⟩

theorem Move.queueOrdered {s t : State} (h : Move s t) (hs : QueueOrdered s) : QueueOrdered t := by
  cases h with
  | request subj _ =>
    rcases request_cases subj s with h | h | ⟨-, -, -, h⟩
    · rw [h]; exact hs
    · rw [h]; exact hs
    · rw [h]; exact hs.joinQueue _ _
  | sift p => exact hs.sublist List.filter_sublist
  | mark kept => exact hs.mark fun e => (kept e).2
  | age noted => exact hs.age noted
  | _ => exact hs

/-- Settles O52: requests join in order, aging sorts again, and every other change of the queue keeps its order. -/
theorem sendQueueStaysOrdered : Obligations.SendQueueStaysOrdered := by
  intro c s t hs h
  refine Course.keeps Move.queueOrdered (fun h => h) (fun _ _ _ => ?_) (fun _ _ h => h)
    (fun hc h => ?_) (fun _ h => h) (exec_course h) hs
  · exact ⟨List.Pairwise.nil, List.Pairwise.nil, fun _ he => absurd he List.not_mem_nil⟩
  · cases hc <;> exact h

end Sys2Proof.Machine
end

section
/-! SUPPORT. The bounds of the send queue, the claims and the publications. -/

namespace Sys2Proof.Machine

/-! The publication table under the moves. -/

/-- What every move leaves of a publication entry (R19). -/
structure PubLike (e e' : PubEntry) : Prop where
  tag : e'.tag = e.tag
  group : e'.group = e.group
  committed : e'.committed = e.committed
  agrees : EntryAgrees e → EntryAgrees e'

theorem PubLike.refl (e : PubEntry) : PubLike e e := ⟨rfl, rfl, rfl, id⟩

/-- A change of the claim and the period timer alone. -/
theorem PubLike.claimed (e : PubEntry) (c : ClaimState) (p : Option Nat) :
    PubLike e { e with claim := c, periodTimer := p } := ⟨rfl, rfl, rfl, id⟩

/-- Every move leaves the publication table but for claims, timers, counts and buffers that agree. -/
theorem Move.pt_eq {s t : State} (h : Move s t) : ∃ f, t.pt = s.pt.map f ∧ ∀ e, PubLike e (f e) := by
  cases h with
  | pubs kept _ => exact ⟨_, rfl, fun e => ⟨(kept e).tag, (kept e).group, (kept e).committed, (kept e).agrees⟩⟩
  | yields t _ =>
    refine ⟨_, rfl, fun e => ?_⟩
    split
    · exact .claimed e .yielded none
    · exact .refl e
  | claimAll _ => exact ⟨_, rfl, fun e => .claimed e .claiming e.periodTimer⟩
  | win _ =>
    refine ⟨_, rfl, fun e => ?_⟩
    split
    · exact .claimed e .owned e.periodTimer
    · exact .refl e
  | unclaim _ _ _ => exact ⟨_, rfl, fun e => .claimed e .unclaimed none⟩
  | request subj _ =>
    obtain ⟨q, c, h⟩ := request_frame subj s
    rw [h]
    exact ⟨id, (List.map_id _).symm, .refl⟩
  | _ => exact ⟨id, (List.map_id _).symm, .refl⟩

theorem map_tags {f : PubEntry → PubEntry} (h : ∀ e, (f e).tag = e.tag) (l : List PubEntry) :
    (l.map f).map PubEntry.tag = l.map PubEntry.tag := by
  rw [List.map_map, show PubEntry.tag ∘ f = PubEntry.tag from funext h]

theorem Move.tags {s t : State} (h : Move s t) : t.pt.map PubEntry.tag = s.pt.map PubEntry.tag := by
  obtain ⟨f, hf, like⟩ := h.pt_eq
  rw [hf, map_tags fun e => (like e).tag]

/-- What a commit leaves of every publication entry. -/
theorem Commits.pt_eq {s t : State} (h : Commits s t) :
    ∃ f : PubEntry → PubEntry, t.pt = s.pt.map f ∧
      ∀ e, (f e).tag = e.tag ∧ (f e).claim = e.claim ∧ (PubCounts e → PubCounts (f e)) := by
  have entry (g : Word) (flying : Bool) (e : PubEntry) :
      (commitEntry g flying e).tag = e.tag ∧ (commitEntry g flying e).claim = e.claim ∧
        (PubCounts e → PubCounts (commitEntry g flying e)) := by
    refine ⟨(commitEntry_frame g flying e).1, (commitEntry_frame g flying e).2.2, fun h => ?_⟩
    obtain ⟨h1, h2, h3⟩ := h
    cases flying <;> cases hl : e.live <;>
      simp [PubCounts, commitEntry, makeFlip, setDraft, otherSide, hl, h1, h2, h3]
  cases h with
  | one _ _ _ _ =>
    refine ⟨_, rfl, fun e => ?_⟩
    split
    · exact entry _ _ e
    · exact ⟨rfl, rfl, id⟩
  | group _ _ =>
    refine ⟨_, rfl, fun e => ?_⟩
    split
    · exact entry _ _ e
    · exact ⟨rfl, rfl, id⟩

theorem Commits.tags {s t : State} (h : Commits s t) : t.pt.map PubEntry.tag = s.pt.map PubEntry.tag := by
  obtain ⟨f, hf, like⟩ := h.pt_eq
  rw [hf, map_tags fun e => (like e).1]

/-! The bounds of the send queue (R58, R59, R71). -/

/-- `QueueBounded` of a queue's entries, the tags published and the station state. -/
structure Bounded (entries : List QueueEntry) (tags : List Word) (st : StationState) : Prop where
  subjects : (entries.map QueueEntry.subject).Nodup
  resends : (entries.filter (fun e => isResend e.subject)).length ≤ 8
  values : ∀ e ∈ entries, ∀ t, e.subject = .value t → t ∈ tags
  table : tags.length ≤ 32
  unsealed : st = .unconfigured ∨ st = .validating → entries = []

theorem queueBounded_iff (s : State) :
    QueueBounded s ↔ Bounded s.sq.entries (s.pt.map PubEntry.tag) s.sc.state := by
  constructor
  · rintro ⟨h1, h2, h3, h4, h5⟩
    exact ⟨h1, h2, fun e he t ht => List.mem_map.2 (h3 e he t ht), by rwa [List.length_map], h5⟩
  · rintro ⟨h1, h2, h3, h4, h5⟩
    exact ⟨h1, h2, fun e he t ht => List.mem_map.1 (h3 e he t ht), by rwa [List.length_map] at h4, h5⟩

section Bounds
variable {entries : List QueueEntry} {tags : List Word} {st : StationState}

theorem Bounded.sublist (h : Bounded entries tags st) {l : List QueueEntry} (hl : l.Sublist entries) :
    Bounded l tags st :=
  ⟨h.subjects.sublist (hl.map _), (hl.filter _).length_le.trans h.resends, fun e he => h.values e (hl.subset he),
    h.table, fun hs => List.sublist_nil.1 (h.unsealed hs ▸ hl)⟩

/-- Entries rearranged, with changes that leave their subjects. -/
theorem Bounded.perm (h : Bounded entries tags st) {l : List QueueEntry} {f : QueueEntry → QueueEntry}
    (hf : ∀ e, (f e).subject = e.subject) (hl : l.Perm (entries.map f)) : Bounded l tags st := by
  have subjects : (entries.map f).map QueueEntry.subject = entries.map QueueEntry.subject := by
    rw [List.map_map, show QueueEntry.subject ∘ f = QueueEntry.subject from funext hf]
  refine ⟨(hl.map _).nodup_iff.2 (subjects ▸ h.subjects), ?_, fun e he t ht => ?_, h.table, fun hs => ?_⟩
  · rw [(hl.filter _).length_eq, List.filter_map, List.length_map,
      show (fun e => isResend e.subject) ∘ f = fun e => isResend e.subject from
        funext fun e => congrArg isResend (hf e)]
    exact h.resends
  · obtain ⟨x, hx, rfl⟩ := List.mem_map.1 (hl.subset he)
    exact h.values x hx t (hf x ▸ ht)
  · rw [h.unsealed hs] at hl
    exact hl.eq_nil

theorem Bounded.insert (h : Bounded entries tags st) {e : QueueEntry} (new : ∀ x ∈ entries, x.subject ≠ e.subject)
    (room : isResend e.subject = true → (entries.filter (fun e => isResend e.subject)).length < 8)
    (known : ∀ t, e.subject = .value t → t ∈ tags) (open_ : st = .announce ∨ st = .active) :
    Bounded (insertEntry e entries) tags st := by
  have hp := insertEntry_perm e entries
  refine ⟨(hp.map _).nodup_iff.2 (List.nodup_cons.2 ⟨fun hm => ?_, h.subjects⟩), ?_, fun x hx t ht => ?_, h.table,
    fun hs => ?_⟩
  · obtain ⟨x, hx, hxe⟩ := List.mem_map.1 hm
    exact new x hx hxe
  · rw [(hp.filter _).length_eq, List.filter_cons]
    split
    · next hr => exact room hr
    · exact h.resends
  · rcases mem_insertEntry.1 hx with rfl | hx
    · exact known t ht
    · exact h.values x hx t ht
  · rcases open_ with rfl | rfl <;> simp at hs

/-- The station state changed where the queue stays empty before a passing seal. -/
theorem Bounded.state (h : Bounded entries tags st) {st' : StationState}
    (hs : st' = .unconfigured ∨ st' = .validating → st = .unconfigured ∨ st = .validating) : Bounded entries tags st' :=
  ⟨h.subjects, h.resends, h.values, h.table, fun h' => h.unsealed (hs h')⟩

end Bounds

theorem StationStep.before_seal {s : State} {st : StationState} (h : StationStep s st)
    (hs : st = .unconfigured ∨ st = .validating) : s.sc.state = .unconfigured ∨ s.sc.state = .validating := by
  cases h with
  | stay => exact hs
  | sealed h => exact .inl h
  | unsealed h => exact .inr h
  | _ => simp at hs

theorem Bounded.request {s : State} (h : Bounded s.sq.entries (s.pt.map PubEntry.tag) s.sc.state) {subj : Subject}
    (known : ∀ t, subj = .value t → (s.pub t).isSome = true) :
    Bounded (s.request subj).sq.entries ((s.request subj).pt.map PubEntry.tag) (s.request subj).sc.state := by
  rcases request_cases subj s with hr | hr | ⟨htakes, hnew, hroom, hr⟩
  · rw [hr]; exact h
  · rw [hr]; exact h
  · rw [hr]
    refine h.insert (fun x hx hs => ?_) hroom (fun t ht => ?_) (by simpa [State.takesRequests] using htakes)
    · have : hasEntry s.sq subj = true := List.any_eq_true.2 ⟨x, hx, by simpa using hs⟩
      rw [hnew] at this
      cases this
    · obtain ⟨e, he⟩ := Option.isSome_iff_exists.1 (known t ht)
      obtain ⟨hm, rfl⟩ := lookupKey_some he
      exact List.mem_map_of_mem hm

theorem Move.bounded {s t : State} (h : Move s t) (hs : Bounded s.sq.entries (s.pt.map PubEntry.tag) s.sc.state) :
    Bounded t.sq.entries (t.pt.map PubEntry.tag) t.sc.state := by
  have tags : t.pt.map PubEntry.tag = s.pt.map PubEntry.tag := h.tags
  rw [tags]
  cases h with
  | control station _ _ _ => exact hs.state station.before_seal
  | activate _ _ => exact hs.state (by simp)
  | win _ => exact hs.state (by simp)
  | unclaim _ _ ends =>
    refine hs.state fun h => ?_
    rcases ends with ⟨rfl, -⟩ | ⟨rfl, -⟩ <;> simp at h
  | request subj known => exact tags ▸ hs.request known
  | sift p => exact hs.sublist List.filter_sublist
  | mark kept => exact hs.perm (fun e => (kept e).1) (.refl _)
  | age noted => exact hs.perm (ageEntry_subject noted) (sortEntries_perm _)
  | _ => exact hs

/-! What a passing validation says (R153). -/

theorem firstBad_none {n : Nat} {ok : Nat → Bool} (h : firstBad n ok = none) : ∀ i < n, ok i = true := by
  intro i hi
  have := List.find?_eq_none.1 h i (List.mem_range.2 hi)
  simpa using this

/-- A result of 0 is nine checks passed. -/
structure Passed (m : Memory) : Prop where
  format : imageByte m 0 = 0x41
  counts : countsInRange m = true
  crc : imageCrcGood m = true
  header : headerInRange m = true
  pubs : ∀ i < imageP m, pubInRange (loadPub m i) = true
  subs : ∀ i < imageS m, subInRange m i = true
  groups : ∀ i < imageG m, groupInRange m i = true
  tags : firstDuplicate (imageTags m) = none
  sizes : groupSizeFault m = none

theorem passed_of_validate {m : Memory} (h : (validate m).1 = 0) : Passed m := by
  unfold validate at h
  split at h
  · cases h
  next hformat =>
  split at h
  · cases h
  next hcounts =>
  split at h
  · cases h
  next hcrc =>
  split at h
  · cases h
  next hheader =>
  split at h
  · cases h
  next hpubs =>
  split at h
  · cases h
  next hsubs =>
  split at h
  · cases h
  next hgroups =>
  split at h
  · cases h
  next htags =>
  split at h
  · cases h
  next hsizes =>
  exact ⟨not_not.1 hformat, by simpa using hcounts, by simpa using hcrc, by simpa using hheader, firstBad_none hpubs,
    firstBad_none hsubs, firstBad_none hgroups, htags, hsizes⟩

theorem length_loadPubs (m : Memory) : (loadPubs m).length = imageP m := by simp [loadPubs]

theorem Passed.table {m : Memory} (h : Passed m) : (loadPubs m).length ≤ 32 := by
  have := h.counts
  simp only [countsInRange, Bool.and_eq_true, decide_eq_true_eq] at this
  rw [length_loadPubs]
  exact this.1.1

/-- A list of distinct subjects is no longer than what it is taken from. -/
theorem length_le_of_subjects {α : Type} [DecidableEq α] {l m : List α} (hl : l.Nodup) (h : ∀ a ∈ l, a ∈ m) :
    l.length ≤ m.length :=
  (List.subperm_of_subset hl h).length_le

/-- At most 32 VALUE entries, eight RESEND entries and one each of the other three kinds. -/
theorem Bounded.length_le {entries : List QueueEntry} {tags : List Word} {st : StationState}
    (h : Bounded entries tags st) : entries.length ≤ 43 := by
  have part (p : Subject → Bool) : (entries.map QueueEntry.subject).filter p =
      (entries.filter (fun e => p e.subject)).map QueueEntry.subject := List.filter_map
  have values : ((entries.map QueueEntry.subject).filter (fun x => x ∈ tags.map Subject.value)).length ≤ 32 := by
    refine (length_le_of_subjects (m := tags.map Subject.value) (h.subjects.filter _) fun x hx => ?_).trans
      (by rw [List.length_map]; exact h.table)
    simpa using (List.mem_filter.1 hx).2
  have resends : ((entries.map QueueEntry.subject).filter isResend).length ≤ 8 := by
    rw [part, List.length_map]
    exact h.resends
  have others : ((entries.map QueueEntry.subject).filter
      (fun x => !isResend x && !decide (x ∈ tags.map Subject.value))).length ≤ 3 := by
    refine length_le_of_subjects (m := [.claim, .defend, .presence]) (h.subjects.filter _) fun x hx => ?_
    obtain ⟨hm, hx⟩ := List.mem_filter.1 hx
    obtain ⟨e, he, rfl⟩ := List.mem_map.1 hm
    cases hs : e.subject with
    | value t => simp [hs, h.values e he t hs] at hx
    | resend t => simp [hs, isResend] at hx
    | _ => simp
  have resend_or_not := List.length_eq_length_filter_add (l := entries.map QueueEntry.subject) isResend
  have value_or_not := List.length_eq_length_filter_add
    (l := (entries.map QueueEntry.subject).filter (fun x => !isResend x)) (fun x => x ∈ tags.map Subject.value)
  have values' := (List.filter_sublist (l := entries.map QueueEntry.subject) (p := fun x => !isResend x)).filter
    (fun x => decide (x ∈ tags.map Subject.value)) |>.length_le
  rw [List.filter_filter (p := fun x => !decide (x ∈ tags.map Subject.value))] at value_or_not
  simp only [Bool.and_comm (!isResend _)] at others
  rw [List.length_map] at resend_or_not
  omega

/-- Settles O53: requests join new subjects alone, within the room of R59, and the bound is counted by kinds. -/
theorem sendQueueStaysBounded : Obligations.SendQueueStaysBounded := by
  refine ⟨fun c s t hs h => ?_, fun s hs => ((queueBounded_iff s).1 hs).length_le⟩
  rw [queueBounded_iff] at hs ⊢
  refine Course.keeps (P := fun s => Bounded s.sq.entries (s.pt.map PubEntry.tag) s.sc.state) Move.bounded (fun h => h)
    (fun _ _ _ => ?_) (fun hv hp h => ?_) (fun hc h => ?_) (fun _ h => h) (exec_course h) hs
  · exact ⟨List.Pairwise.nil, Nat.zero_le _, fun _ he => absurd he List.not_mem_nil, Nat.zero_le _, fun _ => rfl⟩
  · next s =>
    have empty : s.sq.entries = [] := h.unsealed (.inr hv)
    refine ⟨h.subjects, h.resends, fun e he => ?_, ?_, fun _ => empty⟩
    · rw [show s.loadImage.sq.entries = s.sq.entries from rfl, empty] at he
      exact absurd he List.not_mem_nil
    · rw [List.length_map]
      exact (passed_of_validate hp).table
  · next s t =>
    have tags : t.pt.map PubEntry.tag = s.pt.map PubEntry.tag := hc.tags
    rw [tags, hc.sc]
    cases hc <;> exact h

end Sys2Proof.Machine
end

section
/-! SUPPORT. The claims, the publications, the roster, the counts and the line under the moves. -/

namespace Sys2Proof.Machine

/-! Claim states follow the station state (R37, R38, R43). -/

/-- A claim state fits a station state (R37, R38). -/
def ClaimFits (st : StationState) (c : ClaimState) : Prop :=
  (c = .claiming → st = .announce) ∧ (c = .owned → st = .active) ∧ (c = .yielded → st = .announce ∨ st = .active)

theorem claimFits_unclaimed (st : StationState) : ClaimFits st .unclaimed := by simp [ClaimFits]

/-- No step of Station Control leaves ANNOUNCE or ACTIVE, and none enters ACTIVE. -/
theorem StationStep.fits {s : State} {st : StationState} (h : StationStep s st) {c : ClaimState}
    (hc : ClaimFits s.sc.state c) : ClaimFits st c := by
  have unclaimed (h1 : s.sc.state ≠ .announce) (h2 : s.sc.state ≠ .active) : c = .unclaimed := by
    cases c with
    | unclaimed => rfl
    | claiming => exact absurd (hc.1 rfl) h1
    | owned => exact absurd (hc.2.1 rfl) h2
    | yielded => exact ((hc.2.2 rfl).elim h1 h2).elim
  cases h with
  | stay => exact hc
  | sealed h | unsealed h | start h | stop h | announce h | leave h _ =>
    rw [unclaimed (by simp [h]) (by simp [h])]
    exact claimFits_unclaimed _

theorem Move.claimsSafe {s t : State} (h : Move s t) (hs : ClaimsSafe s) : ClaimsSafe t := by
  obtain ⟨fits, sends⟩ := hs
  cases h with
  | control station _ _ _ => exact ⟨fun e he => station.fits (fits e he), sends⟩
  | pubs kept _ =>
    refine ⟨List.forall_mem_map.2 fun e he => ?_, fun hp => List.forall_mem_map.2 fun e he => ?_⟩
    · rw [(kept e).claim]; exact fits e he
    · rw [(kept e).claim, (kept e).tag]; exact sends hp e he
  | yields t claimed =>
    obtain ⟨x, hx, hclaim⟩ := claimed
    have open_ : s.sc.state = .announce ∨ s.sc.state = .active :=
      hclaim.imp (fun h => (fits x hx).1 h) (fun h => (fits x hx).2.1 h)
    refine ⟨List.forall_mem_map.2 fun e he => ?_, fun hp => List.forall_mem_map.2 fun e he => ?_⟩
    · split
      · exact ⟨nofun, nofun, fun _ => open_⟩
      · exact fits e he
    · split
      · exact nofun
      · exact sends hp e he
  | claimUnit covers =>
    refine ⟨fits, fun hp e he hc => ?_⟩
    rcases covers hp with all | ⟨before, kept⟩
    · exact all e he hc
    · exact kept e he hc (sends before e he hc)
  | claimAll announce =>
    exact ⟨List.forall_mem_map.2 fun e _ => ⟨fun _ => announce, nofun, nofun⟩, fun _ e he _ => List.mem_map_of_mem he⟩
  | activate announce settled =>
    refine ⟨fun e he => ⟨fun hc => ?_, fun _ => rfl, fun _ => .inr rfl⟩, by simp⟩
    rcases settled with none | ⟨phase, empty⟩
    · exact absurd hc (none e he)
    · have hphase : s.cu.phase = .send1 ∨ s.cu.phase = .send2 := by cases h : s.cu.phase <;> simp_all [sendPhase]
      have := sends hphase e he hc
      rw [empty] at this
      cases this
  | win announce =>
    refine ⟨List.forall_mem_map.2 fun e he => ?_, by simp⟩
    split
    · exact ⟨nofun, fun _ => rfl, nofun⟩
    · next hc => exact ⟨fun h => absurd h hc, fun _ => rfl, fun _ => .inr rfl⟩
  | unclaim _ _ _ =>
    exact ⟨List.forall_mem_map.2 fun e _ => claimFits_unclaimed _, fun _ => List.forall_mem_map.2 fun e _ => nofun⟩
  | request subj _ => obtain ⟨q, c, h⟩ := request_frame subj s; rw [h]; exact ⟨fits, sends⟩
  | _ => exact ⟨fits, sends⟩

theorem Commits.cu {s t : State} (h : Commits s t) : t.cu = s.cu := by cases h <;> rfl

/-- Settles O54: each move that changes a claim or a station state keeps them together. -/
theorem claimStatesFollowTheStation : Obligations.ClaimStatesFollowTheStation := by
  intro c s t hs h
  refine Course.keeps Move.claimsSafe (fun h => h) (fun _ _ _ => ?_) (fun {s} _ _ _ => ?_) (fun hc h => ?_)
    (fun _ h => h) (exec_course h) hs
  · exact ⟨fun _ he => absurd he List.not_mem_nil, fun _ _ he => absurd he List.not_mem_nil⟩
  · exact ⟨List.forall_mem_map.2 fun e _ => claimFits_unclaimed _, fun _ => List.forall_mem_map.2 fun e _ => nofun⟩
  · obtain ⟨f, hf, like⟩ := hc.pt_eq
    obtain ⟨fits, sends⟩ := h
    refine ⟨?_, ?_⟩
    · rw [hf, hc.sc]
      exact List.forall_mem_map.2 fun e he => (like e).2.1 ▸ fits e he
    · rw [hf, hc.cu]
      refine fun hp => List.forall_mem_map.2 fun e he => ?_
      rw [(like e).1, (like e).2.1]
      exact sends hp e he

/-! Live, draft and committed generations, and the groups' (R2, R19, R23). -/

theorem Move.st_eq {s t : State} (h : Move s t) : ∃ f, t.st = s.st.map f ∧ ∀ e, SubKept e (f e) := by
  cases h with
  | subs kept _ => exact ⟨_, rfl, kept⟩
  | accept _ _ kept =>
    refine ⟨_, rfl, fun e => ?_⟩
    split
    · exact kept e
    · exact .refl e
  | reveal kept _ _ =>
    refine ⟨_, rfl, fun e => ?_⟩
    split
    · exact kept e
    · exact .refl e
  | request subj _ =>
    obtain ⟨q, c, h⟩ := request_frame subj s
    rw [h]
    exact ⟨id, (List.map_id _).symm, .refl⟩
  | _ => exact ⟨id, (List.map_id _).symm, .refl⟩

theorem Move.ga_eq {s t : State} (h : Move s t) : ∃ f, t.ga = s.ga.map f ∧ ∀ r, GrpKept r (f r) := by
  cases h with
  | groups kept _ => exact ⟨_, rfl, kept⟩
  | reveal _ kept _ =>
    refine ⟨_, rfl, fun r => ?_⟩
    split
    · exact kept r
    · exact .refl r
  | request subj _ =>
    obtain ⟨q, c, h⟩ := request_frame subj s
    rw [h]
    exact ⟨id, (List.map_id _).symm, .refl⟩
  | _ => exact ⟨id, (List.map_id _).symm, .refl⟩

theorem Move.keysDistinct {s t : State} (h : Move s t) (hs : KeysDistinct s) : KeysDistinct t := by
  obtain ⟨f, hf, kept⟩ := h.st_eq
  obtain ⟨g, hg, kept'⟩ := h.ga_eq
  have tags : t.st.map SubEntry.tag = s.st.map SubEntry.tag := by
    rw [hf, List.map_map, show SubEntry.tag ∘ f = SubEntry.tag from funext fun e => (kept e).tag]
  have indexes : t.ga.map GroupRecord.index = s.ga.map GroupRecord.index := by
    rw [hg, List.map_map, show GroupRecord.index ∘ g = GroupRecord.index from funext fun r => (kept' r).index]
  unfold KeysDistinct
  rw [h.tags, tags, indexes]
  exact hs

theorem nodup_of_firstDuplicate {tags : List Word} (h : firstDuplicate tags = none) : tags.Nodup := by
  rw [List.nodup_iff_pairwise_ne, List.pairwise_iff_getElem]
  intro i j hi hj hij heq
  have first := firstBad_none h j hj
  rw [List.getD_eq_getElem _ _ hj, Bool.not_eq_true', ← Bool.not_eq_true, List.contains_iff_mem] at first
  exact first (heq ▸ List.mem_take_iff_getElem.2 ⟨i, by omega, rfl⟩)

theorem Passed.keysDistinct {s : State} (h : Passed s.sc.image) : KeysDistinct s.loadImage := by
  refine ⟨nodup_of_firstDuplicate h.tags, ?_⟩
  show ((loadGroups s.sc.image).map GroupRecord.index).Nodup
  rw [loadGroups, List.map_map]
  exact List.nodup_range.map fun a b h => Nat.succ.inj h

theorem Commits.keysDistinct {s t : State} (h : Commits s t) (hs : KeysDistinct s) : KeysDistinct t := by
  unfold KeysDistinct
  rw [h.tags]
  cases h <;> exact hs

/-- A settled entry stamped (R23): its group stays, its generations agree, and the committed one is the stamp. -/
theorem commitEntry_agrees (g : Word) (flying : Bool) {e : PubEntry} (settled : e.flipPending = false) :
    (commitEntry g flying e).group = e.group ∧ (commitEntry g flying e).committed = some g ∧
      EntryAgrees (commitEntry g flying e) := by
  rw [commitEntry_eq g flying settled]
  cases flying <;> cases hl : e.live <;> simp [EntryAgrees, draftBuffer, liveBuffer, stampedDraft, hl, settled]

/-- A commit leaves an entry's committed generation or steps it, the members of a group all alike (R19, R22, R26). -/
theorem Commits.steps {s t : State} (h : Commits s t) (keys : KeysDistinct s) (agree : GroupsAgree s) :
    ∃ f : PubEntry → PubEntry, t.pt = s.pt.map f ∧
      (∀ e ∈ s.pt, (f e).tag = e.tag ∧ (f e).group = e.group ∧ (EntryAgrees e → EntryAgrees (f e)) ∧
        ((f e).committed = e.committed ∨ (f e).committed = some (nextGen e.committed))) ∧
      ∀ e ∈ s.pt, ∀ x ∈ s.pt, e.group.isSome → e.group = x.group → (f e).committed = (f x).committed := by
  cases h with
  | one flying entry ungrouped settled =>
    next tag e =>
    refine ⟨_, rfl, fun x hx => ?_, fun x hx y hy hg hxy => ?_⟩
    · split
      · next ht =>
        obtain rfl := keys.pub_eq entry hx ht
        obtain ⟨group, committed, agrees⟩ := commitEntry_agrees (nextGen x.committed) flying settled
        exact ⟨(commitEntry_frame _ _ _).1, group, fun _ => agrees, .inr committed⟩
      · exact ⟨rfl, rfl, id, .inl rfl⟩
    · have other {z : PubEntry} (hz : z ∈ s.pt) (hg : z.group.isSome) : z.tag ≠ tag := by
        intro ht
        obtain rfl := keys.pub_eq entry hz ht
        rw [ungrouped] at hg
        cases hg
      rw [if_neg (other hx hg), if_neg (other hy (hxy ▸ hg))]
      exact agree x hx y hy hg hxy
  | group member settled =>
    next n e =>
    have isMember {x : PubEntry} (hx : x ∈ s.pt) (hg : x.group = some n) : x ∈ s.producerMembers n :=
      List.mem_filter.2 ⟨hx, by simpa using hg⟩
    obtain ⟨he, heg⟩ : e ∈ s.pt ∧ e.group = some n := by simpa [State.producerMembers] using member
    refine ⟨_, rfl, fun x hx => ?_, fun x hx y hy hg hxy => ?_⟩
    · split
      · next hg =>
        obtain ⟨group, committed, agrees⟩ := commitEntry_agrees (nextGen e.committed)
          (inFlight s.sq (.value x.tag)) (settled x (isMember hx hg))
        refine ⟨(commitEntry_frame _ _ _).1, group, fun _ => agrees, .inr ?_⟩
        rw [committed, agree e he x hx (by rw [heg]; rfl) (heg.trans hg.symm)]
      · exact ⟨rfl, rfl, id, .inl rfl⟩
    · by_cases hn : x.group = some n
      · have hny : y.group = some n := hxy ▸ hn
        rw [if_pos hn, if_pos hny, (commitEntry_agrees _ _ (settled x (isMember hx hn))).2.1,
          (commitEntry_agrees _ _ (settled y (isMember hy hny))).2.1]
      · rw [if_neg hn, if_neg (hxy ▸ hn)]
        exact agree x hx y hy hg hxy

/-- The publications are consistent: the three invariants of O55. -/
structure Published (s : State) : Prop where
  keys : KeysDistinct s
  buffers : BuffersAgree s
  groups : GroupsAgree s

theorem Move.published {s t : State} (h : Move s t) (hs : Published s) : Published t := by
  obtain ⟨f, hf, like⟩ := h.pt_eq
  refine ⟨h.keysDistinct hs.keys, ?_, ?_⟩
  · unfold BuffersAgree
    rw [hf]
    exact List.forall_mem_map.2 fun e he => (like e).agrees (hs.buffers e he)
  · unfold GroupsAgree
    rw [hf]
    refine List.forall_mem_map.2 fun e he => List.forall_mem_map.2 fun x hx => ?_
    rw [(like e).group, (like x).group, (like e).committed, (like x).committed]
    exact hs.groups e he x hx

theorem Commits.published {s t : State} (h : Commits s t) (hs : Published s) : Published t := by
  obtain ⟨f, hf, steps, alike⟩ := h.steps hs.keys hs.groups
  refine ⟨h.keysDistinct hs.keys, ?_, ?_⟩
  · unfold BuffersAgree
    rw [hf]
    exact List.forall_mem_map.2 fun e he => (steps e he).2.2.1 (hs.buffers e he)
  · unfold GroupsAgree
    rw [hf]
    refine List.forall_mem_map.2 fun e he => List.forall_mem_map.2 fun x hx => ?_
    rw [(steps e he).2.1, (steps x hx).2.1]
    exact alike e he x hx

/-- A loaded table has no generation yet (R34). -/
theorem Passed.published {s : State} (h : Passed s.sc.image) : Published s.loadImage := by
  refine ⟨h.keysDistinct, List.forall_mem_map.2 fun i _ => ?_, List.forall_mem_map.2 fun i _ =>
    List.forall_mem_map.2 fun j _ _ _ => rfl⟩
  exact rfl

theorem KeysDistinct.hold {s : State} (h : KeysDistinct s) (k : Nat) :
    KeysDistinct (s.setGrp k (fun x => { x with held := true })) := by
  refine ⟨h.1, ?_⟩
  rw [show (s.setGrp k (fun x => { x with held := true })).ga.map GroupRecord.index = s.ga.map GroupRecord.index from
    updateKey_keys fun _ h => h]
  exact h.2

/-- Settles O55: the moves leave generations or agree, commits stamp settled entries and whole groups, and an image
brings distinct tags and no generation. -/
theorem publicationsStayConsistent : Obligations.PublicationsStayConsistent := by
  intro c s t keys buffers groups h
  have kept : Published t := by
    refine Course.keeps Move.published (fun h => ⟨h.keys, h.buffers, h.groups⟩) (fun _ _ _ => ?_)
      (fun _ hv _ => (passed_of_validate hv).published) Commits.published
      (fun k h => ⟨h.keys.hold k, h.buffers, h.groups⟩) (exec_course h) ⟨keys, buffers, groups⟩
    exact ⟨⟨List.Pairwise.nil, List.Pairwise.nil⟩, fun _ he => absurd he List.not_mem_nil,
      fun _ he => absurd he List.not_mem_nil⟩
  exact ⟨kept.keys, kept.buffers, kept.groups⟩

/-! Committed generations (R19). -/

/-- A publication entry's tag and committed generation. -/
def stamp (e : PubEntry) : Word × Option Word := (e.tag, e.committed)

theorem Move.stamps {s t : State} (h : Move s t) : t.pt.map stamp = s.pt.map stamp := by
  obtain ⟨f, hf, like⟩ := h.pt_eq
  rw [hf, List.map_map, show stamp ∘ f = stamp from funext fun e => Prod.ext (like e).tag (like e).committed]

theorem Moves.stamps {s t : State} (run : Moves s t) : t.pt.map stamp = s.pt.map stamp :=
  run.keeps (P := fun u => u.pt.map stamp = s.pt.map stamp) (fun m h => m.stamps.trans h) rfl

/-- Every tag stays, and every committed generation but those a commit steps (R19). -/
def SteppedBy (c : Instr) (s t : State) : Prop :=
  ∃ f : PubEntry → PubEntry, t.pt.map stamp = s.pt.map (stamp ∘ f) ∧
    ∀ e ∈ s.pt, (f e).tag = e.tag ∧ ((f e).committed = e.committed ∨
      ((∃ tag crc, c = .commit tag crc) ∨ ∃ n crc, c = .groupCommit n crc) ∧
      (f e).committed = some (nextGen e.committed))

/-- Settles O56: only a commit changes a committed generation, and it steps it. -/
theorem committedGenerationsStepByCommits : Obligations.CommittedGenerationsStepByCommits := by
  intro c s t keys agree h sealed noEnd
  suffices stepped : SteppedBy c s t by
    obtain ⟨f, hf, steps⟩ := stepped
    refine ⟨by simpa using congrArg List.length hf, fun i e e' he he' => ?_⟩
    have same : stamp e' = stamp (f e) := by simpa [he, he'] using congrArg (·[i]?) hf
    obtain ⟨tag, committed⟩ := steps e (List.mem_of_getElem? he)
    refine ⟨(congrArg Prod.fst same).trans tag, committed.imp (congrArg Prod.snd same).trans fun ⟨command, hc⟩ =>
      ⟨command, (congrArg Prod.snd same).trans (hc.trans ?_)⟩⟩
    cases e.committed <;> rfl
  have unchanged (h : t.pt.map stamp = s.pt.map stamp) : SteppedBy c s t := ⟨id, h, fun _ _ => ⟨rfl, .inl rfl⟩⟩
  cases exec_course h with
  | moves run => exact unchanged run.stamps
  | failed before sent quiet rest =>
    exact unchanged (rest.stamps.trans ((Moves.limited quiet).stamps.trans (sent.stamps.trans before.stamps)))
  | reset pin hp => exact absurd rfl sealed
  | loaded command validating passed rest => exact absurd validating (noEnd.resolve_left (absurd command))
  | commit command commits rest =>
    obtain ⟨f, hf, steps, -⟩ := commits.steps keys agree
    refine ⟨f, by rw [rest.stamps, hf, List.map_map], fun e he => ?_⟩
    obtain ⟨tag, -, -, committed⟩ := steps e he
    exact ⟨tag, committed.imp_right fun hc => ⟨command, hc⟩⟩
  | hold entry free rest => exact unchanged rest.stamps

/-! Held groups (R120). -/

/-- A group held afterwards was held before, and shows what it showed (R120). -/
def ShownKept (k : Nat) (s t : State) : Prop :=
  ∀ r', t.grp k = some r' → r'.held = true →
    ∃ r, s.grp k = some r ∧ r.held = true ∧ r'.shownGen = r.shownGen ∧
      (t.members k).map SubEntry.shown = (s.members k).map SubEntry.shown

theorem ShownKept.refl (k : Nat) (s : State) : ShownKept k s s := fun r hr hh => ⟨r, hr, hh, rfl, rfl⟩

theorem ShownKept.trans {k : Nat} {s t u : State} (h : ShownKept k s t) (h' : ShownKept k t u) : ShownKept k s u := by
  intro r'' hr'' hh''
  obtain ⟨r', hr', hh', hg', hm'⟩ := h' r'' hr'' hh''
  obtain ⟨r, hr, hh, hg, hm⟩ := h r' hr' hh'
  exact ⟨r, hr, hh, hg'.trans hg, hm'.trans hm⟩

theorem grp_map {s : State} {g : GroupRecord → GroupRecord} (hg : ∀ r, (g r).index = r.index) (k : Nat) :
    lookupKey GroupRecord.index k (s.ga.map g) = (s.grp k).map g := by
  unfold State.grp lookupKey
  rw [List.find?_map]
  congr 2
  exact funext fun r => by simp [hg r]

/-- Both tables changed entry by entry, a group that comes out held left as it was shown. -/
theorem ShownKept.of_maps {k : Nat} {s t : State} {f : SubEntry → SubEntry} {g : GroupRecord → GroupRecord}
    (hst : t.st = s.st.map f) (hga : t.ga = s.ga.map g) (hf : ∀ e, (f e).group = e.group)
    (hg : ∀ r, (g r).index = r.index)
    (held : ∀ r, s.grp k = some r → (g r).held = true →
      r.held = true ∧ (g r).shownGen = r.shownGen ∧ ∀ e ∈ s.members k, (f e).shown = e.shown) : ShownKept k s t := by
  intro r' hr' hh
  have ht : t.grp k = (s.grp k).map g := by
    unfold State.grp
    rw [hga]
    exact grp_map hg k
  rw [ht] at hr'
  obtain ⟨r, hr, rfl⟩ := Option.map_eq_some_iff.1 hr'
  obtain ⟨hheld, hgen, hshown⟩ := held r hr hh
  refine ⟨r, hr, hheld, hgen, ?_⟩
  have members : t.members k = (s.members k).map f := by
    unfold State.members
    rw [hst, List.filter_map]
    congr 2
    exact funext fun e => by simp [hf e]
  rw [members, List.map_map]
  exact List.map_congr_left hshown

theorem ShownKept.same {k : Nat} {s t : State} (hst : t.st = s.st) (hga : t.ga = s.ga) : ShownKept k s t :=
  .of_maps (f := id) (g := id) (by rw [hst, List.map_id]) (by rw [hga, List.map_id]) (fun _ => rfl) (fun _ => rfl)
    fun _ _ h => ⟨h, rfl, fun _ _ => rfl⟩

theorem Move.shownKept {s t : State} (h : Move s t) (keys : KeysDistinct s) (k : Nat) : ShownKept k s t := by
  cases h with
  | subs kept shown =>
    exact .of_maps (g := id) rfl (List.map_id _).symm (fun e => (kept e).group) (fun _ => rfl)
      fun _ _ h => ⟨h, rfl, fun e _ => shown e⟩
  | accept entry ungrouped kept =>
    refine .of_maps (g := id) rfl (List.map_id _).symm (fun e => ?_) (fun _ => rfl)
      fun _ _ h => ⟨h, rfl, fun x hx => ?_⟩
    · split
      · exact (kept e).group
      · rfl
    · obtain ⟨hx, hg⟩ := List.mem_filter.1 hx
      rw [if_neg]
      intro ht
      obtain rfl := keys.sub_eq entry hx ht
      simp [ungrouped] at hg
  | groups kept shown =>
    exact .of_maps (f := id) (List.map_id _).symm rfl (fun _ => rfl) (fun r => (kept r).index)
      fun r _ h => ⟨(shown r).2 ▸ h, (shown r).1, fun _ _ => rfl⟩
  | reveal keptSub keptGrp free =>
    next j f g =>
    refine .of_maps rfl rfl (fun e => ?_) (fun r => ?_) fun r hr hh => ?_
    · split
      · exact (keptSub e).group
      · rfl
    · split
      · exact (keptGrp r).index
      · rfl
    · by_cases hkj : k = j
      · subst hkj
        rw [if_pos (lookupKey_some hr).2, free r hr] at hh
        cases hh
      · rw [if_neg fun h => hkj ((lookupKey_some hr).2.symm.trans h)] at hh ⊢
        refine ⟨hh, rfl, fun e he => ?_⟩
        obtain ⟨-, he⟩ := List.mem_filter.1 he
        rw [if_neg fun h => hkj (by simpa [h, eq_comm] using he)]
  | request subj _ =>
    obtain ⟨q, c, h⟩ := request_frame subj s
    rw [h]
    exact .same rfl rfl
  | _ => exact .same rfl rfl

/-- A run of moves keeps the keys distinct and shows a held group as it was. -/
theorem Moves.shownKept {s t : State} (run : Moves s t) (keys : KeysDistinct s) (k : Nat) :
    KeysDistinct t ∧ ShownKept k s t :=
  run.keeps (P := fun u => KeysDistinct u ∧ ShownKept k s u)
    (fun m h => ⟨m.keysDistinct h.1, h.2.trans (m.shownKept h.1 k)⟩) ⟨keys, .refl k s⟩

/-- Settles O57: a held group is shown anew only by a release, which leaves it free. -/
theorem heldGroupsStayShown : Obligations.HeldGroupsStayShown := by
  intro c s t k r r' keys h hr hr' held held'
  suffices kept : ShownKept k s t by
    obtain ⟨x, hx, -, hgen, hshown⟩ := kept r' hr' held'
    rw [hr, Option.some.injEq] at hx
    exact ⟨hx ▸ hgen, hshown⟩
  cases exec_course h with
  | moves run => exact (run.shownKept keys k).2
  | failed before sent quiet rest =>
    obtain ⟨keys1, kept1⟩ := before.shownKept keys k
    obtain ⟨keys2, kept2⟩ := sent.shownKept keys1 k
    obtain ⟨keys3, kept3⟩ := (Moves.limited quiet).shownKept keys2 k
    exact ((kept1.trans kept2).trans kept3).trans (rest.shownKept keys3 k).2
  | reset pin hp => cases hr'
  | loaded command validating passed rest =>
    obtain ⟨x, hx, hheld, -⟩ := (rest.shownKept (passed_of_validate passed).keysDistinct k).2 r' hr' held'
    obtain ⟨i, -, rfl⟩ := List.mem_map.1 (lookupKey_some hx).1
    cases hheld
  | commit command commits rest =>
    next u =>
    have first : ShownKept k s u := by cases commits <;> exact .same rfl rfl
    exact first.trans (rest.shownKept (commits.keysDistinct keys) k).2
  | hold entry free rest =>
    next j x =>
    refine .trans (t := s.setGrp j (fun x => { x with held := true }))
      (.of_maps (f := id) (List.map_id _).symm rfl (fun _ => rfl) (fun r => ?_) fun y hy hh => ?_)
      (rest.shownKept (keys.hold j) k).2
    · split <;> rfl
    · rw [hr, Option.some.injEq] at hy
      subst hy
      have hkj : k ≠ j := by
        rintro rfl
        rw [hr, Option.some.injEq] at entry
        rw [← entry, held] at free
        cases free
      rw [if_neg fun h => hkj ((lookupKey_some hr).2.symm.trans h)]
      exact ⟨held, rfl, fun _ _ => rfl⟩

end Sys2Proof.Machine
end

section
/-! SUPPORT. The line, the roster and the counts under the moves. -/

namespace Sys2Proof.Machine

/-! The line is driven in three station states alone; MUTE, the number and the epoch (R1, R3, R75, R145). -/

/-- A round contended in, or a frame sent, is driven onto the line from some level on. -/
theorem exists_drives {s : State} (h : Driving s.la) : ∃ heard, s.drives heard = true := by
  rcases h with ⟨hline, hround⟩ | ⟨hline, hsending⟩
  · obtain ⟨r, hr⟩ := Option.isSome_iff_exists.1 hround
    refine ⟨[], ?_⟩
    simp only [State.drives, hline, hr]
    exact (drivesNext_iff _ _).2 ⟨rfl, rfl⟩
  · obtain ⟨x, hx⟩ := Option.isSome_iff_exists.1 hsending
    refine ⟨stuff 0 (bitsOfBytes (bodyBytes x.bid (frameKind x.frame) (framePayload x.frame))), ?_⟩
    simp only [State.drives, hline, hx]
    exact (drivesNext_iff _ _).2 ⟨by simp [frameLevels, payloadLevels], by simp [frameLevels, payloadLevels]⟩

theorem mayContend_iff (s : State) :
    s.mayContend = true ↔ s.sc.state = .announce ∨ s.sc.state = .active ∨ s.sc.state = .leaving := by
  simp [State.mayContend, or_assoc]

/-- The station is silent outside three states exactly when a round or a send is under way in these alone. -/
theorem silent_iff (s : State) : SilentUnlessContending s ↔ (Driving s.la → s.mayContend = true) := by
  constructor
  · intro h hd
    obtain ⟨heard, hh⟩ := exists_drives hd
    exact (mayContend_iff s).2 (h heard hh)
  · intro h heard hh
    rw [← mayContend_iff]
    rcases drives_cases hh with ⟨-, hc⟩ | hr | hx
    · exact hc
    · exact h (.inl hr)
    · exact h (.inr hx)

/-- No step of Station Control leaves the states in which the line is driven, while it is. -/
theorem StationStep.mayContend {s : State} {st : StationState} (h : StationStep s st) (hs : s.mayContend = true)
    (driving : Driving s.la) : st = .announce ∨ st = .active ∨ st = .leaving := by
  rw [mayContend_iff] at hs
  cases h with
  | stay => exact hs
  | leave _ quiet => exact absurd driving quiet
  | announce _ => exact .inl rfl
  | sealed h | unsealed h | start h | stop h => simp [h] at hs

theorem Move.silent {s t : State} (h : Move s t) (hs : Driving s.la → s.mayContend = true) :
    Driving t.la → t.mayContend = true := by
  cases h with
  | control station _ _ _ => exact fun h => (mayContend_iff _).2 (station.mayContend (hs h) h)
  | activate _ _ => exact fun _ => rfl
  | win _ => exact fun _ => rfl
  | unclaim _ _ ends =>
    rcases ends with ⟨rfl, -⟩ | ⟨-, quiet⟩
    · exact fun _ => rfl
    · exact fun h => absurd h quiet
  | request subj _ => obtain ⟨q, c, h⟩ := request_frame subj s; rw [h]; exact hs
  | line _ _ drives => exact fun h => (drives h).elim hs id
  | _ => exact hs

theorem StationStep.mute {s : State} {st : StationState} (h : StationStep s st) (hs : s.sc.state = .mute) :
    st = .mute := by
  cases h with
  | stay => exact hs
  | sealed h | unsealed h | start h | stop h | announce h | leave h _ => simp [h] at hs

theorem Move.mute {s t : State} (h : Move s t) (hs : s.sc.state = .mute) : t.sc.state = .mute := by
  cases h with
  | control station _ _ _ => exact station.mute hs
  | activate announce _ | win announce => simp [announce] at hs
  | unclaim _ _ ends =>
    rcases ends with ⟨-, h⟩ | ⟨rfl, -⟩
    · simp [hs] at h
    · rfl
  | request subj _ => obtain ⟨q, c, h⟩ := request_frame subj s; rw [h]; exact hs
  | _ => exact hs

/-- The station's own number and its epoch (R1, R3). -/
def identity (s : State) : Option Nat × Option Byte := (s.sc.ownNumber, s.sc.epoch)

theorem Move.identity {s t : State} (h : Move s t) : identity t = identity s := by
  cases h with
  | control _ number epoch _ => exact Prod.ext number epoch
  | request subj _ => obtain ⟨q, c, h⟩ := request_frame subj s; rw [h]; rfl
  | _ => rfl

/-- A run of moves stays in MUTE and leaves the identity. -/
theorem Moves.mute_identity {s t : State} (run : Moves s t) :
    (s.sc.state = .mute → t.sc.state = .mute) ∧ Machine.identity t = Machine.identity s :=
  run.keeps (P := fun u => (s.sc.state = .mute → u.sc.state = .mute) ∧ Machine.identity u = Machine.identity s)
    (fun m h => ⟨fun hs => m.mute (h.1 hs), m.identity.trans h.2⟩) ⟨id, rfl⟩

/-- Settles O58: no move drives the line elsewhere, leaves MUTE or changes the identity; a reset and a load alone do. -/
theorem stationKeepsItsPromises : Obligations.StationKeepsItsPromises := by
  intro c s t silent h
  have course := exec_course h
  refine ⟨?_, ?_⟩
  · rw [silent_iff] at silent ⊢
    refine Course.keeps (P := fun s => Driving s.la → s.mayContend = true) Move.silent (fun h => h) (fun _ _ _ => ?_)
      (fun _ _ _ => ?_) (fun hc h => ?_) (fun _ h => h) course silent
    · exact fun h => absurd h (not_driving_of (by simp [resetWith, State.reset]) (by simp [resetWith, State.reset]))
    · exact fun h => absurd h (not_driving_of (by simp [State.loadImage]) (by simp [State.loadImage]))
    · cases hc <;> exact h
  · suffices kept : ((s.sc.state = .mute → t.sc.state = .mute) ∧ identity t = identity s) ∨
        (t.sc.state = .unconfigured ∧ t.sc.clock = 0 ∧ t.sc.ownNumber = none ∧ t.sc.epoch = none) ∨
        (c = .validationPassed ∧ s.sc.state = .validating) by
      rcases kept with ⟨mute, same⟩ | made | ⟨command, validating⟩
      · exact ⟨fun hs => .inl (mute hs), fun _ => .inl ⟨congrArg Prod.fst same, congrArg Prod.snd same⟩⟩
      · exact ⟨fun _ => .inr ⟨made.1, made.2.1, made.2.2.1⟩, fun _ => .inr made⟩
      · exact ⟨fun hs => by simp [validating] at hs, fun h => absurd validating (h.resolve_left (absurd command))⟩
    cases course with
    | moves run => exact .inl run.mute_identity
    | failed before sent quiet rest =>
      obtain ⟨mute1, same1⟩ := before.mute_identity
      obtain ⟨mute2, same2⟩ := sent.mute_identity
      obtain ⟨mute3, same3⟩ := Moves.mute_identity ((Moves.limited quiet).trans rest)
      exact .inl ⟨fun hs => mute3 (mute2 (mute1 hs)), same3.trans (same2.trans same1)⟩
    | reset pin hp => exact .inr (.inl ⟨rfl, rfl, rfl, rfl⟩)
    | loaded command validating passed rest => exact .inr (.inr ⟨command, validating⟩)
    | commit command commits rest =>
      obtain ⟨mute, same⟩ := rest.mute_identity
      exact .inl ⟨fun hs => mute (by rw [commits.sc]; exact hs), by rw [same, identity, commits.sc]; rfl⟩
    | hold entry free rest => exact .inl rest.mute_identity

/-! The roster (R127). -/

theorem Move.rosterSafe {s t : State} (h : Move s t) (hs : RosterSafe s) : RosterSafe t := by
  obtain ⟨numbers, self⟩ := hs
  cases h with
  | control _ number _ _ => exact ⟨numbers, fun n hn => self n (number ▸ hn)⟩
  | peers numbers' _ self' => exact ⟨numbers'.trans numbers, fun n hn => self' n hn (self n hn)⟩
  | request subj _ => obtain ⟨q, c, h⟩ := request_frame subj s; rw [h]; exact ⟨numbers, self⟩
  | _ => exact ⟨numbers, self⟩

/-- An image gives its station a number with a record, which becomes SELF (R127, R150). -/
theorem RosterSafe.load {s : State} (h : RosterSafe s) (passed : Passed s.sc.image) : RosterSafe s.loadImage := by
  obtain ⟨numbers, -⟩ := h
  have number : imageByte s.sc.image 1 ∈ s.ro.map Peer.number := by
    have header := passed.header
    simp only [headerInRange, inRange, Bool.and_eq_true, decide_eq_true_eq, Config.lastStation] at header
    obtain ⟨⟨⟨⟨⟨low, high⟩, -⟩, -⟩, -⟩, -⟩ := header
    have high : imageByte s.sc.image 1 ≤ 62 := of_decide_eq_true high
    rw [numbers, List.mem_map]
    exact ⟨imageByte s.sc.image 1 - 1, List.mem_range.2 (by omega), by omega⟩
  obtain ⟨p, hp, hpn⟩ := List.mem_map.1 number
  have roster : s.loadImage.ro = updateKey Peer.number (imageByte s.sc.image 1)
      (fun p => { p with state := .self, epoch := s.sc.pendingEpoch }) s.ro := rfl
  unfold RosterSafe State.peer
  rw [roster]
  refine ⟨?_, fun n hn => ?_⟩
  · exact (updateKey_keys (by exact fun _ h => h)).trans numbers
  obtain rfl : imageByte s.sc.image 1 = n := Option.some.inj hn
  have found : lookupKey Peer.number (imageByte s.sc.image 1) s.ro = some p :=
    lookupKey_of_mem (by rw [numbers]; decide) hp hpn
  rw [lookupKey_updateKey (by exact fun _ h => h), found]
  rfl

theorem reset_numbers : State.reset.ro.map Peer.number = (List.range 62).map (· + 1) := by decide

/-- Settles O59: no move touches a record's number or the standing of SELF. -/
theorem rosterStaysSafe : Obligations.RosterStaysSafe := by
  intro c s t hs h
  refine Course.keeps Move.rosterSafe (fun h => h) (fun _ _ _ => ⟨reset_numbers, nofun⟩)
    (fun _ hv h => h.load (passed_of_validate hv)) (fun hc h => ?_) (fun _ h => h) (exec_course h) hs
  cases hc <;> exact h

/-! Counts (R33, R81, R89, R104, R125, R127). -/

/-- The invariant of the counts, table by table. -/
structure Counted (s : State) : Prop where
  pubs : ∀ e ∈ s.pt, PubCounts e
  subs : ∀ e ∈ s.st, e.late ≤ 65535 ∧ e.reject ≤ 65535
  groups : ∀ r ∈ s.ga, r.skipped ≤ 65535 ∧ r.torn ≤ 65535
  peers : ∀ p ∈ s.ro, p.framesHeard ≤ 65535
  line : CountersInRange s.la.counters

theorem countsSafe_iff (s : State) : CountsSafe s ↔ Counted s :=
  ⟨fun ⟨h1, h2, h3, h4, h5⟩ => ⟨h1, h2, h3, h4, h5⟩, fun ⟨h1, h2, h3, h4, h5⟩ => ⟨h1, h2, h3, h4, h5⟩⟩

/-- A claim and a period timer are no counts. -/
theorem PubCounts.claimed {e : PubEntry} (h : PubCounts e) (c : ClaimState) (p : Option Nat) :
    PubCounts { e with claim := c, periodTimer := p } := h

theorem Move.pubCounts {s t : State} (h : Move s t) (hs : ∀ e ∈ s.pt, PubCounts e) : ∀ e ∈ t.pt, PubCounts e := by
  cases h with
  | pubs _ counts => exact List.forall_mem_map.2 (counts hs)
  | yields t _ =>
    refine List.forall_mem_map.2 fun e he => ?_
    split
    · exact (hs e he).claimed _ _
    · exact hs e he
  | claimAll _ => exact List.forall_mem_map.2 fun e he => (hs e he).claimed _ _
  | win _ =>
    refine List.forall_mem_map.2 fun e he => ?_
    split
    · exact (hs e he).claimed _ _
    · exact hs e he
  | unclaim _ _ _ => exact List.forall_mem_map.2 fun e he => (hs e he).claimed _ _
  | request subj _ => obtain ⟨q, c, h⟩ := request_frame subj s; rw [h]; exact hs
  | _ => exact hs

theorem Move.peerCounts {s t : State} (h : Move s t) (hs : ∀ p ∈ s.ro, p.framesHeard ≤ 65535) :
    ∀ p ∈ t.ro, p.framesHeard ≤ 65535 := by
  cases h with
  | peers _ counts _ => exact counts hs
  | request subj _ => obtain ⟨q, c, h⟩ := request_frame subj s; rw [h]; exact hs
  | _ => exact hs

theorem Move.lineCounts {s t : State} (h : Move s t) (hs : CountersInRange s.la.counters) :
    CountersInRange t.la.counters := by
  cases h with
  | counters range => exact range _ hs
  | line counters _ _ => exact counters ▸ hs
  | request subj _ =>
    rcases request_cases subj s with h | h | ⟨-, -, -, h⟩
    · rw [h]; exact hs
    · rw [h]; exact hs.bump.2.2.2.2.2.2
    · rw [h]; exact hs
  | _ => exact hs

theorem Move.counted {s t : State} (h : Move s t) (hs : Counted s) : Counted t := by
  obtain ⟨f, hf, keptSub⟩ := h.st_eq
  obtain ⟨g, hg, keptGrp⟩ := h.ga_eq
  refine ⟨h.pubCounts hs.pubs, ?_, ?_, h.peerCounts hs.peers, h.lineCounts hs.line⟩
  · rw [hf]
    exact List.forall_mem_map.2 fun e he => (keptSub e).counts (hs.subs e he)
  · rw [hg]
    exact List.forall_mem_map.2 fun r hr => (keptGrp r).counts (hs.groups r hr)

/-- The loaded tables have counted nothing (R34, R105, R106). -/
theorem Counted.load {s : State} (h : Counted s) : Counted s.loadImage := by
  refine ⟨List.forall_mem_map.2 fun i _ => ?_, List.forall_mem_map.2 fun i _ => ?_, List.forall_mem_map.2 fun i _ => ?_,
    fun p hp => ?_, h.line⟩
  · exact ⟨Nat.zero_le _, Nat.zero_le _, Nat.zero_le _⟩
  · exact ⟨Nat.zero_le _, Nat.zero_le _⟩
  · exact ⟨Nat.zero_le _, Nat.zero_le _⟩
  · rcases mem_updateKey hp with hp | ⟨q, hq, -, rfl⟩
    · exact h.peers p hp
    · exact h.peers q hq

theorem Commits.counted {s t : State} (h : Commits s t) (hs : Counted s) : Counted t := by
  obtain ⟨f, hf, like⟩ := h.pt_eq
  have pubs : ∀ e ∈ t.pt, PubCounts e := by
    rw [hf]
    exact List.forall_mem_map.2 fun e he => (like e).2.2 (hs.pubs e he)
  cases h <;> exact ⟨pubs, hs.subs, hs.groups, hs.peers, hs.line⟩

theorem Move.txErrors {s t : State} (h : Move s t) : t.la.txErrors = s.la.txErrors ∨ t.la.txErrors = 0 := by
  cases h with
  | line _ errors _ => exact errors
  | request subj _ => obtain ⟨q, c, h⟩ := request_frame subj s; rw [h]; exact .inl rfl
  | _ => exact .inl rfl

theorem Move.txErrorsSafe {s t : State} (h : Move s t) (hs : TxErrorsSafe s) : TxErrorsSafe t := by
  rcases h.txErrors with he | he
  · exact ⟨he ▸ hs.1, fun h8 => h.mute (hs.2 (he ▸ h8))⟩
  · exact ⟨by omega, fun h8 => by omega⟩

/-- Between a bad send end and its check the count stays within its limit. -/
theorem Moves.txErrors_le {s t : State} (run : Moves s t) (hs : s.la.txErrors ≤ 8) : t.la.txErrors ≤ 8 :=
  run.keeps (P := fun u => u.la.txErrors ≤ 8) (fun m h => m.txErrors.elim (fun he => he ▸ h) fun he => by omega) hs

/-- The eighth bad send end in a row is the entry into MUTE (R81). -/
theorem limited_txErrorsSafe {v : State} (h : v.la.txErrors ≤ 8) : TxErrorsSafe (limited v) := by
  unfold limited
  split
  · rw [enterMute_eq]
    exact ⟨h, fun _ => rfl⟩
  · next h8 => exact ⟨h, fun h' => absurd h' h8⟩

theorem counted_reset : Counted State.reset :=
  ⟨fun _ he => absurd he List.not_mem_nil, fun _ he => absurd he List.not_mem_nil,
    fun _ he => absurd he List.not_mem_nil, List.forall_mem_map.2 fun _ _ => Nat.zero_le _, by
      unfold CountersInRange
      decide⟩

/-- Settles O50: every count stops at its largest value, and a bad send end is counted on the way to MUTE at eight. -/
theorem countsStayInRange : Obligations.CountsStayInRange := by
  intro c s t errors counts h
  have course := exec_course h
  refine ⟨?_, ?_⟩
  · cases course with
    | moves run => exact run.keeps Move.txErrorsSafe errors
    | failed before sent quiet rest =>
      have counted := (Moves.keeps Move.txErrorsSafe before errors).1
      exact Moves.keeps Move.txErrorsSafe rest (limited_txErrorsSafe (sent.txErrors_le (satInc_le counted)))
    | reset pin hp => exact ⟨Nat.zero_le _, nofun⟩
    | loaded command validating passed rest =>
      refine Moves.keeps Move.txErrorsSafe rest ⟨errors.1, fun h8 => ?_⟩
      rw [errors.2 h8] at validating
      cases validating
    | commit command commits rest =>
      refine Moves.keeps Move.txErrorsSafe rest ?_
      cases commits <;> exact errors
    | hold entry free rest => exact Moves.keeps Move.txErrorsSafe rest errors
  · rw [countsSafe_iff] at counts ⊢
    refine Course.keeps Move.counted (fun h => ⟨h.pubs, h.subs, h.groups, h.peers, h.line⟩)
      (fun _ _ _ => ⟨counted_reset.pubs, counted_reset.subs, counted_reset.groups, counted_reset.peers,
        counted_reset.line⟩)
      (fun _ _ h => h.load) Commits.counted (fun k h => ?_) course counts
    · refine ⟨h.pubs, h.subs, fun r hr => ?_, h.peers, h.line⟩
      rcases mem_updateKey hr with hr | ⟨x, hx, -, rfl⟩
      · exact h.groups r hr
      · exact h.groups x hx

end Sys2Proof.Machine
end

section
/-! SUPPORT. Every command and the host port: completion, resets, gating, and what the reads answer. -/

namespace Sys2Proof.Machine

/-! Every command completes (logs 6 and 12). -/

theorem Move.pending {s t : State} (h : Move s t) : t.pending = s.pending := by
  cases h with
  | request subj _ => obtain ⟨q, c, h⟩ := request_frame subj s; rw [h]
  | _ => rfl

theorem Moves.pending {s t : State} (run : Moves s t) : t.pending = s.pending :=
  run.keeps (P := fun u => u.pending = s.pending) (fun m h => m.pending.trans h) rfl

theorem Course.pending {c : Instr} {s t : State} (h : Course c s t) : t.pending = s.pending := by
  cases h with
  | moves run => exact run.pending
  | failed before sent quiet rest =>
    exact rest.pending.trans ((Moves.limited quiet).pending.trans (sent.pending.trans before.pending))
  | reset pin hp => rfl
  | loaded _ _ _ rest => exact rest.pending
  | commit _ commits rest => exact rest.pending.trans (by cases commits <;> rfl)
  | hold _ _ rest => exact rest.pending

/-- A timer command of a tag, an index or a number without a record completes as well. -/
theorem exec_next (c : Instr) (s : State) : ∃ t, exec c s = .next t := by
  cases c with
  | periodTimerExpiry tag =>
    show ∃ t, execPeriodTimerExpiry tag s = .next t
    unfold execPeriodTimerExpiry
    split <;> exact ⟨_, rfl⟩
  | freshnessTimerExpiry tag =>
    show ∃ t, execFreshnessTimerExpiry tag s = .next t
    unfold execFreshnessTimerExpiry
    split <;> exact ⟨_, rfl⟩
  | assemblyTimerExpiry index =>
    show ∃ t, execAssemblyTimerExpiry index s = .next t
    unfold execAssemblyTimerExpiry
    split
    · split <;> exact ⟨_, rfl⟩
    · exact ⟨_, rfl⟩
  | silenceTimerExpiry number =>
    show ∃ t, execSilenceTimerExpiry number s = .next t
    unfold execSilenceTimerExpiry
    split <;> exact ⟨_, rfl⟩
  | _ => exact ⟨_, rfl⟩

/-- Settles O2: every arm answers, and its course leaves the waiting commands. -/
theorem everyCommandCompletes : Obligations.EveryCommandCompletes := by
  intro c s
  obtain ⟨t, ht⟩ := exec_next c s
  exact ⟨t, ht, (exec_course ht).pending⟩

/-- Settles O1. -/
theorem stepTakesTheFrontCommand : Obligations.StepTakesTheFrontCommand :=
  ⟨fun c rest s h => by simp [step, h], fun s h => by simp [step, h]⟩

/-! Resets (R138). -/

theorem reset_records : ∀ p ∈ State.reset.ro, p = ⟨p.number, .absent, none, none, none, none, 0, none⟩ :=
  List.forall_mem_map.2 fun _ _ => rfl

theorem reset_drives (heard : List Bool) : State.reset.drives heard = false := by
  simp [State.drives, State.opensRound, State.reset]

/-- Settles O3. -/
theorem resetHoldsTheSpecsValues : Obligations.ResetHoldsTheSpecsValues := by
  refine ⟨rfl, rfl, fun a _ => reset_image.2 a, ?_⟩
  refine ⟨rfl, rfl, rfl, rfl, rfl, rfl, rfl, rfl, rfl, rfl, rfl, rfl, rfl, rfl, rfl, rfl, rfl, rfl, rfl, rfl, rfl, rfl,
    rfl, rfl, reset_drives, reset_numbers, reset_records, rfl, rfl, rfl, rfl, rfl, rfl⟩

/-- Settles O48. -/
theorem invariantsHoldAtReset : Obligations.InvariantsHoldAtReset := by
  have noPub : ∀ e ∈ State.reset.pt, False := fun _ h => List.not_mem_nil h
  have noEntry : ∀ e ∈ State.reset.sq.entries, False := fun _ h => List.not_mem_nil h
  refine ⟨reset_image.1, ⟨Nat.zero_le _, nofun⟩, ⟨Nat.zero_le _, List.Pairwise.nil, Nat.zero_le _,
      fun h => absurd rfl h⟩, ⟨List.Pairwise.nil, List.Pairwise.nil, fun e h => (noEntry e h).elim⟩,
    ⟨List.Pairwise.nil, Nat.zero_le _, fun e h => (noEntry e h).elim, Nat.zero_le _, fun _ => rfl⟩,
    ⟨fun e h => (noPub e h).elim, fun _ e h => (noPub e h).elim⟩, ⟨List.Pairwise.nil, List.Pairwise.nil⟩,
    fun e h => (noPub e h).elim, fun e h => (noPub e h).elim, fun heard h => ?_, ⟨reset_numbers, nofun⟩, ?_⟩
  · rw [reset_drives] at h
    cases h
  · exact (countsSafe_iff _).2 counted_reset

/-- Settles O4: `doReset` keeps the pin, the ignored transaction and the waiting commands. -/
theorem resetPinAndPowerUpReset : Obligations.ResetPinAndPowerUpReset := by
  intro s after
  refine ⟨rfl, rfl, fun h => ?_, fun h => ?_⟩
  · exact congrArg Host.Outcome.next (if_pos h)
  · exact congrArg Host.Outcome.next (if_neg (by simp [h]))

/-! The host port: a command that arrives, gated (R157 to R160, R162). -/

section Taken
variable {c : Command} {ops : List Byte} {crc : Byte} {act : State → Reply} {s : State}

theorem takeCommand_ok (hin : Arrived c ops crc s) (hg : gate c s.sc.state = none) {t : State} {results : List Byte}
    (hact : act s = .ok (t, results)) :
    takeCommand c ops crc act s = { t with hp := replied c ops crc .ok results t } := by
  rw [takeCommand_arrived act hin, gatedReply, hg]
  simp only [hact, finish, answer_eq]

theorem takeCommand_error (hin : Arrived c ops crc s) (hg : gate c s.sc.state = none) {st : Status}
    (hact : act s = .error st) : takeCommand c ops crc act s = { s with hp := replied c ops crc st [] s } := by
  rw [takeCommand_arrived act hin, gatedReply, hg]
  simp only [hact, finish, answer_eq]

theorem takeCommand_damaged (receiving : s.hp.phase = .receiving) (damaged : crc8 (commandCode c :: ops) ≠ crc) :
    takeCommand c ops crc act s = { s with hp := replied c ops crc .check [] s } := by
  unfold takeCommand
  rw [if_pos receiving, if_neg damaged, answer_eq]

theorem takeCommand_ignored (receiving : s.hp.phase ≠ .receiving) : takeCommand c ops crc act s = s := if_neg receiving

end Taken

/-- A command's own checks never answer BUSY or STATE: these are the gating's (R160, R162). -/
def OwnStatus (act : State → Reply) : Prop := ∀ s st, act s = .error st → st ≠ .busy ∧ st ≠ .state

theorem OwnStatus.of_ok {act : State → Reply} (h : ∀ s, ∃ p, act s = .ok p) : OwnStatus act := by
  intro s st he
  obtain ⟨p, hp⟩ := h s
  rw [hp] at he
  cases he

theorem ownStatus_imageWrite (offset : Word) (data : List Byte) : OwnStatus (imageWriteReply offset data) := by
  intro s st h
  unfold imageWriteReply at h
  split at h <;> cases h
  decide

theorem ownStatus_seal (epoch : Byte) : OwnStatus (sealReply epoch) := by
  intro s st h
  unfold sealReply at h
  split at h <;> cases h
  decide

theorem ownStatus_stop : OwnStatus stopReply := .of_ok fun s => by
  unfold stopReply
  split <;> exact ⟨_, rfl⟩

theorem ownStatus_draftWrite (t : Word) (offset : Byte) (bytes : List Byte) :
    OwnStatus (draftWriteReply t offset bytes) := by
  intro s st h
  cases he : s.pub t with
  | none => rw [draftWriteReply_unknown _ _ he] at h; cases h; decide
  | some e =>
    rw [draftWriteReply_known _ _ he] at h
    split at h
    · cases h; decide
    · split at h <;> cases h
      decide

theorem ownStatus_commit (t : Word) : OwnStatus (commitReply t) := by
  intro s st h
  cases he : s.pub t with
  | none => rw [commitReply_unknown he] at h; cases h; decide
  | some e =>
    rw [commitReply_known he] at h
    split at h
    · cases h; decide
    · split at h
      · cases h; decide
      · split at h <;> cases h
        decide

theorem ownStatus_groupCommit (number : Byte) : OwnStatus (groupCommitReply number) := by
  intro s st h
  by_cases hr : number.toNat < 1 ∨ 8 < number.toNat
  · rw [groupCommitReply_range s hr] at h; cases h; decide
  · cases hm : s.producerMembers number.toNat with
    | nil => rw [groupCommitReply_unknown (by omega) (by omega) hm] at h; cases h; decide
    | cons e es =>
      rw [groupCommitReply_known (by omega) (by omega) hm] at h
      split at h
      · cases h; decide
      · split at h <;> cases h
        decide

theorem ownStatus_valueRead (t : Word) : OwnStatus (valueReadReply t) := by
  intro s st h
  unfold valueReadReply at h
  split at h <;> cases h
  decide

theorem ownStatus_tagStatus (t : Word) : OwnStatus (tagStatusReply t) := by
  intro s st h
  unfold tagStatusReply at h
  split at h <;> cases h
  decide

/-- A command about a consumer group checks its index and its record, then the group (R120, R121, R124). -/
theorem ownStatus_groupIndex {index : Byte} {act : State → GroupRecord → Reply}
    (h : ∀ s r st, act s r = .error st → st ≠ .busy ∧ st ≠ .state) :
    OwnStatus (fun s => groupIndexReply index s (act s)) := by
  intro s st he
  replace he : groupIndexReply index s (act s) = .error st := he
  unfold groupIndexReply at he
  split at he
  · cases he; decide
  · split at he
    · cases he; decide
    · exact h s _ st he

theorem ownStatus_hold (index : Byte) : OwnStatus (holdReply index) :=
  ownStatus_groupIndex fun s r st h => by
    split at h <;> cases h
    decide

theorem ownStatus_release (index : Byte) : OwnStatus (releaseReply index) :=
  ownStatus_groupIndex fun s r st h => by
    split at h <;> cases h
    decide

theorem ownStatus_groupStatus (index : Byte) : OwnStatus (groupStatusReply index) :=
  ownStatus_groupIndex fun s r st h => by cases h

theorem ownStatus_roster (number : Byte) : OwnStatus (rosterReply number) := by
  intro s st h
  unfold rosterReply at h
  split at h
  · cases h; decide
  · split at h <;> cases h
    decide

theorem ownStatus_queue (position : Byte) : OwnStatus (queueReply position) := by
  intro s st h
  unfold queueReply at h
  split at h
  · cases h; decide
  · split at h <;> cases h
    decide

theorem ownStatus_notice (n : Byte) : OwnStatus (noticeReply n) := by
  intro s st h
  unfold noticeReply at h
  split at h <;> cases h
  decide

theorem ownStatus_counters (option : Byte) : OwnStatus (countersReply option) := by
  intro s st h
  unfold countersReply at h
  split at h
  · cases h
  · split at h <;> cases h
    decide

/-- A host command is taken with its own checks and effect (R157, R172). -/
theorem exec_host {i : Instr} {c : Command} {ops : List Byte} {crc : Byte} (h : hostWire i = some (c, ops, crc)) :
    ∃ act, OwnStatus act ∧ ∀ s, exec i s = .next (takeCommand c ops crc act s) := by
  cases i <;> cases h
  case statusRead => exact ⟨_, .of_ok fun _ => ⟨_, rfl⟩, fun _ => rfl⟩
  case imageWrite => exact ⟨_, ownStatus_imageWrite _ _, fun _ => rfl⟩
  case start => exact ⟨_, .of_ok fun _ => ⟨_, rfl⟩, fun _ => rfl⟩
  case stop => exact ⟨_, ownStatus_stop, fun _ => rfl⟩
  case reset => exact ⟨_, .of_ok fun _ => ⟨_, rfl⟩, fun _ => rfl⟩
  case draftWrite => exact ⟨_, ownStatus_draftWrite _ _ _, fun _ => rfl⟩
  case commit => exact ⟨_, ownStatus_commit _, fun _ => rfl⟩
  case groupCommit => exact ⟨_, ownStatus_groupCommit _, fun _ => rfl⟩
  case valueRead => exact ⟨_, ownStatus_valueRead _, fun _ => rfl⟩
  case tagStatusRead => exact ⟨_, ownStatus_tagStatus _, fun _ => rfl⟩
  case groupHold => exact ⟨_, ownStatus_hold _, fun _ => rfl⟩
  case groupRelease => exact ⟨_, ownStatus_release _, fun _ => rfl⟩
  case groupStatusRead => exact ⟨_, ownStatus_groupStatus _, fun _ => rfl⟩
  case rosterRead => exact ⟨_, ownStatus_roster _, fun _ => rfl⟩
  case sendQueueRead => exact ⟨_, ownStatus_queue _, fun _ => rfl⟩
  case noticeRead => exact ⟨_, ownStatus_notice _, fun _ => rfl⟩
  case countersRead => exact ⟨_, ownStatus_counters _, fun _ => rfl⟩
  -- SEAL remains: the name of its constructor is a keyword of Lean.
  exact ⟨_, ownStatus_seal _, fun _ => rfl⟩

/-- The rows of R162 are the gating, column by column. -/
theorem gateRow_eq (c : Command) (st : StationState) : (gateRow c)[stationCode st]? = some (gate c st) := by
  cases c <;> cases st <;> rfl

/-- Settles O7: a refusal of the row is the gating's, and no own check answers as the gating does. -/
theorem gatingFollowsTheTable : Obligations.GatingFollowsTheTable := by
  intro s i c ops crc hi hin
  obtain ⟨act, own, hex⟩ := exec_host hi
  rw [hex s, gateRow_eq]
  refine ⟨fun r hr => ?_, fun hr => ⟨_, rfl, ?_⟩⟩
  · exact congrArg Host.Outcome.next (takeCommand_gated hin (Option.some.inj hr))
  · have hg : gate c s.sc.state = none := Option.some.inj hr
    cases hact : act s with
    | error st =>
      rw [takeCommand_error hin hg hact]
      obtain ⟨busy, state⟩ := own s st hact
      cases st <;> simp_all [replied, statusCode]
    | ok p => rw [takeCommand_ok hin hg hact]; simp [replied, statusCode]

/-- Settles O5: an edge makes a new port, and the rise after a RESET makes the reset. -/
theorem chipSelectAndReset : Obligations.ChipSelectAndReset := by
  intro s
  refine ⟨fun h => ?_, fun h hr => ?_, fun h hr => ?_, fun crc hin => ?_, fun h => ?_, fun h => ?_⟩
  · exact congrArg Host.Outcome.next (if_pos h)
  · refine congrArg Host.Outcome.next ((if_neg h).trans ?_)
    simp only [hr, Bool.false_eq_true, if_false]
    rfl
  · refine congrArg Host.Outcome.next ((if_neg h).trans ?_)
    simp only [hr, if_true]
    rfl
  · exact congrArg Host.Outcome.next (takeCommand_ok (act := resetReply) hin (by cases s.sc.state <;> rfl) rfl)
  · exact congrArg Host.Outcome.next (if_pos h)
  · exact congrArg Host.Outcome.next (if_neg h)

/-! Reads (R31, R32, R70, R102, R103, R124, R134, R147, R167, R173). -/

/-- The flags byte of STATUS READ (R147). -/
theorem field1_statusFlags (s : State) :
    field1 s.statusFlags = [(if s.la.lineState = .fault then 1 else 0) + (if s.nq.notices = [] then 0 else 2)] := by
  cases hn : s.nq.notices <;> by_cases hf : s.la.lineState = .fault <;>
    simp [field1, State.statusFlags, State.lineFault, State.attention, hf, hn]

/-- Settles O8. -/
theorem statusReadAnswers : Obligations.StatusReadAnswers := by
  intro crc s hin
  refine congrArg Host.Outcome.next (takeCommand_ok (act := statusReply) hin (by cases s.sc.state <;> rfl) ?_)
  rw [statusReply, statusResults, field1_statusFlags]
  cases s.sc.epoch <;> cases s.sc.ownNumber <;> simp [opt1, field1, longBytes]

theorem valueEntryCode_eq (q : SendQueue) (t : Word) :
    field1 (valueEntryCode q t) =
      [if q.entries.any (fun x => x.subject = .value t && x.inFlight) then 2
        else if q.entries.any (fun x => x.subject = .value t) then 1 else 0] := by
  unfold valueEntryCode inFlight hasEntry field1
  split
  · rfl
  · split <;> rfl

/-- Settles O9: a lookup in the two tables, publications first. -/
theorem tagReadsAnswer : Obligations.TagReadsAnswer := by
  intro tag crc s hs value status
  refine ⟨fun hin => ⟨fun e he => ?_, fun e hp he => ?_, fun hp he => ?_⟩,
    fun hin => ⟨fun e he => ?_, fun e hp he => ?_, fun hp he => ?_⟩⟩
  · refine congrArg Host.Outcome.next (takeCommand_accepted hin hs (by decide) ?_)
    rw [valueReadReply, he]
    rfl
  · refine congrArg Host.Outcome.next (takeCommand_accepted hin hs (by decide) ?_)
    rw [valueReadReply, hp, he]
    rfl
  · exact congrArg Host.Outcome.next (takeCommand_refused hin hs (by decide) (by rw [valueReadReply, hp, he]))
  · refine congrArg Host.Outcome.next (takeCommand_accepted hin hs (by decide) ?_)
    rw [tagStatusReply, he]
    obtain ⟨-, rfl⟩ := lookupKey_some he
    simp only [pubStatusResults, valueEntryCode_eq]
    simp [field1, flagByte]
  · refine congrArg Host.Outcome.next (takeCommand_accepted hin hs (by decide) ?_)
    rw [tagStatusReply, hp, he]
    rfl
  · exact congrArg Host.Outcome.next (takeCommand_refused hin hs (by decide) (by rw [tagStatusReply, hp, he]))

/-- Settles O10: the index, then the record, then its items. -/
theorem groupStatusReadAnswers : Obligations.GroupStatusReadAnswers := by
  intro index crc s hs hin after
  refine ⟨fun r h1 h16 hr => ?_, fun hr => ?_, fun h1 h16 hr => ?_⟩
  · refine congrArg Host.Outcome.next (takeCommand_accepted (act := groupStatusReply index) hin hs (by decide) ?_)
    obtain ⟨-, hi⟩ := lookupKey_some hr
    rw [groupStatusReply, groupIndexReply, if_neg (by omega), hr]
    cases ha : r.assembly <;>
      simp [groupStatusResults, hi, ha, flagByte, opt1, opt2, field1, field2, wordBytes, hiByte, loByte, optGen]
  · refine congrArg Host.Outcome.next (takeCommand_refused (act := groupStatusReply index) hin hs (by decide) ?_)
    rw [groupStatusReply, groupIndexReply, if_pos hr]
  · refine congrArg Host.Outcome.next (takeCommand_refused (act := groupStatusReply index) hin hs (by decide) ?_)
    rw [groupStatusReply, groupIndexReply, if_neg (by omega), hr]

/-- Settles O11: a record of the roster, and an entry of the queue counted from its head. -/
theorem rosterAndQueueReadsAnswer : Obligations.RosterAndQueueReadsAnswer := by
  intro n crc s hs
  refine ⟨fun hin => ⟨fun p h1 h62 hp => ?_, fun hr => ?_⟩, fun hin => ⟨fun e h1 he => ?_, fun hr => ?_⟩⟩
  · refine congrArg Host.Outcome.next (takeCommand_accepted (act := rosterReply n) hin hs (by decide) ?_)
    rw [rosterReply, if_neg (by simp only [Config.lastStation]; omega), hp]
    rfl
  · refine congrArg Host.Outcome.next (takeCommand_refused (act := rosterReply n) hin hs (by decide) ?_)
    exact if_pos hr
  · refine congrArg Host.Outcome.next (takeCommand_accepted (act := queueReply n) hin hs (by decide) ?_)
    rw [queueReply, if_neg (by rintro rfl; simp at h1), he]
    cases hs : e.subject <;>
      simp [queueResults, hs, State.entryTag, subjectCode, flagByte, field1, wordBytes, hiByte, loByte]
  · refine congrArg Host.Outcome.next (takeCommand_refused (act := queueReply n) hin hs (by decide) ?_)
    unfold queueReply
    split
    · rfl
    · next h0 =>
      have : n.toNat ≠ 0 := fun h => h0 (BitVec.eq_of_toNat_eq h)
      rw [List.getElem?_eq_none (by omega)]

/-- The drain in the words of R167: a place is freed when a notice is removed. -/
theorem drainNotices_eq (clock : Clock) (n : Nat) (q : NoticeQueue) :
    drainNotices clock n q =
      if q.notices.take n ≠ [] ∧ q.lost ≠ 0 then
        { q with notices := q.notices.drop n ++ [⟨.noticesLost, 0, BitVec.ofNat 16 q.lost, clock⟩], lost := 0 }
      else { q with notices := q.notices.drop n } := by
  have freed : 0 < min n q.notices.length ↔ q.notices.take n ≠ [] := by
    rw [← List.length_take, List.length_pos_iff]
  simp only [drainNotices, freed]

/-- NOTICE READ is taken in every station state but VALIDATING (R162). -/
theorem gate_noticeRead {st : StationState} (h : st ≠ .validating) : gate .noticeRead st = none := by
  cases st <;> simp_all [gate]

/-- Settles O12: the drain of the head, and the lost count at the tail when a place was freed. -/
theorem noticeReadDrainsTheQueue : Obligations.NoticeReadDrainsTheQueue := by
  intro n crc s hv hin gone
  refine ⟨fun h1 h4 => ?_, fun hr => ?_⟩
  · refine congrArg Host.Outcome.next ((takeCommand_ok hin (gate_noticeRead hv) (if_neg (by omega))).trans ?_)
    rw [drainNotices_eq]
    rfl
  · refine congrArg Host.Outcome.next (takeCommand_error (act := noticeReply n) hin (gate_noticeRead hv) ?_)
    rw [noticeReply, if_pos hr]

/-! The image (R149). -/

/-- Settles O14: the run is written into the canonical image. -/
theorem imageWriteWritesTheRun : Obligations.ImageWriteWritesTheRun := by
  intro offset data crc s hw hu ops hin
  have hg : gate .imageWrite s.sc.state = none := by rw [hu]; rfl
  refine ⟨fun h1 h64 hend => ?_, fun hr => ?_⟩
  · refine ⟨memWriteRun s.sc.image offset.toNat data, ?_, memRead_memWriteRun (Bool.and_eq_true_iff.1 hw).1 _ _⟩
    have fits : ¬(data.length < 1 ∨ 64 < data.length ∨ 1024 < offset.toNat + data.length) := by omega
    exact congrArg Host.Outcome.next
      ((takeCommand_ok (act := imageWriteReply offset data) hin hg (if_neg fits)).trans rfl)
  · refine congrArg Host.Outcome.next (takeCommand_error (act := imageWriteReply offset data) hin hg ?_)
    exact if_pos hr

end Sys2Proof.Machine
end

section
/-! SUPPORT. Time and the station states: the clock, the timers, the claim windows, STOP, hold and release. -/

namespace Sys2Proof.Machine

/-- Settles O45: the distance of R5 is the difference modulo 65536. -/
theorem generationsCompareByDistance : Obligations.GenerationsCompareByDistance := by
  intro g h
  have distance : (g - h).toNat = (g.toNat + 65536 - h.toNat) % 65536 := by
    rw [BitVec.toNat_sub]
    have := g.isLt
    have := h.isLt
    congr 1
    omega
  rw [← distance]
  have := (g - h).isLt
  unfold compareGen
  dsimp only
  generalize (g - h).toNat = d at *
  split
  · next h0 => simp [h0]
  · split
    · next h0 hd => exact ⟨by simp [h0], by simp; omega, by simp; omega⟩
    · next h0 hd => exact ⟨by simp [h0], by simp; omega, by simp; omega⟩

/-- Settles O20: every table counts its timer down. -/
theorem clockTickCountsEveryTimer : Obligations.ClockTickCountsEveryTimer := by
  intro s less
  refine ⟨fun h => ?_, fun h => congrArg Host.Outcome.next (if_pos h)⟩
  have clock : BitVec.ofNat 32 ((s.sc.clock.toNat + 1) % 4294967296) = s.sc.clock + 1 :=
    BitVec.eq_of_toNat_eq (by simp [BitVec.toNat_add])
  rw [clock]
  exact congrArg Host.Outcome.next (if_neg (by simp [h]))

/-! Requests by expiries (R28, R29, R57, R99, R132, R133). -/

theorem takesRequests_iff (s : State) : s.takesRequests = true ↔ s.sc.state = .announce ∨ s.sc.state = .active := by
  simp [State.takesRequests]

/-- A request of another kind than RESEND in ANNOUNCE or ACTIVE (R57, R58). -/
theorem request_taken {subj : Subject} {s : State} (h : isResend subj = false)
    (taken : s.sc.state = .announce ∨ s.sc.state = .active) :
    s.request subj = { s with sq := joined subj (s.classOf subj) s.sq } := by
  rw [request_eq subj s h, if_pos ((takesRequests_iff s).2 taken)]

/-- Settles O23. -/
theorem presenceExpiryRequestsPresence : Obligations.PresenceExpiryRequestsPresence := by
  intro s hactive hdue
  refine congrArg Host.Outcome.next ((if_pos ⟨hactive, by rw [hdue]; rfl⟩).trans ?_)
  rw [request_taken (by rfl) (by exact .inr hactive)]
  rfl

theorem classOf_value {s : State} {t : Word} {e : PubEntry} (h : s.pub t = some e) :
    s.classOf (.value t) = e.cls := by
  simp [State.classOf, h]

theorem joined_of_any {subj : Subject} {q : SendQueue} (cls : Nat)
    (h : q.entries.any (fun e => e.subject = subj) = true) :
    joined subj cls q = q := if_pos h

/-- Two changes under one key are one change. -/
theorem map_map_tag {l : List PubEntry} {t : Word} {f g : PubEntry → PubEntry} (hf : ∀ e, (f e).tag = e.tag) :
    (l.map (fun e => if e.tag = t then f e else e)).map (fun e => if e.tag = t then g e else e) =
      l.map (fun e => if e.tag = t then g (f e) else e) := by
  rw [List.map_map]
  refine List.map_congr_left fun e _ => ?_
  by_cases h : e.tag = t <;> simp [h, hf]

/-- Settles O24: the timer starts again in any case; a committed entry requests, or counts what it finds queued. -/
theorem periodExpiryPublishesOrMisses : Obligations.PeriodExpiryPublishesOrMisses := by
  intro tag s e keys hactive he hdue start queued missed
  have taken : exec (.periodTimerExpiry tag) s = .next (s.periodExpiry tag e) := by
    show execPeriodTimerExpiry tag s = _
    rw [execPeriodTimerExpiry, he]
    exact congrArg Host.Outcome.next (if_pos (by rw [hdue]; rfl))
  rw [taken]
  refine congrArg Host.Outcome.next ?_
  cases hc : e.committed with
  | none => simp [State.periodExpiry, hc, State.setPub, updateKey, start, startTimer]
  | some g =>
    by_cases hq : queued = true
    · have hq' : hasEntry s.sq (.value tag) = true := hq
      simp only [State.periodExpiry, hc, hq', hq, Option.isNone_some, Option.isSome_some, if_true, and_self,
        Bool.false_eq_true, if_false, emit_eq, joined_of_any e.cls hq, State.setPub, updateKey]
      rw [map_map_tag (by exact fun _ => rfl)]
      rfl
    · have hq' : ¬hasEntry s.sq (.value tag) = true := hq
      have hpub : (s.setPub tag (fun x => { x with periodTimer := startTimer x.period })).pub tag =
          some { e with periodTimer := startTimer e.period } := by
        rw [State.pub_setPub _ _ _ (by exact fun _ => rfl), he]
        rfl
      simp only [State.periodExpiry, hc, hq', hq, Option.isNone_some, Option.isSome_some, if_true, and_false,
        Bool.false_eq_true, if_false]
      rw [request_taken (by rfl) (by exact .inr hactive), classOf_value hpub]
      rfl

/-- Settles O25. -/
theorem freshnessAndSilenceExpire : Obligations.FreshnessAndSilenceExpire := by
  intro s
  refine ⟨fun tag e he hdue => ?_, fun n p hp hpresent hdue => ?_⟩
  · have taken : exec (.freshnessTimerExpiry tag) s = .next (s.goStale tag e) := by
      show execFreshnessTimerExpiry tag s = _
      rw [execFreshnessTimerExpiry, he]
      exact congrArg Host.Outcome.next (if_pos (by rw [hdue]; rfl))
    rw [taken]
    refine congrArg Host.Outcome.next ?_
    unfold State.goStale
    simp only [emit_eq]
    cases e.resendOnStale with
    | false => rfl
    | true => rw [if_pos rfl, request_resend_eq]; rfl
  · have taken : exec (.silenceTimerExpiry n) s =
        .next ((s.setPeer n (fun x => { x with state := .silent, silenceTimer := none })).emit .peerSilent
          (BitVec.ofNat 16 n) ((p.epoch.getD 0).setWidth 16)) := by
      show execSilenceTimerExpiry n s = _
      rw [execSilenceTimerExpiry, hp]
      exact congrArg Host.Outcome.next (if_pos ⟨hpresent, by rw [hdue]; rfl⟩)
    rw [taken, emit_eq]
    rfl

/-! The entry into ANNOUNCE (R39, R141). -/

/-- CU at the entry into ANNOUNCE (R39). -/
theorem startClaims_eq {s : State} (announce : s.sc.state = .announce) :
    s.startClaims =
      { s with
        pt := s.pt.map (fun e => { e with claim := .claiming })
        cu := if s.pt = [] then s.cu else { s.cu with claimSet := s.pt.map PubEntry.tag, phase := .send1 }
        sq := if s.pt = [] then s.sq else joined .claim 14 s.sq } := by
  have tags : (s.pt.map (fun e => { e with claim := .claiming })).map PubEntry.tag = s.pt.map PubEntry.tag :=
    map_tags (by exact fun _ => rfl) _
  unfold State.startClaims
  by_cases h : s.pt = []
  · simp [h]
  · dsimp only
    rw [if_neg (by simp [h]), request_taken (by rfl) (by exact .inl announce), if_neg h, if_neg h, tags]
    rfl

/-- Settles O21: the claims join before the PRESENCE, of the lower class. -/
theorem listenExpiryAnnounces : Obligations.ListenExpiryAnnounces := by
  intro s hlisten hdue hempty presence
  refine congrArg Host.Outcome.next ((if_pos ⟨hlisten, by rw [hdue]; rfl⟩).trans ?_)
  unfold State.announce
  simp only [emitStation_eq]
  rw [startClaims_eq rfl, request_taken (by rfl) (by exact .inl rfl)]
  have queue : s.sq = ⟨[], s.sq.nextJoin⟩ := by rw [← hempty]
  rw [queue]
  by_cases h : s.pt = []
  · simp [h, joined, joinQueue, insertEntry, State.classOf, presence, stationCode]
    rfl
  · simp [h, joined, joinQueue, insertEntry, State.classOf, presence, stationCode, goesBefore, localBid]
    rfl

/-! The entry into ACTIVE (R41 to R43, R142). -/

theorem joinedValues_map {f : PubEntry → PubEntry} (hf : ∀ e, (f e).tag = e.tag ∧ (f e).cls = e.cls)
    (l : List PubEntry) (q : SendQueue) : joinedValues (l.map f) q = joinedValues l q := by
  unfold joinedValues
  rw [List.foldl_map]
  simp only [(hf _).1, (hf _).2]

/-- The period timer an entry has once the station is ACTIVE (R28, R42). -/
def periodStarted (e : PubEntry) : PubEntry :=
  if e.claim = .owned then { e with periodTimer := startTimer e.period } else e

theorem periodStarted_frame (e : PubEntry) :
    (periodStarted e).tag = e.tag ∧ (periodStarted e).cls = e.cls ∧ (periodStarted e).claim = e.claim ∧
      (periodStarted e).committed = e.committed := by
  unfold periodStarted
  split <;> exact ⟨rfl, rfl, rfl, rfl⟩

/-- Steps 2 to 4 of R42 as a whole next state. -/
theorem becomeActive_state {s : State} (tags : (s.pt.map PubEntry.tag).Nodup) :
    s.becomeActive =
      { s with
        sc := { s.sc with state := .active, presenceTimer := startTimer s.sc.presenceInterval }
        cu := { s.cu with phase := .none, windowTimer := none }
        pt := s.pt.map periodStarted
        sq := joinedValues (s.pt.filter (fun e => e.claim = .owned && e.committed.isSome)) s.sq
        nq := posted s [(.stationState, 5, 4)] } := by
  rw [becomeActive_eq, afterActive]
  simp only [emitStation_eq]
  have publishable : (s.pt.map periodStarted).filter (fun e => e.claim = .owned && e.committed.isSome) =
      (s.pt.filter (fun e => e.claim = .owned && e.committed.isSome)).map periodStarted := by
    rw [List.filter_map]
    congr 2
    funext e
    obtain ⟨-, -, hclaim, hcommitted⟩ := periodStarted_frame e
    simp [hclaim, hcommitted]
  refine (requestValues_eq ((s.pt.map periodStarted).filter (fun e => e.claim = .owned && e.committed.isSome)) _ rfl
    fun e he => ⟨?_, ?_⟩).trans ?_
  · refine lookupKey_of_mem ?_ (List.mem_filter.1 he).1 rfl
    show ((s.pt.map periodStarted).map PubEntry.tag).Nodup
    rw [map_tags fun e => (periodStarted_frame e).1]
    exact tags
  · have := (List.mem_filter.1 he).2
    simp only [Bool.and_eq_true, decide_eq_true_eq] at this
    exact this.1
  · rw [publishable, joinedValues_map fun e => ⟨(periodStarted_frame e).1, (periodStarted_frame e).2.1⟩]
    rfl

/-- A station that owns nothing becomes ACTIVE with no entry of its tables touched (R41, R43). -/
theorem becomeActive_unowned {s : State} (tags : (s.pt.map PubEntry.tag).Nodup) (h : ∀ e ∈ s.pt, e.claim ≠ .owned) :
    s.becomeActive =
      { s with
        sc := { s.sc with state := .active, presenceTimer := startTimer s.sc.presenceInterval }
        cu := { s.cu with phase := .none, windowTimer := none }
        nq := posted s [(.stationState, 5, 4)] } := by
  have same : s.pt.map periodStarted = s.pt :=
    (List.map_congr_left fun e he => if_neg (h e he)).trans (List.map_id _)
  have none : s.pt.filter (fun e => e.claim = .owned && e.committed.isSome) = [] :=
    List.filter_eq_nil_iff.2 fun e he => by simp [h e he]
  rw [becomeActive_state tags, same, none]
  rfl

/-- In ANNOUNCE no tag is OWNED (R38). -/
theorem ClaimsSafe.unowned {s : State} (h : ClaimsSafe s) (announce : s.sc.state = .announce) :
    ∀ e ∈ s.pt, e.claim ≠ .owned := fun e he hc => by
  have := (h.1 e he).2.1 hc
  rw [announce] at this
  cases this

/-- Settles O22: the tags still CLAIMING go on to a second CLAIM, or are won. -/
theorem claimWindowsEnd : Obligations.ClaimWindowsEnd := by
  intro s claims keys hannounce hdue still start
  have due : timerDue s.cu.windowTimer = true := by rw [hdue]; rfl
  have unowned := claims.unowned hannounce
  refine ⟨fun hphase hstill => ?_, fun hphase hstill => ?_, fun hphase => ?_⟩
  · refine congrArg Host.Outcome.next ((if_pos ⟨hannounce, hphase, due⟩).trans ?_)
    have some : s.claimingTags.isEmpty = false := by simpa [State.claimingTags, still] using hstill
    rw [State.endFirstWindow, if_neg (by simp [some]), request_taken (by rfl) (by exact .inl hannounce)]
    rfl
  · refine congrArg Host.Outcome.next ((if_pos ⟨hannounce, hphase, due⟩).trans ?_)
    have none : s.claimingTags.isEmpty = true := by
      rw [State.claimingTags, show s.pt.filter (fun e => e.claim = .claiming) = [] from hstill]
      rfl
    rw [State.endFirstWindow, if_pos none, becomeActive_unowned keys.pub_tags unowned]
    rfl
  · refine congrArg Host.Outcome.next ((if_pos ⟨hannounce, hphase, due⟩).trans ?_)
    have won (e : PubEntry) : (if e.claim = .claiming then reclaim .owned e else e).tag = e.tag ∧
        (if e.claim = .claiming then reclaim .owned e else e).cls = e.cls := by split <;> exact ⟨rfl, rfl⟩
    have table : (s.pt.map (fun e => if e.claim = .claiming then reclaim .owned e else e)).map periodStarted =
        s.pt.map (fun e =>
          if e.claim = .claiming then { e with claim := .owned, periodTimer := start e.period } else e) := by
      rw [List.map_map]
      refine List.map_congr_left fun e he => ?_
      by_cases hc : e.claim = .claiming
      · simp [hc, reclaim, periodStarted, start, startTimer]
      · simp [hc, periodStarted, unowned e he]
    have publishable : (s.pt.map (fun e => if e.claim = .claiming then reclaim .owned e else e)).filter
          (fun e => e.claim = .owned && e.committed.isSome) =
        (still.filter (fun e => e.committed.isSome)).map
          (fun e => if e.claim = .claiming then reclaim .owned e else e) := by
      rw [List.filter_map, List.filter_filter]
      refine congrArg (List.map _) (List.filter_congr fun e he => ?_)
      by_cases hc : e.claim = .claiming
      · simp [hc, reclaim]
      · simp [hc, unowned e he]
    rw [winClaims_eq, becomeActive_state (by rw [map_tags fun e => (won e).1]; exact keys.pub_tags), table, publishable,
      joinedValues_map won, posted_append]
    rfl

/-! STOP (R143, R144). -/

/-- Settles O19: the entry into LEAVING, with the PRESENCE of R69 joined or renewed. -/
theorem stopHaltsOrLeaves : Obligations.StopHaltsOrLeaves := by
  intro crc s hin
  refine ⟨fun h => ?_, fun h => ?_, fun h => ?_, fun h => ?_⟩
  · refine congrArg Host.Outcome.next ((takeCommand_ok (act := stopReply) hin (by rw [h]; rfl) (if_pos h)).trans ?_)
    rw [emitStation_eq]
    rfl
  · intro kept
    have hn : s.sc.state ≠ .listen := by rcases h with h | h <;> rw [h] <;> decide
    refine congrArg Host.Outcome.next
      ((takeCommand_ok (act := stopReply) hin (by rcases h with h | h <;> rw [h] <;> rfl) (if_neg hn)).trans ?_)
    rw [enterLeaving_eq]
    by_cases hp : ∃ e ∈ kept, e.subject = .presence
    · have hp' : hasEntry { s.sq with entries := kept } .presence = true := by
        simpa [hasEntry] using hp
      have queue : leaveQueue s.sq = { s.sq with
          entries := kept.map (fun e => if e.subject = .presence then { e with renew := true } else e) } := if_pos hp'
      rw [queue, if_pos hp]
      rfl
    · have hp' : ¬hasEntry { s.sq with entries := kept } .presence = true := by
        simpa [hasEntry] using hp
      have queue : leaveQueue s.sq = joinQueue .presence 12 { s.sq with entries := kept } := if_neg hp'
      rw [queue, if_neg hp]
      rfl
  · exact congrArg Host.Outcome.next (takeCommand_gated hin (by rw [h]; rfl))
  · exact congrArg Host.Outcome.next (takeCommand_gated hin (by rcases h with h | h | h | h <;> rw [h] <;> rfl))

/-! Hold and release (R120, R121). -/

/-- Settles O30: index and record first, then the held flag. -/
theorem holdAndRelease : Obligations.HoldAndRelease := by
  intro index crc s hs k
  have range {act : GroupRecord → Reply} (h : k < 1 ∨ 16 < k) : groupIndexReply index s act = .error .range := if_pos h
  have unknown {act : GroupRecord → Reply} (h1 : 1 ≤ k) (h16 : k ≤ 16) (hr : s.grp k = none) :
      groupIndexReply index s act = .error .unknown := by
    rw [groupIndexReply, if_neg (by omega), hr]
  have known {act : GroupRecord → Reply} {r : GroupRecord} (h1 : 1 ≤ k) (h16 : k ≤ 16) (hr : s.grp k = some r) :
      groupIndexReply index s act = act r := by
    rw [groupIndexReply, if_neg (by omega), hr]
  refine ⟨fun hin => ⟨fun h => ?_, fun h1 h16 hr => ?_, fun r h1 h16 hr => ⟨fun hh => ?_, fun hh => ?_⟩⟩,
    fun hin => ⟨fun h => ?_, fun h1 h16 hr => ?_, fun r h1 h16 hr => ⟨fun hh => ?_, fun hh hready => ?_,
      fun g hh hready => ?_⟩⟩⟩
  · exact congrArg Host.Outcome.next (takeCommand_refused hin hs (by decide) (range h))
  · exact congrArg Host.Outcome.next (takeCommand_refused hin hs (by decide) (unknown h1 h16 hr))
  · exact congrArg Host.Outcome.next
      (takeCommand_refused hin hs (by decide) ((known h1 h16 hr).trans (if_pos hh)))
  · exact congrArg Host.Outcome.next
      ((takeCommand_accepted hin hs (by decide) ((known h1 h16 hr).trans (if_neg (by simp [hh])))).trans rfl)
  · exact congrArg Host.Outcome.next (takeCommand_refused hin hs (by decide) (range h))
  · exact congrArg Host.Outcome.next (takeCommand_refused hin hs (by decide) (unknown h1 h16 hr))
  · exact congrArg Host.Outcome.next
      (takeCommand_refused hin hs (by decide) ((known h1 h16 hr).trans (if_neg (by simp [hh]))))
  · refine congrArg Host.Outcome.next
      ((takeCommand_accepted hin hs (by decide) ((known h1 h16 hr).trans (if_pos hh))).trans ?_)
    rw [State.releaseGroup, hready]
    rfl
  · refine congrArg Host.Outcome.next
      ((takeCommand_accepted hin hs (by decide) ((known h1 h16 hr).trans (if_pos hh))).trans ?_)
    rw [State.releaseGroup, hready]
    simp only [emit_eq]
    rfl

end Sys2Proof.Machine
end

section
/-! SUPPORT. The configuration image: the nine checks in the words of R150, R151 and R153, the result of a validation,
and what a passing one loads. -/

namespace Sys2Proof.Machine

section Checks
variable {m : Memory}

/-! The checks (R150, R151, R153). -/

theorem inRange_iff {low high n : Nat} : inRange low high n = true ↔ low ≤ n ∧ n ≤ high := by
  simp [inRange]

theorem countsInRange_iff : countsInRange m = true ↔ imageP m ≤ 32 ∧ imageS m ≤ 64 ∧ imageG m ≤ 16 := by
  simp [countsInRange, and_assoc]

theorem imageCrcGood_iff :
    imageCrcGood m = true ↔
      longBytes (crc32 ((List.range (crcOffset m)).map (memRead m))) =
        (List.range 4).map (fun i => memRead m (crcOffset m + i)) := by
  simp only [imageCrcGood, decide_eq_true_eq]

theorem headerInRange_iff :
    headerInRange m = true ↔
      (1 ≤ imageByte m 1 ∧ imageByte m 1 ≤ 62) ∧ imageByte m 2 ≤ 3 ∧ (2 ≤ imageByte m 3 ∧ imageByte m 3 ≤ 8) ∧
        (100 ≤ (imageWord m 4).toNat ∧ (imageWord m 4).toNat ≤ 5000) ∧
        20 ≤ (imageWord m 6).toNat ∧ (imageWord m 6).toNat ≤ 1000 := by
  simp [headerInRange, inRange_iff, Config.lastStation, and_assoc]

theorem validTag_iff {t : Word} : validTag t = true ↔ 1 ≤ t.toNat ∧ t.toNat ≤ 65534 := by
  have h0 : t ≠ 0 ↔ t.toNat ≠ 0 := not_congr ⟨fun h => h ▸ rfl, fun h => BitVec.eq_of_toNat_eq h⟩
  have hf : t ≠ 0xFFFF ↔ t.toNat ≠ 65535 := not_congr ⟨fun h => h ▸ rfl, fun h => BitVec.eq_of_toNat_eq h⟩
  have := t.isLt
  rw [validTag, Bool.and_eq_true, bne_iff_ne, bne_iff_ne, h0, hf]
  omega

/-- A group field: 0 stands for absent, and what is present lies in its range (R151). -/
theorem zeroAbsent_none {n : Nat} : zeroAbsent n = none ↔ n = 0 := by
  unfold zeroAbsent
  split <;> simp [*]

theorem zeroAbsent_some {n k : Nat} : zeroAbsent n = some k ↔ n ≠ 0 ∧ n = k := by
  unfold zeroAbsent
  split <;> simp [*]

theorem pubInRange_iff (i : Nat) :
    pubInRange (loadPub m i) = true ↔
      (1 ≤ (imageWord m (pubOffset i)).toNat ∧ (imageWord m (pubOffset i)).toNat ≤ 65534) ∧
        (1 ≤ imageByte m (pubOffset i + 2) ∧ imageByte m (pubOffset i + 2) ≤ 11) ∧
        (1 ≤ imageByte m (pubOffset i + 3) ∧ imageByte m (pubOffset i + 3) ≤ 32) ∧
        ((imageWord m (pubOffset i + 4)).toNat = 0 ∨
          5 ≤ (imageWord m (pubOffset i + 4)).toNat ∧ (imageWord m (pubOffset i + 4)).toNat ≤ 60000) ∧
        imageByte m (pubOffset i + 6) ≤ 8 := by
  unfold pubInRange loadPub
  simp only [Bool.and_eq_true, Bool.or_eq_true, decide_eq_true_eq, validTag_iff, inRange_iff, and_assoc]
  cases hg : zeroAbsent (imageByte m (pubOffset i + 6)) with
  | none => simp [zeroAbsent_none.1 hg]
  | some k =>
    obtain ⟨h0, hk⟩ := zeroAbsent_some.1 hg
    have low : 1 ≤ k := by omega
    simp [hk, inRange_iff, low]

theorem subInRange_iff (i : Nat) :
    subInRange m i = true ↔
      (1 ≤ (imageWord m (subOffset m i)).toNat ∧ (imageWord m (subOffset m i)).toNat ≤ 65534) ∧
        (1 ≤ imageByte m (subOffset m i + 2) ∧ imageByte m (subOffset m i + 2) ≤ 32) ∧
        ((imageWord m (subOffset m i + 3)).toNat = 0 ∨
          10 ≤ (imageWord m (subOffset m i + 3)).toNat ∧ (imageWord m (subOffset m i + 3)).toNat ≤ 60000) ∧
        imageByte m (subOffset m i + 5) ≤ imageG m ∧ imageByte m (subOffset m i + 6) ≤ 1 := by
  unfold subInRange loadSub
  simp only [Bool.and_eq_true, Bool.or_eq_true, decide_eq_true_eq, validTag_iff, inRange_iff, and_assoc, optionsClear,
    imageByte]
  cases hg : zeroAbsent (memRead m (subOffset m i + 5)).toNat with
  | none => simp [zeroAbsent_none.1 hg]
  | some k =>
    obtain ⟨h0, hk⟩ := zeroAbsent_some.1 hg
    have low : 1 ≤ k := by omega
    simp [hk, inRange_iff, low]

theorem groupInRange_iff (i : Nat) :
    groupInRange m i = true ↔
      (1 ≤ imageByte m (groupOffset m i) ∧ imageByte m (groupOffset m i) ≤ 8) ∧
        (5 ≤ (imageWord m (groupOffset m i + 1)).toNat ∧ (imageWord m (groupOffset m i + 1)).toNat ≤ 5000) ∧
        imageByte m (groupOffset m i + 3) ≤ 1 := by
  simp [groupInRange, loadGroup, optionsClear, inRange_iff, imageByte, and_assoc]

/-! The two passes over a number of entries. -/

theorem firstBad_eq_none {n : Nat} {ok : Nat → Bool} (h : ∀ i < n, ok i = true) : firstBad n ok = none :=
  List.find?_eq_none.2 fun i hi => by simp [h i (List.mem_range.1 hi)]

theorem firstBad_eq_some {n i : Nat} {ok : Nat → Bool} (hi : i < n) (bad : ¬ok i = true)
    (before : ∀ j < i, ok j = true) : firstBad n ok = some i := by
  refine List.find?_range_eq_some.2 ⟨by simp [bad], List.mem_range.2 hi, fun j hj => by simp [before j hj]⟩

/-- The tags of the image in image order, by their place (R154). -/
theorem imageTags_getElem? {i : Nat} (hi : i < imageP m + imageS m) :
    (imageTags m)[i]? = some (imageWord m (13 + 7 * i)) := by
  have lengths : ((loadPubs m).map PubEntry.tag).length = imageP m := by rw [List.length_map, length_loadPubs]
  unfold imageTags
  by_cases hp : i < imageP m
  · rw [List.getElem?_append_left (by omega)]
    simp [loadPubs, loadPub, pubOffset, hp]
  · rw [List.getElem?_append_right (by omega), lengths]
    have : i - imageP m < imageS m := by omega
    have place : 13 + 7 * imageP m + 7 * (i - imageP m) = 13 + 7 * i := by omega
    simp [loadSubs, loadSub, subOffset, this, place]

theorem length_imageTags : (imageTags m).length = imageP m + imageS m := by
  simp [imageTags, loadPubs, loadSubs]

/-- An entry repeats a tag when an entry before it has the same (R154). -/
theorem repeats_iff {i : Nat} (hi : i < imageP m + imageS m) :
    (!((imageTags m).take i).contains ((imageTags m).getD i 0)) = true ↔
      ¬∃ j < i, (imageWord m (13 + 7 * j)).toNat = (imageWord m (13 + 7 * i)).toNat := by
  rw [Bool.not_eq_true', ← Bool.not_eq_true, List.contains_iff_mem, List.getD_eq_getElem?_getD, imageTags_getElem? hi,
    Option.getD_some, List.mem_take_iff_getElem]
  refine not_congr ⟨fun ⟨j, hj, he⟩ => ?_, fun ⟨j, hj, he⟩ => ?_⟩
  · have at_j := imageTags_getElem? (m := m) (i := j) (by omega)
    rw [List.getElem?_eq_getElem (by omega), Option.some.injEq] at at_j
    exact ⟨j, by omega, by rw [← at_j, he]⟩
  · have at_j := imageTags_getElem? (m := m) (i := j) (by omega)
    rw [List.getElem?_eq_getElem (by rw [length_imageTags]; omega), Option.some.injEq] at at_j
    exact ⟨j, by rw [length_imageTags]; omega, by rw [at_j]; exact BitVec.eq_of_toNat_eq he⟩

/-- The members of a producer group, counted over the image (R153). -/
theorem producerCount_eq {k : Nat} (hk : 1 ≤ k) :
    producerCount m k = (List.range (imageP m)).countP (fun i => imageByte m (pubOffset i + 6) = k) := by
  rw [producerCount, loadPubs, List.filter_map, List.length_map, List.countP_eq_length_filter]
  refine congrArg List.length (List.filter_congr fun i _ => ?_)
  have : zeroAbsent (imageByte m (pubOffset i + 6)) = some k ↔ imageByte m (pubOffset i + 6) = k := by
    rw [zeroAbsent_some]
    omega
  simp [loadPub, this]

theorem consumerCount_eq {k : Nat} (hk : 1 ≤ k) :
    consumerCount m k = (List.range (imageS m)).countP (fun i => imageByte m (subOffset m i + 5) = k) := by
  rw [consumerCount, loadSubs, List.filter_map, List.length_map, List.countP_eq_length_filter]
  refine congrArg List.length (List.filter_congr fun i _ => ?_)
  have : zeroAbsent (imageByte m (subOffset m i + 5)) = some k ↔ imageByte m (subOffset m i + 5) = k := by
    rw [zeroAbsent_some]
    omega
  simp [loadSub, this]

/-- The first entry of a producer group (R154). -/
theorem findIdx_group {k i : Nat} (hk : 1 ≤ k) (hi : i < imageP m) (at_i : imageByte m (pubOffset i + 6) = k)
    (before : ∀ j < i, imageByte m (pubOffset j + 6) ≠ k) :
    (loadPubs m).findIdx (fun e => e.group = some k) = i := by
  have hlen : i < (loadPubs m).length := by rwa [length_loadPubs]
  have group (j : Nat) (hj : j < (loadPubs m).length) :
      (loadPubs m)[j].group = some k ↔ imageByte m (pubOffset j + 6) = k := by
    simp only [loadPubs, List.getElem_map, List.getElem_range, loadPub, zeroAbsent_some]
    omega
  refine (List.findIdx_eq hlen).2 ⟨by simpa using (group i hlen).2 at_i, fun j hj => ?_⟩
  simpa using fun h => before j hj ((group j (by omega)).1 h)

end Checks

/-! The result of a validation (R153, R154). -/

/-- The four checks of the header have passed. -/
structure Headed (m : Memory) : Prop where
  format : imageByte m 0 = 0x41
  counts : countsInRange m = true
  crc : imageCrcGood m = true
  header : headerInRange m = true

/-- The fields of every entry lie in their ranges. -/
structure Ranged (m : Memory) : Prop extends Headed m where
  pubs : ∀ i < imageP m, pubInRange (loadPub m i) = true
  subs : ∀ i < imageS m, subInRange m i = true
  groups : ∀ i < imageG m, groupInRange m i = true

section Results
variable {m : Memory}

theorem validate_counts (format : imageByte m 0 = 0x41) (h : ¬countsInRange m = true) : validate m = (2, 0) := by
  simp [validate, format, h]

theorem validate_crc (format : imageByte m 0 = 0x41) (counts : countsInRange m = true) (h : ¬imageCrcGood m = true) :
    validate m = (3, 0) := by
  simp [validate, format, counts, h]

theorem validate_header (format : imageByte m 0 = 0x41) (counts : countsInRange m = true)
    (crc : imageCrcGood m = true) (h : ¬headerInRange m = true) : validate m = (4, 0) := by
  simp [validate, format, counts, crc, h]

theorem Headed.validate_pub (h : Headed m) {i : Nat} (hi : i < imageP m) (bad : ¬pubInRange (loadPub m i) = true)
    (before : ∀ j < i, pubInRange (loadPub m j) = true) : validate m = (5, i + 1) := by
  simp [validate, h.format, h.counts, h.crc, h.header, firstBad_eq_some hi bad before]

theorem Headed.validate_sub (h : Headed m) (pubs : ∀ i < imageP m, pubInRange (loadPub m i) = true) {i : Nat}
    (hi : i < imageS m) (bad : ¬subInRange m i = true) (before : ∀ j < i, subInRange m j = true) :
    validate m = (6, imageP m + i + 1) := by
  simp [validate, h.format, h.counts, h.crc, h.header, firstBad_eq_none pubs, firstBad_eq_some hi bad before]

theorem Headed.validate_group (h : Headed m) (pubs : ∀ i < imageP m, pubInRange (loadPub m i) = true)
    (subs : ∀ i < imageS m, subInRange m i = true) {i : Nat} (hi : i < imageG m) (bad : ¬groupInRange m i = true)
    (before : ∀ j < i, groupInRange m j = true) : validate m = (7, imageP m + imageS m + i + 1) := by
  simp [validate, h.format, h.counts, h.crc, h.header, firstBad_eq_none pubs, firstBad_eq_none subs,
    firstBad_eq_some hi bad before]

theorem Ranged.validate_tags (h : Ranged m) {i : Nat} (dup : firstDuplicate (imageTags m) = some i) :
    validate m = (8, i + 1) := by
  simp [validate, h.format, h.counts, h.crc, h.header, firstBad_eq_none h.pubs, firstBad_eq_none h.subs,
    firstBad_eq_none h.groups, dup]

theorem Ranged.validate_sizes (h : Ranged m) (distinct : firstDuplicate (imageTags m) = none) :
    validate m = ((groupSizeFault m).map (fun i => (9, i))).getD (0, 0) := by
  cases hs : groupSizeFault m <;>
    simp [validate, h.format, h.counts, h.crc, h.header, firstBad_eq_none h.pubs, firstBad_eq_none h.subs,
      firstBad_eq_none h.groups, distinct, hs]

end Results

/-! What a result of 0 means (R153). -/

theorem Passed.producers {m : Memory} (h : Passed m) : ∀ i < 8, producerCount m (i + 1) = 0 ∨
    2 ≤ producerCount m (i + 1) ∧ producerCount m (i + 1) ≤ 8 := by
  have sizes := h.sizes
  unfold groupSizeFault at sizes
  split at sizes
  · cases sizes
  · next none =>
    intro i hi
    simpa [inRange_iff] using firstBad_none none i hi

theorem Passed.consumers {m : Memory} (h : Passed m) :
    ∀ i < imageG m, 2 ≤ consumerCount m (i + 1) ∧ consumerCount m (i + 1) ≤ 8 := by
  have sizes := h.sizes
  unfold groupSizeFault at sizes
  split at sizes
  · cases sizes
  · intro i hi
    exact inRange_iff.1 (firstBad_none (Option.map_eq_none_iff.1 sizes) i hi)

/-- Settles O17: each clause is one of the nine checks. -/
theorem passedImageIsSound : Obligations.PassedImageIsSound := by
  intro m hv byte word groups crcAt
  have passed := passed_of_validate hv
  obtain ⟨numberRange, rate, factor, presence, window⟩ := headerInRange_iff.1 passed.header
  obtain ⟨pCount, sCount, gCount⟩ := countsInRange_iff.1 passed.counts
  have tags {t : Word} (h : 1 ≤ t.toNat ∧ t.toNat ≤ 65534) : t ≠ 0 ∧ t ≠ 65535 := by
    constructor <;> rintro rfl <;> simp at h
  refine ⟨imageCrcGood_iff.1 passed.crc, presence, window,
    fun i hi => ((subInRange_iff i).1 (passed.subs i hi)).2.2.2.2,
    fun i hi => ((groupInRange_iff i).1 (passed.groups i hi)).2.2, passed.format, numberRange, rate, factor,
    passed.table, ?_, ?_, nodup_of_firstDuplicate passed.tags, ?_, ?_, ?_⟩
  · simpa [loadSubs] using sCount
  · simpa [loadGroups] using gCount
  · refine List.forall_mem_map.2 fun i hi => ?_
    obtain ⟨tag, ⟨cls1, cls11⟩, ⟨len1, len32⟩, period, group⟩ :=
      (pubInRange_iff i).1 (passed.pubs i (List.mem_range.1 hi))
    refine ⟨(tags tag).1, (tags tag).2, cls1, cls11, len1, len32, period, fun n hn => ?_⟩
    obtain ⟨n0, rfl⟩ := zeroAbsent_some.1 hn
    have some : 0 < producerCount m (imageByte m (pubOffset i + 6)) :=
      List.length_pos_of_mem (List.mem_filter.2 ⟨List.mem_map_of_mem hi, by simpa using hn⟩)
    have size := passed.producers (imageByte m (pubOffset i + 6) - 1) (by omega)
    rw [Nat.sub_add_cancel (by omega)] at size
    have size := size.resolve_left (by omega)
    exact ⟨by omega, group, size.1, size.2⟩
  · refine List.forall_mem_map.2 fun i hi => ?_
    obtain ⟨tag, ⟨len1, len32⟩, fresh, group, -⟩ := (subInRange_iff i).1 (passed.subs i (List.mem_range.1 hi))
    refine ⟨(tags tag).1, (tags tag).2, len1, len32, fresh, fun k hk => ?_⟩
    obtain ⟨k0, rfl⟩ := zeroAbsent_some.1 hk
    refine ⟨loadGroup m (imageByte m (subOffset m i + 5) - 1), List.mem_map_of_mem (List.mem_range.2 (by omega)), ?_⟩
    exact Nat.sub_add_cancel (by omega)
  · refine List.forall_mem_map.2 fun i hi => ?_
    obtain ⟨⟨exp1, exp8⟩, ⟨lim5, lim5000⟩, -⟩ := (groupInRange_iff i).1 (passed.groups i (List.mem_range.1 hi))
    exact ⟨exp1, exp8, lim5, lim5000, passed.consumers i (List.mem_range.1 hi)⟩

/-! The end of a validation (R155, R156). -/

theorem validationRuns_iff (s : State) :
    s.validationRuns = true ↔ s.sc.state = .validating ∧ s.hp.resetPending = false := by
  simp [State.validationRuns]

/-- Bit 0 of a byte (R151). -/
theorem getLsbD_zero_eq (b : Byte) : b.getLsbD 0 = decide (b.toNat % 2 = 1) := by
  rw [BitVec.getLsbD, Nat.testBit_zero]

/-- Settles O16: the tables of the image, entry by entry. -/
theorem passedValidationLoadsTheImage : Obligations.PassedValidationLoadsTheImage := by
  intro s hv hpass
  refine ⟨fun hr => ?_, fun hr => ?_⟩
  · exact congrArg Host.Outcome.next (if_neg fun h => by simp [State.validationRuns, hr] at h)
  · intro m byte word absent subs groups nq
    refine ⟨loadPubs m, loadSubs m, loadGroups m, ?_, by simp [loadPubs, imageP, imageByte, byte],
      by simp [loadSubs, imageS, imageByte, byte], by simp [loadGroups, imageG, imageByte, byte], fun i hi => ?_,
      fun i hi => ?_, fun i hi => ?_⟩
    · refine congrArg Host.Outcome.next ((if_pos ⟨(validationRuns_iff s).2 ⟨hv, hr⟩, hpass⟩).trans ?_)
      simp only [emit_eq, emitStation_eq]
      rw [show ([(.sealResult, 0, 0), (.stationState, 2, 2)] : List (NoticeKind × Word × Word)) =
        [(.sealResult, 0, 0)] ++ [(.stationState, 2, 2)] from rfl, posted_append]
      rfl
    · rw [loadPubs, List.getElem?_map, List.getElem?_range (show i < imageP m from hi)]
      rfl
    · rw [loadSubs, List.getElem?_map, List.getElem?_range (show i < imageS m from hi), Option.map_some, loadSub,
        getLsbD_zero_eq]
      rfl
    · rw [loadGroups, List.getElem?_map, List.getElem?_range (show i < imageG m from hi), Option.map_some,
        loadGroup, getLsbD_zero_eq]
      rfl

/-- Settles O15: SEAL's check, the end of a failed validation, and the nine checks one after another. -/
theorem sealAndFailedValidation : Obligations.SealAndFailedValidation := by
  refine ⟨fun epoch crc s hs hin => ?_, fun s hv hfail => ?_, fun m => ?_⟩
  · have hg : gate .seal s.sc.state = none := by rw [hs]; rfl
    refine ⟨fun h => ?_, fun h => ?_⟩
    · exact congrArg Host.Outcome.next ((takeCommand_ok (act := sealReply epoch) hin hg (if_neg h)).trans rfl)
    · exact congrArg Host.Outcome.next (takeCommand_error (act := sealReply epoch) hin hg (if_pos h))
  · cases hr : s.hp.resetPending with
    | true => exact congrArg Host.Outcome.next (if_neg fun h => by simp [State.validationRuns, hr] at h)
    | false =>
      refine congrArg Host.Outcome.next ((if_pos ⟨(validationRuns_iff s).2 ⟨hv, hr⟩, hfail⟩).trans ?_)
      rw [emit_eq]
      rfl
  · intro byte word p n groups crcAt crcGood within header tag pub sub group again produced consumed sound ranges result
    have crcOffset_eq : crcOffset m = crcAt := by
      show 13 + 7 * imageP m + 7 * imageS m + 4 * imageG m = 13 + 7 * (imageP m + imageS m) + 4 * imageG m
      omega
    have crc_iff : imageCrcGood m = true ↔ crcGood := by rw [imageCrcGood_iff, crcOffset_eq]
    have header_iff : headerInRange m = true ↔ header := headerInRange_iff
    have counts_iff : countsInRange m = true ↔ p ≤ 32 ∧ byte 11 ≤ 64 ∧ byte 12 ≤ 16 := countsInRange_iff
    have pub_iff (i : Nat) : pubInRange (loadPub m i) = true ↔ pub i := pubInRange_iff i
    have subOffset_eq (i : Nat) : subOffset m i = 13 + 7 * (p + i) := by
      show 13 + 7 * imageP m + 7 * i = 13 + 7 * (imageP m + i)
      omega
    have sub_iff (i : Nat) : subInRange m i = true ↔ sub i := by
      rw [subInRange_iff, subOffset_eq]
      rfl
    have groupOffset_eq (i : Nat) : groupOffset m i = groups + 4 * i := by
      show 13 + 7 * imageP m + 7 * imageS m + 4 * i = 13 + 7 * (imageP m + imageS m) + 4 * i
      omega
    have group_iff (i : Nat) : groupInRange m i = true ↔ group i := by
      rw [groupInRange_iff, groupOffset_eq]
      rfl
    have produced_eq {k : Nat} (hk : 1 ≤ k) : producerCount m k = produced k := producerCount_eq hk
    have consumed_eq {k : Nat} (hk : 1 ≤ k) : consumerCount m k = consumed k := by
      rw [consumerCount_eq hk]
      simp only [subOffset_eq]
      rfl
    have again_iff {i : Nat} (hi : i < n) :
        (!((imageTags m).take i).contains ((imageTags m).getD i 0)) = true ↔ ¬again i := repeats_iff hi
    have sound_iff {k : Nat} (hk : 1 ≤ k) :
        (producerCount m k = 0 || inRange 2 8 (producerCount m k)) = true ↔ sound k := by
      rw [Bool.or_eq_true, decide_eq_true_eq, inRange_iff, produced_eq hk]
    have consumed_iff {k : Nat} (hk : 1 ≤ k) : inRange 2 8 (consumerCount m k) = true ↔ within 2 8 (consumed k) := by
      rw [inRange_iff, consumed_eq hk]
    refine ⟨fun h => if_pos h, fun format => ⟨fun h => ?_, fun h1 h2 h3 => ?_⟩⟩
    · exact validate_counts format (counts_iff.not.2 (by omega))
    have counts : countsInRange m = true := counts_iff.2 ⟨h1, h2, h3⟩
    refine ⟨fun h => validate_crc format counts (crc_iff.not.2 h), fun hcrc =>
      ⟨fun h => validate_header format counts (crc_iff.2 hcrc) (header_iff.not.2 h), fun hheader => ?_⟩⟩
    have headed : Headed m := ⟨format, counts, crc_iff.2 hcrc, header_iff.2 hheader⟩
    refine ⟨fun i hi bad before => ?_, fun i hi pubs bad before => ?_, fun i hi pubs subs bad before => ?_,
      fun ⟨pubs, subs, groups⟩ => ?_⟩
    · exact headed.validate_pub hi ((pub_iff i).not.2 bad) fun j hj => (pub_iff j).2 (before j hj)
    · exact headed.validate_sub (fun j hj => (pub_iff j).2 (pubs j hj)) hi ((sub_iff i).not.2 bad)
        fun j hj => (sub_iff j).2 (before j hj)
    · exact headed.validate_group (fun j hj => (pub_iff j).2 (pubs j hj)) (fun j hj => (sub_iff j).2 (subs j hj)) hi
        ((group_iff i).not.2 bad) fun j hj => (group_iff j).2 (before j hj)
    have ranged : Ranged m := ⟨headed, fun j hj => (pub_iff j).2 (pubs j hj), fun j hj => (sub_iff j).2 (subs j hj),
      fun j hj => (group_iff j).2 (groups j hj)⟩
    refine ⟨fun i hi rep before => ?_, fun distinct => ?_⟩
    · refine ranged.validate_tags (firstBad_eq_some (by rw [length_imageTags]; exact hi)
        (fun h => (again_iff hi).1 h rep) fun j hj => (again_iff (by omega)).2 (before j hj))
    have distinct : firstDuplicate (imageTags m) = none :=
      firstBad_eq_none fun j hj => (again_iff (by rw [length_imageTags] at hj; exact hj)).2
        (distinct j (by rw [length_imageTags] at hj; exact hj))
    have sizes := ranged.validate_sizes distinct
    refine ⟨fun k i ⟨k1, k8⟩ unsound before hi at_i first => ?_, fun producers => ?_⟩
    · have bad : badProducerGroup m = some (k - 1) := by
        refine firstBad_eq_some (by omega) ?_ fun j hj => (sound_iff (by omega)).2 (before _ (by omega) (by omega))
        rw [Nat.sub_add_cancel k1, sound_iff k1]
        exact unsound
      refine sizes.trans ?_
      simp only [groupSizeFault, bad, Nat.sub_add_cancel k1, findIdx_group k1 hi at_i first]
      rfl
    have good : badProducerGroup m = none :=
      firstBad_eq_none fun j hj => (sound_iff (by omega)).2 (producers _ ⟨by omega, by omega⟩)
    refine ⟨fun k ⟨k1, kG⟩ wrong before => ?_, fun consumers => ?_⟩
    · have bad : badConsumerGroup m = some (k - 1) := by
        refine firstBad_eq_some (show k - 1 < byte 12 by omega) ?_
          fun j hj => (consumed_iff (by omega)).2 (before _ (by omega) (by omega))
        rw [Nat.sub_add_cancel k1, consumed_iff k1]
        exact wrong
      refine sizes.trans ?_
      simp only [groupSizeFault, good, bad, Option.map_some, Option.getD_some]
      refine congrArg (Prod.mk 9) ?_
      show n + (k - 1) + 1 = n + k
      omega
    · have fine : badConsumerGroup m = none :=
        firstBad_eq_none fun j hj => (consumed_iff (by omega)).2 (consumers _ ⟨by omega, hj⟩)
      refine sizes.trans ?_
      simp only [groupSizeFault, good, fine]
      rfl

end Sys2Proof.Machine
end

section
/-! SUPPORT. Bits and bytes: transactions on the host port, data out, and frames on the line. -/

namespace Sys2Proof.Machine

/-! Transactions (R157 to R160, R172). -/

/-- The codes of R172 are the ones that name a command. -/
theorem namesCommand_false {code : Byte} (h : code ∉ allCommands.map commandCode) : namesCommand code = false := by
  unfold namesCommand
  rw [List.any_eq_false]
  intro c hc he
  exact h (List.mem_map.2 ⟨c, hc, by simpa using he⟩)

/-- Operand bytes alone, without the CRC-8 byte, spell nothing (R159). -/
theorem spelled_short {i : Instr} {c : Command} {ops : List Byte} {crc : Byte} (h : hostWire i = some (c, ops, crc))
    (hw : i.wellFormed = true) (k : Nat) : spelled c (ops.take k) = none := by
  have counted {count : Nat} {data : List Byte} (j : Nat) (hd : data.length ≤ 255) (hc : data.length = count) :
      countedData (BitVec.ofNat 8 count) (data.take j) = none := by
    refine countedData_short ?_
    rw [BitVec.toNat_ofNat, List.length_take]
    omega
  cases i <;> cases h
  case imageWrite =>
    match k with
    | 0 | 1 | 2 => rfl
    | j + 3 => simp [wordBytes, spelled, counted j (of_decide_eq_true hw) rfl]
  case draftWrite =>
    match k with
    | 0 | 1 | 2 | 3 => rfl
    | j + 4 => simp [wordBytes, spelled, counted j (of_decide_eq_true hw) rfl]
  case commit => match k with
    | 0 | 1 | j + 2 => simp [wordBytes, spelled]
  case valueRead => match k with
    | 0 | 1 | j + 2 => simp [wordBytes, spelled]
  case tagStatusRead => match k with
    | 0 | 1 | j + 2 => simp [wordBytes, spelled]
  all_goals
    match k with
    | 0 | j + 1 => simp [spelled]

/-- Before its CRC-8 byte a command is not complete (R159). -/
theorem commandOf_short {i : Instr} {c : Command} {ops : List Byte} {crc : Byte} (h : hostWire i = some (c, ops, crc))
    (hw : i.wellFormed = true) (n : Nat) : commandOf ((commandCode c :: ops).take n) = none := by
  cases n with
  | zero => rfl
  | succ k =>
    rw [List.take_succ_cons, commandOf, commandNamed_code]
    exact spelled_short h hw k

theorem commandOf_unknown {code : Byte} (h : namesCommand code = false) (rest : List Byte) :
    commandOf (code :: rest) = rest.head?.map (.unknownCommandCode code) := by
  rw [commandOf, commandNamed_none h]

/-- A transaction of whole bytes and an incomplete one (R157, R159). -/
theorem transaction_bytes {bytes : List Byte} {part : List Bool} {i : Instr} (h : commandOf bytes = some i)
    (hpart : part.length < 8) :
    transaction (bitsOfBytes bytes ++ part) = [.chipSelectFall, i, .chipSelectRise] := by
  rw [transaction, wholeBytes_bitsOfBytes bytes hpart, h]
  rfl

/-- A transaction cut short before a command is complete holds none (R159). -/
theorem transaction_cut {bytes : List Byte} {n : Nat} (h : commandOf (bytes.take (n / 8)) = none) :
    transaction ((bitsOfBytes bytes).take n) = [.chipSelectFall, .chipSelectRise] := by
  rw [transaction, wholeBytes_take, h]
  rfl

/-! Data out (R157, R158). -/

theorem dataOutBit_eq (s : State) (i : Nat) {k : Nat} (hk : k < 8) :
    s.dataOutBit (8 * i + k) = (s.dataOut i).map (fun b => b.getLsbD (7 - k)) := by
  have byte : (8 * i + k) / 8 = i := by omega
  have bit : (8 * i + k) % 8 = k := by omega
  rw [State.dataOutBit, byte, bit]
  congr 1
  funext b
  simp [BitVec.getMsbD, hk]

theorem dataOut_released {s : State} (i : Nat) (h : s.hp.phase = .idle ∨ s.sc.resetPin = true) :
    s.dataOut i = none := if_pos (by simpa [State.sdoReleased] using h)

theorem dataOut_receiving {s : State} (i : Nat) (hr : s.sc.resetPin = false) (h : s.hp.phase = .receiving) :
    s.dataOut i = some 0 := by
  simp [State.dataOut, State.sdoReleased, hr, h]

theorem dataOut_answered {s : State} (i : Nat) (hr : s.sc.resetPin = false) (h : s.hp.phase = .answered) :
    s.dataOut i =
      some (if i ≤ s.hp.received.length then 0 else s.hp.response.getD (i - s.hp.received.length - 1) 0) := by
  simp [State.dataOut, State.sdoReleased, hr, h]

/-- Settles O6: the checks of R160 in their order, the bytes read back, and the bytes data out shows. -/
theorem damagedAndUnknownCommands : Obligations.DamagedAndUnknownCommands := by
  intro s
  refine ⟨fun hr i c ops crc hi hd => ?_, fun hr code crc hcode => ?_, fun hr i c ops crc hi => ?_,
    fun hr code crc => ?_, fun i c ops crc rest hi hw => ⟨commandOf_hostWire rest hi hw,
      fun n _ => commandOf_short hi hw n⟩,
    fun code crc rest hw => ?_, fun i c ops crc rest part hi hw hpart => ?_, fun code crc rest part hw hpart => ?_,
    fun i => ?_⟩
  · obtain ⟨act, -, hex⟩ := exec_host hi
    rw [hex, takeCommand_damaged hr hd]
  · have unknown : namesCommand code = false := namesCommand_false hcode
    refine congrArg Host.Outcome.next ((if_pos ⟨hr, by rw [unknown]; rfl⟩).trans ?_)
    by_cases hcrc : crc8 [code] = crc
    · rw [if_pos hcrc, if_pos hcrc]; rfl
    · rw [if_neg hcrc, if_neg hcrc]; rfl
  · obtain ⟨act, -, hex⟩ := exec_host hi
    rw [hex, takeCommand_ignored hr]
  · exact congrArg Host.Outcome.next (if_neg fun h => hr h.1)
  · have unknown : namesCommand code = false := by simpa [Instr.wellFormed] using hw
    exact ⟨commandOf_unknown unknown _, commandOf_unknown unknown _⟩
  · refine ⟨transaction_bytes (commandOf_hostWire rest hi hw) hpart, fun n hn => transaction_cut ?_⟩
    rw [List.take_append_of_le_length (by rw [List.length_cons]; omega)]
    exact commandOf_short hi hw _
  · have unknown : namesCommand code = false := by simpa [Instr.wellFormed] using hw
    refine ⟨transaction_bytes (commandOf_unknown unknown _) hpart, fun n hn => transaction_cut ?_⟩
    have first : n / 8 = 0 ∨ n / 8 = 1 := by omega
    rcases first with h | h <;> rw [h]
    · rfl
    · exact commandOf_unknown unknown []
  · refine ⟨fun k hk => dataOutBit_eq s i hk, dataOut_released i, dataOut_receiving i, fun hr h => ⟨fun hi => ?_,
      fun b hb => ?_, fun hi => ?_⟩⟩
    · rw [dataOut_answered i hr h, if_pos hi]
    · rw [dataOut_answered _ hr h, if_neg (by omega), List.getD_eq_getElem?_getD,
        show s.hp.received.length + 1 + i - s.hp.received.length - 1 = i by omega, hb]
      rfl
    · rw [dataOut_answered _ hr h, if_neg (by omega), List.getD_eq_getElem?_getD,
        List.getElem?_eq_none (by omega)]
      rfl

/-! Frames on the line (R14, R73, R83, R87, R170). -/

theorem bytesOfBits_bitsOfBytes (bs : List Byte) : bytesOfBits (bitsOfBytes bs) = some bs := by
  induction bs with
  | nil => rfl
  | cons b bs ih =>
    have first (bits : List Bool) : bytesOfBits (msbBits b ++ bits) = (bytesOfBits bits).map (b :: ·) := by
      conv => rhs; rw [← byteOfBits_msbBits b]
      rfl
    rw [bitsOfBytes, List.flatMap_cons, first]
    exact congrArg (Option.map (b :: ·)) ih

/-- The checks of R83 find a whole body good, whatever its kind and payload. -/
theorem checkBody_payload (bid : Word) (kind : Byte) {payload : List Byte} (h : payload.length ≤ 255) :
    checkBody bid (bodyOfLevels (payloadLevels bid kind payload)) = .whole kind payload := by
  have body : bodyOfLevels (payloadLevels bid kind payload) = bitsOfBytes (bodyBytes bid kind payload) := by
    rw [payloadLevels, bodyOfLevels_end, unstuff_stuff _ 0 (by omega)]
  have bytes := bytesOfBits_bitsOfBytes (bodyBytes bid kind payload)
  rw [body]
  cases hb : bitsOfBytes (bodyBytes bid kind payload) with
  | nil => simp [bodyBytes, bitsOfBytes, msbBits] at hb
  | cons b bs =>
    rw [hb] at bytes
    rw [checkBody, bytes]
    have hlen : payload.length % 256 = payload.length := Nat.mod_eq_of_lt (by omega)
    simp [checkBytes, bodyBytes, wordBytes, hlen]

theorem wellFormed_fits {bid : Word} {f : Frame} (h : wellFormed bid f = true) : kindFits bid f = true := by
  simp only [wellFormed, Bool.and_eq_true] at h
  exact h.1.1

theorem tagList_length {tags : List Word} (h : tagList tags = true) : tags.length ≤ 32 := by
  simp only [tagList, Bool.and_eq_true, decide_eq_true_eq] at h
  exact h.1.1.2

theorem length_tagBytes (tags : List Word) : (tags.flatMap wordBytes).length = 2 * tags.length := by
  induction tags with
  | nil => rfl
  | cons t ts ih => rw [List.flatMap_cons, List.length_append, ih]; simp [wordBytes]; omega

/-- A CLAIM of 32 tags has the longest payload. -/
theorem framePayload_length {bid : Word} {f : Frame} (h : wellFormed bid f = true) : (framePayload f).length ≤ 66 := by
  have fits := wellFormed_fits h
  cases f with
  | value e t g n c data =>
    simp only [kindFits, Bool.and_eq_true, decide_eq_true_eq] at fits
    obtain ⟨⟨⟨-, len⟩, -⟩, -⟩ := fits
    simp [framePayload, wordBytes]
    omega
  | claim e tags =>
    simp only [kindFits, Bool.and_eq_true] at fits
    have := tagList_length fits.2
    simp only [framePayload, List.length_cons, length_tagBytes]
    omega
  | defend e tags =>
    simp only [kindFits, Bool.and_eq_true] at fits
    have := tagList_length fits.2
    simp only [framePayload, List.length_cons, length_tagBytes]
    omega
  | presence e c n => simp [framePayload]
  | resend e t => simp [framePayload, wordBytes]

theorem countedTags_wordBytes {tags : List Word} (h : tags.length ≤ 32) :
    countedTags (BitVec.ofNat 8 tags.length) (tags.flatMap wordBytes) = some tags := by
  rw [countedTags, tagsOfBytes_wordBytes]
  exact if_pos (by rw [BitVec.toNat_ofNat]; omega)

/-- The payload of a well-formed frame spells the frame (R14, R170). -/
theorem parsePayload_frame {bid : Word} {f : Frame} (h : wellFormed bid f = true) :
    parsePayload (frameKind f) (framePayload f) = some f := by
  have fits := wellFormed_fits h
  cases f with
  | value e t g n c data => simp [parsePayload, frameKind, framePayload, wordBytes, wordOfBytes_wordBytes]
  | claim e tags =>
    simp only [kindFits, Bool.and_eq_true] at fits
    simp [parsePayload, frameKind, framePayload, countedTags_wordBytes (tagList_length fits.2)]
  | defend e tags =>
    simp only [kindFits, Bool.and_eq_true] at fits
    simp [parsePayload, frameKind, framePayload, countedTags_wordBytes (tagList_length fits.2)]
  | presence e c n => rfl
  | resend e t => simp [parsePayload, frameKind, framePayload, wordBytes, wordOfBytes_wordBytes]

/-- A stuffed run never holds five recessive levels in a row (R73). -/
theorem noEndRun_stuff (l : List Bool) : ∀ n < 4, noEndRun n (stuff n l ++ [true]) = true := by
  induction l with
  | nil => intro n _; rfl
  | cons b bs ih =>
    intro n hn
    cases b with
    | true => exact ih 0 (by omega)
    | false =>
      by_cases h3 : n = 3
      · subst h3
        simpa [stuff, noEndRun, Config.endRun] using ih 0 (by omega)
      · have : n + 1 < Config.endRun := by unfold Config.endRun; omega
        simpa [stuff, noEndRun, h3, this] using ih (n + 1) (by omega)

theorem length_bitsOfBytes (bs : List Byte) : (bitsOfBytes bs).length = 8 * bs.length := by
  induction bs with
  | nil => rfl
  | cons b bs ih =>
    rw [bitsOfBytes, List.flatMap_cons, List.length_append, show bs.flatMap msbBits = bitsOfBytes bs from rfl, ih]
    simp [msbBits]
    omega

/-- The longest frame: 560 body bits, 140 stuff bits and the end bit. -/
theorem frameLevels_length {bid : Word} {f : Frame} (h : wellFormed bid f = true) :
    (frameLevels bid f).length ≤ 701 := by
  have payload := framePayload_length h
  have stuffed := stuff_length (bitsOfBytes (bodyBytes bid (frameKind f) (framePayload f))) 0 (by omega)
  rw [length_bitsOfBytes] at stuffed
  have body : (bodyBytes bid (frameKind f) (framePayload f)).length = (framePayload f).length + 4 := by
    simp [bodyBytes, wordBytes]
  rw [frameLevels, payloadLevels, List.length_append, List.length_singleton]
  omega

/-- Settles O47: every step of sending is undone by the receiver, and the longest frame is counted out. -/
theorem framesSurviveTheLine : Obligations.FramesSurviveTheLine := by
  intro bid f h
  have payload := framePayload_length h
  have levels := frameLevels_length h
  refine ⟨checkBody_payload bid (frameKind f) (by omega), parsePayload_frame h, ?_, ?_, endsInTime_of_length ?_⟩
  · rw [bodyLevels, frameLevels, payloadLevels, noEndRun_stuff _ 0 (by omega)]
    simp
  · simp only [List.length_append, List.length_cons, msbBits, List.length_map, List.length_range]
    omega
  · have := foldl_hearBit_busy (true :: msbBits bid) (0, 0)
    simp only [List.length_cons, msbBits, List.length_map, List.length_range] at this
    unfold bidCounts
    exact (Nat.add_le_add this levels).trans (by decide)

end Sys2Proof.Machine
end

section
/-! SUPPORT. The line: synchronising, faults and rounds. -/

namespace Sys2Proof.Machine

/-! Mismatches of the bid (R77, R81). -/

/-- A mismatch of the bid below the limit, in the words of the statements (R77, R81). -/
theorem bidBroken_eq {s : State} (h : s.la.txErrors ≤ 7) : s.bidBroken = mismatchTaken s := by
  have counted : satInc Config.readbackLimit s.la.txErrors = s.la.txErrors + 1 :=
    if_pos (Nat.lt_succ_of_le h)
  unfold State.bidBroken mismatchTaken
  dsimp only [State.setLine, State.count]
  rw [counted]
  by_cases h7 : s.la.txErrors = 7
  · rw [if_pos (by rw [h7]; rfl), if_pos h7, enterMute_eq]
    rfl
  · have h8 : ¬s.la.txErrors + 1 = Config.readbackLimit := fun h8 => h7 (Nat.succ.inj h8)
    rw [if_neg h8, if_neg h7]
    rfl

theorem takeMismatch_eq {s : State} (h : s.la.txErrors ≤ 7) :
    s.takeMismatch = if s.la.bidMismatch then mismatchTaken s else s := by
  rw [State.takeMismatch, bidBroken_eq h]

/-! Synchronising and faults (R74, R87, R88). -/

theorem declareFault_eq (s : State) :
    s.declareFault =
      { s with
        la :=
          { s.la with
            lineState := .fault, gap := Config.faultGap s.sc.clock % 5, busy := 1001, heardBid := none
            ownBroken := false
            counters :=
              { s.la.counters with
                receivedBad :=
                  if s.la.lineState = .receiving ∧ s.la.ownBroken = false then
                    bump 4294967295 s.la.counters.receivedBad
                  else s.la.counters.receivedBad } }
        nq := posted s [(.lineState, 1, 0)] } := by
  unfold State.declareFault
  simp only [emit_eq]
  by_cases h : s.la.lineState = .receiving ∧ s.la.ownBroken = false
  · rw [if_pos h, if_pos (by simpa using h)]
    rfl
  · rw [if_neg h, if_neg (by simpa using h)]
    rfl

/-- Settles O31. -/
theorem synchronisingAndLineFaults : Obligations.SynchronisingAndLineFaults := by
  intro s
  refine ⟨fun hw hs hi => ?_, fun hw hl => ?_, fun hf => ⟨fun hm => ?_, fun hm h7 => ?_⟩⟩
  · exact congrArg Host.Outcome.next ((if_pos ⟨hw, by simp [hs], hi⟩).trans rfl)
  · have possible : faultPossible s.la = true := by simpa [faultPossible, hw] using hl
    exact congrArg Host.Outcome.next ((if_pos possible).trans (declareFault_eq s))
  · refine congrArg Host.Outcome.next ((if_pos hf).trans ?_)
    rw [emit_eq, State.takeMismatch, if_neg (by simp [hm])]
    rfl
  · refine congrArg Host.Outcome.next ((if_pos hf).trans ?_)
    rw [emit_eq, takeMismatch_eq h7, if_pos hm]
    rfl

/-! Rounds (R61 to R65, R75 to R78). -/

theorem contends_idle_iff (idle : Nat) (s : State) :
    (s.setLine (idleLine idle)).contends = true ↔
      10 ≤ s.la.gap + idle ∧ (s.sc.state = .announce ∨ s.sc.state = .active ∨ s.sc.state = .leaving) ∧
        s.sq.entries ≠ [] := by
  have gap : Config.gapComplete ≤ (s.setLine (idleLine idle)).la.gap ↔ 10 ≤ s.la.gap + idle := by
    show 10 ≤ min 15 (s.la.gap + idle) ↔ _
    omega
  rw [State.contends, Bool.and_eq_true, Bool.and_eq_true, decide_eq_true_eq, gap, mayContend_iff, and_assoc]
  simp

/-- Settles O32: the head of the queue is the candidate of a round the station contends in. -/
theorem roundOpens : Obligations.RoundOpens := by
  intro idle s hsync hidle opened may
  have taken : exec (.roundOpen idle) s = .next (s.setLine (idleLine idle)).openRound :=
    congrArg Host.Outcome.next (if_pos ⟨hsync, hidle⟩)
  refine ⟨fun e es hgap hmay hq => ?_, fun h => ?_, ?_⟩
  · have contends : (s.setLine (idleLine idle)).contends = true :=
      (contends_idle_iff idle s).2 ⟨hgap, hmay, by simp [hq]⟩
    have round : (s.setLine (idleLine idle)).openedRound =
        some ⟨e.join, (e :: es).map QueueEntry.join, makeBid e.cls e.age s.own⟩ := by
      rw [State.openedRound, show (s.setLine (idleLine idle)).sq.entries = e :: es from hq]
      exact if_pos contends
    rw [taken, State.openRound, round]
    rfl
  · have contends : ¬(s.setLine (idleLine idle)).contends = true := by
      rw [contends_idle_iff]
      rintro ⟨hgap, hmay, hq⟩
      rcases h with h | h | h
      · omega
      · exact h hmay
      · exact hq h
    have round : (s.setLine (idleLine idle)).openedRound = none := by
      unfold State.openedRound
      split
      · rfl
      · exact if_neg contends
    rw [taken, State.openRound, round]
    rfl
  · rw [State.drives, hidle]
    simp only [Bool.and_eq_true, State.opensRound, List.length_replicate, contends_idle_iff, hsync, hidle, decide_true,
      true_and]
    simp [may]

theorem insertTag_perm (t : Word) (l : List Word) : (insertTag t l).Perm (t :: l) := by
  induction l with
  | nil => exact .refl _
  | cons x xs ih =>
    unfold insertTag
    split
    · exact .refl _
    · exact (ih.cons x).trans (.swap t x xs)

theorem sortTags_perm (l : List Word) : (sortTags l).Perm l := by
  induction l with
  | nil => exact .refl _
  | cons x xs ih => exact (insertTag_perm x _).trans (ih.cons x)

theorem insertTag_ascending {t : Word} {l : List Word} (h : l.Pairwise (fun a b => a.toNat ≤ b.toNat)) :
    (insertTag t l).Pairwise (fun a b => a.toNat ≤ b.toNat) := by
  induction l with
  | nil => exact List.pairwise_singleton ..
  | cons x xs ih =>
    obtain ⟨first, rest⟩ := List.pairwise_cons.1 h
    unfold insertTag
    split
    · next hle =>
      refine List.pairwise_cons.2 ⟨fun y hy => ?_, h⟩
      rcases List.mem_cons.1 hy with rfl | hy
      · exact hle
      · exact hle.trans (first y hy)
    · next hle =>
      refine List.pairwise_cons.2 ⟨fun y hy => ?_, ih rest⟩
      rcases List.mem_cons.1 ((insertTag_perm t xs).subset hy) with rfl | hy
      · omega
      · exact first y hy

theorem sortTags_ascending (l : List Word) : (sortTags l).Pairwise (fun a b => a.toNat ≤ b.toNat) := by
  induction l with
  | nil => exact List.Pairwise.nil
  | cons x xs ih => exact insertTag_ascending ih

/-- The aging of R62 in the words of the statements. -/
theorem ageEntry_eq (noted : List Nat) :
    ageEntry noted = fun e => if e.join ∈ noted then { e with age := bump 63 e.age } else e := rfl

/-- The condition byte a station state states in its PRESENCE (R12). -/
theorem presenceFrame_eq (s : State) :
    s.presenceFrame =
      .presence (s.sc.epoch.getD 0) (if s.sc.state = .announce then 1 else if s.sc.state = .leaving then 3 else 2)
        (BitVec.ofNat 8 s.pt.length) := by
  unfold State.presenceFrame State.ownEpoch
  cases s.sc.state <;> rfl

theorem fixSubset_eq (subj : Subject) (cu : ClaimUnit) :
    fixSubset subj cu =
      { cu with
        claimFlight := if subj = .claim then cu.claimSet else cu.claimFlight
        defendFlight := if subj = .defend then cu.defendSet else cu.defendFlight } := by
  cases subj <;> rfl

/-- With one entry for a subject, the entry of a subject is one entry (R58). -/
theorem markEntry_of_mem {q : SendQueue} {e : QueueEntry} (f : QueueEntry → QueueEntry) (he : e ∈ q.entries)
    (hn : (q.entries.map QueueEntry.subject).Nodup) :
    markEntry e.subject f q = { q with entries := q.entries.map (fun x => if x = e then f x else x) } := by
  unfold markEntry updateKey
  congr 1
  refine List.map_congr_left fun x hx => ?_
  have same : x.subject = e.subject ↔ x = e :=
    ⟨fun h => List.inj_on_of_nodup_map hn hx he h, fun h => h ▸ rfl⟩
  simp only [same]

/-- A frame sent carries the own epoch (R3). -/
theorem frameEpoch_frameOf (s : State) (subj : Subject) : frameEpoch (s.frameOf subj) = s.sc.epoch.getD 0 := by
  cases subj with
  | value t =>
    show frameEpoch (match s.pub t with | some e => s.valueFrame e | none => s.presenceFrame) = _
    split <;> rfl
  | _ => rfl

/-- The frame of a publication entry, from its live buffer (R8, R9). -/
theorem frameOf_value {s : State} {tag : Word} {p : PubEntry} (h : s.pub tag = some p) :
    s.frameOf (.value tag) =
      .value (s.sc.epoch.getD 0) p.tag ((liveBuffer p).gen.getD 0) (BitVec.ofNat 8 (p.group.getD 0))
        (s.groupFields p).2 (liveBuffer p).data := by
  have frame : s.frameOf (.value tag) = s.valueFrame p := by simp only [State.frameOf, h]
  rw [frame]
  unfold State.valueFrame State.ownEpoch
  congr 1
  cases hg : p.group <;> simp [State.groupFields, hg]

/-- The station at the end of a bid it has won, its round decided (R76). -/
def wonRound (bid : Word) (s : State) : State :=
  (s.setLine (hearLine (msbBits bid))).setLine (fun l => { l with round := none })

theorem decideRound_won {s : State} {r : Round} (hr : s.la.round = some r) :
    s.decideRound ⟨true, r.bid⟩ = (wonRound r.bid s).sendStart r := by
  rw [State.decideRound, hr]
  exact (if_pos rfl).trans (if_pos rfl)

/-- A send start after a won round, with the frame of the state before it (R78). -/
theorem startEntry_wonRound (bid : Word) (subj : Subject) (s : State) :
    (wonRound bid s).startEntry bid subj =
      { s with
        la :=
          { hearLine (msbBits bid) s.la with
            lineState := .sending, round := none, sending := some ⟨some subj, bid, s.frameOf subj⟩ }
        cu := fixSubset subj s.cu
        sq := markEntry subj (fun e => { e with inFlight := true }) s.sq } := by
  cases subj <;> rfl

/-- Settles O33: not contending, a start bit or a bid read wrong, lost, and won. -/
theorem roundIsDecided : Obligations.RoundIsDecided := by
  intro bid s hround ordered keys line heard
  have taken (read : RoundRead) : exec (.roundDecided read) s = .next (s.decideRound read) :=
    congrArg Host.Outcome.next (if_pos hround)
  refine ⟨fun hr start => ?_, fun r hr => ?_⟩
  · rw [taken, State.decideRound, hr]
    rfl
  have decided : exec (.roundDecided ⟨true, bid⟩) s = .next ((s.setLine (hearLine (msbBits bid))).decideBid bid r) := by
    rw [taken, State.decideRound, hr]
    rfl
  refine ⟨fun read => ?_, ?_, fun hlow => ?_, fun hhigh => ?_, fun e hbid he hjoin subjects => ?_⟩
  · rw [State.drives, hround, hr]
    exact drivesNext_iff _ _
  · rw [taken, State.decideRound, hr]
    rfl
  · rw [decided, State.decideBid, if_neg (by rintro rfl; omega), if_neg (by omega)]
    rfl
  · refine ⟨ageQueue r.noted s.sq, ?_, (ageQueue_perm r.noted s.sq).2, ?_, ordered.age r.noted⟩
    · rw [decided, State.decideBid, if_neg (by rintro rfl; omega), if_pos hhigh]
      rfl
    · rw [← ageEntry_eq]
      exact (ageQueue_perm r.noted s.sq).1
  · subst hbid
    have candidate : lookupKey QueueEntry.join r.candidate s.sq.entries = some e :=
      lookupKey_of_mem ordered.2.1 he hjoin
    refine ⟨s.frameOf e.subject, ?_, frameEpoch_frameOf s _, fun tag p hs hp => ?_, fun tag hs => ?_, fun hs => ?_,
      fun hs => ?_, fun hs => ?_⟩
    · have start : (wonRound r.bid s).sendStart r = (wonRound r.bid s).startEntry r.bid e.subject := by
        rw [State.sendStart, show (wonRound r.bid s).sq.entries = s.sq.entries from rfl, candidate]
      rw [taken, decideRound_won hr, start, startEntry_wonRound, fixSubset_eq, markEntry_of_mem _ he subjects]
    · rw [hs, frameOf_value hp]
      cases hg : p.group <;> simp [State.groupFields, hg, State.producerMembers]
    · rw [hs]; rfl
    · rw [hs]; exact ⟨_, rfl, sortTags_perm _, sortTags_ascending _⟩
    · rw [hs]; exact ⟨_, rfl, sortTags_perm _, sortTags_ascending _⟩
    · rw [hs]; exact presenceFrame_eq s

/-- Settles O34: with no candidate left, the queued PRESENCE or a filler is sent. -/
theorem withdrawnCandidateIsFilled : Obligations.WithdrawnCandidateIsFilled := by
  intro s r hround hr gone frame line
  have won : exec (.roundDecided ⟨true, r.bid⟩) s = .next ((wonRound r.bid s).sendStart r) :=
    congrArg Host.Outcome.next ((if_pos hround).trans (decideRound_won hr))
  have candidate : lookupKey QueueEntry.join r.candidate (wonRound r.bid s).sq.entries = none :=
    List.find?_eq_none.2 fun e he => by simpa using gone e he
  have built : s.presenceFrame = frame := presenceFrame_eq s
  rw [won, State.sendStart, candidate]
  refine ⟨fun hp => ?_, fun hp => ?_⟩
  · have queued : hasEntry s.sq .presence = true := by simpa [hasEntry] using hp
    refine congrArg Host.Outcome.next ((if_pos queued).trans ?_)
    rw [startEntry_wonRound, show s.frameOf .presence = s.presenceFrame from rfl, built]
    rfl
  · have queued : ¬hasEntry s.sq .presence = true := by simpa [hasEntry] using hp
    refine congrArg Host.Outcome.next ((if_neg queued).trans ?_)
    rw [State.startFiller, show (wonRound r.bid s).presenceFrame = s.presenceFrame from rfl, built]
    rfl

end Sys2Proof.Machine
end

section
/-! SUPPORT. Frames that are not handed on, mismatches taken at an end run, and events that cannot happen. -/

namespace Sys2Proof.Machine

theorem exec_frameCommand (bid : Word) (f : Frame) (s : State) :
    exec (frameCommand bid f) s = .next (s.hearFrame bid f) := by
  cases f <;> rfl

/-! Bad and malformed frames (R79, R83, R84, R87). -/

/-- Settles O38: the receive event of a frame counts, and hands nothing on. -/
theorem badAndMalformedFramesAreCounted : Obligations.BadAndMalformedFramesAreCounted := by
  intro bid s own after
  refine ⟨fun hears => ⟨fun levels hbad ht => ?_, fun kind payload hform ht => ?_⟩, fun levels ht => ?_,
    fun kind payload ht => ?_, fun f ht => ?_⟩
  · refine congrArg Host.Outcome.next ((endFrame_hears hears ht).trans ?_)
    simp only [State.receiveBits, hbad, after, own, lineAfter]
    by_cases hc : s.la.lineState = .receiving ∧ s.la.heardBid = some bid
    · cases s.la.ownBroken <;> simp only [hc, and_self, if_true] <;> rfl
    · simp only [hc, if_false, false_and]
      rfl
  · have refused (o : Bool) (t : State) : t.receivePayload bid o kind payload =
        if o then t else t.count (fun c => { c with malformed := satInc Config.count32 c.malformed }) := by
      unfold State.receivePayload
      cases hp : parsePayload kind payload with
      | none => rfl
      | some f => simp only [State.receiveFrame, hform f hp]; rfl
    have notEmpty : (payloadLevels bid kind payload).all (fun b => !b) = false := by simp [payloadLevels]
    refine congrArg Host.Outcome.next ((endFrame_hears hears ht).trans ?_)
    simp only [refused, notEmpty, after, own, lineAfter]
    by_cases hc : s.la.lineState = .receiving ∧ s.la.heardBid = some bid
    · cases s.la.ownBroken <;> simp only [hc, and_self, if_true] <;> rfl
    · simp only [hc, if_false, false_and]
      rfl
  · exact congrArg Host.Outcome.next (endFrame_late ht)
  · exact congrArg Host.Outcome.next (endFrame_late ht)
  · rw [exec_frameCommand]
    exact congrArg Host.Outcome.next (endFrame_late ht)

/-! Mismatches of a bid (R77, R81). -/

/-- LA once a mismatch of the bid has been taken (R77, R81). -/
theorem mismatchTaken_la (s : State) :
    (mismatchTaken s).la =
      { s.la with
        round := none, bidMismatch := false, txErrors := s.la.txErrors + 1
        counters := { s.la.counters with readbackErrors := bump 4294967295 s.la.counters.readbackErrors } } := by
  unfold mismatchTaken
  dsimp only
  split <;> rfl

/-- The end run of a frame whose mismatch waits takes the mismatch, and then is one without (R77). -/
theorem endFrame_mismatch {bid : Word} {levels : List Bool} {handle : Bool → Bool → State → State} {s : State}
    (h7 : s.la.txErrors ≤ 7) (receiving : Receiving bid s.la) (waits : s.la.bidMismatch = true)
    (ht : InTime bid levels s) :
    s.endFrame bid levels handle =
      handle s.la.ownBroken true ((mismatchTaken s).closeFrame bid (levels.all (fun b => !b))) := by
  obtain ⟨h1, h2, h3⟩ := receiving
  unfold State.endFrame
  rw [takeMismatch_eq h7, waits, if_neg (by simp [show endsInTime (frameCounts bid s.la) levels = true from ht]),
    if_pos (by simp [closesFrame, h1, h2, h3])]
  rfl

theorem endFrame_mismatchTaken {bid : Word} {levels : List Bool} {handle : Bool → Bool → State → State} {s : State}
    (receiving : Receiving bid s.la) (ht : InTime bid levels s) :
    (mismatchTaken s).endFrame bid levels handle =
      handle s.la.ownBroken false ((mismatchTaken s).closeFrame bid (levels.all (fun b => !b))) := by
  obtain ⟨h1, h2, h3⟩ := receiving
  have counts : frameCounts bid (mismatchTaken s).la = frameCounts bid s.la := by rw [mismatchTaken_la]; rfl
  have taken : (mismatchTaken s).takeMismatch = mismatchTaken s := by
    rw [State.takeMismatch, mismatchTaken_la]
    rfl
  unfold State.endFrame
  rw [counts, taken, if_neg (by simp [show endsInTime (frameCounts bid s.la) levels = true from ht]),
    if_pos (by simp [closesFrame, mismatchTaken_la, h1, h2, h3]), mismatchTaken_la]

theorem closeFrame_mismatchTaken (bid : Word) (empty : Bool) (s : State) :
    (mismatchTaken s).closeFrame bid empty =
      { mismatchTaken s with
        la :=
          { (mismatchTaken s).la with
            lineState := .idle, gap := gapAtEnd bid empty, busy := 0, heardBid := none, ownBroken := false } } := by
  rw [State.closeFrame, State.setLine, mismatchTaken_la]

/-- Settles O35: from the round, where it waits, before the frame the end run closes, and in FAULT. -/
theorem bidMismatchIsCounted : Obligations.BidMismatchIsCounted := by
  intro bid levels s h7 taken empty closed waits
  refine ⟨fun ht hm => ?_, fun hf ht => ?_, fun ⟨receiving, hw⟩ => ⟨fun f ht => ?_, fun kind payload ht => ?_,
    fun he ht => ?_, fun he ht => ?_⟩, fun hf => ?_⟩
  · have notFault : s.la.lineState ≠ .fault := by
      rcases hm with ⟨h, -⟩ | ⟨⟨-, h, -⟩, -⟩ <;> rw [h] <;> decide
    have possible : mismatchPossible bid s.la = true := by
      rcases hm with ⟨h, hr⟩ | ⟨⟨-, h, hb⟩, hw⟩
      · simp [mismatchPossible, h, hr]
      · simp [mismatchPossible, h, hb, hw]
    refine congrArg Host.Outcome.next ((if_neg notFault).trans ((if_pos ⟨possible, ht⟩).trans ?_))
    rw [bidBroken_eq h7]
    by_cases he : empty
    · rw [if_pos he, if_pos (by rw [show bodyOfLevels levels = [] from he]; rfl)]
      exact closeFrame_mismatchTaken bid _ s
    · rw [if_neg he, if_neg fun h => he (List.isEmpty_iff.1 h)]
      rfl
  · exact congrArg Host.Outcome.next ((if_neg hf).trans (if_neg (by simp [ht])))
  · rw [exec_frameCommand, exec_frameCommand, State.hearFrame, State.hearFrame, endFrame_mismatch h7 receiving hw ht,
      endFrame_mismatchTaken receiving ht]
  · refine congrArg Host.Outcome.next ((endFrame_mismatch h7 receiving hw ht).trans (Eq.symm ?_))
    exact endFrame_mismatchTaken receiving ht
  · have some : (bodyOfLevels levels).isEmpty = false := by simpa using he
    refine congrArg Host.Outcome.next ((endFrame_mismatch h7 receiving hw ht).trans
      (Eq.trans ?_ (endFrame_mismatchTaken receiving ht).symm))
    simp only [State.receiveBits, some, Bool.false_eq_true, and_false]
  · have none : bodyOfLevels levels = [] := he
    refine congrArg Host.Outcome.next ((endFrame_mismatch h7 receiving hw ht).trans ?_)
    simp only [State.receiveBits, none, checkBody, List.isEmpty_nil, and_self, or_true, if_true]
    exact closeFrame_mismatchTaken bid _ s
  · exact congrArg Host.Outcome.next ((if_pos hf).trans (takeMismatch_eq h7))

/-! Events that cannot happen (log 6). -/

theorem timerDue_iff (t : Option Nat) : timerDue t = true ↔ t = some 0 := by simp [timerDue]

/-- On an unsynchronised line and in FAULT no frame ends (R74, R87). -/
theorem endFrame_ignored {bid : Word} {levels : List Bool} {handle : Bool → Bool → State → State} {s : State}
    (h : s.la.synced = false ∨ s.la.lineState = .fault) : s.endFrame bid levels handle = s := by
  have closes : closesFrame bid s.la = false := by rcases h with h | h <;> simp [closesFrame, h]
  have late : endedBefore bid s.sc.ownNumber s.la = false := by rcases h with h | h <;> simp [endedBefore, h]
  unfold State.endFrame
  rw [closes, late]
  simp

/-- Settles O60: each event's guard fails. -/
theorem eventsThatCannotHappenChangeNothing : Obligations.EventsThatCannotHappenChangeNothing := by
  intro s
  have stay {p : Prop} [Decidable p] {t : State} (h : ¬p) :
      Host.Outcome.next (if p then t else s) = (Host.Outcome.next s : Out) := congrArg Host.Outcome.next (if_neg h)
  refine ⟨fun h => stay ?_, fun h => stay ?_, fun h => stay ?_, fun h => stay ?_, fun tag h => ?_, fun tag h => ?_,
    fun k h => ?_, fun n h => ?_, fun h => stay ?_, fun h => stay ?_, fun h => stay ?_, fun h => stay ?_,
    fun h => stay h, fun h bid => ⟨fun f => ?_, fun levels => ?_, fun kind payload => ?_⟩, fun h hm bid levels => ?_,
    fun h n => stay h, fun h read => stay h, fun h => ⟨?_, fun bit => ?_⟩⟩
  · rwa [timerDue_iff]
  · rwa [timerDue_iff]
  · rwa [timerDue_iff]
  · rwa [timerDue_iff]
  · show execPeriodTimerExpiry tag s = _
    unfold execPeriodTimerExpiry
    split
    · next e he => exact stay (by rw [timerDue_iff]; exact h e he)
    · rfl
  · show execFreshnessTimerExpiry tag s = _
    unfold execFreshnessTimerExpiry
    split
    · next e he => exact stay (by rw [timerDue_iff]; exact h e he)
    · rfl
  · show execAssemblyTimerExpiry k s = _
    unfold execAssemblyTimerExpiry
    split
    · next r hr =>
      split
      · next a ha => exact stay (h r a hr ha)
      · rfl
    · rfl
  · show execSilenceTimerExpiry n s = _
    unfold execSilenceTimerExpiry
    split
    · next p hp =>
      refine stay ?_
      rw [timerDue_iff]
      rintro ⟨hs, ht⟩
      exact (h p hp).elim (fun h => h hs) fun h => h ht
    · rfl
  · rw [validationRuns_iff]
    exact fun ⟨⟨hv, hr⟩, hp⟩ => h ⟨hv, hr, hp⟩
  · rw [validationRuns_iff]
    exact fun ⟨⟨hv, hr⟩, hp⟩ => h ⟨hv, hr, hp⟩
  · simpa using h
  · simpa [faultPossible] using h
  · rw [exec_frameCommand]
    exact congrArg Host.Outcome.next (endFrame_ignored h)
  · exact congrArg Host.Outcome.next (endFrame_ignored h)
  · exact congrArg Host.Outcome.next (endFrame_ignored h)
  · have impossible : mismatchPossible bid s.la = false := by
      simp only [mismatchPossible, hm, Bool.false_and, Bool.or_false]
      simpa using h
    have taken : s.takeMismatch = s := if_neg (by simp [hm])
    refine congrArg Host.Outcome.next ?_
    rw [taken, impossible]
    split
    · rfl
    · exact if_neg (by simp)
  · refine congrArg Host.Outcome.next ?_
    split
    · exact if_neg h
    · rfl
  · refine congrArg Host.Outcome.next ?_
    split
    · exact if_neg fun hs => h hs.1
    · rfl

end Sys2Proof.Machine
end

section
/-! SUPPORT. Send ends: LA's counts, then what the owner of the sent entry does. -/

namespace Sys2Proof.Machine

/-! Entries of the send queue (R66, R67). -/

theorem removeEntry_markEntry (subj : Subject) {f : QueueEntry → QueueEntry} (hf : ∀ e, (f e).subject = e.subject)
    (q : SendQueue) : removeEntry subj (markEntry subj f q) = removeEntry subj q := by
  unfold removeEntry markEntry updateKey
  congr 1
  induction q.entries with
  | nil => rfl
  | cons e rest ih =>
    by_cases h : e.subject = subj
    · simpa [h, hf] using ih
    · simpa [h, hf] using ih

theorem removeEntry_removeEntry (subj : Subject) (q : SendQueue) :
    removeEntry subj (removeEntry subj q) = removeEntry subj q := by
  simp [removeEntry, List.filter_filter]

theorem settledQueue_nil (subj : Subject) (q : SendQueue) : settledQueue subj [] q = removeEntry subj q := rfl

theorem settledQueue_eq (subj : Subject) (set : List Word) (q : SendQueue) :
    settledQueue subj set q =
      if set = [] then removeEntry subj q else markEntry subj (fun e => { e with inFlight := false }) q := by
  simp only [settledQueue, List.isEmpty_iff]

theorem brokenQueue_eq (subj : Subject) (set : List Word) (st : StationState) (q : SendQueue) :
    brokenQueue subj set st q =
      if set = [] ∨ st = .leaving then removeEntry subj q
      else markEntry subj (fun e => { e with inFlight := false }) q := by
  unfold brokenQueue
  by_cases hs : set = []
  · subst hs
    rw [settledQueue_nil, removeEntry_removeEntry]
    simp
  · rw [settledQueue_eq, if_neg hs, removeEntry_markEntry _ (by exact fun _ => rfl)]
    simp [hs]

/-! The publication entry at a send end (R25). -/

theorem sendEndEntry_fields (good : Bool) (y : PubEntry) :
    sendEndEntry good y =
      { y with
        sent := if good then bump 4294967295 y.sent else y.sent
        flipPending := false
        live := if y.flipPending then (if y.live = .a then .b else .a) else y.live
        bufA := if y.flipPending then draftBuffer y else y.bufA
        bufB := if y.flipPending then draftBuffer y else y.bufB } := by
  obtain ⟨tag, cls, len, period, group, bufA, bufB, live, committed, flip, timer, sent, missed, served, claim⟩ := y
  cases good <;> cases flip <;> cases live <;> rfl

theorem newerCommitted_iff (g : Word) (p : PubEntry) :
    newerCommitted g p = true ↔ ∃ h, p.committed = some h ∧ 1 ≤ (h - g).toNat ∧ (h - g).toNat ≤ 32768 := by
  unfold newerCommitted
  cases p.committed with
  | none => simp
  | some h =>
    simp only [decide_eq_true_eq, Option.some.injEq, exists_eq_left']
    unfold compareGen
    dsimp only
    generalize (h - g).toNat = d
    split
    · simp [*]
    · split
      · simp; omega
      · simp; omega

theorem joined_removeEntry (subj : Subject) (cls : Nat) (q : SendQueue) :
    joined subj cls (removeEntry subj q) = joinQueue subj cls (removeEntry subj q) := by
  refine if_neg ?_
  simp [removeEntry]

/-- PT at the good send end of a VALUE frame (R25). -/
theorem valueSendEnd_good {s : State} {tag : Word} {p : PubEntry} (g : Word) (hp : s.pub tag = some p) :
    s.valueSendEnd true tag g =
      { s with
        pt := s.pt.map (fun y => if y.tag = tag then sendEndEntry true y else y)
        sq :=
          if (∃ h, p.committed = some h ∧ 1 ≤ (h - g).toNat ∧ (h - g).toNat ≤ 32768) ∧ p.claim = .owned ∧
              s.sc.state = .active then
            joined (.value tag) p.cls s.sq
          else s.sq } := by
  have hpub : (s.setPub tag (sendEndEntry true)).pub tag = some (sendEndEntry true p) := by
    rw [State.pub_setPub _ _ _ fun e => (pubKept_sendEndEntry true e).tag, hp]
    rfl
  have committed : newerCommitted g (sendEndEntry true p) = newerCommitted g p := by
    unfold newerCommitted
    rw [(pubKept_sendEndEntry true p).committed]
  have claim : (sendEndEntry true p).claim = p.claim := (pubKept_sendEndEntry true p).claim
  have cls : (sendEndEntry true p).cls = p.cls := by rw [sendEndEntry_fields]
  unfold State.valueSendEnd
  dsimp only
  rw [hpub]
  simp only [committed, true_and]
  rw [requestValue_eq _ _ hpub, claim, cls]
  simp only [State.setPub_sc, State.setPub_sq]
  have hn := newerCommitted_iff g p
  by_cases hnew : ∃ h, p.committed = some h ∧ 1 ≤ (h - g).toNat ∧ (h - g).toNat ≤ 32768
  · rw [if_pos (hn.2 hnew)]
    by_cases hc : p.claim = .owned ∧ s.sc.state = .active
    · rw [if_pos ⟨hnew, hc⟩]
      exact if_pos hc
    · rw [if_neg fun h => hc h.2]
      exact if_neg hc
  · rw [if_neg fun h => hnew (hn.1 h), if_neg fun h => hnew h.1]
    rfl

/-- A bad send end counts nothing as sent and requests nothing (R25). -/
theorem valueSendEnd_bad (t g : Word) (s : State) : s.valueSendEnd false t g = s.setPub t (sendEndEntry false) := by
  unfold State.valueSendEnd
  dsimp only
  split
  · exact if_neg (by simp)
  · rfl

/-- Outside SEND 1 and SEND 2 the phase stays (R40). -/
theorem windowOf_idle {p : ClaimPhase} (h1 : p ≠ .send1) (h2 : p ≠ .send2) : windowOf p = p ∧ sendPhase p = false := by
  cases p with
  | send1 => exact absurd rfl h1
  | send2 => exact absurd rfl h2
  | _ => exact ⟨rfl, rfl⟩

/-! Good send ends (R66, R80). -/

/-- LA at a good send end (R80): idle after the end bit, with its counts. -/
def sentLine (x : Sending) (l : LineAccess) : LineAccess :=
  { l with
    lineState := .idle, sending := none, txErrors := 0, gap := 0
    busy := (hearLine (frameLevels x.bid x.frame) l).busy
    counters := { l.counters with roundsWon := bump 4294967295 l.counters.roundsWon } }

/-- A frame ends in a dominant bit, which returns the gap count to 0 (R74). -/
theorem hearLine_frame_gap (bid : Word) (f : Frame) (l : LineAccess) : (hearLine (frameLevels bid f) l).gap = 0 := by
  rw [frameLevels, payloadLevels, hearLine, List.foldl_append]
  rfl

section Good
variable {s : State} {x : Sending}

theorem goodSend_eq (s : State) (x : Sending) :
    s.goodSend x =
      let u := ({ s with la := sentLine x s.la } : State).sentGood x
      if s.isLeavingSend x then u.leaveSent else if s.isAnnouncedSend x then u.becomeActive else u := by
  have line : ((s.setLine (fun l =>
      hearLine (frameLevels x.bid x.frame) { l with lineState := .idle, sending := none, txErrors := 0 })).count
      (fun c => { c with roundsWon := satInc Config.count32 c.roundsWon })) = { s with la := sentLine x s.la } := by
    have gap := hearLine_frame_gap x.bid x.frame s.la
    unfold sentLine State.count State.setLine
    rw [← gap]
    rfl
  rw [State.goodSend, line]

/-- A good send end of an entry other than PRESENCE is its owner's alone. -/
theorem goodSend_owner (h : x.entry ≠ some .presence) :
    s.goodSend x = ({ s with la := sentLine x s.la } : State).sentGood x := by
  have leaving : s.isLeavingSend x = false := by simp [State.isLeavingSend, h]
  have announced : s.isAnnouncedSend x = false := by simp [State.isAnnouncedSend, h]
  rw [goodSend_eq, leaving, announced]
  rfl

theorem exec_goodSendEnd (hline : s.la.lineState = .sending) (hx : s.la.sending = some x) :
    exec .goodSendEnd s = .next (s.goodSend x) := by
  show execGoodSendEnd s = _
  rw [execGoodSendEnd, hx]
  exact congrArg Host.Outcome.next (if_pos hline)

/-- The PRESENCE entry is renewed: it stays for a PRESENCE of its own (R69). -/
def Renewed (s : State) : Prop := ∃ e ∈ s.sq.entries, e.subject = .presence ∧ e.renew = true

theorem any_renew_iff (s : State) :
    s.sq.entries.any (fun e => e.subject = .presence && e.renew) = true ↔ Renewed s := by
  simp [Renewed]

theorem isLeavingSend_iff (h : x.entry = some .presence) :
    s.isLeavingSend x = true ↔ s.sc.state = .leaving ∧ ¬Renewed s := by
  rw [← any_renew_iff]
  simp [State.isLeavingSend, h]

theorem isAnnouncedSend_iff (h : x.entry = some .presence) :
    s.isAnnouncedSend x = true ↔ s.sc.state = .announce ∧ s.pt = [] := by
  simp [State.isAnnouncedSend, h]

theorem sentGood_renewed (h : x.entry = some .presence) (hr : Renewed s) :
    s.sentGood x =
      { s with sq := markEntry .presence (fun e => { e with inFlight := false, renew := false }) s.sq } := by
  simp only [State.sentGood, h]
  exact if_pos ((any_renew_iff s).2 hr)

theorem sentGood_presence (h : x.entry = some .presence) (hr : ¬Renewed s) :
    s.sentGood x = { s with sq := removeEntry .presence s.sq } := by
  simp only [State.sentGood, h]
  exact if_neg fun ha => hr ((any_renew_iff s).1 ha)

end Good

/-- Settles O36: LA's counts, then by the entry sent. -/
theorem goodSendEnd : Obligations.GoodSendEnd := by
  intro s x hline hx keys line without landed
  rw [exec_goodSendEnd hline hx]
  refine ⟨fun tag e p g n c data hentry hframe hp => ?_, fun tag hentry => ?_, fun hentry => ?_,
    fun hentry hphase hall => ?_, fun hentry h1 h2 => ?_, fun hentry => ?_, fun hentry hstate hrenew => ?_,
    fun hentry hrenew => ⟨fun hstate => ?_, fun hstate hpt => ?_, fun hl ha => ?_⟩⟩
  · rw [goodSend_owner (by simp [hentry])]
    simp only [State.sentGood, hentry, hframe]
    rw [valueSendEnd_good g (s := { s with la := sentLine x s.la, sq := removeEntry (.value tag) s.sq }) hp,
      joined_removeEntry]
    simp only [sendEndEntry_fields, if_true]
    rfl
  · rw [goodSend_owner (by simp [hentry])]
    simp only [State.sentGood, hentry]
    rfl
  · rw [goodSend_owner (by simp [hentry])]
    simp only [State.sentGood, hentry]
    rfl
  · have rest : withoutTags s.cu.claimSet s.cu.claimFlight = [] :=
      List.filter_eq_nil_iff.2 fun t ht => by simpa using hall t ht
    rw [goodSend_owner (by simp [hentry])]
    simp only [State.sentGood, hentry, claimSentGood_eq, claimSent, rest, settledQueue_nil]
    rcases hphase with h | h <;> simp only [h] <;> rfl
  · intro rest
    have kept : claimSent s.cu = { s.cu with claimSet := rest, claimFlight := [] } := by
      obtain ⟨window, send⟩ := windowOf_idle h1 h2
      rw [claimSent, window, send]
      rfl
    rw [goodSend_owner (by simp [hentry])]
    simp only [State.sentGood, hentry, claimSentGood_eq, kept, settledQueue_eq]
    rfl
  · intro rest
    rw [goodSend_owner (by simp [hentry])]
    simp only [State.sentGood, hentry, defendSentGood_eq, settledQueue_eq]
    rfl
  · have hr : Renewed { s with la := sentLine x s.la } := hrenew
    rw [goodSend_eq, sentGood_renewed hentry hr, if_neg fun h => ((isLeavingSend_iff hentry).1 h).2 hrenew,
      if_neg fun h => hstate ((isAnnouncedSend_iff hentry).1 h).1]
    rfl
  · have hr : ¬Renewed { s with la := sentLine x s.la } := fun ⟨e, he, hp, hren⟩ => by simp [hrenew e he hp] at hren
    rw [goodSend_eq, sentGood_presence hentry hr, if_pos ((isLeavingSend_iff hentry).2 ⟨hstate, hr⟩)]
    simp only [State.leaveSent, emitStation_eq]
    rfl
  · have hr : ¬Renewed { s with la := sentLine x s.la } := fun ⟨e, he, hp, hren⟩ => by simp [hrenew e he hp] at hren
    rw [goodSend_eq, sentGood_presence hentry hr,
      if_neg fun h => absurd (hstate.symm.trans ((isLeavingSend_iff hentry).1 h).1) (by decide),
      if_pos ((isAnnouncedSend_iff hentry).2 ⟨hstate, hpt⟩), becomeActive_unowned]
    · rfl
    · rw [hpt]; exact List.Pairwise.nil
    · rw [hpt]; exact fun _ he => absurd he List.not_mem_nil
  · have hr : ¬Renewed { s with la := sentLine x s.la } := fun ⟨e, he, hp, hren⟩ => by simp [hrenew e he hp] at hren
    rw [goodSend_eq, sentGood_presence hentry hr, if_neg fun h => hl ((isLeavingSend_iff hentry).1 h).1,
      if_neg fun h => ?_]
    · rfl
    · obtain ⟨hs, hpt⟩ := (isAnnouncedSend_iff hentry).1 h
      exact ha.elim (fun h => h hs) fun h => h hpt

/-! Bad send ends (R67, R79, R81). -/

/-- LA at a bad send end below the limit (R79, R81): receiving the rest of its own broken frame. -/
def brokenLine (bit : Nat) (x : Sending) (l : LineAccess) : LineAccess :=
  { hearLine ((frameLevels x.bid x.frame).take bit ++ [!(frameLevels x.bid x.frame).getD bit true]) l with
    lineState := .receiving, sending := none, heardBid := some x.bid, ownBroken := true
    txErrors := l.txErrors + 1
    counters := { l.counters with readbackErrors := bump 4294967295 l.counters.readbackErrors } }

section Bad
variable {s : State} {x : Sending} {bit : Nat}

/-- A bad send end is its owner's, and MUTE at the eighth in a row (R80, R81). -/
theorem exec_badSendEnd (hline : s.la.lineState = .sending) (hx : s.la.sending = some x)
    (hbit : bit < (frameLevels x.bid x.frame).length) (h7 : s.la.txErrors ≤ 7) {u : State}
    (hu : ({ s with la := brokenLine bit x s.la } : State).sentBad x = u) :
    exec (.badSendEnd bit) s = .next (if s.la.txErrors = 7 then muted 6 u else u) := by
  have counted : satInc Config.readbackLimit s.la.txErrors = s.la.txErrors + 1 := if_pos (Nat.lt_succ_of_le h7)
  have line : (s.setLine (fun l =>
      hearLine (brokenLevels (frameLevels x.bid x.frame) bit)
        { l with
          lineState := .receiving, sending := none, heardBid := some x.bid, ownBroken := true
          txErrors := satInc Config.readbackLimit l.txErrors })).count
      (fun c => { c with readbackErrors := satInc Config.count32 c.readbackErrors }) =
      { s with la := brokenLine bit x s.la } := by
    unfold brokenLine State.count State.setLine
    dsimp only
    rw [counted]
    rfl
  have errors : u.la.txErrors = s.la.txErrors + 1 := by rw [← hu, sentBad_la]; rfl
  have taken : exec (.badSendEnd bit) s = .next (s.badSend bit x) := by
    show execBadSendEnd bit s = _
    rw [execBadSendEnd, hx]
    exact congrArg Host.Outcome.next (if_pos ⟨hline, hbit⟩)
  rw [taken, State.badSend, line, hu]
  rw [errors, enterMute_eq]
  by_cases h : s.la.txErrors = 7
  · rw [if_pos h, if_pos (by rw [h]; rfl)]
    rfl
  · have h8 : ¬s.la.txErrors + 1 = Config.readbackLimit := fun h8 => h (Nat.succ.inj h8)
    rw [if_neg h, if_neg h8]

/-- The bad send end of a VALUE (R25, R67): kept for an OWNED tag outside LEAVING. -/
theorem sentBad_value {tag : Word} {p : PubEntry} (h : x.entry = some (.value tag)) (hp : s.pub tag = some p) :
    s.sentBad x =
      { s with
        pt := s.pt.map (fun y => if y.tag = tag then sendEndEntry false y else y)
        sq :=
          if p.claim = .owned ∧ s.sc.state ≠ .leaving then
            markEntry (.value tag) (fun e => { e with inFlight := false, renew := false }) s.sq
          else removeEntry (.value tag) s.sq } := by
  simp only [State.sentBad, h, hp, valueSendEnd_bad]
  by_cases hk : p.claim = .owned ∧ s.sc.state ≠ .leaving
  · rw [if_pos hk, if_neg (by simpa using hk)]
    rfl
  · rw [if_neg hk, if_pos (by simpa [Decidable.imp_iff_not_or] using hk)]
    rfl

end Bad

/-- Settles O37: LA's counts, then by the entry sent, then MUTE at the limit. -/
theorem badSendEnd : Obligations.BadSendEnd := by
  intro s x bit hline hx hbit h7 keys levels line back without landed settled
  have ends {u : State} (hu : ({ s with la := brokenLine bit x s.la } : State).sentBad x = u) :
      exec (.badSendEnd bit) s = settled u := exec_badSendEnd hline hx hbit h7 hu
  refine ⟨fun read => ?_, fun tag p hentry hp => ends ?_, fun tag hentry => ends ?_, fun hentry => ends ?_,
    fun hentry hstate hset => ends ?_, fun hentry h => ends ?_, fun hentry claims hstate hphase hset => ends ?_,
    fun hentry => ends ?_, fun hentry => ends ?_⟩
  · rw [State.drives, hline, hx]
    exact drivesNext_iff _ _
  · rw [sentBad_value (s := { s with la := brokenLine bit x s.la }) hentry hp]
    simp only [sendEndEntry_fields, Bool.false_eq_true, if_false]
    rfl
  · simp only [State.sentBad, hentry]
    by_cases hl : s.sc.state = .leaving
    · rw [if_pos hl, if_pos hl]
      rfl
    · rw [if_neg hl, if_neg hl]
      rfl
  · simp only [State.sentBad, hentry]
    rfl
  · simp only [State.sentBad, hentry, claimSentBad_eq, claimBroken, brokenQueue_eq]
    rw [if_neg fun h => hset (List.isEmpty_iff.1 h.1), if_neg fun h => h.elim hset hstate]
    rfl
  · simp only [State.sentBad, hentry, claimSentBad_eq, claimBroken, brokenQueue_eq]
    rw [if_neg fun hg => ?_, if_pos (h.symm.imp_left And.left)]
    · rfl
    · obtain ⟨-, hphase, hs⟩ := hg
      rcases h with h | ⟨-, h | ⟨h1, h2⟩⟩
      · exact absurd (h.symm.trans hs) (by decide)
      · exact h hs
      · have := (windowOf_idle h1 h2).2
        rw [this] at hphase
        cases hphase
  · have send : sendPhase s.cu.phase = true := by rcases hphase with h | h <;> rw [h] <;> rfl
    simp only [State.sentBad, hentry, claimSentBad_eq]
    rw [if_pos ⟨List.isEmpty_iff.2 hset, send, hstate⟩]
    refine (becomeActive_unowned (by exact keys.pub_tags) (by exact claims.unowned hstate)).trans ?_
    simp only [claimBroken, brokenQueue_eq]
    rw [if_pos (.inl hset)]
    rfl
  · simp only [State.sentBad, hentry, defendSentBad_eq, brokenQueue_eq]
    rfl
  · simp only [State.sentBad, hentry]
    rfl

end Sys2Proof.Machine
end

section
/-! SUPPORT. Received frames that enter the roster, the station's own number, and RESEND frames. -/

namespace Sys2Proof.Machine

/-! A frame of the own number (R128 step 1, R145). -/

/-- While the station contends, sends or receives another frame, none of its own number ends (log 6). -/
theorem endFrame_own {bid : Word} {levels : List Bool} {handle : Bool → Bool → State → State} {s : State}
    (own : s.sc.ownNumber = some (bidSource bid)) (busy : s.la.lineState ≠ .idle)
    (other : ¬(s.la.lineState = .receiving ∧ s.la.heardBid = some bid)) : s.endFrame bid levels handle = s := by
  have closes : closesFrame bid s.la = false := by
    simp only [closesFrame, Bool.and_assoc, Bool.and_eq_false_iff, decide_eq_false_iff_not]
    exact .inr (not_and_or.1 other)
  have late : endedBefore bid s.sc.ownNumber s.la = false := by simp [endedBefore, own, busy]
  unfold State.endFrame
  rw [closes, late]
  simp

/-- Settles O43: the frame is the duplicate of R128 step 1, or none that can end. -/
theorem duplicateStationMutes : Obligations.DuplicateStationMutes := by
  intro bid f s formed own seen
  refine ⟨fun hears ht => ?_, fun busy other => ?_⟩
  · have seenBy : (afterGood bid s).setPeer (afterGood bid s).own (fun p =>
        { p with framesHeard := satInc Config.count16 p.framesHeard, lastHeard := some s.sc.clock }) = seen := by
      rw [show (afterGood bid s).own = bidSource bid from congrArg (Option.getD · 0) own]
      rfl
    rw [exec_frameCommand, hearFrame_good hears formed ht]
    refine congrArg Host.Outcome.next ((if_pos own).trans ?_)
    unfold State.duplicate
    rw [show muted 7 seen = seen.enterMute 7 from (enterMute_eq 7 seen).symm, ← seenBy]
    rfl
  · rw [exec_frameCommand]
    exact congrArg Host.Outcome.next (endFrame_own own busy other)

/-! Entering a good frame of another station (R84, R85). -/

section Entered
variable {bid : Word} {f : Frame} {s : State}

/-- A good frame's command enters it and hands it on. -/
theorem exec_frame (keys : KeysDistinct s) (roster : RosterSafe s) (h : HearsGood bid f s) :
    exec (frameCommand bid f) s = .next ((entered bid f s).dispatch (bidSource bid) f) := by
  rw [exec_frameCommand, hearFrame_entered keys roster h]

theorem keysDistinct_entered (keys : KeysDistinct s) (roster : RosterSafe s) (h : HearsGood bid f s) :
    KeysDistinct (entered bid f s) :=
  enteredBy_eq keys roster h.2.1 ▸ keysDistinct_enteredBy keys

theorem entered_pub (keys : KeysDistinct s) (roster : RosterSafe s) (h : HearsGood bid f s) (tag : Word) :
    (entered bid f s).pub tag = s.pub tag :=
  congrArg (lookupKey PubEntry.tag tag) (kept_entered keys roster h.2.1).pt

end Entered

/-! RESEND frames (R30). -/

theorem resendTags_eq (s : State) (e : PubEntry) :
    s.resendTags e =
      (if e.group = none then [e]
      else s.pt.filter (fun x => x.group = e.group ∧ x.claim = .owned)).map PubEntry.tag := by
  unfold State.resendTags State.producerMembers
  cases e.group with
  | none => rfl
  | some n =>
    rw [if_neg (by simp), ← List.filterMap_eq_map, List.filterMap_filter]
    refine List.filterMap_filter.trans ?_
    congr 1
    funext x
    by_cases hg : x.group = some n <;> by_cases hc : x.claim = .owned <;> simp [hg, hc]

/-- An answered RESEND as a whole next state (R30). -/
theorem answerResend_answered {s : State} (keys : KeysDistinct s) {tag : Word} {e : PubEntry} (he : s.pub tag = some e)
    (owned : e.claim = .owned) (committed : e.committed.isSome = true) (active : s.sc.state = .active) :
    s.answerResend tag =
      { s with
        sq :=
          joinedValues
            (if e.group = none then [e] else s.pt.filter (fun x => x.group = e.group ∧ x.claim = .owned)) s.sq
        pt :=
          s.pt.map (fun x => if x.tag = tag then { x with resendServed := bump 65535 x.resendServed } else x) } := by
  obtain ⟨mem, htag⟩ := lookupKey_some he
  unfold State.answerResend
  simp only [he]
  rw [if_pos ⟨owned, committed, active⟩, resendTags_eq, requestValues_eq _ _ active fun x hx => ?_]
  · rfl
  · split at hx
    · obtain rfl := List.mem_singleton.1 hx
      exact ⟨htag ▸ he, owned⟩
    · obtain ⟨hmem, hx⟩ := List.mem_filter.1 hx
      simp only [decide_eq_true_eq] at hx
      exact ⟨lookupKey_of_mem keys.pub_tags hmem rfl, hx.2⟩

theorem answerResend_unanswered {s : State} {tag : Word}
    (h : ∀ e, s.pub tag = some e → e.claim ≠ .owned ∨ e.committed = none ∨ s.sc.state ≠ .active) :
    s.answerResend tag = s := by
  unfold State.answerResend
  split
  · next e he =>
    refine if_neg fun ⟨owned, committed, active⟩ => ?_
    rcases h e he with h | h | h
    · exact h owned
    · rw [h] at committed; cases committed
    · exact h active
  · rfl

/-- Settles O44. -/
theorem resendIsAnswered : Obligations.ResendIsAnswered := by
  intro bid epoch tag s keys roster good r
  have kept : Kept (afterGood bid s) r := kept_entered keys roster good.2.1
  have pub : r.pub tag = s.pub tag := entered_pub keys roster good tag
  have pt : r.pt = s.pt := kept.pt
  have sq : r.sq = s.sq := kept.sq
  have sc : r.sc = s.sc := kept.sc
  have run : exec (.resendFrameReceived bid epoch tag) s = .next (r.answerResend tag) := exec_frame keys roster good
  rw [run]
  refine ⟨fun e he owned committed active => ?_, fun h => ?_⟩
  · rw [answerResend_answered (keysDistinct_entered keys roster good) (pub.trans he) owned committed (sc ▸ active), pt,
      sq]
  · rw [answerResend_unanswered fun e he => ?_]
    rw [sc]
    exact h e (pub ▸ he)

/-! The dispatch leaves the roster (R85). -/

section RosterKept
variable (s : State)

@[simp] theorem emit_ro (k : NoticeKind) (a b : Word) : (s.emit k a b).ro = s.ro := by rw [emit_eq]

@[simp] theorem requestValues_ro (tags : List Word) : (s.requestValues tags).ro = s.ro := by
  have one (t : Word) (u : State) : (u.requestValue t).ro = u.ro := by
    cases he : u.pub t with
    | none => unfold State.requestValue; rw [he]
    | some e => rw [requestValue_eq t u he]; split <;> rfl
  unfold State.requestValues
  induction tags generalizing s with
  | nil => rfl
  | cons t rest ih => exact (ih _).trans (one t s)

@[simp] theorem becomeActive_ro : s.becomeActive.ro = s.ro := by
  rw [becomeActive_eq, afterActive]
  simp [emitStation_eq]

@[simp] theorem yieldTag_ro (t : Word) (src : Nat) (kind : NoticeKind) : (s.yieldTag t src kind).ro = s.ro := by
  have claims (u : State) : (u.leaveClaimSet t).ro = u.ro := by unfold State.leaveClaimSet; dsimp only; split <;> rfl
  have defends (u : State) : (u.leaveDefendSet t).ro = u.ro := by unfold State.leaveDefendSet; dsimp only; split <;> rfl
  have emptied (had : Bool) (u : State) : (u.afterEmptied had).ro = u.ro := by
    unfold State.afterEmptied; split <;> simp
  simp [State.yieldTag, claims, defends, emptied]

@[simp] theorem addDefend_ro (t : Word) : (s.addDefend t).ro = s.ro := by
  unfold State.addDefend
  split
  · rfl
  · rw [request_eq _ _ rfl]; split <;> rfl

@[simp] theorem weighAll_ro (ev : Evidence) (src : Nat) (tags : List Word) : (s.weighAll ev src tags).ro = s.ro := by
  have one (t : Word) (u : State) : (u.weigh ev src t).ro = u.ro := by
    cases he : u.pub t with
    | none => unfold State.weigh; rw [he]
    | some e => rw [weigh_eq he]; split <;> simp
  unfold State.weighAll
  induction tags generalizing s with
  | nil => rfl
  | cons t rest ih => exact (ih _).trans (one t s)

@[simp] theorem emitFresh_ro (before : SubState) (t : Word) (src : Nat) : (s.emitFresh before t src).ro = s.ro := by
  unfold State.emitFresh; split <;> simp

@[simp] theorem tear_ro (k : Nat) (reason : TearReason) (a : Assembly) : (s.tear k reason a).ro = s.ro := by
  simp [State.tear]

@[simp] theorem land_ro (k : Nat) (t : Word) (src : Nat) (data : List Byte) (before : SubState) (a : Assembly) :
    (s.land k t src data before a).ro = s.ro := by
  have complete (g : Word) (r : GroupRecord) (u : State) : (u.completeAssembly k g r).ro = u.ro := by
    unfold State.completeAssembly; split <;> simp
  unfold State.land
  dsimp only
  split
  · split <;> simp [complete, State.takeMember]
  · simp [State.takeMember]

@[simp] theorem completedCheck_ro (k : Nat) (t : Word) (src : Nat) (epoch : Byte) (g : Word) (data : List Byte)
    (before : SubState) : (s.completedCheck k t src epoch g data before).ro = s.ro := by
  have assemble (r : GroupRecord) (u : State) : (u.assemble k t src epoch g data before r).ro = u.ro := by
    unfold State.assemble
    split
    · simp
    · split <;> simp [State.countLate]
  unfold State.completedCheck
  split
  · split <;> simp [assemble, State.takeMember, State.countLate]
  · rfl

@[simp] theorem memberValue_ro (k : Nat) (t : Word) (src : Nat) (epoch : Byte) (g : Word) (number count : Byte)
    (data : List Byte) (e : SubEntry) : (s.memberValue k t src epoch g number count data e).ro = s.ro := by
  have member (u : State) : (u.checkMemberProducer k t src e).ro = u.ro := by
    unfold State.checkMemberProducer
    split
    · rfl
    · split <;> simp
  have assembly (u : State) : (u.checkAssemblyProducer k src).ro = u.ro := by
    unfold State.checkAssemblyProducer
    split
    · split
      · split <;> simp
      · rfl
    · rfl
  unfold State.memberValue
  split
  · rfl
  · split <;> simp [member, assembly]

@[simp] theorem ungroupedValue_ro (t : Word) (src : Nat) (g : Word) (data : List Byte) (e : SubEntry) :
    (s.ungroupedValue t src g data e).ro = s.ro := by
  have check : (s.checkProducer t src e).ro = s.ro := by
    unfold State.checkProducer
    split
    · rfl
    · split <;> simp
  unfold State.ungroupedValue
  dsimp only
  split <;> simp [State.acceptNewer, State.acceptEqual, State.countLate, check]

theorem valueData_ro (src : Nat) (epoch : Byte) (t g : Word) (number count : Byte) (data : List Byte) :
    (s.valueData src epoch t g number count data).ro = s.ro := by
  unfold State.valueData
  split
  · rfl
  · split
    · simp [State.rejectValue]
    · split <;> simp

theorem dispatch_ro (src : Nat) (f : Frame) : (s.dispatch src f).ro = s.ro := by
  cases f with
  | value => exact (valueData_ro _ _ _ _ _ _ _ _).trans (weighAll_ro _ _ _ _)
  | claim => exact weighAll_ro _ _ _ _
  | defend => exact weighAll_ro _ _ _ _
  | presence => rfl
  | resend _ t =>
    show (s.answerResend t).ro = s.ro
    unfold State.answerResend
    split
    · split <;> simp
    · rfl

end RosterKept

theorem entered_sub_none {bid : Word} {f : Frame} {s : State} (keys : KeysDistinct s) (roster : RosterSafe s)
    (h : HearsGood bid f s) {tag : Word} (hsub : s.sub tag = none) : (entered bid f s).sub tag = none := by
  have tags : (entered bid f s).st.map SubEntry.tag = s.st.map SubEntry.tag := (kept_entered keys roster h.2.1).subTags
  refine List.find?_eq_none.2 fun e he => ?_
  obtain ⟨x, hx, heq⟩ := List.mem_map.1 (tags ▸ List.mem_map_of_mem he)
  simpa [heq] using lookupKey_none hsub x hx

/-- Every source of a well-formed frame has its record (R127). -/
theorem peer_of_wellFormed {bid : Word} {f : Frame} {s : State} (roster : RosterSafe s)
    (formed : wellFormed bid f = true) : ∃ p, s.peer (bidSource bid) = some p := by
  have range : 1 ≤ bidSource bid ∧ bidSource bid ≤ 62 := by
    simp only [wellFormed, Bool.and_eq_true, decide_eq_true_eq] at formed
    exact formed.2
  have mem : bidSource bid ∈ s.ro.map Peer.number := by
    rw [roster.1]
    exact List.mem_map.2 ⟨bidSource bid - 1, List.mem_range.2 (by omega), by omega⟩
  obtain ⟨p, hp, hnumber⟩ := List.mem_map.1 mem
  exact ⟨p, lookupKey_of_mem roster.numbers hp hnumber⟩

/-- Settles O42. -/
theorem presenceEntersTheRoster : Obligations.PresenceEntersTheRoster := by
  intro bid f s keys roster good unknown
  have run := exec_frame keys roster good
  have pub := entered_pub keys roster good
  refine ⟨fun h => ?_, ⟨_, run, dispatch_ro _ _ _⟩, ?_⟩
  · rw [run]
    refine congrArg Host.Outcome.next ?_
    cases f with
    | value e t g n c data =>
      have noPub : ∀ x ∈ [t], (entered bid (.value e t g n c data) s).pub x = none := by
        intro x hx
        rw [List.mem_singleton.1 hx, pub]
        exact h.1
      show State.valueData _ _ _ _ _ _ _ (State.weighAll _ _ _ _) = _
      rw [weighAll_none noPub, State.valueData, entered_sub_none keys roster good h.2]
    | claim e tags => exact weighAll_none fun t ht => (pub t).trans (h t ht)
    | defend e tags => exact weighAll_none fun t ht => (pub t).trans (h t ht)
    | presence => rfl
    | resend e t =>
      refine answerResend_unanswered fun x hx => ?_
      rw [pub, h] at hx
      cases hx
  · obtain ⟨p, hp⟩ := peer_of_wellFormed roster good.2.1
    exact ⟨p, hp, by unfold entered; simp only [hp]⟩

end Sys2Proof.Machine
end

section
/-! SUPPORT. Evidence about published tags (R45 to R52), tag by tag and over a whole frame. -/

namespace Sys2Proof.Machine

/-! A defence (R51). -/

theorem addDefend_eq (tag : Word) (s : State) : s.addDefend tag = defended tag s := by
  unfold State.addDefend defended
  by_cases h : tag ∈ s.cu.defendSet
  · rw [if_pos (List.contains_iff_mem.2 h), if_pos h]
  · rw [if_neg (by simpa using h), if_neg h, request_eq _ _ rfl]
    by_cases hs : s.sc.state = .announce ∨ s.sc.state = .active
    · rw [if_pos hs]
      exact if_pos ((takesRequests_iff _).2 hs)
    · rw [if_neg hs]
      exact if_neg fun h => hs ((takesRequests_iff _).1 h)

/-! A yield (R48). -/

/-- The entries a yield withdraws: the waiting entry of the tag, and of a set it empties (R48, steps 3 and 4). -/
def withdrawn (tag : Word) (claims defends : List Word) (q : QueueEntry) : Bool :=
  q.inFlight = false &&
    (q.subject = .value tag || (q.subject = .claim && claims.isEmpty) || (q.subject = .defend && defends.isEmpty))

/-- A yield but for the change to ACTIVE that R43 makes of it. -/
def yieldedFirst (tag : Word) (src : Nat) (claim : ClaimState) (s : State) : State :=
  { s with
    pt := s.pt.map (fun e => if e.tag = tag then { e with claim := .yielded, periodTimer := none } else e)
    cu :=
      { s.cu with
        claimSet := s.cu.claimSet.filter (fun t => t ≠ tag), defendSet := s.cu.defendSet.filter (fun t => t ≠ tag) }
    sq :=
      { s.sq with
        entries :=
          s.sq.entries.filter (fun q =>
            !withdrawn tag (s.cu.claimSet.filter (fun t => t ≠ tag)) (s.cu.defendSet.filter (fun t => t ≠ tag)) q) }
    nq := posted s [(lossNotice claim, tag, BitVec.ofNat 16 src)] }

/-- A yield empties the CLAIM set while its entry waits to be sent (R43). -/
def EmptiesClaims (tag : Word) (s : State) : Prop :=
  tag ∈ s.cu.claimSet ∧ s.cu.claimSet.filter (fun t => t ≠ tag) = [] ∧ (s.cu.phase = .send1 ∨ s.cu.phase = .send2) ∧
    s.sc.state = .announce ∧ ∀ q ∈ s.sq.entries, q.subject = .claim → q.inFlight = false

/-- A change to ACTIVE of a station that owns nothing (R43). -/
def activated (s : State) : State :=
  { s with
    sc :=
      { s.sc with
        state := .active
        presenceTimer := if s.sc.presenceInterval = 0 then none else some s.sc.presenceInterval }
    cu := { s.cu with phase := .none, windowTimer := none }
    nq := posted s [(.stationState, 5, 4)] }

theorem yielded_first {tag : Word} {src : Nat} {claim : ClaimState} {s : State} (h : ¬EmptiesClaims tag s) :
    yielded tag src claim s = yieldedFirst tag src claim s := if_neg h

theorem yielded_activated {tag : Word} {src : Nat} {claim : ClaimState} {s : State} (h : EmptiesClaims tag s) :
    yielded tag src claim s = activated (yieldedFirst tag src claim s) := by
  refine (if_pos h).trans ?_
  have notices := posted_append s [(lossNotice claim, tag, BitVec.ofNat 16 src)] [(.stationState, 5, 4)]
  exact congrArg (fun nq => { activated (yieldedFirst tag src claim s) with nq := nq }) notices

/-- The queue once the waiting entry of an emptied set is withdrawn (R48, step 4). -/
theorem withdrawEmptied_eq (subj : Subject) (set : List Word) (q : SendQueue) :
    (if set.isEmpty then removeWaiting subj q else q) =
      { q with
        entries := q.entries.filter (fun e => !(e.inFlight = false && (e.subject = subj && set.isEmpty))) } := by
  cases set with
  | nil =>
    rw [if_pos (by rfl), removeWaiting]
    congr 2
    funext e
    cases e.inFlight <;> simp
  | cons t rest => simp

theorem leaveClaimSet_eq (tag : Word) (s : State) :
    s.leaveClaimSet tag =
      { s with
        cu := { s.cu with claimSet := s.cu.claimSet.filter (fun t => t ≠ tag) }
        sq :=
          if (s.cu.claimSet.filter (fun t => t ≠ tag)).isEmpty then removeWaiting .claim s.sq else s.sq } := by
  unfold State.leaveClaimSet
  dsimp only
  split <;> rfl

theorem leaveDefendSet_eq (tag : Word) (s : State) :
    s.leaveDefendSet tag =
      { s with
        cu := { s.cu with defendSet := s.cu.defendSet.filter (fun t => t ≠ tag) }
        sq :=
          if (s.cu.defendSet.filter (fun t => t ≠ tag)).isEmpty then removeWaiting .defend s.sq else s.sq } := by
  unfold State.leaveDefendSet
  dsimp only
  split <;> rfl

theorem yieldedFirst_tags (tag : Word) (src : Nat) (claim : ClaimState) (s : State) :
    (yieldedFirst tag src claim s).pt.map PubEntry.tag = s.pt.map PubEntry.tag :=
  updateKey_keys (key := PubEntry.tag) (k := tag)
    (f := fun e => { e with claim := .yielded, periodTimer := none }) fun _ h => h

/-- A yield's steps but the last (R48). -/
theorem yieldTag_eq (tag : Word) (src : Nat) (claim : ClaimState) (s : State) :
    s.yieldTag tag src (lossNotice claim) =
      (yieldedFirst tag src claim s).afterEmptied (s.cu.claimSet.contains tag) := by
  have queue (claims defends : List Word) (q : QueueEntry) :
      (!(q.inFlight = false && (q.subject = .defend && defends.isEmpty)) &&
          (!(q.inFlight = false && (q.subject = .claim && claims.isEmpty)) &&
            !(q.subject = .value tag && !q.inFlight))) = !withdrawn tag claims defends q := by
    unfold withdrawn
    cases q.inFlight
    · generalize decide (q.subject = .value tag) = v
      generalize decide (q.subject = .claim) = c
      generalize decide (q.subject = .defend) = d
      cases v <;> cases c <;> cases d <;> simp [Bool.and_comm]
    · simp
  unfold State.yieldTag
  simp only [emit_eq, leaveClaimSet_eq, leaveDefendSet_eq, withdrawEmptied_eq]
  simp only [removeWaiting, List.filter_filter, queue]
  rfl

/-- What R43 asks of a yield is found by the model once the yield is made. -/
theorem emptied_iff (tag : Word) (src : Nat) (claim : ClaimState) (s : State) :
    (s.cu.claimSet.contains tag = true ∧ (yieldedFirst tag src claim s).cu.claimSet.isEmpty = true ∧
      sendPhase (yieldedFirst tag src claim s).cu.phase = true ∧
        (yieldedFirst tag src claim s).sc.state = .announce ∧
          (!inFlight (yieldedFirst tag src claim s).sq .claim) = true) ↔ EmptiesClaims tag s := by
  have phase : sendPhase s.cu.phase = true ↔ s.cu.phase = .send1 ∨ s.cu.phase = .send2 := by
    cases s.cu.phase <;> simp [sendPhase]
  have waits : (!inFlight (yieldedFirst tag src claim s).sq .claim) = true ↔
      ∀ q ∈ s.sq.entries, q.subject = .claim → q.inFlight = false := by
    simp only [inFlight, yieldedFirst, Bool.not_eq_true', List.any_eq_false, List.mem_filter, and_imp,
      Bool.and_eq_true, decide_eq_true_eq, not_and, Bool.not_eq_true]
    refine forall₂_congr fun q _ => ⟨fun h hs => ?_, fun h _ hs => h hs⟩
    cases hf : q.inFlight with
    | false => rfl
    | true => exact hf.symm.trans (h (by simp [withdrawn, hf]) hs)
  rw [waits, List.isEmpty_iff, List.contains_iff_mem]
  exact and_congr Iff.rfl (and_congr Iff.rfl (and_congr phase Iff.rfl))

/-- A yield as a whole next state (R43, R48). -/
theorem yieldTag_yielded {s : State} (keys : KeysDistinct s) (claims : ClaimsSafe s) (tag : Word) (src : Nat)
    (claim : ClaimState) : s.yieldTag tag src (lossNotice claim) = yielded tag src claim s := by
  rw [yieldTag_eq, State.afterEmptied]
  by_cases h : EmptiesClaims tag s
  · rw [if_pos ((emptied_iff tag src claim s).2 h), yielded_activated h]
    refine becomeActive_unowned ?_ (List.forall_mem_map.2 fun e he => ?_)
    · rw [yieldedFirst_tags]
      exact keys.pub_tags
    · split
      · nofun
      · obtain ⟨-, -, -, announce, -⟩ := h
        exact claims.unowned announce e he
  · rw [if_neg fun g => h ((emptied_iff tag src claim s).1 g), yielded_first h]

/-! One tag weighed, by the verdict of the table. -/

section Verdicts
variable {ev : Evidence} {src : Nat} {s : State} {tag : Word} {e : PubEntry} (hpub : s.pub tag = some e)
include hpub

theorem weighed_ignored (hv : verdict ev (s.sc.ownNumber.getD 0 < src) e.claim = .ignored) :
    weighed ev src s tag = s := by
  simp only [weighed, hpub, hv]

theorem weighed_yields (hv : verdict ev (s.sc.ownNumber.getD 0 < src) e.claim = .yields) :
    weighed ev src s tag = yielded tag src e.claim s := by
  simp only [weighed, hpub, hv]

theorem weighed_defends (hv : verdict ev (s.sc.ownNumber.getD 0 < src) e.claim = .defends) :
    weighed ev src s tag = defended tag s := by
  simp only [weighed, hpub, hv]

end Verdicts

theorem weigh_weighed {s : State} (keys : KeysDistinct s) (claims : ClaimsSafe s) (ev : Evidence) (src : Nat)
    (tag : Word) : s.weigh ev src tag = weighed ev src s tag := by
  cases he : s.pub tag with
  | none => simp only [weighed, State.weigh, he]
  | some e =>
    refine (weigh_eq he ev src).trans ?_
    cases hv : verdict ev (s.sc.ownNumber.getD 0 < src) e.claim with
    | ignored => exact (weighed_ignored he hv).symm
    | yields => exact (yieldTag_yielded keys claims tag src e.claim).trans (weighed_yields he hv).symm
    | defends => exact (addDefend_eq tag s).trans (weighed_defends he hv).symm

/-- The tags of a frame weighed one after another, as whole next states (R47). -/
theorem weighAll_weighed {s : State} (keys : KeysDistinct s) (claims : ClaimsSafe s) (ev : Evidence) (src : Nat)
    (tags : List Word) : s.weighAll ev src tags = tags.foldl (weighed ev src) s := by
  unfold State.weighAll
  induction tags generalizing s with
  | nil => rfl
  | cons tag rest ih =>
    have moves : Moves s (s.weigh ev src tag) := Moves.weigh ev src s tag
    rw [List.foldl_cons, List.foldl_cons, ← weigh_weighed keys claims]
    exact ih (moves.keeps Move.keysDistinct keys) (moves.keeps Move.claimsSafe claims)

/-! What the evidence leaves, and what becomes of each entry (R46). -/

/-- What weighed evidence leaves: the receiving side, the line, the port and the own number. -/
structure Weighs (s t : State) : Prop where
  st : t.st = s.st
  ga : t.ga = s.ga
  ro : t.ro = s.ro
  la : t.la = s.la
  hp : t.hp = s.hp
  pending : t.pending = s.pending
  number : t.sc.ownNumber = s.sc.ownNumber
  tags : t.pt.map PubEntry.tag = s.pt.map PubEntry.tag

theorem Weighs.refl (s : State) : Weighs s s := ⟨rfl, rfl, rfl, rfl, rfl, rfl, rfl, rfl⟩

theorem Weighs.trans {s t u : State} (h : Weighs s t) (g : Weighs t u) : Weighs s u :=
  ⟨g.st.trans h.st, g.ga.trans h.ga, g.ro.trans h.ro, g.la.trans h.la, g.hp.trans h.hp, g.pending.trans h.pending,
    g.number.trans h.number, g.tags.trans h.tags⟩

theorem weighs_yielded (tag : Word) (src : Nat) (claim : ClaimState) (s : State) :
    Weighs s (yielded tag src claim s) := by
  have tags := yieldedFirst_tags tag src claim s
  by_cases h : EmptiesClaims tag s
  · rw [yielded_activated h]
    exact ⟨rfl, rfl, rfl, rfl, rfl, rfl, rfl, tags⟩
  · rw [yielded_first h]
    exact ⟨rfl, rfl, rfl, rfl, rfl, rfl, rfl, tags⟩

theorem weighs_defended (tag : Word) (s : State) : Weighs s (defended tag s) := by
  unfold defended
  split <;> exact ⟨rfl, rfl, rfl, rfl, rfl, rfl, rfl, rfl⟩

theorem weighs_weighed (ev : Evidence) (src : Nat) (s : State) (tag : Word) : Weighs s (weighed ev src s tag) := by
  unfold weighed
  split
  · exact .refl s
  · split
    · exact .refl s
    · exact weighs_yielded ..
    · exact weighs_defended ..

/-- What becomes of a publication entry that evidence of some tags has been weighed against (R46 to R51). -/
def EntryWeighed (v : Verdict) (tags : List Word) (e e' : PubEntry) (t : State) : Prop :=
  e' = { e with claim := e'.claim, periodTimer := e'.periodTimer } ∧
    (e.tag ∈ tags → v = .yields →
      e'.claim = .yielded ∧ e'.periodTimer = none ∧ e.tag ∉ t.cu.claimSet ∧ e.tag ∉ t.cu.defendSet ∧
        ∀ q ∈ t.sq.entries, q.subject = .value e.tag → q.inFlight = true) ∧
    (e.tag ∈ tags → v = .defends → e'.claim = e.claim ∧ e.tag ∈ t.cu.defendSet) ∧
    (e.tag ∉ tags ∨ v = .ignored → e'.claim = e.claim)

/-- What a yield makes of the sets and the queue. -/
theorem yielded_cu_sq (tag : Word) (src : Nat) (claim : ClaimState) (s : State) :
    (yielded tag src claim s).cu.claimSet = s.cu.claimSet.filter (fun t => t ≠ tag) ∧
      (yielded tag src claim s).cu.defendSet = s.cu.defendSet.filter (fun t => t ≠ tag) ∧
        (yielded tag src claim s).sq = (yieldedFirst tag src claim s).sq ∧
          (yielded tag src claim s).pt = (yieldedFirst tag src claim s).pt := by
  by_cases h : EmptiesClaims tag s
  · rw [yielded_activated h]
    exact ⟨rfl, rfl, rfl, rfl⟩
  · rw [yielded_first h]
    exact ⟨rfl, rfl, rfl, rfl⟩

/-- Weighing one tag leaves the entries of the others, and of theirs the sets and the queue. -/
structure Spares (tag : Word) (s t : State) : Prop where
  pt : ∀ (i : Nat) (e : PubEntry), s.pt[i]? = some e → e.tag ≠ tag → t.pt[i]? = some e
  claims : ∀ x, x ∈ t.cu.claimSet → x ∈ s.cu.claimSet
  defends : ∀ x, x ≠ tag → (x ∈ t.cu.defendSet ↔ x ∈ s.cu.defendSet)
  queue : ∀ q ∈ t.sq.entries, ∀ x, q.subject = .value x → q ∈ s.sq.entries

theorem spares_yielded (tag : Word) (src : Nat) (claim : ClaimState) (s : State) :
    Spares tag s (yielded tag src claim s) := by
  obtain ⟨claims, defends, queue, pt⟩ := yielded_cu_sq tag src claim s
  refine ⟨fun i e hi ht => ?_, fun x hx => ?_, fun x hx => ?_, fun q hq x _ => ?_⟩
  · rw [pt, yieldedFirst, List.getElem?_map, hi, Option.map_some, if_neg ht]
  · rw [claims] at hx
    exact (List.mem_filter.1 hx).1
  · simp [defends, hx]
  · rw [queue] at hq
    exact (List.mem_filter.1 hq).1

theorem spares_defended (tag : Word) (s : State) : Spares tag s (defended tag s) := by
  unfold defended
  split
  · exact ⟨fun _ _ hi _ => hi, fun _ hx => hx, fun _ _ => Iff.rfl, fun _ hq _ _ => hq⟩
  · refine ⟨fun _ _ hi _ => hi, fun _ hx => hx, fun x hx => by simp [hx], fun q hq x hs => ?_⟩
    dsimp only at hq
    split at hq
    · unfold joined at hq
      split at hq
      · exact hq
      · rcases mem_insertEntry.1 hq with rfl | hq
        · cases hs
        · exact hq
    · exact hq

theorem spares_weighed (ev : Evidence) (src : Nat) (s : State) (tag : Word) : Spares tag s (weighed ev src s tag) := by
  have same : Spares tag s s := ⟨fun _ _ hi _ => hi, fun _ hx => hx, fun _ _ => Iff.rfl, fun _ hq _ _ => hq⟩
  unfold weighed
  split
  · exact same
  · split
    · exact same
    · exact spares_yielded ..
    · exact spares_defended ..

section Entry
variable {v : Verdict} {tags : List Word} {e e' : PubEntry} {s t : State}

/-- Another tag's weighing leaves what has become of an entry. -/
theorem EntryWeighed.other {tag : Word} (h : EntryWeighed v tags e e' s) (spares : Spares tag s t) (ht : e.tag ≠ tag) :
    EntryWeighed v (tags ++ [tag]) e e' t := by
  obtain ⟨frame, yields, defends, ignored⟩ := h
  have mem : e.tag ∈ tags ++ [tag] ↔ e.tag ∈ tags := by simp [ht]
  refine ⟨frame, fun hm hv => ?_, fun hm hv => ?_, fun h => ignored (h.imp_left fun h hm => h (mem.2 hm))⟩
  · obtain ⟨claim, timer, noClaim, noDefend, flying⟩ := yields (mem.1 hm) hv
    exact ⟨claim, timer, fun h => noClaim (spares.claims _ h), fun h => noDefend ((spares.defends _ ht).1 h),
      fun q hq hs => flying q (spares.queue q hq _ hs) hs⟩
  · obtain ⟨claim, set⟩ := defends (mem.1 hm) hv
    exact ⟨claim, (spares.defends _ ht).2 set⟩

/-- The weighing of an entry's own tag: the first one by the table, a later one without effect. -/
theorem EntryWeighed.own {ev : Evidence} {src i : Nat}
    (h : EntryWeighed (verdict ev (s.sc.ownNumber.getD 0 < src) e.claim) tags e e' s) (hi : s.pt[i]? = some e')
    (hpub : s.pub e.tag = some e') :
    ∃ e'', (weighed ev src s e.tag).pt[i]? = some e'' ∧
      EntryWeighed (verdict ev (s.sc.ownNumber.getD 0 < src) e.claim) (tags ++ [e.tag]) e e''
        (weighed ev src s e.tag) := by
  obtain ⟨frame, yields, defends, ignored⟩ := h
  have htag : e'.tag = e.tag := by rw [frame]
  have mem : e.tag ∈ tags ++ [e.tag] := by simp
  by_cases hm : e.tag ∈ tags
  · have again : weighed ev src s e.tag = s := by
      cases hv : verdict ev (s.sc.ownNumber.getD 0 < src) e.claim with
      | ignored => exact weighed_ignored hpub (ignored (.inr hv) ▸ hv)
      | yields => exact weighed_ignored hpub (by rw [(yields hm hv).1]; rfl)
      | defends =>
        obtain ⟨claim, set⟩ := defends hm hv
        exact (weighed_defends hpub (claim ▸ hv)).trans (if_pos set)
    rw [again]
    exact ⟨e', hi, frame, fun _ => yields hm, fun _ => defends hm,
      fun h => ignored (h.imp_left fun h => absurd mem h)⟩
  · have claim := ignored (.inl hm)
    cases hv : verdict ev (s.sc.ownNumber.getD 0 < src) e.claim with
    | ignored =>
      rw [weighed_ignored hpub (claim ▸ hv)]
      exact ⟨e', hi, frame, nofun, nofun, fun _ => claim⟩
    | yields =>
      rw [weighed_yields hpub (claim ▸ hv), claim]
      obtain ⟨claims, defends, queue, pt⟩ := yielded_cu_sq e.tag src e.claim s
      refine ⟨{ e' with claim := .yielded, periodTimer := none }, ?_, by rw [frame], fun _ _ => ⟨rfl, rfl, ?_, ?_, ?_⟩,
        nofun, fun h => h.elim (absurd mem) nofun⟩
      · rw [pt, yieldedFirst, List.getElem?_map, hi, Option.map_some, if_pos htag]
      · simp [claims]
      · simp [defends]
      · rw [queue]
        intro q hq hs
        have stays := (List.mem_filter.1 hq).2
        cases hf : q.inFlight with
        | true => rfl
        | false => simp [withdrawn, hf, hs] at stays
    | defends =>
      rw [weighed_defends hpub (claim ▸ hv)]
      have set : e.tag ∈ (defended e.tag s).cu.defendSet ∧ (defended e.tag s).pt = s.pt := by
        unfold defended
        split
        · next h => exact ⟨h, rfl⟩
        · exact ⟨by simp, rfl⟩
      exact ⟨e', by rw [set.2, hi], frame, nofun, fun _ _ => ⟨claim, set.1⟩, fun h => h.elim (absurd mem) nofun⟩

end Entry

/-- What becomes of the publication entries, and of all else, over the tags of a frame (R46). -/
theorem foldl_weighed {s : State} (keys : (s.pt.map PubEntry.tag).Nodup) (ev : Evidence) (src : Nat)
    (tags : List Word) :
    Weighs s (tags.foldl (weighed ev src) s) ∧
      ∀ (i : Nat) (e : PubEntry), s.pt[i]? = some e →
        ∃ e', (tags.foldl (weighed ev src) s).pt[i]? = some e' ∧
          EntryWeighed (verdict ev (s.sc.ownNumber.getD 0 < src) e.claim) tags e e'
            (tags.foldl (weighed ev src) s) := by
  induction tags using List.reverseRecOn with
  | nil => exact ⟨.refl s, fun i e hi => ⟨e, hi, rfl, nofun, nofun, fun _ => rfl⟩⟩
  | append_singleton tags tag ih =>
    obtain ⟨kept, entries⟩ := ih
    rw [List.foldl_append, List.foldl_cons, List.foldl_nil]
    generalize tags.foldl (weighed ev src) s = t at kept entries
    refine ⟨kept.trans (weighs_weighed ev src t tag), fun i e hi => ?_⟩
    obtain ⟨e', hi', h⟩ := entries i e hi
    have htag : e'.tag = e.tag := by rw [h.1]
    by_cases ht : e.tag = tag
    · subst ht
      rw [← kept.number] at h ⊢
      refine h.own hi' (lookupKey_of_mem ?_ (List.mem_of_getElem? hi') htag)
      rw [kept.tags]
      exact keys
    · have spares := spares_weighed ev src t tag
      exact ⟨e', spares.pt i e' hi' (htag ▸ ht), h.other spares ht⟩

/-- A published tag is not subscribed (R2). -/
theorem KeysDistinct.sub_none {s : State} (keys : KeysDistinct s) {tag : Word} {e : PubEntry}
    (he : s.pub tag = some e) : s.sub tag = none := by
  obtain ⟨mem, htag⟩ := lookupKey_some he
  refine List.find?_eq_none.2 fun x hx => ?_
  have distinct := (List.nodup_append.1 keys.1).2.2 _ (List.mem_map_of_mem mem) _ (List.mem_map_of_mem hx)
  simpa [← htag] using Ne.symm distinct

/-- Settles O41: the roster has entered the frame, and its tags are weighed one after another. -/
theorem evidenceIsWeighed : Obligations.EvidenceIsWeighed := by
  intro bid s keys roster claims src after tableOf table
  have weigh {f : Frame} (good : HearsGood bid f s) (ev : Evidence) (tags : List Word) :
      (entered bid f s).weighAll ev src tags = after ev f tags ∧ table ev f tags := by
    have kept := kept_entered keys roster good.2.1
    have keys' := keysDistinct_entered keys roster good
    have claims' : ClaimsSafe (entered bid f s) := by
      unfold ClaimsSafe
      rw [kept.pt, kept.sc, kept.cu]
      exact claims
    obtain ⟨rest, entries⟩ := foldl_weighed keys'.pub_tags ev src tags
    rw [kept.sc, kept.pt] at entries
    refine ⟨weighAll_weighed keys' claims' ev src tags, rest.st, rest.ga, rest.ro, rest.la, rest.hp.trans kept.hp,
      rest.pending.trans kept.pending, ?_, entries⟩
    have lengths := congrArg List.length (rest.tags.trans (congrArg (List.map PubEntry.tag) kept.pt))
    rwa [List.length_map, List.length_map] at lengths
  refine ⟨fun epoch tags good => ?_, fun epoch tags good => ?_, fun epoch tag g group count data good hpub => ?_⟩
  · obtain ⟨run, entries⟩ := weigh good .claim tags
    exact ⟨(exec_frame keys roster good).trans (congrArg _ run), entries⟩
  · obtain ⟨run, entries⟩ := weigh good .defend tags
    exact ⟨(exec_frame keys roster good).trans (congrArg _ run), entries⟩
  · obtain ⟨run, entries⟩ := weigh good .value [tag]
    refine ⟨(exec_frame keys roster good).trans (congrArg Host.Outcome.next ?_), entries⟩
    have unsubscribed : (after .value (.value epoch tag g group count data) [tag]).sub tag = none := by
      have received : (entered bid (.value epoch tag g group count data) s).sub tag = none := by
        obtain ⟨e, he⟩ := Option.isSome_iff_exists.1 hpub
        exact (keysDistinct_entered keys roster good).sub_none ((entered_pub keys roster good tag).trans he)
      exact (congrArg (lookupKey SubEntry.tag tag) entries.1).trans received
    show State.valueData _ _ _ _ _ _ _ (State.weighAll _ _ _ _) = _
    rw [run, State.valueData, unsubscribed]

end Sys2Proof.Machine
end

section
/-! SUPPORT. VALUE frames of subscribed tags, up to Group Assembly (R93 to R97, R101, R104). -/

namespace Sys2Proof.Machine

/-! What the two kinds of subscription share. -/

/-- The notice of a producer check that finds another producer recorded (R95, R111). -/
def changedNotice (tag : Word) (src : Nat) : Option Nat → List (NoticeKind × Word × Word)
  | none => []
  | some p => if p = src then [] else [(.producerChanged, tag, BitVec.ofNat 16 (p * 256 + src))]

/-- The notice of a STALE entry that takes a frame (R109). -/
def freshNotice (tag : Word) (src : Nat) (before : SubState) : List (NoticeKind × Word × Word) :=
  if before = .stale then [(.tagFresh, tag, BitVec.ofNat 16 src)] else []

theorem emitFresh_eq (before : SubState) (tag : Word) (src : Nat) (s : State) :
    s.emitFresh before tag src = { s with nq := posted s (freshNotice tag src before) } := by
  unfold State.emitFresh freshNotice
  split
  · exact emit_eq ..
  · rfl

theorem againstRef_newer {g : Word} {ref : Option Word}
    (h : ∀ x, ref = some x → 1 ≤ (g - x).toNat ∧ (g - x).toNat ≤ 32768) : againstRef g ref = .newer := by
  cases ref with
  | none => rfl
  | some x => exact compareGen_newer (h x rfl).1 (h x rfl).2

section Taken
variable {s : State} {tag : Word} {e : SubEntry}

/-- A change of the entry of a tag, after another. -/
theorem setSub_setSub (f g : SubEntry → SubEntry) (hg : ∀ x, (g x).tag = x.tag) :
    updateKey SubEntry.tag tag f (updateKey SubEntry.tag tag g s.st) =
      updateKey SubEntry.tag tag (fun x => f (g x)) s.st :=
  updateKey_updateKey fun x h => (hg x).trans h

/-- The producer check of an ungrouped entry as a whole next state (R95). -/
theorem checkProducer_eq (keys : KeysDistinct s) (he : s.sub tag = some e) (src : Nat) :
    s.checkProducer tag src e =
      { s with
        st :=
          updateKey SubEntry.tag tag
            (fun x =>
              { x with
                producer := some src
                filter := if changedNotice tag src e.producer = [] then x.filter else none })
            s.st
        nq := posted s (changedNotice tag src e.producer) } := by
  unfold State.checkProducer
  cases hp : e.producer with
  | none => rfl
  | some p =>
    by_cases h : p = src
    · have same : updateKey SubEntry.tag tag (fun x => { x with producer := some src }) s.st = s.st := by
        rw [updateKey_congr (g := id) keys.sub_tags he (by rw [← h, ← hp]; rfl), updateKey_id]
      simp only [changedNotice, h, if_true, same]
      rfl
    · simp only [changedNotice, h, if_false, emit_eq]
      rfl

/-- A VALUE frame of a subscribed tag, which is not published, is handed to ST alone (R93, R85). -/
theorem exec_value {bid : Word} {epoch : Byte} {g : Word} {group count : Byte} {data : List Byte}
    (good : HearsGood bid (.value epoch tag g group count data) s) (keys : KeysDistinct s) (roster : RosterSafe s)
    (he : (entered bid (.value epoch tag g group count data) s).sub tag = some e) :
    exec (.valueFrameReceived bid epoch tag g group count data) s =
      .next
        ((entered bid (.value epoch tag g group count data) s).valueData (bidSource bid) epoch tag g group count
          data) := by
  refine (exec_frame keys roster good).trans (congrArg Host.Outcome.next ?_)
  refine congrArg (State.valueData (bidSource bid) epoch tag g group count data) (weighAll_none fun t ht => ?_)
  rw [List.mem_singleton.1 ht]
  cases hp : (entered bid (.value epoch tag g group count data) s).pub tag with
  | none => rfl
  | some p => rw [(keysDistinct_entered keys roster good).sub_none hp] at he; cases he

end Taken

/-- Settles O39. -/
theorem ungroupedValueIsTaken : Obligations.UngroupedValueIsTaken := by
  intro bid epoch tag g group count data s e good keys roster r src he put start filter changed fresh run
  have keys' : KeysDistinct r := keysDistinct_entered keys roster good
  have clock : r.sc.clock = s.sc.clock := congrArg StationControl.clock (kept_entered keys roster good.2.1).sc
  have taken : run = .next (r.valueData src epoch tag g group count data) := exec_value good keys roster he
  have ungrouped (hg : e.group = none) (hl : data.length = e.len) :
      r.valueData src epoch tag g group count data = r.ungroupedValue tag src g data e := by
    simp only [State.valueData, he, hg, hl, ne_eq, not_true, if_false]
  have known (h : Word) (hf : filter = some h) : e.producer = some src ∧ e.filter = some h := by
    by_cases hp : e.producer = some src
    · exact ⟨hp, (if_pos hp).symm.trans hf⟩
    · exact nomatch (if_neg hp).symm.trans hf
  have checked (h : Word) (hf : filter = some h) : r.checkProducer tag src e = r := by
    unfold State.checkProducer
    rw [(known h hf).1]
    exact if_pos rfl
  have changed_eq : changed = changedNotice tag src e.producer := by
    simp only [changed]
    cases e.producer <;> rfl
  rw [taken]
  refine ⟨fun hl => ?_, fun hg hl hf => ?_, fun hg hl hf => ?_, fun h hg hl hf late => ?_⟩
  · refine congrArg Host.Outcome.next ?_
    simp only [State.valueData, he]
    rw [if_pos hl, State.rejectValue, emit_eq]
    rfl
  · have newer : againstRef g filter = .newer := againstRef_newer hf
    rw [ungrouped hg hl, State.ungroupedValue, checkProducer_eq keys' he, newer, changed_eq]
    simp only [State.acceptNewer, emit_eq, emitFresh_eq, State.setSub, clock]
    rw [setSub_setSub _ _ (by exact fun _ => rfl), posted_append, posted_append]
    rfl
  · have equal : againstRef g filter = .equal := by
      rw [hf]
      exact compareGen_self g
    rw [ungrouped hg hl, State.ungroupedValue, checked g hf, equal]
    simp only [State.acceptEqual, emitFresh_eq, State.setSub, clock]
    rfl
  · have older : againstRef g filter = .late := by
      rw [hf]
      exact compareGen_late late
    rw [ungrouped hg hl, State.ungroupedValue, checked h hf, older]
    rfl

end Sys2Proof.Machine
end

section
/-! SUPPORT. A member's VALUE frame at Group Assembly (R110 to R115). -/

namespace Sys2Proof.Machine

/-- The station while a frame of a member is handled: the member's entry changed, one record in the group's place, and
the notices of the event so far. -/
def atMember (s : State) (tag : Word) (f : SubEntry → SubEntry) (k : Nat) (q : GroupRecord)
    (notes : List (NoticeKind × Word × Word)) : State :=
  { s with
    st := updateKey SubEntry.tag tag f s.st
    ga := updateKey GroupRecord.index k (fun _ => q) s.ga
    nq := posted s notes }

/-- A change of a member's entry in its place: the tag and the group stay. -/
def InPlace (f : SubEntry → SubEntry) : Prop := ∀ x, (f x).tag = x.tag ∧ (f x).group = x.group

section AtMember
variable {s : State} {tag : Word} {f : SubEntry → SubEntry} {k : Nat} {q : GroupRecord}
  {notes : List (NoticeKind × Word × Word)}

theorem atMember_setSub (hf : InPlace f) (g : SubEntry → SubEntry) :
    (atMember s tag f k q notes).setSub tag g = atMember s tag (fun x => g (f x)) k q notes := by
  unfold atMember State.setSub
  rw [updateKey_updateKey fun x h => (hf x).1.trans h]

theorem atMember_setGrp (hq : q.index = k) (g : GroupRecord → GroupRecord) :
    (atMember s tag f k q notes).setGrp k g = atMember s tag f k (g q) notes := by
  unfold atMember State.setGrp
  rw [updateKey_updateKey fun _ _ => hq]

theorem atMember_posted (more : List (NoticeKind × Word × Word)) :
    ({ atMember s tag f k q notes with nq := posted (atMember s tag f k q notes) more } : State) =
      atMember s tag f k q (notes ++ more) := by
  unfold atMember
  rw [posted_append]
  rfl

theorem atMember_emit (kind : NoticeKind) (a b : Word) :
    (atMember s tag f k q notes).emit kind a b = atMember s tag f k q (notes ++ [(kind, a, b)]) :=
  (emit_eq ..).trans (atMember_posted _)

theorem atMember_grp {r : GroupRecord} (hr : s.grp k = some r) (hq : q.index = k) :
    (atMember s tag f k q notes).grp k = some q :=
  (lookupKey_updateKey fun _ _ => hq).trans (congrArg (Option.map fun _ => q) hr)

/-- A member's change in its place leaves the members' tags, and so their number and positions (R107). -/
theorem atMember_members (hf : InPlace f) (j : Nat) :
    ((atMember s tag f k q notes).members j).map SubEntry.tag = (s.members j).map SubEntry.tag := by
  unfold atMember State.members updateKey
  rw [List.filter_map, List.map_map]
  have groups : ((fun e : SubEntry => decide (e.group = some j)) ∘ fun x => if x.tag = tag then f x else x) =
      fun e => decide (e.group = some j) := by
    funext x
    simp only [Function.comp]
    split
    · rw [(hf x).2]
    · rfl
  rw [groups]
  refine List.map_congr_left fun x _ => ?_
  simp only [Function.comp]
  split
  · exact (hf x).1
  · rfl

theorem findIdx_tags {l m : List SubEntry} (h : l.map SubEntry.tag = m.map SubEntry.tag) (t : Word) :
    l.findIdx (fun e => e.tag = t) = m.findIdx (fun e => e.tag = t) := by
  have tags (l : List SubEntry) : l.findIdx (fun e => e.tag = t) = (l.map SubEntry.tag).findIdx (fun x => x = t) := by
    rw [List.findIdx_map]
    rfl
  rw [tags, tags, h]

theorem atMember_position (hf : InPlace f) :
    (atMember s tag f k q notes).memberPosition k tag = s.memberPosition k tag :=
  findIdx_tags (atMember_members hf k) tag

/-- A fresh assembly has no member arrived (R113). -/
theorem atMember_newAssembly (hf : InPlace f) (g : Word) (src : Nat) (epoch : Byte) (limit : Nat) :
    (atMember s tag f k q notes).newAssembly k g src epoch limit =
      ⟨g, src, epoch, (s.members k).map (fun _ => false), false, limit⟩ := by
  have lengths := congrArg List.length (atMember_members (s := s) (q := q) (notes := notes) (tag := tag) (k := k) hf k)
  rw [List.length_map, List.length_map] at lengths
  rw [State.newAssembly, lengths, List.map_const']

theorem atMember_tear (hq : q.index = k) (reason : TearReason) (a : Assembly) :
    (atMember s tag f k q notes).tear k reason a =
      atMember s tag f k
        { q with
          assembly := none, torn := bump 65535 q.torn
          completed := if tearClears reason then none else q.completed }
        (notes ++
          [(.groupTorn, BitVec.ofNat 16 k, BitVec.ofNat 16 (tearCode reason * 256 + a.arrived.count true))]) := by
  rw [State.tear, atMember_setGrp hq, atMember_emit]
  rfl

theorem atMember_takeMember (hf : InPlace f) (src : Nat) (before : SubState) :
    (atMember s tag f k q notes).takeMember tag src before =
      atMember s tag (fun x => takeFrame s.sc.clock (f x)) k q (notes ++ freshNotice tag src before) := by
  rw [State.takeMember, emitFresh_eq, atMember_setSub hf, atMember_posted]
  rfl

/-- The member's entry once its data has landed and its frame is taken (R113). -/
def landedEntry (clock : Clock) (data : List Byte) (x : SubEntry) : SubEntry :=
  takeFrame clock { x with landing := data }

variable {r : GroupRecord}

/-- A member's data lands, and the group completes or waits for more (R113, R115). -/
theorem atMember_land (hr : s.grp k = some r) (hq : q.index = k) (hf : InPlace f) (src : Nat) (data : List Byte)
    (before : SubState) (a : Assembly) {arrived : List Bool}
    (ha : a.arrived.set (s.memberPosition k tag) true = arrived) :
    (atMember s tag f k q notes).land k tag src data before a =
      let q1 : GroupRecord := { q with assembly := some { a with arrived := arrived } }
      let t := atMember s tag (fun x => landedEntry s.sc.clock data (f x)) k q1 (notes ++ freshNotice tag src before)
      if arrived.all id then t.completeAssembly k a.gen q1 else t := by
  have landing : InPlace (fun x => { f x with landing := data }) := hf
  unfold State.land
  rw [atMember_position hf, ha, atMember_setSub hf]
  dsimp only
  rw [atMember_setGrp hq, atMember_takeMember landing, atMember_grp hr (by exact hq)]
  rfl

/-- A completion while the group is free shows every member (R108, R115). -/
theorem atMember_shown (hq : q.index = k) (free : q.held = false) (g : Word) :
    (atMember s tag f k q notes).completeAssembly k g q =
      { s with
        st :=
          (updateKey SubEntry.tag tag f s.st).map (fun x =>
            if x.group = some k then { x with shown := x.landing, landing := x.shown } else x)
        ga :=
          updateKey GroupRecord.index k
            (fun _ => { q with assembly := none, shownGen := some g, completed := some g }) s.ga
        nq := posted s (notes ++ [(.groupUpdated, BitVec.ofNat 16 k, g)]) } := by
  unfold State.completeAssembly atMember State.setMembers State.setGrp
  rw [if_neg (by simp [free]), emit_eq, updateKey_updateKey fun _ _ => hq, posted_append]
  rfl

/-- A completion while the group is held makes every member ready (R108, R115). -/
theorem atMember_ready (hq : q.index = k) (held : q.held = true) (g : Word) :
    (atMember s tag f k q notes).completeAssembly k g q =
      { s with
        st :=
          (updateKey SubEntry.tag tag f s.st).map (fun x =>
            if x.group = some k then { x with ready := x.landing, landing := x.ready } else x)
        ga :=
          updateKey GroupRecord.index k
            (fun _ =>
              { q with
                assembly := none, skipped := if q.ready.isSome then bump 65535 q.skipped else q.skipped
                ready := some g, completed := some g }) s.ga
        nq := posted s notes } := by
  unfold State.completeAssembly atMember State.setMembers State.setGrp
  rw [if_pos held]
  dsimp only
  rw [updateKey_updateKey fun _ _ => hq]
  rfl

/-! The producer checks (R111). -/

/-- A record in its own place changes nothing. -/
theorem updateKey_self {α κ : Type} [DecidableEq κ] {key : α → κ} {j : κ} {a : α} {l : List α}
    (distinct : (l.map key).Nodup) (ha : lookupKey key j l = some a) : updateKey key j (fun _ => a) l = l := by
  rw [updateKey_congr (g := id) distinct ha (by rfl), updateKey_id]

/-- Step 1 of R111: another producer makes the completed generation absent. -/
theorem checkMemberProducer_eq (keys : KeysDistinct s) (hr : s.grp k = some r) {e : SubEntry} (he : s.sub tag = some e)
    (src : Nat) :
    s.checkMemberProducer k tag src e =
      atMember s tag (fun x => { x with producer := some src }) k
        { r with completed := if changedNotice tag src e.producer = [] then r.completed else none }
        (changedNotice tag src e.producer) := by
  have same : updateKey GroupRecord.index k (fun _ => r) s.ga = s.ga := updateKey_self keys.2 hr
  unfold State.checkMemberProducer
  cases hp : e.producer with
  | none =>
    simp only [changedNotice, if_true, atMember, same]
    rfl
  | some p =>
    by_cases h : p = src
    · have kept : updateKey SubEntry.tag tag (fun x => { x with producer := some src }) s.st = s.st := by
        rw [updateKey_congr (g := id) keys.sub_tags he (by rw [← h, ← hp]; rfl), updateKey_id]
      simp only [changedNotice, h, if_true, atMember, same, kept]
      rfl
    · have cleared : updateKey GroupRecord.index k (fun x => { x with completed := none }) s.ga =
          updateKey GroupRecord.index k (fun _ => { r with completed := none }) s.ga :=
        updateKey_congr keys.2 hr rfl
      simp only [changedNotice, h, if_false, atMember, emit_eq, State.setSub, State.setGrp, cleared]
      rfl

/-- The record after step 2 of R111: an assembly from another producer is torn. -/
def tornForeign (src : Nat) (q : GroupRecord) : GroupRecord :=
  let foreign : Bool := q.assembly.any (fun a => a.producer ≠ src)
  { q with
    assembly := if foreign then none else q.assembly
    completed := if foreign then none else q.completed
    torn := if foreign then bump 65535 q.torn else q.torn }

/-- The notice of that tear (R116). -/
def foreignNotice (src : Nat) (q : GroupRecord) : List (NoticeKind × Word × Word) :=
  if q.assembly.any (fun a => a.producer ≠ src) then
    (q.assembly.map (fun a =>
      (NoticeKind.groupTorn, BitVec.ofNat 16 q.index, BitVec.ofNat 16 (3 * 256 + a.arrived.count true)))).toList
  else []

theorem atMember_checkAssemblyProducer (hr : s.grp k = some r) (hq : q.index = k) (src : Nat) :
    (atMember s tag f k q notes).checkAssemblyProducer k src =
      atMember s tag f k (tornForeign src q) (notes ++ foreignNotice src q) := by
  unfold State.checkAssemblyProducer
  rw [atMember_grp hr hq]
  dsimp only
  by_cases hf : q.assembly.any (fun a => a.producer ≠ src) = true
  · cases ha : q.assembly with
    | none => rw [ha] at hf; cases hf
    | some a =>
      have other : ¬a.producer = src := by simpa [ha] using hf
      simp [other, atMember_tear hq, tornForeign, foreignNotice, ha, hq, tearClears, tearCode]
  · have same : tornForeign src q = q ∧ foreignNotice src q = [] := by
      simp only [tornForeign, foreignNotice, hf, Bool.false_eq_true, if_false, and_self]
    rw [same.1, same.2, List.append_nil]
    cases ha : q.assembly with
    | none => rfl
    | some a => exact if_pos (by simpa [ha] using hf)

/-! The completed check and the assembly step (R112 to R114). -/

theorem atMember_countLate (hf : InPlace f) :
    (atMember s tag f k q notes).countLate tag =
      atMember s tag (fun x => { f x with late := bump 65535 (f x).late }) k q notes := atMember_setSub hf _

section Steps
variable {src : Nat} {epoch : Byte} {g : Word} {data : List Byte} {before : SubState}

theorem atMember_late (hr : s.grp k = some r) (hq : q.index = k) (hf : InPlace f)
    (h : againstRef g q.completed = .late ∨
      againstRef g q.completed = .newer ∧ ∃ a, q.assembly = some a ∧ compareGen g a.gen = .late) :
    (atMember s tag f k q notes).completedCheck k tag src epoch g data before =
      atMember s tag (fun x => { f x with late := bump 65535 (f x).late }) k q notes := by
  rw [← atMember_countLate hf, State.completedCheck, atMember_grp hr hq]
  rcases h with h | ⟨h, a, ha, hlate⟩
  · simp only [h]
  · simp only [h, State.assemble, ha, hlate]

theorem atMember_equal (hr : s.grp k = some r) (hq : q.index = k) (hf : InPlace f) (h : q.completed = some g) :
    (atMember s tag f k q notes).completedCheck k tag src epoch g data before =
      atMember s tag (fun x => takeFrame s.sc.clock (f x)) k q (notes ++ freshNotice tag src before) := by
  rw [← atMember_takeMember hf, State.completedCheck, atMember_grp hr hq]
  simp only [h, againstRef, compareGen_self]

/-- The assembly a member's frame lands in: a fresh one, the one of its generation, or a fresh one after the tear of an
older one (R113, R114). -/
theorem atMember_newer (hr : s.grp k = some r) (hq : q.index = k) (hf : InPlace f)
    (h : againstRef g q.completed = .newer) {a : Assembly} {tears : Nat} {more : List (NoticeKind × Word × Word)}
    (lands :
      (q.assembly = none ∧ a = ⟨g, src, epoch, (s.members k).map (fun _ => false), false, q.limit⟩ ∧ tears = q.torn ∧
          more = []) ∨
        (q.assembly = some a ∧ a.gen = g ∧ tears = q.torn ∧ more = []) ∨
        ∃ b, q.assembly = some b ∧ compareGen g b.gen = .newer ∧
          a = ⟨g, src, epoch, (s.members k).map (fun _ => false), false, q.limit⟩ ∧ tears = bump 65535 q.torn ∧
            more =
              [(.groupTorn, BitVec.ofNat 16 k, BitVec.ofNat 16 (1 * 256 + b.arrived.count true))]) :
    a.gen = g ∧
      ∃ x, (atMember s tag f k q notes).completedCheck k tag src epoch g data before =
        (atMember s tag f k { q with assembly := x, torn := tears } (notes ++ more)).land k tag src data before a := by
  rw [State.completedCheck, atMember_grp hr hq]
  simp only [h]
  rcases lands with ⟨ha, rfl, rfl, rfl⟩ | ⟨ha, rfl, rfl, rfl⟩ | ⟨b, ha, older, rfl, rfl, rfl⟩
  · refine ⟨rfl, q.assembly, ?_⟩
    simp only [State.assemble, ha, atMember_newAssembly hf, List.append_nil]
    rw [← ha]
  · refine ⟨rfl, q.assembly, ?_⟩
    simp only [State.assemble, ha, compareGen_self, List.append_nil]
    rw [← ha]
  · refine ⟨rfl, none, ?_⟩
    simp only [State.assemble, ha, older, atMember_newAssembly hf, atMember_tear hq]
    rfl

end Steps

end AtMember

theorem absent_if {α β : Type} (b : Bool) (l : List α) [Decidable (l = [])] (c : Option β)
    [Decidable (b = true ∨ l ≠ [])] :
    (if b then none else if l = [] then c else none) = if b = true ∨ l ≠ [] then none else c := by
  cases b <;> by_cases h : l = [] <;> simp [h]

/-- Settles O40: the checks of R111, then the completed check and the assembly step on what they leave. -/
theorem memberValueLandsAndCompletes : Obligations.MemberValueLandsAndCompletes := by
  intro bid epoch tag g group count data s e k q good keys roster r src he hk hq hl start newer late run matching torn
    changed foreign checked notes fresh put taken record landed arrived blank
  have keys' : KeysDistinct r := keysDistinct_entered keys roster good
  have clock : r.sc.clock = s.sc.clock := congrArg StationControl.clock (kept_entered keys roster good.2.1).sc
  have index : q.index = k := (lookupKey_some hq).2
  have inPlace : InPlace (fun x => { x with producer := some src }) := fun _ => ⟨rfl, rfl⟩
  have member : run = .next (r.memberValue k tag src epoch g group count data e) := by
    refine (exec_value good keys roster he).trans (congrArg Host.Outcome.next ?_)
    show r.valueData src epoch tag g group count data = _
    simp only [State.valueData, he, hk, hl, ne_eq, not_true, if_false]
  have changed_eq : changed = changedNotice tag src e.producer := by
    simp only [changed]
    cases e.producer <;> rfl
  have checks : (r.checkMemberProducer k tag src e).checkAssemblyProducer k src =
      atMember r tag (fun x => { x with producer := some src }) k checked notes := by
    rw [checkMemberProducer_eq keys' hq he, atMember_checkAssemblyProducer hq (by exact index), ← changed_eq]
    have record_eq : tornForeign src { q with completed := if changed = [] then q.completed else none } = checked :=
      congrArg (fun c => { checked with completed := c }) (absent_if foreign changed q.completed)
    have notes_eq : changed ++ foreignNotice src { q with completed := if changed = [] then q.completed else none } =
        notes := by
      simp only [notes, foreignNotice, foreign, torn, index]
    rw [record_eq, notes_eq]
  have matches_iff : r.groupMatches k q group count = true ↔ matching := by
    simp [State.groupMatches, matching]
  refine ⟨fun h => ?_, fun h => ?_⟩
  · rw [member, State.memberValue, hq]
    refine congrArg Host.Outcome.next ((if_neg fun g => h (matches_iff.1 g)).trans ?_)
    exact emit_eq ..
  · have checkedRun : run = .next
        ((atMember r tag (fun x => { x with producer := some src }) k checked notes).completedCheck k tag src epoch g
          data e.state) := by
      rw [member, State.memberValue, hq]
      exact congrArg Host.Outcome.next ((if_pos (matches_iff.2 h)).trans (by rw [checks]))
    rw [checkedRun]
    refine ⟨fun x hx => ?_, fun hc => ?_, fun hnewer a tears more found => ?_⟩
    · refine congrArg Host.Outcome.next (atMember_late (q := checked) hq index inPlace ?_)
      rcases hx with ⟨hc, hlate⟩ | ⟨a, ha, rfl, hlate, hnewer⟩
      · exact .inl (hc ▸ compareGen_late hlate)
      · exact .inr ⟨againstRef_newer hnewer, a, ha, compareGen_late hlate⟩
    · refine congrArg Host.Outcome.next ((atMember_equal (q := checked) hq index inPlace hc).trans ?_)
      rw [clock]
      rfl
    · obtain ⟨gen, x, lands⟩ := atMember_newer (q := checked) (notes := notes) (data := data) (before := e.state)
        (tag := tag) hq index inPlace (againstRef_newer hnewer)
        (found.imp id (Or.imp id fun ⟨b, ha, ⟨low, high⟩, rest⟩ => ⟨b, ha, compareGen_newer low high, rest⟩))
      rw [lands, atMember_land hq (by exact index) inPlace src data e.state a rfl, gen, clock]
      dsimp only
      refine ⟨fun ⟨b, hb, missing⟩ => ?_, fun whole free => ?_, fun whole held => ?_⟩
      · refine congrArg Host.Outcome.next ((if_neg fun all => ?_).trans ?_)
        · have := List.all_eq_true.1 all b hb
          rw [missing] at this
          cases this
        · rfl
      · refine congrArg Host.Outcome.next ((if_pos (List.all_eq_true.2 whole)).trans ?_)
        exact atMember_shown (by exact index) (by exact free) g
      · refine congrArg Host.Outcome.next ((if_pos (List.all_eq_true.2 whole)).trans ?_)
        exact atMember_ready (by exact index) (by exact held) g

end Sys2Proof.Machine
end
